-- ==== Sys2Proof/Word.lean ====
section
/-! DEFINITION. The word types of the CORE: every register and every host access is 32 bits wide (10_state.md R30,
20_memory.md R108), a stream element is 8 bits wide (20_memory.md R106). -/

namespace Sys2Proof

/-- One element of a byte memory, one byte of the stream. -/
abbrev Byte := BitVec 8

/-- One host word, one register, one pixel or palette element, one command word. -/
abbrev Word := BitVec 32

end Sys2Proof
end

