-- ==== Sys2Proof/Config.lean ====
section
/-! DEFINITION. What an implementation fixes (the parameters of 00_scope.md R9), the constants the source fixes
(00_scope.md R8), and the free values: constants without a body, of which nothing can be proved. -/

namespace Sys2Proof

/-- The parameters of 00_scope.md R9, which "a model takes as an argument". They stand in `State.params`, so that
every rule reads the parameter and none the default (log 2). -/
structure Params where
  /-- PIX_WORDS: elements of PIX and of IDX. -/
  pixWords : Nat
  /-- BUF_BYTES: elements of BUF. -/
  bufBytes : Nat
  /-- OUT_CAP: elements of OUT. -/
  outCap : Nat
  /-- SQRT_THRESHOLD, the bits of a binary64 value (42_quantizer.md R252). -/
  sqrtThreshold : BitVec 64
  /-- NN_WEIGHT_PRUNE (42_quantizer.md R255). -/
  nnWeightPrune : Bool
  /-- NN_USE_ALPHA (42_quantizer.md R255). -/
  nnUseAlpha : Bool
  /-- LZW_HSIZE, which no rule's result depends on (41_lzw.md R212; log 16). -/
  lzwHsize : Nat
deriving DecidableEq, Repr

/-- The defaults of 00_scope.md R9. 0x3F96872B020C49BA is the binary64 value nearest 0.022. -/
def Params.default : Params where
  pixWords := 1048576
  bufBytes := 4096
  outCap := 16777216
  sqrtThreshold := 0x3F96872B020C49BA#64
  nnWeightPrune := false
  nnUseAlpha := true
  lzwHsize := 5003

/-- MAX_PALETTE of 00_scope.md R8. -/
def maxPalette : Nat := 256

/-- CODE_LIMIT of 00_scope.md R8: the codes of the 12-bit code space. -/
def codeLimit : Nat := 4096

/-- MAX_CODE_BITS of 00_scope.md R8. -/
def maxCodeBits : Nat := 12

/-- SUBBLOCK_MAX of 00_scope.md R8. -/
def subblockMax : Nat := 254

/-- The floor of the LZW minimum code size, 00_scope.md R8. -/
def minCodeSizeFloor : Nat := 2

/-- TRAILER of 00_scope.md R8. -/
def trailerByte : Byte := 0x3B#8

/-- FREE VALUE. The byte a host read is answered with where the spec says it is unspecified (20_memory.md R106, R112,
R113; 93_implementation_defined.md U1, U2). `Config.freeByte d a` is the byte at bus address `a` under the counter
value `d` (`State.draws`). It has no body: nothing can be proved of it (log 6). -/
opaque Config.freeByte : Nat → Nat → Byte

end Sys2Proof
end

