-- ==== Sys2Proof/Machine/State.lean ====
section
/-! DEFINITION. The state of the CORE as plain data: every register, flag, memory and persistent internal array the
spec names (10_state.md, 20_memory.md), the parameters (00_scope.md R9), and three fields of the model's own
(`schedule`, `rdata`, `draws`). The transient arrays of 10_state.md R61 to R65 live inside one command and are data
types of that command's file (R59; log 10). -/

namespace Sys2Proof.Machine

/-- The multiplexer state, STATUS.GSTATE (10_state.md R34); its encodings are in Machine/Flags.lean. -/
inductive GState where
  /-- Uninitialized, encoding 0. -/
  | uninit
  /-- HeaderWritten, or "stream open" in manual mode, encoding 1. -/
  | header
  /-- Finalized, encoding 2. -/
  | final
deriving DecidableEq, Repr

/-- The packing format, HIST_FMT and the FMT fields (10_state.md R49, 42_quantizer.md R240). -/
inductive Format where
  /-- 0: 16-bit keys of 5, 6 and 5 bits. -/
  | rgb565
  /-- 1: 12-bit keys of 4 bits a channel. -/
  | rgb444
  /-- 2: 16-bit keys of 4 bits a channel, alpha among them. -/
  | rgba4444
deriving DecidableEq, Repr

/-- The error codes of 60_exceptions.md R400; the numbers are in Machine/Flags.lean. -/
inductive ErrCode where
  /-- 0x00, no error recorded. -/
  | none
  /-- 0x01 E_ILLEGAL_CMD. -/
  | illegalCmd
  /-- 0x02 E_ARG. -/
  | arg
  /-- 0x03 E_STATE. -/
  | state
  /-- 0x04 E_NO_PALETTE. -/
  | noPalette
  /-- 0x05 E_PALETTE_SIZE. -/
  | paletteSize
  /-- 0x06 E_LENGTH. -/
  | length
  /-- 0x07 E_BOUNDS. -/
  | bounds
  /-- 0x08 E_INDEX_RANGE. -/
  | indexRange
  /-- 0x09 E_EMPTY_HIST. -/
  | emptyHist
  /-- 0x0A E_STREAM_FULL. -/
  | streamFull
deriving DecidableEq, Repr

/-- QCFG, the clear-alpha options (10_state.md R46). -/
structure QCfg where
  caEn : Bool
  caThr : BitVec 8
  caCol : BitVec 8
deriving DecidableEq, Repr

/-- FR_FLAGS, the per-frame options (10_state.md R52). -/
structure FrFlags where
  transpEn : Bool
  first : Bool
  hasPal : Bool
  loopEn : Bool
  dispEn : Bool
  disp : BitVec 3
  transpIdx : BitVec 8
deriving DecidableEq, Repr

/-- One histogram bin: a pixel count and channel sums (10_state.md R60). -/
structure Bin where
  cnt : BitVec 32
  rsum : BitVec 40
  gsum : BitVec 40
  bsum : BitVec 40
  asum : BitVec 40
deriving DecidableEq, Repr

/-- A bin as Q.CLR and reset leave it: every field 0. -/
def Bin.zero : Bin := ⟨0, 0, 0, 0, 0⟩

/-- The histogram H: the bins that are not `Bin.zero`, keyed by the bin's key, keys rising. A key that is not listed has
the bin `Bin.zero`, its value after reset (70_reset_and_hazards.md R440). -/
abbrev Histogram := List (Nat × Bin)

/-- The canonical form of the histogram: keys strictly rising, none above 65535 (10_state.md R60), no zero bin listed. -/
abbrev Histogram.wf (h : Histogram) : Prop :=
  h.Pairwise (fun c d => c.1 < d.1) ∧ ∀ c ∈ h, c.1 < 65536 ∧ c.2 ≠ Bin.zero

/-- The five memories of 20_memory.md as one list of (host byte address, byte) cells. -/
abbrev Memory := List Host.Cell

/-- What an address that is not listed holds: no value (20_memory.md R113; log 3). -/
def unlistedByte : Option Byte := none

/-- The canonical form of memory: addresses strictly rising. No entry can equal what an unlisted address holds, since
that is no value. -/
abbrev Memory.wf (m : Memory) : Prop := m.Pairwise (fun c d => c.1 < d.1)

/-- The memories a command names, `space` of 20_memory.md R104. -/
inductive Space where
  /-- the palette memory, R103 -/
  | pal
  /-- the byte-source memory, R105 -/
  | buf
  /-- the pixel memory, R101 -/
  | pix
  /-- the index memory, R102 -/
  | idx
  /-- the output memory, R106 -/
  | out
deriving DecidableEq, Repr

/-- How many bytes a host access moves; only aligned words are supported (20_memory.md R108). -/
inductive AccessSize where
  | byte
  | half
  | word
deriving DecidableEq, Repr

/-- One interaction of the host (70_reset_and_hazards.md R470). -/
inductive HostOp where
  /-- A read of the bus address `addr`. -/
  | read (addr : Word) (size : AccessSize)
  /-- A write of `v` to the bus address `addr`. -/
  | write (addr : Word) (size : AccessSize) (v : Word)
  /-- Assertion of the reset input (70_reset_and_hazards.md R440). -/
  | reset
deriving DecidableEq, Repr

/-- Who moves next (log 1). -/
inductive Event where
  /-- The host makes one access, whether the core is busy or not. -/
  | access (op : HostOp)
  /-- The core performs the latched command; nothing happens if it is idle. -/
  | core
  /-- The host reads STATUS until BUSY is 0 (30_encoding.md R156; log 22). -/
  | poll
deriving DecidableEq, Repr

/-- The state of the machine. -/
structure State where
  /-- The parameters of 00_scope.md R9, changed by nothing (log 2). -/
  params : Params
  /-- CMDL, the command latch (10_state.md R57). -/
  cmdl : Word
  /-- STATUS.BUSY (10_state.md R33). -/
  busy : Bool
  /-- STATUS.HAZ (10_state.md R36). -/
  haz : Bool
  /-- STATUS.GSTATE (10_state.md R34). -/
  gstate : GState
  /-- STATUS.ERR (10_state.md R35). -/
  err : ErrCode
  /-- STATUS.ERR_OP (10_state.md R35). -/
  errOp : BitVec 8
  /-- MODE.AUTO (10_state.md R37). -/
  modeAuto : Bool
  /-- SRC (10_state.md R38). -/
  src : Word
  /-- DST (10_state.md R39). -/
  dst : Word
  /-- COUNT (10_state.md R40). -/
  count : Word
  /-- BUF_ADDR (10_state.md R41). -/
  bufAddr : Word
  /-- CURSOR, the stream length (10_state.md R42). -/
  cursor : Word
  /-- PAL_LEN.LEN (10_state.md R44). -/
  palLen : BitVec 9
  /-- GPAL_LEN.LEN (10_state.md R45). -/
  gpalLen : BitVec 9
  /-- QCFG (10_state.md R46). -/
  qcfg : QCfg
  /-- HIST_BINS.N (10_state.md R47). -/
  histBins : BitVec 17
  /-- HIST_PIXELS (10_state.md R48). -/
  histPixels : Word
  /-- HIST_FMT.FMT (10_state.md R49). -/
  histFmt : Format
  /-- FR_SIZE.WIDTH (10_state.md R50). -/
  frWidth : BitVec 16
  /-- FR_SIZE.HEIGHT (10_state.md R50). -/
  frHeight : BitVec 16
  /-- FR_TIME.DELAY (10_state.md R51). -/
  frDelay : BitVec 16
  /-- FR_TIME.LOOP (10_state.md R51). -/
  frLoop : BitVec 16
  /-- FR_FLAGS (10_state.md R52). -/
  frFlags : FrFlags
  /-- The histogram H (10_state.md R60). -/
  hist : Histogram
  /-- PAL, BUF, PIX, IDX and OUT (20_memory.md R100 to R106). -/
  mem : Memory
  /-- The model's own: the host's accesses still to come, and whose turn it is (log 1). -/
  schedule : List Event
  /-- The model's own: the word the host's last read was answered with (log 21). -/
  rdata : Word
  /-- The model's own: the counter that selects the free values of host reads (log 6). -/
  draws : Nat
deriving DecidableEq, Repr

/-- Why the machine stops. -/
inductive Fault where
  /-- Raised by BS.WBS, L.ENC, Q.ACC, M.MAP and G.FRM when they read an element that nothing has written since reset
  (20_memory.md R113, 93_implementation_defined.md U4). SAFE: the hardware goes on with whatever the element holds. -/
  | unwrittenElement (space : Space) (element : Nat)
deriving DecidableEq, Repr

/-- Why the model has no answer. -/
inductive Refusal where
  /-- An instruction without a meaning. No arm answers it: every instruction has its meaning. SAFE. -/
  | notModelled (mnemonic : String)
  /-- A host access to an address outside every window, which 20_memory.md R100 says a model refuses. SAFE: the hardware
  answers 0 or ignores the write. -/
  | unmappedAddress (addr : Word)
  /-- A host access to an unassigned offset of the register window, which 10_state.md R54 says a model refuses. SAFE: the
  hardware answers 0 or ignores the write. -/
  | unassignedRegister (addr : Word)
  /-- A misaligned or sub-word host access, which 20_memory.md R108 says a model refuses. SAFE: the hardware answers 0 or
  ignores the write. -/
  | unsupportedAccess (addr : Word)
deriving DecidableEq, Repr

/-- The state after hardware reset with the parameters `p` (70_reset_and_hazards.md R440). CMDL is unspecified there:
DESIGN CHOICE 0 (log 4). The model's own fields: DESIGN CHOICE (log 21). -/
def State.resetWith (p : Params) : State where
  params := p
  cmdl := 0
  busy := false
  haz := false
  gstate := .uninit
  err := .none
  errOp := 0
  modeAuto := true
  src := 0
  dst := 0
  count := 0
  bufAddr := 0
  cursor := 0
  palLen := 0
  gpalLen := 0
  qcfg := ⟨true, 0, 0⟩
  histBins := 0
  histPixels := 0
  histFmt := .rgb565
  frWidth := 0
  frHeight := 0
  frDelay := 0
  frLoop := 0
  frFlags := ⟨false, false, false, true, false, 0, 0⟩
  hist := []
  mem := []
  schedule := []
  rdata := 0
  draws := 0

/-- The clean launch state of 70_reset_and_hazards.md R444, with the default parameters of 00_scope.md R9. -/
def State.reset : State := State.resetWith Params.default

end Sys2Proof.Machine
end

