-- ==== Sys2Proof/Machine/Flags.lean ====
section
/-! DEFINITION. The status flags (10_state.md R58) and the numbers of the coded fields: STATUS.GSTATE (R34), STATUS.ERR
(60_exceptions.md R400), HIST_FMT (10_state.md R49). -/

namespace Sys2Proof.Machine

/-- The encodings of 10_state.md R34. -/
def gstateCode : GState → BitVec 2
  | .uninit => 0
  | .header => 1
  | .final => 2

/-- The codes of 60_exceptions.md R400. -/
def errCode : ErrCode → BitVec 8
  | .none => 0x00
  | .illegalCmd => 0x01
  | .arg => 0x02
  | .state => 0x03
  | .noPalette => 0x04
  | .paletteSize => 0x05
  | .length => 0x06
  | .bounds => 0x07
  | .indexRange => 0x08
  | .emptyHist => 0x09
  | .streamFull => 0x0A

/-- The codes of 10_state.md R49. -/
def formatCode : Format → BitVec 2
  | .rgb565 => 0
  | .rgb444 => 1
  | .rgba4444 => 2

/-- STATUS as the host reads it: BUSY [0], HAZ [1], GSTATE [3:2], ERR [15:8], ERR_OP [23:16], the rest 0
(10_state.md R33 to R36). -/
def statusWord (s : State) : Word :=
  BitVec.cast rfl ((0 : BitVec 8) ++ s.errOp ++ errCode s.err ++ (0 : BitVec 4) ++ gstateCode s.gstate
    ++ BitVec.ofBool s.haz ++ BitVec.ofBool s.busy)

/-- A host write during BUSY: discarded, and recorded in STATUS.HAZ (10_state.md R36, 20_memory.md R112). -/
def flagHazard (s : State) : State := { s with haz := true, draws := s.draws + 1 }

end Sys2Proof.Machine
end

