-- ==== Sys2Proof/Syntax.lean ====
section
/-! DEFINITION. The syntax of the CORE's commands: one constructor per row of spec/opcode_table.json
(30_encoding.md R150), carrying the one immediate field its format has (R143). -/

namespace Sys2Proof

/-- A command. The fields are the raw fields of the word, zero-extended where they are used (30_encoding.md R144);
values a rule calls out of range (R145) are legal words that raise E_ARG when performed. -/
inductive Instr where
  /-- NOP, 45_system.md R380. -/
  | nop
  /-- SRST, 45_system.md R381. -/
  | srst
  /-- BS.WB imm8, 40_bytestream.md R182. -/
  | bsWb (imm8 : BitVec 8)
  /-- BS.WBS, 40_bytestream.md R183. -/
  | bsWbs
  /-- BS.RST, 40_bytestream.md R184. -/
  | bsRst
  /-- L.ENC d, 41_lzw.md R200. -/
  | lEnc (d : BitVec 4)
  /-- Q.CLR fmt, 42_quantizer.md R242. -/
  | qClr (fmt : BitVec 2)
  /-- Q.ACC, 42_quantizer.md R243. -/
  | qAcc
  /-- Q.RED ncol, 42_quantizer.md R250. -/
  | qRed (ncol : BitVec 9)
  /-- M.MAP fmt, 43_mapper.md R300. -/
  | mMap (fmt : BitVec 2)
  /-- G.HDR, 44_gif_mux.md R335. -/
  | gHdr
  /-- G.FRM, 44_gif_mux.md R340. -/
  | gFrm
  /-- G.FIN, 44_gif_mux.md R346. -/
  | gFin
deriving DecidableEq, Repr

end Sys2Proof
end

