-- ==== Sys2Proof/Decode.lean ====
section
/-! DEFINITION. Decoding a command word by the mask and match of 30_encoding.md R152, rejecting by name what no row
matches (R151), and the encoder of the same table (R143, R150). -/

namespace Sys2Proof

/-- Why a word is no command (30_encoding.md R151): both raise E_ILLEGAL_CMD. -/
inductive DecodeError where
  /-- Bits [31:24] are no opcode of 30_encoding.md R150. -/
  | reservedOpcode (op : BitVec 8)
  /-- The opcode is legal and a reserved bit of its format is set (30_encoding.md R143). -/
  | reservedBits (op : BitVec 8)
deriving DecidableEq, Repr

/-- OP = w[31:24] (30_encoding.md R142). -/
def opField (w : Word) : BitVec 8 := w.extractLsb' 24 8

/-- IMM8 = w[7:0] (30_encoding.md R143, format B). -/
def imm8Field (w : Word) : BitVec 8 := w.extractLsb' 0 8

/-- D = w[3:0] (30_encoding.md R143, format L). -/
def dField (w : Word) : BitVec 4 := w.extractLsb' 0 4

/-- FMT = w[1:0] (30_encoding.md R143, format F). -/
def fmtField (w : Word) : BitVec 2 := w.extractLsb' 0 2

/-- NCOL = w[8:0] (30_encoding.md R143, format Q). -/
def ncolField (w : Word) : BitVec 9 := w.extractLsb' 0 9

/-- The masks of 30_encoding.md R152: the opcode byte and the reserved bits of each format. -/
def maskN : Word := 0xFFFFFFFF#32
/-- Format B leaves IMM8 free. -/
def maskB : Word := 0xFFFFFF00#32
/-- Format L leaves D free. -/
def maskL : Word := 0xFFFFFFF0#32
/-- Format F leaves FMT free. -/
def maskF : Word := 0xFFFFFFFC#32
/-- Format Q leaves NCOL free. -/
def maskQ : Word := 0xFFFFFE00#32

/-- The opcode byte of each command (30_encoding.md R150). -/
def Instr.opcode : Instr → BitVec 8
  | .nop => 0x00#8
  | .srst => 0x01#8
  | .bsWb _ => 0x10#8
  | .bsWbs => 0x11#8
  | .bsRst => 0x12#8
  | .lEnc _ => 0x20#8
  | .qClr _ => 0x30#8
  | .qAcc => 0x31#8
  | .qRed _ => 0x32#8
  | .mMap _ => 0x40#8
  | .gHdr => 0x50#8
  | .gFrm => 0x51#8
  | .gFin => 0x52#8

/-- The opcode bytes of 30_encoding.md R150; every other value is reserved (R151). -/
def legalOpcodes : List (BitVec 8) :=
  [0x00#8, 0x01#8, 0x10#8, 0x11#8, 0x12#8, 0x20#8, 0x30#8, 0x31#8, 0x32#8, 0x40#8, 0x50#8, 0x51#8, 0x52#8]

/-- The name of the rejection of a word that no row of 30_encoding.md R150 matches. -/
def rejectWord (w : Word) : DecodeError :=
  if opField w ∈ legalOpcodes then .reservedBits (opField w) else .reservedOpcode (opField w)

/-- The decoder: the row with `(w & mask) == match` (30_encoding.md R152), or a rejection by name. -/
def decodeWord (w : Word) : Except DecodeError Instr :=
  if w &&& maskN = 0x00000000#32 then .ok .nop
  else if w &&& maskN = 0x01000000#32 then .ok .srst
  else if w &&& maskB = 0x10000000#32 then .ok (.bsWb (imm8Field w))
  else if w &&& maskN = 0x11000000#32 then .ok .bsWbs
  else if w &&& maskN = 0x12000000#32 then .ok .bsRst
  else if w &&& maskL = 0x20000000#32 then .ok (.lEnc (dField w))
  else if w &&& maskF = 0x30000000#32 then .ok (.qClr (fmtField w))
  else if w &&& maskN = 0x31000000#32 then .ok .qAcc
  else if w &&& maskQ = 0x32000000#32 then .ok (.qRed (ncolField w))
  else if w &&& maskF = 0x40000000#32 then .ok (.mMap (fmtField w))
  else if w &&& maskN = 0x50000000#32 then .ok .gHdr
  else if w &&& maskN = 0x51000000#32 then .ok .gFrm
  else if w &&& maskN = 0x52000000#32 then .ok .gFin
  else .error (rejectWord w)

/-- The encoder: the word of 30_encoding.md R150 with the immediate in its field and every reserved bit 0. -/
def encode : Instr → Word
  | .nop => 0x00000000#32
  | .srst => 0x01000000#32
  | .bsWb imm8 => 0x10000000#32 ||| imm8.setWidth 32
  | .bsWbs => 0x11000000#32
  | .bsRst => 0x12000000#32
  | .lEnc d => 0x20000000#32 ||| d.setWidth 32
  | .qClr fmt => 0x30000000#32 ||| fmt.setWidth 32
  | .qAcc => 0x31000000#32
  | .qRed ncol => 0x32000000#32 ||| ncol.setWidth 32
  | .mMap fmt => 0x40000000#32 ||| fmt.setWidth 32
  | .gHdr => 0x50000000#32
  | .gFrm => 0x51000000#32
  | .gFin => 0x52000000#32

/-- The command the decoder reads from the bits `w`, bit 0 the least significant bit of the one command word
(30_encoding.md R141: every command is one 32-bit word; bits above `nbits` are 0). -/
def decodeTableWord (nbits w : Nat) : Option Instr :=
  if nbits ≤ 32 ∧ w < 2 ^ nbits then (decodeWord (BitVec.ofNat 32 w)).toOption else none

end Sys2Proof
end

