-- ==== Sys2Proof/Machine/Ops.lean ====
section
/-! DEFINITION. The shared operations: memory by element (20_memory.md R104), the append primitive (40_bytestream.md
R180), entering an error (60_exceptions.md R410), selecting the latched command (30_encoding.md R140) and ending it. -/

namespace Sys2Proof.Machine

/-! ## Lists of cells in canonical form -/

/-- The value listed under key `a`, if any. -/
def lookupKey {α : Type} : List (Nat × α) → Nat → Option α
  | [], _ => none
  | c :: rest, a => if a = c.1 then some c.2 else lookupKey rest a

/-- The list with key `a` holding `v`, kept in rising order of keys. -/
def insertKey {α : Type} : List (Nat × α) → Nat → α → List (Nat × α)
  | [], a, v => [(a, v)]
  | c :: rest, a, v =>
    if a < c.1 then (a, v) :: c :: rest
    else if a = c.1 then (a, v) :: rest
    else c :: insertKey rest a v

/-- The list without key `a`. -/
def eraseKey {α : Type} (l : List (Nat × α)) (a : Nat) : List (Nat × α) :=
  l.filter (fun c => c.1 ≠ a)

/-! ## Memory -/

/-- The byte at host byte address `a`; `none` where the element holds no value (20_memory.md R113). -/
def memByte (m : Memory) (a : Nat) : Option Byte := (lookupKey m a).or unlistedByte

/-- Memory with the byte at `a` replaced. -/
def setByte (m : Memory) (a : Nat) (v : Byte) : Memory := insertKey m a v

/-- Memory with the bytes `vs` at `a`, `a + 1`, …, written in ascending order. -/
def setBytes (m : Memory) (a : Nat) : List Byte → Memory
  | [] => m
  | v :: vs => setBytes (setByte m a v) (a + 1) vs

/-- Memory in which no address of `lo ≤ a < hi` holds a value. -/
def forgetBytes (m : Memory) (lo hi : Nat) : Memory :=
  m.filter (fun c => c.1 < lo ∨ hi ≤ c.1)

/-- The first host byte address of a memory's window (20_memory.md R100). -/
def spaceBase : Space → Nat
  | .pal => 0x00001000
  | .buf => 0x00010000
  | .pix => 0x01000000
  | .idx => 0x02000000
  | .out => 0x04000000

/-- The bytes of a memory's window (20_memory.md R100). -/
def spaceBytes (p : Params) : Space → Nat
  | .pal => 0x400
  | .buf => p.bufBytes
  | .pix => 4 * p.pixWords
  | .idx => p.pixWords
  | .out => p.outCap

/-- The size of an element: 4 bytes in PIX and PAL, 1 in IDX, BUF and OUT (20_memory.md R104). -/
def elemBytes : Space → Nat
  | .pal => 4
  | .buf => 1
  | .pix => 4
  | .idx => 1
  | .out => 1

/-- The host byte address of element `a` (20_memory.md R101 to R106). -/
def elemAddr (sp : Space) (a : Nat) : Nat := spaceBase sp + elemBytes sp * a

/-- The bytes of a word at ascending addresses: little-endian (20_memory.md R107, R101). -/
def wordBytes (w : Word) : List Byte :=
  [w.extractLsb' 0 8, w.extractLsb' 8 8, w.extractLsb' 16 8, w.extractLsb' 24 8]

/-- The word of four bytes at ascending addresses (20_memory.md R107, R101). -/
def wordOfBytes (b0 b1 b2 b3 : Byte) : Word := BitVec.cast rfl (b3 ++ b2 ++ b1 ++ b0)

/-! ## How a command's body ends early -/

/-- Why a command's body ends before its last step. -/
inductive Stop where
  /-- `raise E` (60_exceptions.md R410). -/
  | err (e : ErrCode)
  /-- The command read an element that holds no value (20_memory.md R113). -/
  | fault (f : Fault)
deriving DecidableEq, Repr

/-- `if bad: raise e`, and otherwise the rest of the pseudocode. -/
def raiseIf {α : Type} (bad : Bool) (e : ErrCode) (rest : Except Stop α) : Except Stop α :=
  if bad then .error (.err e) else rest

/-- MemRead(space, a, 1) of 20_memory.md R104, for IDX, BUF and OUT. -/
def memReadByte (s : State) (sp : Space) (a : Nat) : Except Stop Byte :=
  match memByte s.mem (elemAddr sp a) with
  | some v => .ok v
  | none => .error (.fault (.unwrittenElement sp a))

/-- MemRead(space, a, 4) of 20_memory.md R104, for PIX and PAL. -/
def memReadWord (s : State) (sp : Space) (a : Nat) : Except Stop Word :=
  match memByte s.mem (elemAddr sp a), memByte s.mem (elemAddr sp a + 1),
      memByte s.mem (elemAddr sp a + 2), memByte s.mem (elemAddr sp a + 3) with
  | some b0, some b1, some b2, some b3 => .ok (wordOfBytes b0 b1 b2 b3)
  | _, _, _, _ => .error (.fault (.unwrittenElement sp a))

/-- The `n` byte elements from element `a` on, read in ascending order. -/
def readByteElems (s : State) (sp : Space) (a : Nat) : Nat → Except Stop (List Byte)
  | 0 => .ok []
  | n + 1 => (memReadByte s sp a).bind fun v => (readByteElems s sp (a + 1) n).map (v :: ·)

/-- The `n` word elements from element `a` on, read in ascending order. -/
def readWordElems (s : State) (sp : Space) (a : Nat) : Nat → Except Stop (List Word)
  | 0 => .ok []
  | n + 1 => (memReadWord s sp a).bind fun v => (readWordElems s sp (a + 1) n).map (v :: ·)

/-- The `n` indices from IDX element `a` on, each checked against `limit` as it is read: the loop that raises
E_INDEX_RANGE in L.ENC and G.FRM (41_lzw.md R200, 44_gif_mux.md R340). -/
def readIndices (s : State) (limit a : Nat) : Nat → Except Stop (List Byte)
  | 0 => .ok []
  | n + 1 => (memReadByte s .idx a).bind fun v =>
      raiseIf (decide (limit ≤ v.toNat)) .indexRange ((readIndices s limit (a + 1) n).map (v :: ·))

/-! ## The stream -/

/-- The host byte address of OUT element `k`. -/
def outAddr (k : Nat) : Nat := elemAddr .out k

/-- The state with byte `v` written at OUT[CURSOR] and CURSOR advanced. -/
def pushByte (s : State) (v : Byte) : State :=
  { s with mem := setByte s.mem (outAddr s.cursor.toNat) v, cursor := s.cursor + 1 }

/-- StreamAppend(v) of 40_bytestream.md R180. -/
def streamAppend (s : State) (v : Byte) : Except Stop State :=
  raiseIf (decide (s.params.outCap ≤ s.cursor.toNat)) .streamFull (.ok (pushByte s v))

/-- StreamAppend of each byte in order. -/
def appendBytes (s : State) : List Byte → Except Stop State
  | [] => .ok s
  | v :: vs => (streamAppend s v).bind fun t => appendBytes t vs

/-! ## Errors -/

/-- Error entry (60_exceptions.md R410): ERR and ERR_OP are written; CURSOR and everything else are what they were in
`s`, the state at the command's start, except that the OUT elements at and above CURSOR, which "hold unspecified
values", hold no value (log 5). -/
def raiseError (s : State) (op : BitVec 8) (e : ErrCode) : State :=
  { s with
    err := e
    errOp := op
    mem := forgetBytes s.mem (outAddr s.cursor.toNat) (outAddr s.params.outCap) }

/-- The end of a command whose opcode byte is `op` and which began in `s`. -/
def perform (op : BitVec 8) (s : State) (body : Except Stop State) : Host.Outcome State Fault Refusal :=
  match body with
  | .ok t => .next t
  | .error (.err e) => .next (raiseError s op e)
  | .error (.fault f) => .fault f

/-! ## The latched command -/

/-- What the core does with the latched word (30_encoding.md R140). -/
inductive Latched where
  /-- ERR is not 0 and the word is neither NOP nor SRST: discarded undecoded (60_exceptions.md R412). -/
  | discarded
  /-- No command: E_ILLEGAL_CMD with this opcode byte. -/
  | illegal (op : BitVec 8)
  /-- The command to perform. -/
  | run (i : Instr)
deriving DecidableEq, Repr

/-- The first lines of `step_core()` in 30_encoding.md R140, with the sticky check of 60_exceptions.md R412: while ERR is
not 0 every word but NOP's and SRST's own is discarded, so that ERR and ERR_OP keep the first failure (10_state.md R35).
A malformed word with opcode byte 0x00 or 0x01 is neither command (log 8). -/
def latched (s : State) : Latched :=
  if s.err ≠ .none ∧ s.cmdl ≠ encode .nop ∧ s.cmdl ≠ encode .srst then .discarded
  else match decodeWord s.cmdl with
    | .ok i => .run i
    | .error _ => .illegal (opField s.cmdl)

/-- `STATUS.BUSY <- 0`, the last line of `step_core()` in 30_encoding.md R140; the free values of later host reads are
new ones (log 6). -/
def retire (s : State) : State := { s with busy := false, draws := s.draws + 1 }

/-- `retire` under an outcome. -/
def retireOutcome : Host.Outcome State Fault Refusal → Host.Outcome State Fault Refusal
  | .next t => .next (retire t)
  | .fault f => .fault f
  | .refused r => .refused r

/-- A command word reaches the latch (10_state.md R32). -/
def latchCmd (s : State) (w : Word) : State := { s with cmdl := w, busy := true }

end Sys2Proof.Machine
end

