-- ==== Sys2Proof/Machine/Bus.lean ====
section
/-! DEFINITION. The host's side of the CORE: the register window (10_state.md R30 to R54), the memory windows
(20_memory.md R100 to R109), the busy rule (R112) and hardware reset (70_reset_and_hazards.md R440). -/

namespace Sys2Proof.Machine

/-- The registers of 10_state.md R30. -/
inductive Reg where
  | id | cmd | status | mode | src | dst | count | bufAddr | cursor | capacity | palLen | gpalLen | qcfg
  | histBins | histPixels | histFmt | frSize | frTime | frFlags | pixWords | bufBytes
deriving DecidableEq, Repr

/-- The register at a byte offset of the register window; the other offsets are unassigned (10_state.md R30, R54). -/
def regAt (off : Nat) : Option Reg :=
  match off with
  | 0x00 => some .id
  | 0x04 => some .cmd
  | 0x08 => some .status
  | 0x0C => some .mode
  | 0x10 => some .src
  | 0x14 => some .dst
  | 0x18 => some .count
  | 0x1C => some .bufAddr
  | 0x20 => some .cursor
  | 0x24 => some .capacity
  | 0x28 => some .palLen
  | 0x2C => some .gpalLen
  | 0x30 => some .qcfg
  | 0x34 => some .histBins
  | 0x38 => some .histPixels
  | 0x3C => some .histFmt
  | 0x40 => some .frSize
  | 0x44 => some .frTime
  | 0x48 => some .frFlags
  | 0x4C => some .pixWords
  | 0x50 => some .bufBytes
  | _ => none

/-- ID (10_state.md R31). -/
def idWord : Word := 0x47494601#32

/-- QCFG as the host reads it (10_state.md R46). -/
def qcfgWord (q : QCfg) : Word :=
  BitVec.cast rfl ((0 : BitVec 8) ++ q.caCol ++ q.caThr ++ (0 : BitVec 7) ++ BitVec.ofBool q.caEn)

/-- QCFG from a written word; reserved fields are ignored (10_state.md R46). -/
def qcfgOfWord (v : Word) : QCfg := ⟨v.getLsbD 0, v.extractLsb' 8 8, v.extractLsb' 16 8⟩

/-- FR_FLAGS as the host reads it (10_state.md R52). -/
def frFlagsWord (f : FrFlags) : Word :=
  BitVec.cast rfl ((0 : BitVec 16) ++ f.transpIdx ++ f.disp ++ BitVec.ofBool f.dispEn ++ BitVec.ofBool f.loopEn
    ++ BitVec.ofBool f.hasPal ++ BitVec.ofBool f.first ++ BitVec.ofBool f.transpEn)

/-- FR_FLAGS from a written word; bits [31:16] are ignored (10_state.md R52). -/
def frFlagsOfWord (v : Word) : FrFlags where
  transpEn := v.getLsbD 0
  first := v.getLsbD 1
  hasPal := v.getLsbD 2
  loopEn := v.getLsbD 3
  dispEn := v.getLsbD 4
  disp := v.extractLsb' 5 3
  transpIdx := v.extractLsb' 8 8

/-- What a read of a register returns while the core is idle: reserved fields and the write-only CMD read 0
(10_state.md R30 to R53). -/
def regRead (s : State) : Reg → Word
  | .id => idWord
  | .cmd => 0
  | .status => statusWord s
  | .mode => (BitVec.ofBool s.modeAuto).setWidth 32
  | .src => s.src
  | .dst => s.dst
  | .count => s.count
  | .bufAddr => s.bufAddr
  | .cursor => s.cursor
  | .capacity => BitVec.ofNat 32 s.params.outCap
  | .palLen => s.palLen.setWidth 32
  | .gpalLen => s.gpalLen.setWidth 32
  | .qcfg => qcfgWord s.qcfg
  | .histBins => s.histBins.setWidth 32
  | .histPixels => s.histPixels
  | .histFmt => (formatCode s.histFmt).setWidth 32
  | .frSize => BitVec.cast rfl (s.frHeight ++ s.frWidth)
  | .frTime => BitVec.cast rfl (s.frLoop ++ s.frDelay)
  | .frFlags => frFlagsWord s.frFlags
  | .pixWords => BitVec.ofNat 32 s.params.pixWords
  | .bufBytes => BitVec.ofNat 32 s.params.bufBytes

/-- The effect of a write to a register while the core is idle: a read-only register and reserved fields ignore it, and
CMD latches the word (10_state.md R30, R32, R54). -/
def regWrite (s : State) (v : Word) : Reg → State
  | .id => s
  | .cmd => latchCmd s v
  | .status => s
  | .mode => { s with modeAuto := v.getLsbD 0 }
  | .src => { s with src := v }
  | .dst => { s with dst := v }
  | .count => { s with count := v }
  | .bufAddr => { s with bufAddr := v }
  | .cursor => s
  | .capacity => s
  | .palLen => { s with palLen := v.extractLsb' 0 9 }
  | .gpalLen => s
  | .qcfg => { s with qcfg := qcfgOfWord v }
  | .histBins => s
  | .histPixels => s
  | .histFmt => s
  | .frSize => { s with frWidth := v.extractLsb' 0 16, frHeight := v.extractLsb' 16 16 }
  | .frTime => { s with frDelay := v.extractLsb' 0 16, frLoop := v.extractLsb' 16 16 }
  | .frFlags => { s with frFlags := frFlagsOfWord v }
  | .pixWords => s
  | .bufBytes => s

/-- The registers whose reads are answered while BUSY is 1 (20_memory.md R112). -/
def readableWhileBusy : Reg → Bool
  | .status => true
  | .id => true
  | .capacity => true
  | .pixWords => true
  | .bufBytes => true
  | _ => false

/-- What a host byte address belongs to (20_memory.md R100). -/
inductive Target where
  | reg (r : Reg)
  /-- the register window, at an offset without a register -/
  | unassigned
  | mem (sp : Space)
  /-- no window -/
  | unmapped
deriving DecidableEq, Repr

/-- The memory whose window holds a host byte address (20_memory.md R100). -/
def spaceAt (p : Params) (a : Nat) : Option Space :=
  [Space.pal, .buf, .pix, .idx, .out].find? (fun sp => spaceBase sp ≤ a ∧ a < spaceBase sp + spaceBytes p sp)

/-- The map of 20_memory.md R100. -/
def busTarget (p : Params) (a : Nat) : Target :=
  if a < 0x1000 then
    match regAt a with
    | some r => .reg r
    | none => .unassigned
  else
    match spaceAt p a with
    | some sp => .mem sp
    | none => .unmapped

/-- Only aligned words are supported (20_memory.md R108). -/
def supportedAccess (addr : Word) (size : AccessSize) : Bool := decide (size = .word ∧ addr.toNat % 4 = 0)

/-- A word of free bytes at host byte address `a` (log 6). -/
def freeWord (s : State) (a : Nat) : Word :=
  wordOfBytes (Config.freeByte s.draws a) (Config.freeByte s.draws (a + 1)) (Config.freeByte s.draws (a + 2))
    (Config.freeByte s.draws (a + 3))

/-- The byte at host byte address `a` of memory `sp` as an idle core shows it: a free byte for an OUT element at or above
CURSOR (20_memory.md R106) and for an element that holds no value (R113; log 6). -/
def visibleByte (s : State) (sp : Space) (a : Nat) : Byte :=
  if sp = .out ∧ outAddr s.cursor.toNat ≤ a then Config.freeByte s.draws a
  else (memByte s.mem a).getD (Config.freeByte s.draws a)

/-- The word at host byte address `a` of memory `sp` as an idle core shows it (20_memory.md R107). -/
def visibleWord (s : State) (sp : Space) (a : Nat) : Word :=
  wordOfBytes (visibleByte s sp a) (visibleByte s sp (a + 1)) (visibleByte s sp (a + 2)) (visibleByte s sp (a + 3))

/-- A read answered with an unspecified value, a new one each time (20_memory.md R112; log 6). -/
def answerFree (s : State) (a : Nat) : State := { s with rdata := freeWord s a, draws := s.draws + 1 }

/-- A host read (20_memory.md R100, R108, R109, R112; 10_state.md R54). -/
def hostRead (s : State) (addr : Word) (size : AccessSize) : Host.Outcome State Fault Refusal :=
  if supportedAccess addr size then
    match busTarget s.params addr.toNat with
    | .unmapped => .refused (.unmappedAddress addr)
    | .unassigned => .refused (.unassignedRegister addr)
    | .reg r =>
      if s.busy && !readableWhileBusy r then .next (answerFree s addr.toNat)
      else .next { s with rdata := regRead s r }
    | .mem sp =>
      if s.busy then .next (answerFree s addr.toNat)
      else .next { s with rdata := visibleWord s sp addr.toNat }
  else .refused (.unsupportedAccess addr)

/-- A write by an idle core's host to a memory window; OUT ignores it (20_memory.md R100, R106). -/
def storeWord (s : State) (sp : Space) (a : Nat) (v : Word) : State :=
  if sp = .out then s else { s with mem := setBytes s.mem a (wordBytes v) }

/-- The free values after a host write are new ones (20_memory.md R109; log 6). -/
def newDraws (s : State) : State := { s with draws := s.draws + 1 }

/-- A host write (20_memory.md R100, R108, R112; 10_state.md R30, R54). -/
def hostWrite (s : State) (addr : Word) (size : AccessSize) (v : Word) : Host.Outcome State Fault Refusal :=
  if supportedAccess addr size then
    match busTarget s.params addr.toNat with
    | .unmapped => .refused (.unmappedAddress addr)
    | .unassigned => .refused (.unassignedRegister addr)
    | .reg r => if s.busy then .next (flagHazard s) else .next (newDraws (regWrite s v r))
    | .mem sp => if s.busy then .next (flagHazard s) else .next (newDraws (storeWord s sp addr.toNat v))
  else .refused (.unsupportedAccess addr)

/-- Hardware reset (70_reset_and_hazards.md R440), whether a command is running or not: every register and the histogram
take their reset values and no memory element holds a value (20_memory.md R113; log 9). The parameters and the model's
own fields stay. -/
def hardReset (s : State) : State :=
  { State.resetWith s.params with schedule := s.schedule, rdata := s.rdata, draws := s.draws + 1 }

/-- One interaction of the host (70_reset_and_hazards.md R470). -/
def hostAccess (s : State) : HostOp → Host.Outcome State Fault Refusal
  | .read addr size => hostRead s addr size
  | .write addr size v => hostWrite s addr size v
  | .reset => .next (hardReset s)

/-- The read of STATUS that ends a POLL (30_encoding.md R156). -/
def pollDone (s : State) : State := { s with rdata := statusWord s }

end Sys2Proof.Machine
end

