-- ==== Sys2Proof/Machine/ByteStream.lean ====
section
/-! DEFINITION. The bytestream_writer commands (40_bytestream.md). -/

namespace Sys2Proof.Machine

/-- BS.WB (40_bytestream.md R182). -/
def execBsWb (imm8 : BitVec 8) (s : State) : Host.Outcome State Fault Refusal :=
  perform 0x10 s <|
    raiseIf (s.gstate = .final) .state <|
    streamAppend s imm8

/-- BS.WBS (40_bytestream.md R183). Both range checks come before the first append, so the appends cannot fail, and the
bytes may be read before the first of them is appended (log 11). -/
def execBsWbs (s : State) : Host.Outcome State Fault Refusal :=
  let a := s.bufAddr.toNat
  let n := s.count.toNat
  perform 0x11 s <|
    raiseIf (s.gstate = .final) .state <|
    if n = 0 then .ok s else
    raiseIf (s.params.bufBytes < a + n) .bounds <|
    raiseIf (s.params.outCap < s.cursor.toNat + n) .streamFull <|
    (readByteElems s .buf a n).bind fun bytes => appendBytes s bytes

/-- BS.RST (40_bytestream.md R184). -/
def execBsRst (s : State) : Host.Outcome State Fault Refusal :=
  perform 0x12 s <|
    raiseIf (s.gstate = .final) .state <|
    .ok { s with cursor := 0 }

end Sys2Proof.Machine
end

