-- ==== Sys2Proof/Machine/Operands.lean ====
section
/-! DEFINITION. The operand forms: the channels of a pixel word (20_memory.md R101), the packing formats and keys
(42_quantizer.md R240, R241), code sizes and colour-table sizes (41_lzw.md R201, 44_gif_mux.md R333, R344), and 16-bit
fields of the stream (44_gif_mux.md R350). -/

namespace Sys2Proof.Machine

/-- The channels of a pixel or palette word. -/
structure Rgba where
  r : BitVec 8
  g : BitVec 8
  b : BitVec 8
  a : BitVec 8
deriving DecidableEq, Repr

/-- R = w[7:0], G = w[15:8], B = w[23:16], A = w[31:24] (20_memory.md R101, R103). -/
def unpackPixel (w : Word) : Rgba :=
  ⟨w.extractLsb' 0 8, w.extractLsb' 8 8, w.extractLsb' 16 8, w.extractLsb' 24 8⟩

/-- r | g << 8 | b << 16 | a << 24 (42_quantizer.md R262). -/
def packPixel (c : Rgba) : Word := BitVec.cast rfl (c.a ++ c.b ++ c.g ++ c.r)

/-- The format of an FMT field; code 3 is reserved (42_quantizer.md R240). -/
def formatOf (fmt : BitVec 2) : Option Format :=
  match fmt.toNat with
  | 0 => some .rgb565
  | 1 => some .rgb444
  | 2 => some .rgba4444
  | _ => none

/-- The number of keys of a format (00_scope.md R8, 42_quantizer.md R240). -/
def domain : Format → Nat
  | .rgb565 => 65536
  | .rgb444 => 4096
  | .rgba4444 => 65536

/-- Whether alpha participates (00_scope.md R14). -/
def hasAlpha : Format → Bool
  | .rgb565 => false
  | .rgb444 => false
  | .rgba4444 => true

/-- Key(f, r, g, b, a) of 42_quantizer.md R241. -/
def colorKey (f : Format) (c : Rgba) : Nat :=
  match f with
  | .rgb565 => (c.r.toNat >>> 3) <<< 11 ||| (c.g.toNat >>> 2) <<< 5 ||| (c.b.toNat >>> 3)
  | .rgb444 => (c.r.toNat >>> 4) <<< 8 ||| (c.g.toNat >>> 4) <<< 4 ||| (c.b.toNat >>> 4)
  | .rgba4444 =>
    (c.r.toNat >>> 4) <<< 12 ||| (c.g.toNat >>> 4) <<< 8 ||| (c.b.toNat >>> 4) <<< 4 ||| (c.a.toNat >>> 4)

/-- ceil(log2 n), 0 for n ≤ 1. -/
def ceilLog2 (n : Nat) : Nat := if n ≤ 1 then 0 else Nat.log2 (n - 1) + 1

/-- ctsize(L) = max(ceil(log2 L), 1) (44_gif_mux.md R333). -/
def ctSize (l : Nat) : Nat := max (ceilLog2 l) 1

/-- S = max(2, D) of L.ENC (41_lzw.md R201). -/
def codeSizeOfDepth (d : Nat) : Nat := max minCodeSizeFloor d

/-- S = max(2, ceil(log2 Lp)) of G.FRM (44_gif_mux.md R344). -/
def codeSizeOfTable (l : Nat) : Nat := max minCodeSizeFloor (ceilLog2 l)

/-- A 16-bit field in stream order, low byte first (44_gif_mux.md R350). -/
def u16le (v : BitVec 16) : List Byte := [v.extractLsb' 0 8, v.extractLsb' 8 8]

end Sys2Proof.Machine
end

