-- ==== Sys2Proof/Machine/Lzw.lean ====
section
/-! DEFINITION. The lzw_compressor (41_lzw.md): the encoding function of R202 and the command L.ENC. The encoder is a
function from indices to the bytes it appends; nothing reads the stream, so appending them afterwards is the same
(log 11). -/

namespace Sys2Proof.Machine

/-- The clear code (41_lzw.md R201). -/
def clearCode (S : Nat) : Nat := 2 ^ S

/-- The end-of-information code (41_lzw.md R201). -/
def eoiCode (S : Nat) : Nat := clearCode S + 1

/-- The first code assigned to a dictionary entry (41_lzw.md R201). -/
def firstFree (S : Nat) : Nat := clearCode S + 2

/-- The state of the encoder (10_state.md R64, R65), and the bytes it has appended to the stream so far. -/
structure LzwState where
  /-- the next code to assign -/
  free : Nat
  /-- the current code width -/
  nbits : Nat
  /-- the width limit -/
  maxcode : Nat
  /-- the width returns to S + 1 after the code being emitted -/
  clearFlg : Bool
  /-- the bit accumulator -/
  acc : Nat
  /-- the accumulator's bit count -/
  accbits : Nat
  /-- the staging buffer, oldest byte first -/
  stage : List Byte
  /-- the dictionary: (prefix code, index) to code -/
  dict : List ((Nat × Nat) × Nat)
  /-- the bytes appended to the stream, oldest first -/
  out : List Byte
deriving DecidableEq, Repr

/-- The initial values of 41_lzw.md R202, after `StreamAppend(S)`. -/
def lzwInit (S : Nat) : LzwState where
  free := firstFree S
  nbits := S + 1
  maxcode := 2 ^ (S + 1) - 1
  clearFlg := false
  acc := 0
  accbits := 0
  stage := []
  dict := []
  out := [BitVec.ofNat 8 S]

/-- The code of a pair, if it was inserted since the last clear (41_lzw.md R203). -/
def dictFind (d : List ((Nat × Nat) × Nat)) (pre idx : Nat) : Option Nat :=
  match d with
  | [] => none
  | e :: rest => if e.1 = (pre, idx) then some e.2 else dictFind rest pre idx

/-- FlushBlock() of 41_lzw.md R202. -/
def flushBlock (z : LzwState) : LzwState :=
  if z.stage.length > 0 then
    { z with out := z.out ++ BitVec.ofNat 8 z.stage.length :: z.stage, stage := [] }
  else z

/-- CharOut(b) of 41_lzw.md R202, R208. -/
def charOut (z : LzwState) (b : Byte) : LzwState :=
  let z1 := { z with stage := z.stage ++ [b] }
  if z1.stage.length ≥ subblockMax then flushBlock z1 else z1

/-- The loop `while accbits >= 8` of Output in 41_lzw.md R202; the first argument bounds its turns, and the bit count
does. -/
def drainBytes : Nat → LzwState → LzwState
  | 0, z => z
  | k + 1, z =>
    if z.accbits ≥ 8 then
      let z1 := charOut z (BitVec.ofNat 8 z.acc)
      drainBytes k { z1 with acc := z.acc >>> 8, accbits := z.accbits - 8 }
    else z

/-- Packing a code at the current width, least significant bit first (41_lzw.md R205). -/
def packCode (z : LzwState) (code : Nat) : LzwState :=
  let z1 := { z with acc := z.acc + code * 2 ^ z.accbits, accbits := z.accbits + z.nbits }
  drainBytes z1.accbits z1

/-- The width after a code (41_lzw.md R206). -/
def adjustWidth (S : Nat) (z : LzwState) : LzwState :=
  if z.free > z.maxcode ∨ z.clearFlg then
    if z.clearFlg then { z with nbits := S + 1, maxcode := 2 ^ (S + 1) - 1, clearFlg := false }
    else
      { z with
        nbits := z.nbits + 1
        maxcode := if z.nbits + 1 = maxCodeBits then codeLimit else 2 ^ (z.nbits + 1) - 1 }
  else z

/-- The flush after the end-of-information code (41_lzw.md R202, R205). -/
def flushBits (z : LzwState) : LzwState :=
  flushBlock (if z.accbits > 0 then { charOut z (BitVec.ofNat 8 z.acc) with acc := 0, accbits := 0 } else z)

/-- Output(code) of 41_lzw.md R202. -/
def outputCode (S : Nat) (z : LzwState) (code : Nat) : LzwState :=
  let z1 := adjustWidth S (packCode z code)
  if code = eoiCode S then flushBits z1 else z1

/-- A dictionary miss: emit the prefix's code, then insert the pair or, with the code space saturated, clear
(41_lzw.md R202, R209). -/
def lzwMiss (S : Nat) (z : LzwState) (ent c : Nat) : LzwState :=
  let z1 := outputCode S z ent
  if z1.free < codeLimit then
    { z1 with dict := ((ent, c), z1.free) :: z1.dict, free := z1.free + 1 }
  else
    outputCode S { z1 with dict := [], free := firstFree S, clearFlg := true } (clearCode S)

/-- The loop over the indices after the first (41_lzw.md R202): the encoder's state and the prefix code at the end. -/
def lzwLoop (S : Nat) (z : LzwState) (ent : Nat) : List Byte → LzwState × Nat
  | [] => (z, ent)
  | c :: cs =>
    match dictFind z.dict ent c.toNat with
    | some code => lzwLoop S z code cs
    | none => lzwLoop S (lzwMiss S z ent c.toNat) c.toNat cs

/-- LzwEncode(S, base, n) of 41_lzw.md R202 as the bytes it appends for the indices IDX[base .. base+n-1]. It is
never called with no index (R200, R340). -/
def lzwEncode (S : Nat) : List Byte → List Byte
  | [] => []
  | c :: cs =>
    let e := lzwLoop S (outputCode S (lzwInit S) (clearCode S)) c.toNat cs
    let z := outputCode S (outputCode S e.1 e.2) (eoiCode S)
    z.out ++ [0]

/-- L.ENC (41_lzw.md R200). -/
def execLEnc (d : BitVec 4) (s : State) : Host.Outcome State Fault Refusal :=
  let a := s.src.toNat
  let n := s.count.toNat
  let S := codeSizeOfDepth d.toNat
  perform 0x20 s <|
    raiseIf (8 < d.toNat) .arg <|
    raiseIf (s.gstate = .final) .state <|
    raiseIf (n = 0) .length <|
    raiseIf (s.params.pixWords < a + n) .bounds <|
    (readIndices s (2 ^ S) a n).bind fun indices => appendBytes s (lzwEncode S indices)

end Sys2Proof.Machine
end

