-- ==== Sys2Proof/Machine/Mapper.lean ====
section
/-! DEFINITION. The palette_mapper command M.MAP (43_mapper.md). -/

namespace Sys2Proof.Machine

/-- (x - y)² as an exact integer. -/
def sqDiff (x y : BitVec 8) : Nat := ((x.toNat : Int) - y.toNat).natAbs ^ 2

/-- The squared channel-difference distance of a pixel and a palette entry, alpha only in alpha format (43_mapper.md
R301). -/
def colorDist (alpha : Bool) (q c : Rgba) : Nat :=
  (if alpha then sqDiff q.a c.a else 0) + sqDiff q.r c.r + sqDiff q.g c.g + sqDiff q.b c.b

/-- The loop of Nearest (43_mapper.md R301) over the entries from index `i` on, with the best distance and its index so
far: an entry at an equal distance replaces it. -/
def nearestFrom (alpha : Bool) (c : Rgba) : List Rgba → Nat → Nat → Nat → Nat
  | [], _, _, x => x
  | q :: qs, i, best, x =>
    if colorDist alpha q c ≤ best then nearestFrom alpha c qs (i + 1) (colorDist alpha q c) i
    else nearestFrom alpha c qs (i + 1) best x

/-- Nearest(r, g, b, a, L, alpha) of 43_mapper.md R301. -/
def nearest (alpha : Bool) (pal : List Rgba) (c : Rgba) : Nat :=
  nearestFrom alpha c pal 0 (4 * 255 * 255 + 1) 0

/-- The mapper cache (10_state.md R63): the valid entries, by key. -/
abbrev MapCache := List (Nat × Byte)

/-- The loop of M.MAP (43_mapper.md R300): the index of each pixel in order. -/
def mapPixels (f : Format) (pal : List Rgba) : MapCache → List Rgba → List Byte
  | _, [] => []
  | cache, c :: cs =>
    match lookupKey cache (colorKey f c) with
    | some x => x :: mapPixels f pal cache cs
    | none =>
      let x : Byte := BitVec.ofNat 8 (nearest (hasAlpha f) pal c)
      x :: mapPixels f pal ((colorKey f c, x) :: cache) cs

/-- M.MAP (43_mapper.md R300). The pixels and then the palette are read before the first index is written (log 11). -/
def execMMap (fmt : BitVec 2) (s : State) : Host.Outcome State Fault Refusal :=
  let l := s.palLen.toNat
  let a := s.src.toNat
  let t := s.dst.toNat
  let n := s.count.toNat
  perform 0x40 s <|
    match formatOf fmt with
    | none => .error (.err .arg)
    | some f =>
      raiseIf (l = 0) .noPalette <|
      raiseIf (maxPalette < l) .paletteSize <|
      if n = 0 then .ok s else
      raiseIf (s.params.pixWords < a + n) .bounds <|
      raiseIf (s.params.pixWords < t + n) .bounds <|
      (readWordElems s .pix a n).bind fun pixels =>
      (readWordElems s .pal 0 l).bind fun pal =>
      .ok { s with
        mem := setBytes s.mem (elemAddr .idx t) (mapPixels f (pal.map unpackPixel) [] (pixels.map unpackPixel)) }

end Sys2Proof.Machine
end

