-- ==== Sys2Proof/Machine/Mux.lean ====
section
/-! DEFINITION. The gif_frame_multiplexer commands (44_gif_mux.md). -/

namespace Sys2Proof.Machine

/-- The six bytes of WriteSignature(), "GIF89a" (44_gif_mux.md R336). -/
def signatureBytes : List Byte := [0x47, 0x49, 0x46, 0x38, 0x39, 0x61]

/-- The packed byte of the logical screen descriptor: global table present, colour resolution 7, sort 0 and the table's
size field (44_gif_mux.md R337). -/
def lsdPacked (l : Nat) : Byte := BitVec.ofNat 8 (1 <<< 7 ||| 7 <<< 4 ||| 0 <<< 3 ||| (ctSize l - 1))

/-- The bytes of WriteLSD(W, H, L) (44_gif_mux.md R337). -/
def lsdBytes (w h : BitVec 16) (l : Nat) : List Byte := u16le w ++ u16le h ++ [lsdPacked l, 0, 0]

/-- The application extension up to the loop count: 21 FF 0B, "NETSCAPE2.0", 03 01 (44_gif_mux.md R338). -/
def netscapeIntro : List Byte :=
  [0x21, 0xFF, 0x0B, 0x4E, 0x45, 0x54, 0x53, 0x43, 0x41, 0x50, 0x45, 0x32, 0x2E, 0x30, 0x03, 0x01]

/-- The bytes of WriteNetscape(loop) (44_gif_mux.md R338). -/
def netscapeBytes (loop : BitVec 16) : List Byte := netscapeIntro ++ u16le loop ++ [0]

/-- The disposal method of a frame (44_gif_mux.md R339). -/
def disposal (fl : FrFlags) : BitVec 3 := if fl.dispEn then fl.disp else if fl.transpEn then 2 else 0

/-- The packed byte of the graphic control extension: [4:2] disposal, [1] user input 0, [0] transparency (44_gif_mux.md
R339). -/
def gcePacked (fl : FrFlags) : Byte :=
  BitVec.cast rfl ((0 : BitVec 3) ++ disposal fl ++ (0 : BitVec 1) ++ BitVec.ofBool fl.transpEn)

/-- The bytes of WriteGCE() (44_gif_mux.md R339). -/
def gceBytes (fl : FrFlags) (delay : BitVec 16) : List Byte :=
  0x21 :: 0xF9 :: 0x04 :: gcePacked fl :: (u16le delay ++ [fl.transpIdx, 0])

/-- The bytes of WriteImageDescriptor(W, H, local, L) (44_gif_mux.md R341). -/
def imageDescBytes (w h : BitVec 16) (isLocal : Bool) (l : Nat) : List Byte :=
  0x2C :: 0 :: 0 :: 0 :: 0 :: (u16le w ++ u16le h ++
    [if isLocal then BitVec.ofNat 8 (1 <<< 7 ||| (ctSize l - 1)) else 0])

/-- The R, G and B bytes of a palette entry; its A byte is never written (44_gif_mux.md R352). -/
def rgbBytes (q : Word) : List Byte := [(unpackPixel q).r, (unpackPixel q).g, (unpackPixel q).b]

/-- The bytes of entry `i` of a colour table of `l` entries (44_gif_mux.md R334). -/
def tableEntry (s : State) (l i : Nat) : Except Stop (List Byte) :=
  if i < l then (memReadWord s .pal i).map rgbBytes else .ok [0, 0, 0]

/-- The loop of WriteColorTable(L) (44_gif_mux.md R334) for the `k` entries from `i` on. -/
def writeTableFrom (l : Nat) : Nat → Nat → State → Except Stop State
  | 0, _, s => .ok s
  | k + 1, i, s =>
    (tableEntry s l i).bind fun bytes => (appendBytes s bytes).bind fun t => writeTableFrom l k (i + 1) t

/-- WriteColorTable(L) (44_gif_mux.md R334). -/
def writeColorTable (l : Nat) (s : State) : Except Stop State := writeTableFrom l (2 ^ ctSize l) 0 s

/-- Whether the next G.FRM is a first frame (44_gif_mux.md R331, R340). -/
def isFirstFrame (s : State) : Bool := if s.modeAuto then decide (s.gstate = .uninit) else s.frFlags.first

/-- The length of the colour table the frame's indices refer to: its own palette's, or the global table's (44_gif_mux.md
R340, R344). -/
def frameTableLen (s : State) : Nat := if s.frFlags.hasPal then s.palLen.toNat else s.gpalLen.toNat

/-- The header blocks of a first frame (44_gif_mux.md R340): screen descriptor, global table, loop extension. -/
def writeHeader (lp : Nat) (s : State) : Except Stop State :=
  (appendBytes s (lsdBytes s.frWidth s.frHeight lp)).bind fun s1 =>
  (writeColorTable lp s1).bind fun s2 =>
  if s.frFlags.loopEn then appendBytes s2 (netscapeBytes s.frLoop) else .ok s2

/-- The writing part of G.FRM (44_gif_mux.md R340), after its checks: `lp` is the length of the table in use and
`indices` the frame's indices. -/
def writeFrame (lp : Nat) (indices : List Byte) (s : State) : Except Stop State :=
  let first := isFirstFrame s
  let isLocal := s.frFlags.hasPal && !first
  (if s.modeAuto && decide (s.gstate = .uninit) then appendBytes s signatureBytes else .ok s).bind fun s1 =>
  (if first then writeHeader lp s1 else .ok s1).bind fun s2 =>
  (appendBytes s2 (gceBytes s.frFlags s.frDelay)).bind fun s3 =>
  (appendBytes s3 (imageDescBytes s.frWidth s.frHeight isLocal lp)).bind fun s4 =>
  (if isLocal then writeColorTable lp s4 else .ok s4).bind fun s5 =>
  (appendBytes s5 (lzwEncode (codeSizeOfTable lp) indices)).bind fun s6 =>
  .ok { s6 with gpalLen := if first then BitVec.ofNat 9 lp else s.gpalLen, gstate := .header }

/-- G.HDR (44_gif_mux.md R335). -/
def execGHdr (s : State) : Host.Outcome State Fault Refusal :=
  perform 0x50 s <|
    raiseIf (s.modeAuto ∨ s.gstate ≠ .uninit) .state <|
    (appendBytes s signatureBytes).bind fun t => .ok { t with gstate := .header }

/-- G.FRM (44_gif_mux.md R340). -/
def execGFrm (s : State) : Host.Outcome State Fault Refusal :=
  let w := s.frWidth.toNat
  let h := s.frHeight.toNat
  let a := s.src.toNat
  let n := s.count.toNat
  let lp := frameTableLen s
  perform 0x51 s <|
    raiseIf (s.gstate = .final) .state <|
    raiseIf ((!s.frFlags.hasPal && isFirstFrame s) ∨ lp = 0) .noPalette <|
    raiseIf (maxPalette < lp) .paletteSize <|
    raiseIf (w = 0 ∨ h = 0 ∨ n ≠ w * h) .length <|
    raiseIf (s.params.pixWords < a + n) .bounds <|
    (readIndices s lp a n).bind fun indices => writeFrame lp indices s

/-- G.FIN (44_gif_mux.md R346). -/
def execGFin (s : State) : Host.Outcome State Fault Refusal :=
  perform 0x52 s <|
    raiseIf (s.gstate ≠ .header) .state <|
    (streamAppend s trailerByte).bind fun t => .ok { t with gstate := .final }

end Sys2Proof.Machine
end

