-- ==== Sys2Proof/Machine/Float64.lean ====
section
/-! DEFINITION. IEEE 754 binary64 arithmetic (00_scope.md R12): each primitive computes the exact result on integers and
rounds it once, to nearest with ties to even. Values are their 64 bits; log 13 says what is not fixed by the rule. -/

namespace Sys2Proof.Machine

/-- A binary64 value as its bits: sign [63], biased exponent [62:52], fraction [51:0]. -/
abbrev F64 := BitVec 64

/-- What a binary64 value is: a finite one is (-1)^neg · m · 2^e. -/
inductive FVal where
  | nan
  | inf (neg : Bool)
  | fin (neg : Bool) (m : Nat) (e : Int)
deriving DecidableEq, Repr

/-- The value of 64 bits. -/
def f64Val (x : F64) : FVal :=
  let neg := x.msb
  let ex := (x.extractLsb' 52 11).toNat
  let fr := (x.extractLsb' 0 52).toNat
  if ex = 2047 then (if fr = 0 then .inf neg else .nan)
  else if ex = 0 then .fin neg fr (-1074)
  else .fin neg (2 ^ 52 + fr) ((ex : Int) - 1075)

/-- The quiet NaN the model gives for an invalid operation (log 13); no command produces one. -/
def f64Nan : F64 := 0x7FF8000000000000#64

/-- A value of magnitude bits `b` and sign `neg`. -/
def f64Signed (neg : Bool) (b : Nat) : F64 := BitVec.ofNat 64 (b + if neg then 2 ^ 63 else 0)

/-- An infinity. -/
def f64Inf (neg : Bool) : F64 := f64Signed neg 0x7FF0000000000000

/-- A zero. -/
def f64Zero (neg : Bool) : F64 := f64Signed neg 0

/-- The exponent of the last place of the binary64 numbers around m · 2^e, for m ≠ 0: 52 places below the leading bit,
never below the subnormal exponent -1074. -/
def lastPlace (m : Nat) (e : Int) : Int := max ((Nat.log2 m : Int) + e - 52) (-1074)

/-- m / 2^k to the nearest integer, a half to the even one. -/
def roundShift (m k : Nat) : Nat :=
  let q := m >>> k
  let rem := m % 2 ^ k
  if 2 * rem < 2 ^ k then q
  else if 2 ^ k < 2 * rem then q + 1
  else q + q % 2

/-- (-1)^neg · m · 2^e rounded to binary64, roundTiesToEven; a magnitude beyond the largest finite one is an infinity. -/
def roundF64 (neg : Bool) (m : Nat) (e : Int) : F64 :=
  if m = 0 then f64Zero neg
  else
    let q := lastPlace m e
    let n := if q ≤ e then m <<< (e - q).toNat else roundShift m (q - e).toNat
    let bits := (q + 1074).toNat * 2 ^ 52 + n
    if 0x7FF0000000000000 ≤ bits then f64Inf neg else f64Signed neg bits

/-- `f64(n)` of 00_scope.md R12, exact for n below 2^53. -/
def f64OfNat (n : Nat) : F64 := roundF64 false n 0

/-- (-1)^neg · m as an integer. -/
def signedInt (neg : Bool) (m : Nat) : Int := if neg then -(m : Int) else m

/-- The integers of two finite values on their common exponent `min e1 e2`. -/
def alignLeft (neg : Bool) (m : Nat) (e1 e2 : Int) : Int := signedInt neg (m <<< (e1 - min e1 e2).toNat)

/-- `fadd(a, b)`. An exact zero sum of operands of unlike signs is +0. -/
def fadd (a b : F64) : F64 :=
  match f64Val a, f64Val b with
  | .nan, _ => f64Nan
  | _, .nan => f64Nan
  | .inf s1, .inf s2 => if s1 = s2 then f64Inf s1 else f64Nan
  | .inf s1, _ => f64Inf s1
  | _, .inf s2 => f64Inf s2
  | .fin s1 m1 e1, .fin s2 m2 e2 =>
    let z := alignLeft s1 m1 e1 e2 + alignLeft s2 m2 e2 e1
    if z = 0 then f64Zero (s1 && s2) else roundF64 (decide (z < 0)) z.natAbs (min e1 e2)

/-- The value with its sign bit turned. -/
def fneg (a : F64) : F64 := a ^^^ 0x8000000000000000#64

/-- `fsub(a, b)`. -/
def fsub (a b : F64) : F64 := fadd a (fneg b)

/-- `fmul(a, b)`. -/
def fmul (a b : F64) : F64 :=
  match f64Val a, f64Val b with
  | .nan, _ => f64Nan
  | _, .nan => f64Nan
  | .inf s1, .inf s2 => f64Inf (s1 != s2)
  | .inf s1, .fin s2 m2 _ => if m2 = 0 then f64Nan else f64Inf (s1 != s2)
  | .fin s1 m1 _, .inf s2 => if m1 = 0 then f64Nan else f64Inf (s1 != s2)
  | .fin s1 m1 e1, .fin s2 m2 e2 => roundF64 (s1 != s2) (m1 * m2) (e1 + e2)

/-- The quotient's bits below the leading one that are computed before rounding: more than 53 whatever the operands. -/
def divShift : Nat := 120

/-- A truncated result with one more bit below it that says whether anything was cut off. -/
def withSticky (q : Nat) (exact : Bool) : Nat := 2 * q + if exact then 0 else 1

/-- `fdiv(a, b)`. -/
def fdiv (a b : F64) : F64 :=
  match f64Val a, f64Val b with
  | .nan, _ => f64Nan
  | _, .nan => f64Nan
  | .inf _, .inf _ => f64Nan
  | .inf s1, .fin s2 _ _ => f64Inf (s1 != s2)
  | .fin s1 _ _, .inf s2 => f64Zero (s1 != s2)
  | .fin s1 m1 e1, .fin s2 m2 e2 =>
    if m2 = 0 then (if m1 = 0 then f64Nan else f64Inf (s1 != s2))
    else
      let num := m1 <<< divShift
      roundF64 (s1 != s2) (withSticky (num / m2) (num % m2 == 0)) (e1 - e2 - divShift - 1)

/-- The largest r' with r ≤ r' < r + 2^k and r'² ≤ n, for r² ≤ n, bit by bit from bit k - 1 down. -/
def isqrtBits (n : Nat) : Nat → Nat → Nat
  | 0, r => r
  | k + 1, r => isqrtBits n k (if (r + 2 ^ k) * (r + 2 ^ k) ≤ n then r + 2 ^ k else r)

/-- floor(sqrt n) for n below 2^192. -/
def isqrt (n : Nat) : Nat := isqrtBits n 96 0

/-- `fsqrt(a)`. The significand is scaled by an even power of two, up to 2^121, before the integer square root. -/
def fsqrt (a : F64) : F64 :=
  match f64Val a with
  | .nan => f64Nan
  | .inf neg => if neg then f64Nan else f64Inf false
  | .fin neg m e =>
    if m = 0 then a
    else if neg then f64Nan
    else
      let k := divShift + (e % 2).toNat
      let n := m <<< k
      let r := isqrt n
      roundF64 false (withSticky r (r * r == n)) ((e - k) / 2 - 1)

/-- `a < b` with its IEEE meaning: false when either is a NaN; the two zeros are equal. -/
def flt (a b : F64) : Bool :=
  match f64Val a, f64Val b with
  | .nan, _ => false
  | _, .nan => false
  | .inf s1, .inf s2 => s1 && !s2
  | .inf s1, .fin _ _ _ => s1
  | .fin _ _ _, .inf s2 => !s2
  | .fin s1 m1 e1, .fin s2 m2 e2 => decide (alignLeft s1 m1 e1 e2 < alignLeft s2 m2 e2 e1)

/-- `a <= b` with its IEEE meaning. -/
def fle (a b : F64) : Bool :=
  match f64Val a, f64Val b with
  | .nan, _ => false
  | _, .nan => false
  | .inf s1, .inf s2 => s1 || !s2
  | .inf s1, .fin _ _ _ => s1
  | .fin _ _ _, .inf s2 => !s2
  | .fin s1 m1 e1, .fin s2 m2 e2 => decide (alignLeft s1 m1 e1 e2 ≤ alignLeft s2 m2 e2 e1)

/-- floor(m · 2^e + 1/2) for a magnitude m · 2^e. -/
def halfUpNat (m : Nat) (e : Int) : Nat :=
  if 0 ≤ e then m <<< e.toNat
  else (2 * m + 2 ^ (-e).toNat) / 2 ^ ((-e).toNat + 1)

/-- RoundClamp(x) = min(255, max(0, floor(x + 1/2))), exact on the value x (42_quantizer.md R261). For x below 0 the
floor is at most 0. A NaN has no such value and cannot arise; it gives 0 (log 13). -/
def roundClamp (x : F64) : Nat :=
  match f64Val x with
  | .nan => 0
  | .inf neg => if neg then 0 else 255
  | .fin neg m e => if neg then 0 else min 255 (halfUpNat m e)

/-- 0.0 -/
def f64PosZero : F64 := 0

/-- 1.0 -/
def f64One : F64 := 0x3FF0000000000000#64

/-- SENTINEL, the binary64 value nearest 1e100 (00_scope.md R12). -/
def sentinel : F64 := 0x54B249AD2594C37D#64

end Sys2Proof.Machine
end

