-- ==== Sys2Proof/Machine/Quantizer.lean ====
section
/-! DEFINITION. The color_quantizer (42_quantizer.md): the histogram commands Q.CLR and Q.ACC, and the reduction Q.RED
with its bin arena and merge heap. -/

namespace Sys2Proof.Machine

/-! ## Phase 1: the histogram -/

/-- H[k] (10_state.md R60). -/
def binAt (h : Histogram) (k : Nat) : Bin := (lookupKey h k).getD Bin.zero

/-- The histogram with H[k] replaced. -/
def setBin (h : Histogram) (k : Nat) (b : Bin) : Histogram :=
  if b = Bin.zero then eraseKey h k else insertKey h k b

/-- H[k] after one more pixel (42_quantizer.md R243); alpha is summed in alpha format only. -/
def addToBin (alpha : Bool) (b : Bin) (c : Rgba) : Bin where
  cnt := b.cnt + 1
  rsum := b.rsum + c.r.setWidth 40
  gsum := b.gsum + c.g.setWidth 40
  bsum := b.bsum + c.b.setWidth 40
  asum := if alpha then b.asum + c.a.setWidth 40 else b.asum

/-- One turn of the loop of Q.ACC (42_quantizer.md R243). -/
def countPixel (s : State) (p : Word) : State :=
  let c := unpackPixel p
  let k := colorKey s.histFmt c
  { s with
    hist := setBin s.hist k (addToBin (hasAlpha s.histFmt) (binAt s.hist k) c)
    histBins := if (binAt s.hist k).cnt = 0 then s.histBins + 1 else s.histBins }

/-- Q.CLR (42_quantizer.md R242). -/
def execQClr (fmt : BitVec 2) (s : State) : Host.Outcome State Fault Refusal :=
  perform 0x30 s <|
    match formatOf fmt with
    | none => .error (.err .arg)
    | some f => .ok { s with hist := [], histFmt := f, histBins := 0, histPixels := 0 }

/-- Q.ACC (42_quantizer.md R243). The pixels are read before the first is counted (log 11). -/
def execQAcc (s : State) : Host.Outcome State Fault Refusal :=
  let a := s.src.toNat
  let n := s.count.toNat
  perform 0x31 s <|
    if n = 0 then .ok s else
    raiseIf (2 ^ 32 - 1 < s.histPixels.toNat + n) .length <|
    raiseIf (s.params.pixWords < a + n) .bounds <|
    (readWordElems s .pix a n).bind fun pixels =>
      let t := pixels.foldl countPixel s
      .ok { t with histPixels := t.histPixels + s.count }

/-! ## The bin arena -/

/-- A record of the bin arena (10_state.md R61). -/
structure ArenaBin where
  r : F64
  g : F64
  b : F64
  a : F64
  n : F64
  err : F64
  nn : Nat
  fw : Nat
  bk : Nat
  tm : Nat
  mtm : Nat
  deleted : Bool
deriving DecidableEq, Repr

/-- What an index outside the arena reads as; no rule reads one. -/
def ArenaBin.absent : ArenaBin :=
  ⟨f64PosZero, f64PosZero, f64PosZero, f64PosZero, f64PosZero, sentinel, 0, 0, 0, 0, 0, true⟩

/-- The arena b[0 .. M-1]. -/
abbrev Arena := List ArenaBin

/-- b[i] -/
def arenaAt (ar : Arena) (i : Nat) : ArenaBin := ar.getD i ArenaBin.absent

/-- The record of a histogram bin: averages are the sum times the rounded reciprocal of the count (42_quantizer.md
R251). -/
def compactBin (alpha : Bool) (h : Bin) : ArenaBin :=
  let d := fdiv f64One (f64OfNat h.cnt.toNat)
  { r := fmul (f64OfNat h.rsum.toNat) d
    g := fmul (f64OfNat h.gsum.toNat) d
    b := fmul (f64OfNat h.bsum.toNat) d
    a := if alpha then fmul (f64OfNat h.asum.toNat) d else f64PosZero
    n := f64OfNat h.cnt.toNat
    err := sentinel
    nn := 0, fw := 0, bk := 0, tm := 0, mtm := 0
    deleted := false }

/-- Compact(f) of 42_quantizer.md R251: the bins with a pixel, in ascending key order below DOMAIN(f). A bin that is not
listed in H has no pixel, so going through the listed bins goes through every key. -/
def compactBins (f : Format) (h : Histogram) : Arena :=
  (h.filter (fun c => c.1 < domain f ∧ c.2.cnt ≠ 0)).map (fun c => compactBin (hasAlpha f) c.2)

/-- The test of Dampen (42_quantizer.md R252). -/
def usesSqrt (p : Params) (ncol m : Nat) : Bool :=
  flt (fdiv (f64OfNat (ncol * ncol)) (f64OfNat m)) p.sqrtThreshold

/-- Dampen(NCOL, M) of 42_quantizer.md R252. -/
def dampen (p : Params) (ncol : Nat) (ar : Arena) : Arena :=
  if usesSqrt p ncol ar.length then ar.map (fun x => { x with n := fsqrt x.n }) else ar

/-- Link(M) of 42_quantizer.md R253, from arena index `i` on. Index 0 ends a forward walk. -/
def linkFrom : Nat → Arena → Arena
  | _, [] => []
  | i, [x] => [{ x with fw := 0, bk := i - 1 }]
  | i, x :: y :: rest => { x with fw := i + 1, bk := i - 1 } :: linkFrom (i + 1) (y :: rest)

/-! ## The neighbour search and the heap -/

/-- sq(x) of 42_quantizer.md R255. -/
def fsq (x : F64) : F64 := fmul x x

/-- The weight n1·n2 / (n1 + n2) of a pair (42_quantizer.md R255). -/
def pairWeight (n1 n2 : F64) : F64 := fdiv (fmul n1 n2) (fadd n1 n2)

/-- The squared-error merge cost of bins x and y, terms in the order alpha, R, G, B (42_quantizer.md R255). -/
def mergeCost (useAlpha : Bool) (x y : ArenaBin) : F64 :=
  let w := pairWeight x.n y.n
  let e0 := if useAlpha then fadd f64PosZero (fmul w (fsq (fsub y.a x.a))) else f64PosZero
  let e1 := fadd e0 (fmul w (fsq (fsub y.r x.r)))
  let e2 := fadd e1 (fmul w (fsq (fsub y.g x.g)))
  fadd e2 (fmul w (fsq (fsub y.b x.b)))

/-- The loop of FindNN (42_quantizer.md R255): the best cost and its bin after the candidates from `j` on. The first
argument bounds the turns; a forward chain has fewer than M. -/
def searchNN (p : Params) (alpha : Bool) (ar : Arena) (x : ArenaBin) : Nat → Nat → F64 → Nat → F64 × Nat
  | 0, _, best, nn => (best, nn)
  | k + 1, j, best, nn =>
    if j = 0 then (best, nn)
    else
      let y := arenaAt ar j
      if p.nnWeightPrune && fle best (pairWeight x.n y.n) then searchNN p alpha ar x k y.fw best nn
      else
        let e := mergeCost (alpha && p.nnUseAlpha) x y
        if flt e best then searchNN p alpha ar x k y.fw e j
        else searchNN p alpha ar x k y.fw best nn

/-- FindNN(i) of 42_quantizer.md R255. -/
def findNN (p : Params) (alpha : Bool) (ar : Arena) (i : Nat) : Arena :=
  let x := arenaAt ar i
  let best := searchNN p alpha ar x ar.length x.fw sentinel 0
  ar.set i { x with err := best.1, nn := best.2 }

/-- hp[l], l counted from 1 (10_state.md R62). The list's length is hsz. -/
def heapAt (hp : List Nat) (l : Nat) : Nat := hp.getD (l - 1) 0

/-- hp[l] <- x -/
def heapSet (hp : List Nat) (l x : Nat) : List Nat := hp.set (l - 1) x

/-- The loop of HeapPush(x) from position `l` (42_quantizer.md R256); the first argument bounds the turns. -/
def siftUp (ar : Arena) (x : Nat) : Nat → List Nat → Nat → List Nat
  | 0, hp, l => heapSet hp l x
  | k + 1, hp, l =>
    if l > 1 then
      let p := l >>> 1
      if fle (arenaAt ar (heapAt hp p)).err (arenaAt ar x).err then heapSet hp l x
      else siftUp ar x k (heapSet hp l (heapAt hp p)) p
    else heapSet hp l x

/-- HeapPush(x) of 42_quantizer.md R256. -/
def heapPush (ar : Arena) (hp : List Nat) (x : Nat) : List Nat :=
  let hp1 := hp ++ [x]
  siftUp ar x hp1.length hp1 hp1.length

/-- The child that SiftDown compares with: the right one only when the left one's cost is greater (42_quantizer.md
R257). -/
def lesserChild (ar : Arena) (hp : List Nat) (l : Nat) : Nat :=
  let c := 2 * l
  if c < hp.length ∧ flt (arenaAt ar (heapAt hp (c + 1))).err (arenaAt ar (heapAt hp c)).err then c + 1 else c

/-- The loop of SiftDown(x) from position `l` (42_quantizer.md R257); the first argument bounds the turns. -/
def siftDownFrom (ar : Arena) (x : Nat) : Nat → List Nat → Nat → List Nat
  | 0, hp, l => heapSet hp l x
  | k + 1, hp, l =>
    if 2 * l ≤ hp.length then
      let c := lesserChild ar hp l
      if fle (arenaAt ar x).err (arenaAt ar (heapAt hp c)).err then heapSet hp l x
      else siftDownFrom ar x k (heapSet hp l (heapAt hp c)) c
    else heapSet hp l x

/-- SiftDown(x) of 42_quantizer.md R257. -/
def siftDown (ar : Arena) (hp : List Nat) (x : Nat) : List Nat := siftDownFrom ar x hp.length hp 1

/-- BuildHeap(M) of 42_quantizer.md R254, for the `k` bins from `i` on. -/
def buildHeap (p : Params) (alpha : Bool) : Nat → Nat → Arena → List Nat → Arena × List Nat
  | 0, _, ar, hp => (ar, hp)
  | k + 1, i, ar, hp =>
    let ar1 := findNN p alpha ar i
    buildHeap p alpha k (i + 1) ar1 (heapPush ar1 hp i)

/-! ## Phase 2: merging -/

/-- Valid(x) of 42_quantizer.md R259. -/
def validTop (ar : Arena) (x : Nat) : Bool :=
  let bx := arenaAt ar x
  let by' := arenaAt ar bx.nn
  !bx.deleted && decide (bx.mtm ≤ bx.tm) && !by'.deleted && decide (by'.mtm ≤ bx.tm)

/-- The inner loop of MergeLoop (42_quantizer.md R258) at merge count `i`: the arena, the heap and the valid top. The
first argument bounds the turns: each turn drops a deleted entry or makes a stale one current, so hsz + 1 find a valid
top (log 12). -/
def popValid (p : Params) (alpha : Bool) (i : Nat) : Nat → Arena → List Nat → Arena × List Nat × Nat
  | 0, ar, hp => (ar, hp, heapAt hp 1)
  | k + 1, ar, hp =>
    let x := heapAt hp 1
    if validTop ar x then (ar, hp, x)
    else if (arenaAt ar x).deleted then
      let y := heapAt hp hp.length
      popValid p alpha i k ar (siftDown ar (heapSet hp 1 y).dropLast y)
    else
      let ar1 := findNN p alpha ar x
      let ar2 := ar1.set x { arenaAt ar1 x with tm := i }
      popValid p alpha i k ar2 (siftDown ar2 hp x)

/-- The count-weighted average of a channel (42_quantizer.md R260). -/
def mergeAvg (d n1 n2 x y : F64) : F64 := fmul d (fadd (fmul n1 x) (fmul n2 y))

/-- Bin x after it absorbs bin y, the merge count then being `i` (42_quantizer.md R260). -/
def absorb (alpha : Bool) (x y : ArenaBin) (i : Nat) : ArenaBin :=
  let d := fdiv f64One (fadd x.n y.n)
  { x with
    a := if alpha then mergeAvg d x.n y.n x.a y.a else x.a
    r := mergeAvg d x.n y.n x.r y.r
    g := mergeAvg d x.n y.n x.g y.g
    b := mergeAvg d x.n y.n x.b y.b
    n := fadd x.n y.n
    mtm := i }

/-- The removal of bin y from the list (42_quantizer.md R260). -/
def unlinkBin (ar : Arena) (y : Nat) : Arena :=
  let by' := arenaAt ar y
  let ar1 := ar.set by'.bk { arenaAt ar by'.bk with fw := by'.fw }
  let ar2 := if by'.fw ≠ 0 then ar1.set by'.fw { arenaAt ar1 by'.fw with bk := by'.bk } else ar1
  ar2.set y { arenaAt ar2 y with deleted := true }

/-- Merge(x, y) of 42_quantizer.md R260, `i` being the merge count before it. -/
def mergeBins (alpha : Bool) (ar : Arena) (i x y : Nat) : Arena :=
  unlinkBin (ar.set x (absorb alpha (arenaAt ar x) (arenaAt ar y) (i + 1))) y

/-- MergeLoop of 42_quantizer.md R258: the number of merges still to make, the merge count, and the arena with the
heap, as they are and as the merges leave them. -/
def mergeLoop (p : Params) (alpha : Bool) : Nat → Nat → Arena × List Nat → Arena × List Nat
  | 0, _, a => a
  | k + 1, i, a =>
    let t := popValid p alpha i (a.2.length + 1) a.1 a.2
    mergeLoop p alpha k (i + 1) (mergeBins alpha t.1 i t.2.2 (arenaAt t.1 t.2.2).nn, t.2.1)

/-! ## Phase 3: extraction -/

/-- The palette entry of a surviving bin (42_quantizer.md R261). -/
def extractColor (q : QCfg) (alpha : Bool) (x : ArenaBin) : Rgba :=
  let chan (v : F64) : BitVec 8 := BitVec.ofNat 8 (roundClamp v)
  if alpha then
    if q.caEn && decide (roundClamp x.a ≤ q.caThr.toNat) then ⟨q.caCol, q.caCol, q.caCol, 0⟩
    else ⟨chan x.r, chan x.g, chan x.b, chan x.a⟩
  else ⟨chan x.r, chan x.g, chan x.b, 255⟩

/-- The bins of the list from index `i` on; the first argument bounds the walk. -/
def walkList (ar : Arena) : Nat → Nat → List ArenaBin
  | 0, _ => []
  | k + 1, i =>
    let x := arenaAt ar i
    x :: if x.fw = 0 then [] else walkList ar k x.fw

/-- The list without an entry that equals an earlier one (42_quantizer.md R262). -/
def dedupFrom (seen : List Rgba) : List Rgba → List Rgba
  | [] => []
  | c :: cs => if c ∈ seen then dedupFrom seen cs else c :: dedupFrom (c :: seen) cs

/-- Extract() of 42_quantizer.md R261 and R262. -/
def extractPalette (q : QCfg) (alpha : Bool) (ar : Arena) : List Rgba :=
  dedupFrom [] ((walkList ar ar.length 0).map (extractColor q alpha))

/-- The arena and the heap with which MergeLoop begins (42_quantizer.md R251 to R254). -/
def mergeStart (p : Params) (f : Format) (h : Histogram) (ncol : Nat) : Arena × List Nat :=
  let ar := linkFrom 0 (dampen p ncol (compactBins f h))
  buildHeap p (hasAlpha f) ar.length 0 ar []

/-- The palette Q.RED writes: phases 2 and 3 (42_quantizer.md R250). -/
def reducePalette (p : Params) (q : QCfg) (f : Format) (h : Histogram) (ncol : Nat) : List Rgba :=
  let a := mergeStart p f h ncol
  extractPalette q (hasAlpha f) (mergeLoop p (hasAlpha f) (a.1.length - ncol) 0 a).1

/-- WritePalette(pal) of 42_quantizer.md R262. -/
def writePalette (s : State) (pal : List Rgba) : State :=
  { s with
    mem := setBytes s.mem (elemAddr .pal 0) (pal.flatMap (fun c => wordBytes (packPixel c)))
    palLen := BitVec.ofNat 9 pal.length }

/-- Q.RED (42_quantizer.md R250). -/
def execQRed (ncol : BitVec 9) (s : State) : Host.Outcome State Fault Refusal :=
  perform 0x32 s <|
    raiseIf (ncol.toNat < 1 ∨ 256 < ncol.toNat) .arg <|
    raiseIf (s.histBins = 0) .emptyHist <|
    .ok (writePalette s (reducePalette s.params s.qcfg s.histFmt s.hist ncol.toNat))

end Sys2Proof.Machine
end

