-- ==== Sys2Proof/Machine/System.lean ====
section
/-! DEFINITION. The system commands NOP and SRST (45_system.md). -/

namespace Sys2Proof.Machine

/-- NOP (45_system.md R380): no effect. -/
def execNop (s : State) : Host.Outcome State Fault Refusal := .next s

/-- The session state of a new GIF: CURSOR, GSTATE, GPAL_LEN, ERR, ERR_OP and HAZ at 0 (45_system.md R381). -/
def softReset (s : State) : State :=
  { s with cursor := 0, gstate := .uninit, gpalLen := 0, err := .none, errOp := 0, haz := false }

/-- SRST (45_system.md R381). -/
def execSrst (s : State) : Host.Outcome State Fault Refusal := .next (softReset s)

end Sys2Proof.Machine
end

