-- ==== Sys2Proof/Machine/Dispatch.lean ====
section
/-! DEFINITION. The dispatch: one arm per command of spec/opcode_table.json, each one direct call of its meaning. -/

namespace Sys2Proof.Machine

def exec (i : Instr) (s : State) : Host.Outcome State Fault Refusal :=
  match i with
  | .nop => Sys2Proof.Machine.execNop s
  | .srst => Sys2Proof.Machine.execSrst s
  | .bsWb imm8 => Sys2Proof.Machine.execBsWb imm8 s
  | .bsWbs => Sys2Proof.Machine.execBsWbs s
  | .bsRst => Sys2Proof.Machine.execBsRst s
  | .lEnc d => Sys2Proof.Machine.execLEnc d s
  | .qClr fmt => Sys2Proof.Machine.execQClr fmt s
  | .qAcc => Sys2Proof.Machine.execQAcc s
  | .qRed ncol => Sys2Proof.Machine.execQRed ncol s
  | .mMap fmt => Sys2Proof.Machine.execMMap fmt s
  | .gHdr => Sys2Proof.Machine.execGHdr s
  | .gFrm => Sys2Proof.Machine.execGFrm s
  | .gFin => Sys2Proof.Machine.execGFin s

end Sys2Proof.Machine
end

