-- ==== Sys2Proof/Machine/Step.lean ====
section
/-! DEFINITION. One step of the machine: the host makes one access, or the core performs the latched command as one
indivisible step (00_scope.md R5, 20_memory.md R120), in the order `State.schedule` gives. -/

namespace Sys2Proof.Machine

/-- `step_core()` of 30_encoding.md R140 for the latched word of a busy core. -/
def coreStep (s : State) : Host.Outcome State Fault Refusal :=
  match latched s with
  | .discarded => .next (retire s)
  | .illegal op => .next (retire (raiseError s op .illegalCmd))
  | .run i => retireOutcome (exec i s)

/-- The core's turn: an idle core does nothing on its own (70_reset_and_hazards.md R441). -/
def coreTurn (s : State) : Host.Outcome State Fault Refusal :=
  if s.busy then coreStep s else .next s

/-- One step (log 1): with nothing scheduled it is the core's turn; a POLL gives the core its turns until BUSY is 0, and
then reads STATUS (30_encoding.md R156; log 22). -/
def step (s : State) : Host.Outcome State Fault Refusal :=
  match s.schedule with
  | [] => coreTurn s
  | .core :: rest => coreTurn { s with schedule := rest }
  | .access op :: rest => hostAccess { s with schedule := rest } op
  | .poll :: rest => if s.busy then coreStep s else .next (pollDone { s with schedule := rest })

/-- `s` with the command word `w` latched (10_state.md R32), the core's turn next, and no error recorded, so that the
latched word is not discarded (60_exceptions.md R412; log 15). -/
def State.withFetchWord (s : State) (_nbits w : Nat) : State :=
  { s with cmdl := BitVec.ofNat 32 w, busy := true, err := .none, errOp := 0, schedule := .core :: s.schedule }

end Sys2Proof.Machine
end

