-- ==== Sys2Proof/WellFormed.lean ====
section
/-! DEFINITION. Which commands hold only field values that 30_encoding.md R145 calls legal, and which parameters meet
the constraints of 00_scope.md R9. A command that is not well formed still has an encoding and a meaning: it raises
E_ARG (30_encoding.md R151; log 19). -/

namespace Sys2Proof

/-- 30_encoding.md R145: D is 0..8, FMT is not 3, NCOL is 1..256, IMM8 is any byte. -/
def Instr.wf : Instr → Bool
  | .nop => true
  | .srst => true
  | .bsWb _ => true
  | .bsWbs => true
  | .bsRst => true
  | .lEnc d => d.toNat ≤ 8
  | .qClr fmt => fmt.toNat ≠ 3
  | .qAcc => true
  | .qRed ncol => 1 ≤ ncol.toNat ∧ ncol.toNat ≤ 256
  | .mMap fmt => fmt.toNat ≠ 3
  | .gHdr => true
  | .gFrm => true
  | .gFin => true

/-- The constraints of 00_scope.md R9. A positive binary64 value has sign bit 0 and is neither zero nor a NaN. -/
abbrev Params.wf (p : Params) : Prop :=
  p.pixWords % 4 = 0 ∧ 4 ≤ p.pixWords ∧ p.pixWords ≤ 2 ^ 22 ∧
  p.bufBytes % 4 = 0 ∧ 4 ≤ p.bufBytes ∧ p.bufBytes ≤ 65536 ∧
  p.outCap % 4 = 0 ∧ 64 ≤ p.outCap ∧ p.outCap ≤ 2 ^ 26 ∧
  0 < p.sqrtThreshold.toNat ∧ p.sqrtThreshold.toNat ≤ 0x7FF0000000000000 ∧
  4090 < p.lzwHsize

end Sys2Proof
end

