-- ==== Sys2Proof/Safety.lean ====
section
/-! DEFINITION. The terms that claims about the CORE are stated in: the invariants of its state, sequences of commands,
what an append leaves, the bytes of a frame, the code sequence of an LZW pass and a GIF LZW decoder, and what it means
for a binary64 result to be correctly rounded. -/

namespace Sys2Proof.Machine

/-! ## Invariants -/

/-- CURSOR ≤ OUT_CAP (10_state.md R42). -/
abbrev State.cursorBounded (s : State) : Prop := s.cursor.toNat ≤ s.params.outCap

/-- Every byte of the stream holds a value. -/
abbrev State.streamWritten (s : State) : Prop := ∀ k < s.cursor.toNat, (memByte s.mem (outAddr k)).isSome

/-- A listed bin holds a pixel, and its sums are sums of that many channels (10_state.md R60). -/
abbrev Bin.sound (b : Bin) : Prop :=
  b.cnt ≠ 0 ∧ b.rsum.toNat ≤ 255 * b.cnt.toNat ∧ b.gsum.toNat ≤ 255 * b.cnt.toNat ∧
  b.bsum.toNat ≤ 255 * b.cnt.toNat ∧ b.asum.toNat ≤ 255 * b.cnt.toNat

/-- The pixels a histogram holds: the sum of its counts (10_state.md R48). -/
def pixelTotal (h : Histogram) : Nat := (h.map (fun c => c.2.cnt.toNat)).sum

/-- The histogram is canonical, its keys are below DOMAIN(HIST_FMT), its bins are sound, HIST_BINS is the number of
non-empty bins and HIST_PIXELS the sum of their counts (10_state.md R47, R48, R60). -/
abbrev State.histOk (s : State) : Prop :=
  Histogram.wf s.hist ∧ (∀ c ∈ s.hist, c.1 < domain s.histFmt ∧ c.2.sound) ∧
  s.histBins.toNat = s.hist.length ∧ s.histPixels.toNat = pixelTotal s.hist

/-- ERR_OP is 0 when no error is recorded (10_state.md R35). -/
abbrev State.errRecordOk (s : State) : Prop := s.err = .none → s.errOp = 0

/-- The global table has at most 256 entries (10_state.md R45, 44_gif_mux.md R340). -/
abbrev State.gpalBounded (s : State) : Prop := s.gpalLen.toNat ≤ maxPalette

/-- What holds in every state a run from reset reaches. -/
abbrev State.Inv (s : State) : Prop :=
  s.params.wf ∧ Memory.wf s.mem ∧ s.cursorBounded ∧ s.streamWritten ∧ s.histOk ∧ s.errRecordOk ∧ s.gpalBounded

/-! ## The opcode table -/

/-- The rows of 30_encoding.md R150 as (mask, match) of R152. -/
def opcodeRows : List (Word × Word) :=
  [(maskN, 0x00000000#32), (maskN, 0x01000000#32), (maskB, 0x10000000#32), (maskN, 0x11000000#32),
   (maskN, 0x12000000#32), (maskL, 0x20000000#32), (maskF, 0x30000000#32), (maskN, 0x31000000#32),
   (maskQ, 0x32000000#32), (maskF, 0x40000000#32), (maskN, 0x50000000#32), (maskN, 0x51000000#32),
   (maskN, 0x52000000#32)]

/-- The row matches the word (30_encoding.md R152). -/
abbrev rowMatches (w : Word) (r : Word × Word) : Prop := w &&& r.1 = r.2

/-! ## The core's turn -/

/-- The next step is the core's turn, which it takes in `u`: nothing is scheduled, or its turn is, or a POLL, which stays
at the head of the schedule (30_encoding.md R140, R156; log 1, log 22). -/
abbrev CoreTurn (s u : State) : Prop :=
  (s.schedule = [] ∧ u = s) ∨ (∃ rest, s.schedule = .core :: rest ∧ u = { s with schedule := rest }) ∨
  ∃ rest, s.schedule = .poll :: rest ∧ u = s

/-! ## Sequences of commands and the stream -/

/-- The commands performed one after the other, stopping at the first fault or refusal. -/
def execSeq : List Instr → State → Host.Outcome State Fault Refusal
  | [], s => .next s
  | i :: is, s =>
    match exec i s with
    | .next t => execSeq is t
    | .fault f => .fault f
    | .refused r => .refused r

/-- The state with the bytes `vs` appended to the stream (40_bytestream.md R181). -/
def pushBytes (s : State) (vs : List Byte) : State :=
  { s with
    mem := setBytes s.mem (outAddr s.cursor.toNat) vs
    cursor := s.cursor + BitVec.ofNat 32 vs.length }

/-- The elements `a .. a + vs.length - 1` of the byte memory `sp` hold `vs`. -/
abbrev holdsBytes (s : State) (sp : Space) (a : Nat) (vs : List Byte) : Prop :=
  ∀ j < vs.length, memByte s.mem (elemAddr sp (a + j)) = vs[j]?

/-- The elements `a .. a + ws.length - 1` of the word memory `sp` hold `ws`. -/
abbrev holdsWords (s : State) (sp : Space) (a : Nat) (ws : List Word) : Prop :=
  ∀ j < ws.length, ∀ k < 4,
    memByte s.mem (elemAddr sp (a + j) + k) = ws[j]?.map (fun w => w.extractLsb' (8 * k) 8)

/-- The command ends with the error `e` recorded (60_exceptions.md R410). -/
abbrev Raises (i : Instr) (s : State) (e : ErrCode) : Prop := exec i s = .next (raiseError s i.opcode e)

/-- Every byte of memory but those from `lo` up to `hi` reads in `t` as in `s`. -/
abbrev sameMemoryOutside (s t : State) (lo hi : Nat) : Prop :=
  ∀ a, a < lo ∨ hi ≤ a → memByte t.mem a = memByte s.mem a

/-- The stream begins with the signature (44_gif_mux.md R353). -/
abbrev streamSigned (s : State) : Prop :=
  6 ≤ s.cursor.toNat ∧ ∀ k < 6, memByte s.mem (outAddr k) = signatureBytes[k]?

/-- The sum of a channel over the pixels with key `k` (42_quantizer.md R243). -/
abbrev keySum (f : Format) (k : Nat) (chan : Rgba → BitVec 8) (pixels : List Word) : Nat :=
  ((pixels.filter (fun p => colorKey f (unpackPixel p) = k)).map (fun p => (chan (unpackPixel p)).toNat)).sum

/-! ## The bytes of a frame -/

/-- The bytes of a colour table whose entries are `pal` (44_gif_mux.md R334). -/
def tableBytes (pal : List Word) : List Byte :=
  pal.flatMap rgbBytes ++ List.replicate (3 * (2 ^ ctSize pal.length - pal.length)) 0

/-- The bytes one G.FRM appends, in order (44_gif_mux.md R345), for a table in use of `lp` entries, which are `pal` where
the frame writes them. -/
def frameBytes (s : State) (lp : Nat) (pal : List Word) (indices : List Byte) : List Byte :=
  (if s.modeAuto ∧ s.gstate = .uninit then signatureBytes else []) ++
  (if isFirstFrame s then
    lsdBytes s.frWidth s.frHeight lp ++ tableBytes pal ++ (if s.frFlags.loopEn then netscapeBytes s.frLoop else [])
   else []) ++
  gceBytes s.frFlags s.frDelay ++
  imageDescBytes s.frWidth s.frHeight (s.frFlags.hasPal && !isFirstFrame s) lp ++
  (if s.frFlags.hasPal && !isFirstFrame s then tableBytes pal else []) ++
  lzwEncode (codeSizeOfTable lp) indices

/-! ## The code sequence of an LZW pass -/

/-- The pairs inserted since the last clear, oldest first: the pair at place `k` has the code `firstFree S + k`
(41_lzw.md R202, R203). -/
abbrev Phrases := List (Nat × Nat)

/-- The next code to assign. -/
def freeCode (S : Nat) (d : Phrases) : Nat := firstFree S + d.length

/-- The code of a pair, if it was inserted (41_lzw.md R203). -/
def phraseCode (S : Nat) (d : Phrases) (pre idx : Nat) : Option Nat := (d.idxOf? (pre, idx)).map (firstFree S + ·)

/-- The width after a code emitted at width `w` with `free` the next code to assign: one more where `w` bits cannot hold
`free`, up to 12 (41_lzw.md R206). -/
def grownWidth (w free : Nat) : Nat := if w < maxCodeBits ∧ 2 ^ w ≤ free then w + 1 else w

/-- The codes emitted for the indices after the first, and at the end of the input, each with its width: `ent` is the
prefix code and `w` the current width (41_lzw.md R202, R209, R210). -/
def loopCodes (S : Nat) (d : Phrases) (w ent : Nat) : List Byte → List (Nat × Nat)
  | [] => [(ent, w), (eoiCode S, grownWidth w (freeCode S d))]
  | c :: cs =>
    match phraseCode S d ent c.toNat with
    | some code => loopCodes S d w code cs
    | none =>
      if freeCode S d < codeLimit then
        (ent, w) :: loopCodes S (d ++ [(ent, c.toNat)]) (grownWidth w (freeCode S d)) c.toNat cs
      else (ent, w) :: (clearCode S, grownWidth w (freeCode S d)) :: loopCodes S [] (S + 1) c.toNat cs

/-- The codes of an LZW pass in emission order, each with its width (41_lzw.md R204, R206). -/
def lzwCodes (S : Nat) : List Byte → List (Nat × Nat)
  | [] => []
  | c :: cs => (clearCode S, S + 1) :: loopCodes S [] (S + 1) c.toNat cs

/-- The packed bit string as a number: the first code in the lowest bits (41_lzw.md R205). -/
def packValue : List (Nat × Nat) → Nat
  | [] => 0
  | c :: cs => c.1 + 2 ^ c.2 * packValue cs

/-- The length of the packed bit string. -/
def packLength (cs : List (Nat × Nat)) : Nat := (cs.map Prod.snd).sum

/-- The packed bytes; the last is padded with zero bits (41_lzw.md R205). -/
def packBytes (cs : List (Nat × Nat)) : List Byte :=
  (List.range ((packLength cs + 7) / 8)).map (fun i => BitVec.ofNat 8 (packValue cs >>> (8 * i)))

/-- The data as length-prefixed sub-blocks of at most 254 bytes (41_lzw.md R208); the first argument bounds their
number. -/
def subBlocks : Nat → List Byte → List Byte
  | 0, _ => []
  | k + 1, data =>
    if data = [] then []
    else BitVec.ofNat 8 (data.take subblockMax).length :: (data.take subblockMax ++ subBlocks k (data.drop subblockMax))

/-! ## A GIF LZW decoder -/

/-- The data bytes of sub-blocks that end with the zero-length block and nothing after it. -/
def joinBlocks : Nat → List Byte → Option (List Byte)
  | 0, _ => none
  | _ + 1, [] => none
  | k + 1, len :: rest =>
    if len = 0 then (if rest = [] then some [] else none)
    else if rest.length < len.toNat then none
    else (joinBlocks k (rest.drop len.toNat)).map (rest.take len.toNat ++ ·)

/-- The number whose bytes, lowest first, are given. -/
def bytesValue : List Byte → Nat
  | [] => 0
  | b :: bs => b.toNat + 256 * bytesValue bs

/-- The string a code stands for: a single index, a table entry, or the entry about to be added. -/
def decodeEntry (S : Nat) (table : List (List Byte)) (prev : Option (List Byte)) (code : Nat) : Option (List Byte) :=
  if code < clearCode S then some [BitVec.ofNat 8 code]
  else if code < firstFree S then none
  else match table[code - firstFree S]? with
    | some e => some e
    | none =>
      if code = firstFree S + table.length then prev.bind (fun p => p.head?.map (fun h => p ++ [h])) else none

/-- The decoder's table after a code that stands for `e`. -/
def growTable (S : Nat) (table : List (List Byte)) (prev : Option (List Byte)) (e : List Byte) : List (List Byte) :=
  match prev with
  | none => table
  | some p => if firstFree S + table.length < codeLimit then table ++ [p ++ e.take 1] else table

/-- The width of the next code. -/
def decodeWidth (S w : Nat) (table : List (List Byte)) : Nat :=
  if w < maxCodeBits ∧ 2 ^ w ≤ firstFree S + table.length then w + 1 else w

/-- Decoding a bit string `v` of `left` bits, lowest bits first, up to the end-of-information code. The first argument
bounds the number of codes. -/
def decodeBits (S : Nat) : Nat → Nat → List (List Byte) → Option (List Byte) → Nat → Nat → Option (List Byte)
  | 0, _, _, _, _, _ => none
  | k + 1, w, table, prev, v, left =>
    if left < w then none
    else
      let code := v % 2 ^ w
      if code = eoiCode S then some []
      else if code = clearCode S then decodeBits S k (S + 1) [] none (v >>> w) (left - w)
      else match decodeEntry S table prev code with
        | none => none
        | some e =>
          let table' := growTable S table prev e
          (decodeBits S k (decodeWidth S w table') table' (some e) (v >>> w) (left - w)).map (e ++ ·)

/-- Decoding image data: the minimum code size byte, the sub-blocks and the terminator (41_lzw.md R210, R211). -/
def lzwDecode : List Byte → Option (List Byte)
  | [] => none
  | S :: rest =>
    (joinBlocks rest.length rest).bind fun data =>
      decodeBits S.toNat (8 * data.length) (S.toNat + 1) [] none (bytesValue data) (8 * data.length)

/-! ## Binary64 results -/

/-- The value of a finite binary64 number. -/
def f64Rat (x : F64) : Option ℚ :=
  match f64Val x with
  | .fin neg m e => some ((if neg then -1 else 1) * (m : ℚ) * (2 : ℚ) ^ e)
  | .inf _ => none
  | .nan => none

/-- `x` is the finite binary64 number nearest the real number `q`, one with an even significand where two are equally near
(roundTiesToEven, 00_scope.md R12). -/
def RoundsTo (q : ℝ) (x : F64) : Prop :=
  ∃ v : ℚ, f64Rat x = some v ∧ ∀ (y : F64) (w : ℚ), f64Rat y = some w →
    |(v : ℝ) - q| < |(w : ℝ) - q| ∨
      (|(v : ℝ) - q| = |(w : ℝ) - q| ∧ (w = v ∨ x.getLsbD 0 = false))

/-- The least magnitude that roundTiesToEven does not round to a finite binary64 number: half a last place above the
largest one, 2^1024 - 2^971. -/
def overflowBound : ℚ := 2 ^ 1024 - 2 ^ 970

/-! ## The heap and the merge loop -/

/-- The heap order of 42_quantizer.md R256: no entry costs less than its parent. -/
abbrev HeapOrdered (ar : Arena) (hp : List Nat) : Prop :=
  ∀ c, 2 ≤ c → c ≤ hp.length →
    fle (arenaAt ar (heapAt hp (c / 2))).err (arenaAt ar (heapAt hp c)).err = true

/-- The heap order but at the root. -/
abbrev HeapOrderedBelow (ar : Arena) (hp : List Nat) : Prop :=
  ∀ c, 4 ≤ c → c ≤ hp.length →
    fle (arenaAt ar (heapAt hp (c / 2))).err (arenaAt ar (heapAt hp c)).err = true

/-- The costs are numbers. -/
abbrev CostsNumeric (ar : Arena) : Prop := ∀ x, (f64Rat (arenaAt ar x).err).isSome

/-- What the inner loop of MergeLoop is entered with at merge count `i` (42_quantizer.md R253, R258 to R260): the heap
names bins of the arena and at least one live one, bin 0 is live, no live bin has changed after time `i`, and the
forward link of a live bin is 0 or a live bin. -/
structure MergeReady (ar : Arena) (hp : List Nat) (i : Nat) : Prop where
  heapIndex : ∀ x ∈ hp, x < ar.length
  heapLive : ∃ x ∈ hp, (arenaAt ar x).deleted = false
  headLive : (arenaAt ar 0).deleted = false
  timeBound : ∀ x, (arenaAt ar x).deleted = false → (arenaAt ar x).mtm ≤ i
  linkLive : ∀ x, (arenaAt ar x).deleted = false →
    (arenaAt ar x).fw = 0 ∨ (arenaAt ar (arenaAt ar x).fw).deleted = false

end Sys2Proof.Machine
end

