-- ==== Sys2Proof/Certificates/Slice0/Obligations.lean ====
section
/-! DEFINITION. The statements for the provers. Each docstring names the rule of spec/ it formalises. `Raises i s e` is
error entry (60_exceptions.md R410) with the opcode byte of `i`; `sameMemoryOutside s t lo hi` is the frame of memory;
`CoreTurn s u` says that the next step is the core's turn, taken in `u` (log 1). -/

open Sys2Proof Sys2Proof.Machine

/-! ## Encoding -/

/-- 30_encoding.md R143, R150: every command, with its field at every value, decodes from its own word. -/
def Obligations.DecodeEncodeRoundTrip : Prop := ∀ i : Instr, decodeWord (encode i) = .ok i

/-- 30_encoding.md R152: a decoded word is the encoding of its command, so no bit of a legal word is dropped. -/
def Obligations.EncodeDecodeRoundTrip : Prop := ∀ (w : Word) (i : Instr), decodeWord w = .ok i → encode i = w

/-- 30_encoding.md R152: at most one row matches a word; a word that a row matches is a command of the row's opcode, and
a word no row matches is none. -/
def Obligations.ExactlyOneRowMatches : Prop :=
  ∀ w : Word,
    (∀ r ∈ opcodeRows, ∀ r' ∈ opcodeRows, rowMatches w r → rowMatches w r' → r = r') ∧
    (∀ r ∈ opcodeRows, rowMatches w r → ∃ i, decodeWord w = .ok i ∧ i.opcode = opField r.2) ∧
    ((∀ r ∈ opcodeRows, ¬ rowMatches w r) → ∃ e, decodeWord w = .error e)

/-- 30_encoding.md R150, 95_test_vectors.md: words of the spec's own programs decode to the commands they stand for. -/
def Obligations.SpecWordsDecode : Prop :=
  decodeWord 0x1000003B#32 = .ok (.bsWb 0x3B) ∧ decodeWord 0x20000002#32 = .ok (.lEnc 2) ∧
  decodeWord 0x30000002#32 = .ok (.qClr 2) ∧ decodeWord 0x32000101#32 = .ok (.qRed 257) ∧
  decodeWord 0x40000000#32 = .ok (.mMap 0) ∧ decodeWord 0x52000000#32 = .ok .gFin ∧
  decodeWord 0x10000100#32 = .error (.reservedBits 0x10) ∧ decodeWord 0x33000000#32 = .error (.reservedOpcode 0x33)

/-- 30_encoding.md R145: which field values are legal; a command with another one raises E_ARG, and a command with a
legal one never does. -/
def Obligations.FieldValuesAreLegalOrRaise : Prop :=
  (∀ b : BitVec 8, (Instr.bsWb b).wf = true) ∧ (∀ d : BitVec 4, (Instr.lEnc d).wf = true ↔ d.toNat ≤ 8) ∧
  (∀ f : BitVec 2, ((Instr.qClr f).wf = true ↔ f ≠ 3) ∧ ((Instr.mMap f).wf = true ↔ f ≠ 3)) ∧
  (∀ n : BitVec 9, (Instr.qRed n).wf = true ↔ 1 ≤ n.toNat ∧ n.toNat ≤ 256) ∧
  ∀ (i : Instr) (s : State),
    (i.wf = false → Raises i s .arg) ∧
    (i.wf = true → s.err ≠ .arg → ∀ t, exec i s = .next t → t.err ≠ .arg)

/-! ## The core's step -/

/-- 30_encoding.md R140 (the schedule is the model's, log 1): when the latched word decodes and is not discarded, the
core's turn is `exec` of the command, then BUSY is cleared. -/
def Obligations.StepRunsTheLatchedCommand : Prop :=
  ∀ (s : State) (i : Instr), s.busy = true → decodeWord s.cmdl = .ok i →
    (s.err = .none ∨ i = .nop ∨ i = .srst) →
    (s.schedule = [] → step s = retireOutcome (exec i s)) ∧
    (∀ rest, s.schedule = .core :: rest → step s = retireOutcome (exec i { s with schedule := rest })) ∧
    (∀ rest, s.schedule = .poll :: rest → step s = retireOutcome (exec i s)) ∧
    (∀ t, exec i s = .next t → (retire t).busy = false ∧ retire t = { t with busy := false, draws := (retire t).draws })

/-- 60_exceptions.md R412, R413, 10_state.md R35: while ERR is not 0 the core's turn on a word that is neither NOP nor
SRST discards it, so that only BUSY and the model's own fields change; and no step but an SRST's or a hardware reset's
changes the error record. That a malformed word with opcode byte 0x00 or 0x01 is neither command is log 8. -/
def Obligations.StickyErrorDiscards : Prop :=
  (∀ s u : State, s.busy = true → s.err ≠ .none → CoreTurn s u → s.cmdl ≠ 0x00000000#32 → s.cmdl ≠ 0x01000000#32 →
    ∃ t, step s = .next t ∧ t = { u with busy := false, draws := t.draws }) ∧
  ∀ s t : State, s.err ≠ .none → step s = .next t →
    (t.err = s.err ∧ t.errOp = s.errOp) ∨
    (s.busy = true ∧ s.cmdl = 0x01000000#32 ∧ (∃ u, CoreTurn s u) ∧ t.err = .none ∧ t.errOp = 0) ∨
    ((∃ rest, s.schedule = .access .reset :: rest) ∧ t.err = .none ∧ t.errOp = 0)

/-- 30_encoding.md R151: on the core's turn a word that no row matches raises E_ILLEGAL_CMD with no other effect, and a word
with a legal opcode and clear reserved bits is a command whatever its field. -/
def Obligations.IllegalWordRaises : Prop :=
  ∀ s u : State, s.busy = true → s.err = .none → CoreTurn s u →
    ((∀ r ∈ opcodeRows, ¬ rowMatches s.cmdl r) →
      ∃ t, step s = .next t ∧
        t = { u with err := .illegalCmd, errOp := opField s.cmdl, busy := false, mem := t.mem, draws := t.draws } ∧
        sameMemoryOutside s t (outAddr s.cursor.toNat) (outAddr s.params.outCap)) ∧
    (∀ r ∈ opcodeRows, rowMatches s.cmdl r → ∃ i, encode i = s.cmdl ∧ step s = retireOutcome (exec i u))

/-- 70_reset_and_hazards.md R441: the core is idle after reset and stays idle until the host writes CMD; its turn (log 1)
does nothing while it is idle, and a POLL then only reads STATUS. -/
def Obligations.IdleCoreStays : Prop :=
  State.reset.busy = false ∧
  (∀ s : State, s.busy = false →
    (s.schedule = [] → step s = .next s) ∧
    (∀ rest, s.schedule = .core :: rest → step s = .next { s with schedule := rest }) ∧
    (∀ rest, s.schedule = .poll :: rest → step s = .next { s with schedule := rest, rdata := statusWord s })) ∧
  ∀ s t : State, s.busy = false → step s = .next t →
    t.busy = false ∨ ∃ v rest, s.schedule = .access (.write 0x04#32 .word v) :: rest

/-- 60_exceptions.md R410: a command that ends with an error recorded, and a turn of the core that records one (an illegal
word's among them), leaves everything but ERR, ERR_OP (the word's opcode byte), BUSY and the OUT elements at and above
CURSOR as it was. -/
def Obligations.ErrorsArePrecise : Prop :=
  (∀ (i : Instr) (s t : State), s.err = .none → exec i s = .next t → t.err ≠ .none →
    t = { s with err := t.err, errOp := i.opcode, mem := t.mem } ∧
    sameMemoryOutside s t (outAddr s.cursor.toNat) (outAddr s.params.outCap)) ∧
  ∀ s u t : State, s.busy = true → CoreTurn s u → s.err = .none → step s = .next t → t.err ≠ .none →
    t = { u with err := t.err, errOp := opField s.cmdl, busy := false, mem := t.mem, draws := t.draws } ∧
    sameMemoryOutside s t (outAddr s.cursor.toNat) (outAddr s.params.outCap)

/-- 10_state.md R55, R37 to R41, R46, R50 to R52, 20_memory.md R124: no command writes an operand or configuration
register, the latch, BUSY or the parameters, and only SRST writes HAZ. -/
def Obligations.CommandsLeaveOperandRegisters : Prop :=
  ∀ (i : Instr) (s t : State), exec i s = .next t →
    t.src = s.src ∧ t.dst = s.dst ∧ t.count = s.count ∧ t.bufAddr = s.bufAddr ∧ t.modeAuto = s.modeAuto ∧
    t.qcfg = s.qcfg ∧ t.frWidth = s.frWidth ∧ t.frHeight = s.frHeight ∧ t.frDelay = s.frDelay ∧
    t.frLoop = s.frLoop ∧ t.frFlags = s.frFlags ∧ t.cmdl = s.cmdl ∧ t.busy = s.busy ∧ t.params = s.params ∧
    t.schedule = s.schedule ∧ t.rdata = s.rdata ∧ t.draws = s.draws ∧ (t.haz = s.haz ∨ i = .srst)

/-- 44_gif_mux.md R330, 10_state.md R34: the transitions of GSTATE that commands make. -/
def Obligations.GstateTransitions : Prop :=
  ∀ (i : Instr) (s t : State), exec i s = .next t →
    t.gstate = s.gstate ∨ (i = .srst ∧ t.gstate = .uninit) ∨
    (i = .gHdr ∧ s.modeAuto = false ∧ s.gstate = .uninit ∧ t.gstate = .header) ∨
    (i = .gFrm ∧ s.gstate ≠ .final ∧ t.gstate = .header) ∨
    (i = .gFin ∧ s.gstate = .header ∧ t.gstate = .final)

/-- 20_memory.md R113, 93_implementation_defined.md U4: a command that would read an element without a value faults in the
model (log 3: the hardware reads whatever the element holds). It reaches the element when the checks before it pass:
L.ENC and G.FRM when the indices before it are in range, M.MAP's palette when the pixels are held, G.FRM's palette when the
indices are held and in range and the frame fits. -/
def Obligations.UnwrittenReadFaults : Prop :=
  ∀ (s : State) (j : Nat),
    (j < s.count.toNat → s.gstate ≠ .final → s.bufAddr.toNat + s.count.toNat ≤ s.params.bufBytes →
      s.cursor.toNat + s.count.toNat ≤ s.params.outCap → memByte s.mem (elemAddr .buf (s.bufAddr.toNat + j)) = none →
      ∃ k, exec .bsWbs s = .fault (.unwrittenElement .buf k)) ∧
    (∀ d : BitVec 4, j < s.count.toNat → d.toNat ≤ 8 → s.gstate ≠ .final →
      s.src.toNat + s.count.toNat ≤ s.params.pixWords →
      (∀ i < j, ∀ v, memByte s.mem (elemAddr .idx (s.src.toNat + i)) = some v → v.toNat < 2 ^ max 2 d.toNat) →
      memByte s.mem (elemAddr .idx (s.src.toNat + j)) = none →
      ∃ k, exec (.lEnc d) s = .fault (.unwrittenElement .idx k)) ∧
    (j < s.count.toNat → s.histPixels.toNat + s.count.toNat ≤ 2 ^ 32 - 1 →
      s.src.toNat + s.count.toNat ≤ s.params.pixWords →
      (∃ b < 4, memByte s.mem (elemAddr .pix (s.src.toNat + j) + b) = none) →
      ∃ k, exec .qAcc s = .fault (.unwrittenElement .pix k)) ∧
    (∀ fmt : BitVec 2, fmt ≠ 3 → 1 ≤ s.palLen.toNat → s.palLen.toNat ≤ 256 → 0 < s.count.toNat →
      s.src.toNat + s.count.toNat ≤ s.params.pixWords → s.dst.toNat + s.count.toNat ≤ s.params.pixWords →
      (j < s.count.toNat → (∃ b < 4, memByte s.mem (elemAddr .pix (s.src.toNat + j) + b) = none) →
        ∃ k, exec (.mMap fmt) s = .fault (.unwrittenElement .pix k)) ∧
      (∀ pixels : List Word, pixels.length = s.count.toNat → holdsWords s .pix s.src.toNat pixels →
        j < s.palLen.toNat → (∃ b < 4, memByte s.mem (elemAddr .pal j + b) = none) →
        ∃ k, exec (.mMap fmt) s = .fault (.unwrittenElement .pal k))) ∧
    (s.params.wf → s.gstate ≠ .final → (s.frFlags.hasPal = true ∨ isFirstFrame s = false) → 1 ≤ frameTableLen s →
      frameTableLen s ≤ 256 → s.frWidth ≠ 0 → s.frHeight ≠ 0 → s.count.toNat = s.frWidth.toNat * s.frHeight.toNat →
      s.src.toNat + s.count.toNat ≤ s.params.pixWords →
      (j < s.count.toNat →
        (∀ i < j, ∀ v, memByte s.mem (elemAddr .idx (s.src.toNat + i)) = some v → v.toNat < frameTableLen s) →
        memByte s.mem (elemAddr .idx (s.src.toNat + j)) = none →
        ∃ k, exec .gFrm s = .fault (.unwrittenElement .idx k)) ∧
      (∀ (indices : List Byte) (pal : List Word), indices.length = s.count.toNat →
        holdsBytes s .idx s.src.toNat indices → (∀ v ∈ indices, v.toNat < frameTableLen s) →
        s.frFlags.hasPal = true → pal.length = s.palLen.toNat →
        s.cursor.toNat + (frameBytes s (frameTableLen s) pal indices).length ≤ s.params.outCap →
        j < s.palLen.toNat → (∃ b < 4, memByte s.mem (elemAddr .pal j + b) = none) →
        ∃ k, exec .gFrm s = .fault (.unwrittenElement .pal k)))

/-! ## System commands -/

/-- 45_system.md R380: NOP changes nothing, whatever ERR holds, but for BUSY (and the model's own counter) when its step
ends; a word with opcode byte 0 and another bit set is no NOP. -/
def Obligations.NopHasNoEffect : Prop :=
  decodeWord 0x00000000#32 = .ok .nop ∧ (∀ s : State, exec .nop s = .next s) ∧
  (∀ s u : State, s.busy = true → s.cmdl = 0x00000000#32 → CoreTurn s u →
    ∃ t, step s = .next t ∧ t = { u with busy := false, draws := t.draws }) ∧
  ∀ w : Word, opField w = 0x00#8 → w ≠ 0x00000000#32 → decodeWord w = .error (.reservedBits 0x00#8)

/-- 45_system.md R381: SRST clears exactly the session state, and it is performed whatever ERR holds. -/
def Obligations.SrstClearsTheSession : Prop :=
  decodeWord 0x01000000#32 = .ok .srst ∧
  (∀ s u : State, s.busy = true → s.cmdl = 0x01000000#32 → CoreTurn s u →
    step s = retireOutcome (exec .srst u)) ∧
  ∀ s : State, ∃ t, exec .srst s = .next t ∧
    t.cursor = 0 ∧ t.gstate = .uninit ∧ t.gpalLen = 0 ∧ t.err = .none ∧ t.errOp = 0 ∧ t.haz = false ∧
    t = { s with cursor := t.cursor, gstate := t.gstate, gpalLen := t.gpalLen, err := t.err, errOp := t.errOp,
                 haz := t.haz }

/-! ## The bytestream_writer -/

/-- 40_bytestream.md R182: BS.WB appends its byte, or raises E_STATE or E_STREAM_FULL. -/
def Obligations.BsWbAppendsOneByte : Prop :=
  ∀ (b : BitVec 8) (s : State),
    (s.gstate = .final → Raises (.bsWb b) s .state) ∧
    decodeWord (0x10000000#32 ||| b.setWidth 32) = .ok (.bsWb b) ∧
    (s.gstate ≠ .final → s.params.outCap ≤ s.cursor.toNat → Raises (.bsWb b) s .streamFull) ∧
    (s.gstate ≠ .final → s.cursor.toNat < s.params.outCap →
      ∃ t, exec (.bsWb b) s = .next t ∧ t = { s with mem := t.mem, cursor := s.cursor + 1 } ∧
        memByte t.mem (outAddr s.cursor.toNat) = some b ∧
        sameMemoryOutside s t (outAddr s.cursor.toNat) (outAddr s.cursor.toNat + 1))

/-- 40_bytestream.md R183: BS.WBS appends COUNT bytes of BUF, or raises in the order the rule gives. -/
def Obligations.BsWbsAppendsTheBuffer : Prop :=
  decodeWord 0x11000000#32 = .ok .bsWbs ∧
  ∀ s : State, s.params.wf →
    (s.gstate = .final → Raises .bsWbs s .state) ∧
    (s.gstate ≠ .final → s.count.toNat = 0 → exec .bsWbs s = .next s) ∧
    (s.gstate ≠ .final → 0 < s.count.toNat → s.params.bufBytes < s.bufAddr.toNat + s.count.toNat →
      Raises .bsWbs s .bounds) ∧
    (s.gstate ≠ .final → 0 < s.count.toNat → s.bufAddr.toNat + s.count.toNat ≤ s.params.bufBytes →
      s.params.outCap < s.cursor.toNat + s.count.toNat → Raises .bsWbs s .streamFull) ∧
    ∀ bytes : List Byte, bytes.length = s.count.toNat → holdsBytes s .buf s.bufAddr.toNat bytes →
      s.gstate ≠ .final → 0 < s.count.toNat → s.bufAddr.toNat + s.count.toNat ≤ s.params.bufBytes →
      s.cursor.toNat + s.count.toNat ≤ s.params.outCap →
      ∃ t, exec .bsWbs s = .next t ∧ t = { s with mem := t.mem, cursor := t.cursor } ∧
        t.cursor.toNat = s.cursor.toNat + s.count.toNat ∧ holdsBytes t .out s.cursor.toNat bytes ∧
        sameMemoryOutside s t (outAddr s.cursor.toNat) (outAddr s.cursor.toNat + s.count.toNat)

/-- 40_bytestream.md R184: BS.RST sets CURSOR to 0 and changes nothing else. -/
def Obligations.BsRstRewinds : Prop :=
  decodeWord 0x12000000#32 = .ok .bsRst ∧
  ∀ s : State,
    (s.gstate = .final → Raises .bsRst s .state) ∧
    (s.gstate ≠ .final → exec .bsRst s = .next { s with cursor := 0 })

/-- 40_bytestream.md R181, which the spec marks as derived from R180, R182 and R183: K BS.WB commands and one BS.WBS
of the same K bytes leave the same state. -/
def Obligations.AppendsSplitInvariantly : Prop :=
  ∀ (s : State) (bytes : List Byte), s.params.wf →
    bytes.length = s.count.toNat → holdsBytes s .buf s.bufAddr.toNat bytes → s.gstate ≠ .final →
    s.bufAddr.toNat + s.count.toNat ≤ s.params.bufBytes → s.cursor.toNat + s.count.toNat ≤ s.params.outCap →
    ∃ t, exec .bsWbs s = .next t ∧ execSeq (bytes.map .bsWb) s = .next t

/-! ## The lzw_compressor -/

/-- 41_lzw.md R200: L.ENC appends the image data of IDX[SRC ..], or raises in the order the rule gives. -/
def Obligations.LEncAppendsImageData : Prop :=
  (∀ d : BitVec 4, decodeWord (0x20000000#32 ||| d.setWidth 32) = .ok (.lEnc d)) ∧
  ∀ (d : BitVec 4) (s : State), s.params.wf →
    (8 < d.toNat → Raises (.lEnc d) s .arg) ∧
    (d.toNat ≤ 8 → s.gstate = .final → Raises (.lEnc d) s .state) ∧
    (d.toNat ≤ 8 → s.gstate ≠ .final → s.count.toNat = 0 → Raises (.lEnc d) s .length) ∧
    (d.toNat ≤ 8 → s.gstate ≠ .final → 0 < s.count.toNat → s.params.pixWords < s.src.toNat + s.count.toNat →
      Raises (.lEnc d) s .bounds) ∧
    ∀ indices : List Byte, indices.length = s.count.toNat → holdsBytes s .idx s.src.toNat indices →
      d.toNat ≤ 8 → s.gstate ≠ .final → 0 < s.count.toNat → s.src.toNat + s.count.toNat ≤ s.params.pixWords →
      ((∃ v ∈ indices, 2 ^ max 2 d.toNat ≤ v.toNat) → Raises (.lEnc d) s .indexRange) ∧
      ((∀ v ∈ indices, v.toNat < 2 ^ max 2 d.toNat) →
        s.params.outCap < s.cursor.toNat + (lzwEncode (max 2 d.toNat) indices).length →
        Raises (.lEnc d) s .streamFull) ∧
      ((∀ v ∈ indices, v.toNat < 2 ^ max 2 d.toNat) →
        s.cursor.toNat + (lzwEncode (max 2 d.toNat) indices).length ≤ s.params.outCap →
        ∃ t, exec (.lEnc d) s = .next t ∧ t = { s with mem := t.mem, cursor := t.cursor } ∧
          t.cursor.toNat = s.cursor.toNat + (lzwEncode (max 2 d.toNat) indices).length ∧
          holdsBytes t .out s.cursor.toNat (lzwEncode (max 2 d.toNat) indices) ∧
          sameMemoryOutside s t (outAddr s.cursor.toNat)
            (outAddr s.cursor.toNat + (lzwEncode (max 2 d.toNat) indices).length))

/-- 41_lzw.md R205, R208, R210: the bytes of a pass are the minimum code size, the codes packed least significant bit
first and cut into sub-blocks of at most 254 bytes, and the terminator. -/
def Obligations.LzwBytesAreThePackedCodes : Prop :=
  ∀ (S : Nat) (c : Byte) (cs : List Byte), 2 ≤ S → S ≤ 8 → (∀ v ∈ c :: cs, v.toNat < 2 ^ S) →
    lzwEncode S (c :: cs) =
      BitVec.ofNat 8 S ::
        (subBlocks (packBytes (lzwCodes S (c :: cs))).length (packBytes (lzwCodes S (c :: cs))) ++ [0])

/-- 41_lzw.md R204, R206, R209, which the spec marks as derived from R202: every emitted code fits its width, which is
between S + 1 and 12; the end-of-information code is exactly the last; the clear code is the first and comes at each
saturation, which is after every 4096 - (2^S + 2) insertions and one more miss, so exactly at the multiples of 4096 - 2^S
before the last code. -/
def Obligations.LzwCodesFitTheirWidth : Prop :=
  ∀ (S : Nat) (indices : List Byte), 2 ≤ S → S ≤ 8 → indices ≠ [] → (∀ v ∈ indices, v.toNat < 2 ^ S) →
    ∀ (i : Nat) (c : Nat × Nat), (lzwCodes S indices)[i]? = some c →
      c.1 < 2 ^ c.2 ∧ S + 1 ≤ c.2 ∧ c.2 ≤ 12 ∧
      (c.1 = 2 ^ S + 1 ↔ i + 1 = (lzwCodes S indices).length) ∧
      (c.1 = 2 ^ S ↔ i % (4096 - 2 ^ S) = 0 ∧ i + 1 < (lzwCodes S indices).length)

/-- 41_lzw.md R211, which the spec marks as derived from R202 and R209: a GIF LZW decoder recovers exactly the
indices. -/
def Obligations.LzwIsLossless : Prop :=
  ∀ (S : Nat) (indices : List Byte), 2 ≤ S → S ≤ 8 → indices ≠ [] → (∀ v ∈ indices, v.toNat < 2 ^ S) →
    lzwDecode (lzwEncode S indices) = some indices

/-! ## The color_quantizer -/

/-- 42_quantizer.md R242: Q.CLR empties the histogram and sets its format. -/
def Obligations.QClrStartsAHistogram : Prop :=
  (∀ fmt : BitVec 2, decodeWord (0x30000000#32 ||| fmt.setWidth 32) = .ok (.qClr fmt)) ∧
  ∀ s : State, Raises (.qClr 3) s .arg ∧
    ∀ (fmt : BitVec 2) (f : Format), formatCode f = fmt →
      ∃ t, exec (.qClr fmt) s = .next t ∧ (∀ k, binAt t.hist k = Bin.zero) ∧
        t = { s with hist := t.hist, histFmt := f, histBins := 0, histPixels := 0 }

/-- 42_quantizer.md R243: Q.ACC counts each pixel in the bin of its key, or raises in the order the rule gives. The
sums are exact in states where the histogram registers agree with the histogram, which every step keeps. -/
def Obligations.QAccCountsPixels : Prop :=
  decodeWord 0x31000000#32 = .ok .qAcc ∧
  ∀ s : State, s.histOk →
    (s.count.toNat = 0 → exec .qAcc s = .next s) ∧
    (0 < s.count.toNat → 2 ^ 32 - 1 < s.histPixels.toNat + s.count.toNat → Raises .qAcc s .length) ∧
    (0 < s.count.toNat → s.histPixels.toNat + s.count.toNat ≤ 2 ^ 32 - 1 →
      s.params.pixWords < s.src.toNat + s.count.toNat → Raises .qAcc s .bounds) ∧
    ∀ pixels : List Word, pixels.length = s.count.toNat → holdsWords s .pix s.src.toNat pixels →
      0 < s.count.toNat → s.histPixels.toNat + s.count.toNat ≤ 2 ^ 32 - 1 →
      s.src.toNat + s.count.toNat ≤ s.params.pixWords →
      ∃ t, exec .qAcc s = .next t ∧
        t = { s with hist := t.hist, histBins := t.histBins, histPixels := t.histPixels } ∧ t.histOk ∧
        t.histPixels.toNat = s.histPixels.toNat + s.count.toNat ∧
        ∀ k, (binAt t.hist k).cnt.toNat = (binAt s.hist k).cnt.toNat +
              (pixels.filter (fun p => colorKey s.histFmt (unpackPixel p) = k)).length ∧
          (binAt t.hist k).rsum.toNat = (binAt s.hist k).rsum.toNat + keySum s.histFmt k Rgba.r pixels ∧
          (binAt t.hist k).gsum.toNat = (binAt s.hist k).gsum.toNat + keySum s.histFmt k Rgba.g pixels ∧
          (binAt t.hist k).bsum.toNat = (binAt s.hist k).bsum.toNat + keySum s.histFmt k Rgba.b pixels ∧
          (binAt t.hist k).asum.toNat = (binAt s.hist k).asum.toNat +
            (if s.histFmt = .rgba4444 then keySum s.histFmt k Rgba.a pixels else 0)

/-- 42_quantizer.md R243 (a corner case the spec marks as derived from the rule): two Q.ACC commands accumulate as one
over the concatenated pixels. -/
def Obligations.QAccAccumulates : Prop :=
  ∀ (s t u : State) (m n : Word), 0 < m.toNat → 0 < n.toNat → m.toNat + n.toNat < 2 ^ 32 →
    s.src.toNat + m.toNat < 2 ^ 32 → s.err = .none →
    exec .qAcc { s with count := m } = .next t → t.err = .none →
    exec .qAcc { t with src := s.src + m, count := n } = .next u → u.err = .none →
    exec .qAcc { s with count := m + n } = .next { u with src := s.src, count := m + n }

/-- 42_quantizer.md R250, R262: Q.RED raises E_ARG or E_EMPTY_HIST, or writes the palette it computes to PAL and its
length to PAL_LEN; the histogram and everything else stay. -/
def Obligations.QRedWritesThePalette : Prop :=
  ∀ (ncol : BitVec 9) (s : State),
    (ncol.toNat = 0 ∨ 256 < ncol.toNat → Raises (.qRed ncol) s .arg) ∧
    (1 ≤ ncol.toNat → ncol.toNat ≤ 256 → s.histBins = 0 → Raises (.qRed ncol) s .emptyHist) ∧
    (1 ≤ ncol.toNat → ncol.toNat ≤ 256 → s.histBins ≠ 0 →
      ∃ t, exec (.qRed ncol) s = .next t ∧
        t = { s with mem := t.mem,
                     palLen := BitVec.ofNat 9 (reducePalette s.params s.qcfg s.histFmt s.hist ncol.toNat).length } ∧
        holdsWords t .pal 0 ((reducePalette s.params s.qcfg s.histFmt s.hist ncol.toNat).map packPixel) ∧
        sameMemoryOutside s t (elemAddr .pal 0)
          (elemAddr .pal (reducePalette s.params s.qcfg s.histFmt s.hist ncol.toNat).length))

/-- 42_quantizer.md R263 (first and second items, which the spec marks as derived from R250 and R262), R251, R261, R262:
the palette has between 1 and NCOL entries and no more than the histogram has bins, merged or not; with no more bins than
colours asked for it is each bin's rounded average in ascending key order without duplicates. -/
def Obligations.FewBinsNeedNoMerge : Prop :=
  ∀ (s : State) (ncol : Nat), s.histOk → s.hist ≠ [] → 1 ≤ ncol →
    1 ≤ (reducePalette s.params s.qcfg s.histFmt s.hist ncol).length ∧
    (reducePalette s.params s.qcfg s.histFmt s.hist ncol).length ≤ ncol ∧
    (reducePalette s.params s.qcfg s.histFmt s.hist ncol).length ≤ s.hist.length ∧
    (s.hist.length ≤ ncol →
      reducePalette s.params s.qcfg s.histFmt s.hist ncol =
        dedupFrom [] (s.hist.map (fun c =>
          extractColor s.qcfg (hasAlpha s.histFmt) (compactBin (hasAlpha s.histFmt) c.2))))

/-- 42_quantizer.md R262: an entry equal to an earlier one is dropped and the first is kept, in order. -/
def Obligations.PaletteHasNoDuplicates : Prop :=
  ∀ l : List Rgba, (dedupFrom [] l).Nodup ∧ (∀ c, c ∈ dedupFrom [] l ↔ c ∈ l) ∧ List.Sublist (dedupFrom [] l) l ∧
    ∀ (j : Nat) (c : Rgba), l[j]? = some c → (∀ i < j, l[i]? ≠ some c) →
      (dedupFrom [] (l.take (j + 1))) = dedupFrom [] (l.take j) ++ [c]

/-- 42_quantizer.md R258, R259, R260: entered with a live bin in the heap, the inner loop of the merge loop ends with a
valid top within one turn more than the heap has entries; and every merge of a reduction enters it so, after the `k` merges
before it. The bound of log 12 is therefore never reached. -/
def Obligations.MergeLoopFindsAValidTop : Prop :=
  (∀ (p : Params) (alpha : Bool) (ar : Arena) (hp : List Nat) (i : Nat), MergeReady ar hp i →
    validTop (popValid p alpha i (hp.length + 1) ar hp).1 (popValid p alpha i (hp.length + 1) ar hp).2.2 = true ∧
    MergeReady (popValid p alpha i (hp.length + 1) ar hp).1 (popValid p alpha i (hp.length + 1) ar hp).2.1 i) ∧
  ∀ (s : State) (ncol k : Nat), s.histOk → 1 ≤ ncol → k + ncol < s.hist.length →
    MergeReady
      (mergeLoop s.params (hasAlpha s.histFmt) k 0 (mergeStart s.params s.histFmt s.hist ncol)).1
      (mergeLoop s.params (hasAlpha s.histFmt) k 0 (mergeStart s.params s.histFmt s.hist ncol)).2 k

/-- 42_quantizer.md R256: HeapPush keeps the heap order and adds exactly the bin pushed. -/
def Obligations.HeapPushKeepsOrder : Prop :=
  ∀ (ar : Arena) (hp : List Nat) (x : Nat), CostsNumeric ar → HeapOrdered ar hp →
    HeapOrdered ar (heapPush ar hp x) ∧ (heapPush ar hp x).Perm (x :: hp)

/-- 42_quantizer.md R257: SiftDown of the bin that takes the root's place restores the heap order. -/
def Obligations.SiftDownRestoresOrder : Prop :=
  ∀ (ar : Arena) (hp : List Nat) (x : Nat), CostsNumeric ar → hp ≠ [] → HeapOrderedBelow ar hp →
    HeapOrdered ar (siftDown ar hp x) ∧ (siftDown ar hp x).Perm (x :: hp.tail)

/-- 00_scope.md R12: sums, differences, products and quotients of finite numbers are finite and correctly rounded, ties to
even, wherever the exact result is not so large that rounding overflows. -/
def Obligations.FloatArithmeticRounds : Prop :=
  ∀ (a b : F64) (p q : ℚ), f64Rat a = some p → f64Rat b = some q →
    (|p + q| < overflowBound → RoundsTo ((p + q : ℚ) : ℝ) (fadd a b)) ∧
    (|p - q| < overflowBound → RoundsTo ((p - q : ℚ) : ℝ) (fsub a b)) ∧
    (|p * q| < overflowBound → RoundsTo ((p * q : ℚ) : ℝ) (fmul a b)) ∧
    (q ≠ 0 → |p / q| < overflowBound → RoundsTo ((p / q : ℚ) : ℝ) (fdiv a b))

/-- 00_scope.md R12: the square root of a number that is not negative is correctly rounded. -/
def Obligations.FloatSqrtRounds : Prop :=
  ∀ (a : F64) (p : ℚ), f64Rat a = some p → 0 ≤ p → RoundsTo (Real.sqrt (p : ℝ)) (fsqrt a)

/-- 00_scope.md R12: the comparisons of finite numbers are those of their values. -/
def Obligations.FloatComparisonsAreExact : Prop :=
  ∀ (a b : F64) (p q : ℚ), f64Rat a = some p → f64Rat b = some q →
    (flt a b = true ↔ p < q) ∧ (fle a b = true ↔ p ≤ q)

/-- 42_quantizer.md R261 (a decision the spec takes from general knowledge): RoundClamp(x) = min(255, max(0,
floor(x + 1/2))) in exact arithmetic. -/
def Obligations.RoundClampRoundsHalvesUp : Prop :=
  ∀ (x : F64) (v : ℚ), f64Rat x = some v → (roundClamp x : ℤ) = min 255 (max 0 ⌊v + 1 / 2⌋)

/-! ## The palette_mapper -/

/-- 43_mapper.md R301: Nearest is an entry of least distance, and the last of those. -/
def Obligations.NearestIsTheLastOfTheLeast : Prop :=
  ∀ (alpha : Bool) (pal : List Rgba) (c : Rgba), pal ≠ [] →
    ∃ q, pal[nearest alpha pal c]? = some q ∧
      ∀ (i : Nat) (e : Rgba), pal[i]? = some e →
        colorDist alpha q c ≤ colorDist alpha e c ∧
        (colorDist alpha e c = colorDist alpha q c → i ≤ nearest alpha pal c)

/-- 43_mapper.md R302: within one M.MAP every pixel gets the index that Nearest gave for the first pixel with its key.
-/
def Obligations.CacheGivesTheRepresentativesIndex : Prop :=
  ∀ (f : Format) (pal cs : List Rgba),
    (mapPixels f pal [] cs).length = cs.length ∧
    ∀ (j : Nat) (c rep : Rgba), cs[j]? = some c →
      cs.find? (fun e => colorKey f e = colorKey f c) = some rep →
      (mapPixels f pal [] cs)[j]? = some (BitVec.ofNat 8 (nearest (hasAlpha f) pal rep))

/-- 43_mapper.md R300: M.MAP writes the mapped indices to IDX[DST ..] and nothing else, each below PAL_LEN, or raises in
the order the rule gives. -/
def Obligations.MMapWritesTheIndices : Prop :=
  (∀ fmt : BitVec 2, decodeWord (0x40000000#32 ||| fmt.setWidth 32) = .ok (.mMap fmt)) ∧
  ∀ (fmt : BitVec 2) (f : Format) (s : State), formatCode f = fmt →
    Raises (.mMap 3) s .arg ∧
    (s.palLen.toNat = 0 → Raises (.mMap fmt) s .noPalette) ∧
    (256 < s.palLen.toNat → Raises (.mMap fmt) s .paletteSize) ∧
    (1 ≤ s.palLen.toNat → s.palLen.toNat ≤ 256 → s.count.toNat = 0 → exec (.mMap fmt) s = .next s) ∧
    (1 ≤ s.palLen.toNat → s.palLen.toNat ≤ 256 → 0 < s.count.toNat →
      (s.params.pixWords < s.src.toNat + s.count.toNat ∨ s.params.pixWords < s.dst.toNat + s.count.toNat) →
      Raises (.mMap fmt) s .bounds) ∧
    ∀ pixels pal : List Word, pixels.length = s.count.toNat → holdsWords s .pix s.src.toNat pixels →
      pal.length = s.palLen.toNat → holdsWords s .pal 0 pal →
      1 ≤ s.palLen.toNat → s.palLen.toNat ≤ 256 → 0 < s.count.toNat →
      s.src.toNat + s.count.toNat ≤ s.params.pixWords → s.dst.toNat + s.count.toNat ≤ s.params.pixWords →
      ∃ t, exec (.mMap fmt) s = .next t ∧ t = { s with mem := t.mem } ∧
        holdsBytes t .idx s.dst.toNat (mapPixels f (pal.map unpackPixel) [] (pixels.map unpackPixel)) ∧
        (∀ x ∈ mapPixels f (pal.map unpackPixel) [] (pixels.map unpackPixel), x.toNat < s.palLen.toNat) ∧
        sameMemoryOutside s t (elemAddr .idx s.dst.toNat) (elemAddr .idx (s.dst.toNat + s.count.toNat))

/-! ## The gif_frame_multiplexer -/

/-- 44_gif_mux.md R335, R336: G.HDR appends the signature in manual mode, or raises. -/
def Obligations.GHdrWritesTheSignature : Prop :=
  decodeWord 0x50000000#32 = .ok .gHdr ∧
  ∀ s : State, s.params.wf →
    (s.modeAuto = true ∨ s.gstate ≠ .uninit → Raises .gHdr s .state) ∧
    (s.modeAuto = false → s.gstate = .uninit → s.params.outCap < s.cursor.toNat + 6 → Raises .gHdr s .streamFull) ∧
    (s.modeAuto = false → s.gstate = .uninit → s.cursor.toNat + 6 ≤ s.params.outCap →
      ∃ t, exec .gHdr s = .next t ∧ t = { s with mem := t.mem, cursor := s.cursor + 6, gstate := .header } ∧
        holdsBytes t .out s.cursor.toNat [0x47, 0x49, 0x46, 0x38, 0x39, 0x61] ∧
        sameMemoryOutside s t (outAddr s.cursor.toNat) (outAddr s.cursor.toNat + 6))

/-- 44_gif_mux.md R346: G.FIN appends the trailer and finishes the stream, or raises. -/
def Obligations.GFinWritesTheTrailer : Prop :=
  decodeWord 0x52000000#32 = .ok .gFin ∧
  ∀ s : State,
    (s.gstate ≠ .header → Raises .gFin s .state) ∧
    (s.gstate = .header → s.params.outCap ≤ s.cursor.toNat → Raises .gFin s .streamFull) ∧
    (s.gstate = .header → s.cursor.toNat < s.params.outCap →
      ∃ t, exec .gFin s = .next t ∧ t = { s with mem := t.mem, cursor := s.cursor + 1, gstate := .final } ∧
        memByte t.mem (outAddr s.cursor.toNat) = some 0x3B ∧
        sameMemoryOutside s t (outAddr s.cursor.toNat) (outAddr s.cursor.toNat + 1))

/-- 44_gif_mux.md R340, 60_exceptions.md R401: the checks of G.FRM that come before the index check, in their order. -/
def Obligations.GFrmChecksInOrder : Prop :=
  ∀ s : State,
    (s.gstate = .final → Raises .gFrm s .state) ∧
    (s.gstate ≠ .final →
      ((s.frFlags.hasPal = true → s.palLen = 0 → Raises .gFrm s .noPalette) ∧
       (s.frFlags.hasPal = false → isFirstFrame s = true ∨ s.gpalLen = 0 → Raises .gFrm s .noPalette) ∧
       (s.frFlags.hasPal = true → 256 < s.palLen.toNat → Raises .gFrm s .paletteSize) ∧
       (s.frFlags.hasPal = true ∨ isFirstFrame s = false → 1 ≤ frameTableLen s → frameTableLen s ≤ 256 →
         (s.frWidth = 0 ∨ s.frHeight = 0 ∨ s.count.toNat ≠ s.frWidth.toNat * s.frHeight.toNat →
           Raises .gFrm s .length) ∧
         (s.frWidth ≠ 0 → s.frHeight ≠ 0 → s.count.toNat = s.frWidth.toNat * s.frHeight.toNat →
           s.params.pixWords < s.src.toNat + s.count.toNat → Raises .gFrm s .bounds))))

/-- 44_gif_mux.md R340, R343, R345: with its checks passed G.FRM appends the blocks of the frame in order, records the
global table's length on a first frame and leaves GSTATE at HEADER; a frame that does not fit raises E_STREAM_FULL,
and an index without an entry E_INDEX_RANGE. -/
def Obligations.GFrmWritesTheFrame : Prop :=
  ∀ (s : State) (indices : List Byte) (pal : List Word), s.params.wf → s.gstate ≠ .final →
    (s.frFlags.hasPal = true ∨ isFirstFrame s = false) → 1 ≤ frameTableLen s → frameTableLen s ≤ 256 →
    s.frWidth ≠ 0 → s.frHeight ≠ 0 → s.count.toNat = s.frWidth.toNat * s.frHeight.toNat →
    s.src.toNat + s.count.toNat ≤ s.params.pixWords →
    indices.length = s.count.toNat → holdsBytes s .idx s.src.toNat indices →
    (s.frFlags.hasPal = true → pal.length = s.palLen.toNat ∧ holdsWords s .pal 0 pal) →
    ((∃ v ∈ indices, frameTableLen s ≤ v.toNat) → Raises .gFrm s .indexRange) ∧
    ((∀ v ∈ indices, v.toNat < frameTableLen s) →
      s.params.outCap < s.cursor.toNat + (frameBytes s (frameTableLen s) pal indices).length →
      Raises .gFrm s .streamFull) ∧
    ((∀ v ∈ indices, v.toNat < frameTableLen s) →
      s.cursor.toNat + (frameBytes s (frameTableLen s) pal indices).length ≤ s.params.outCap →
      ∃ t, exec .gFrm s = .next t ∧
        t = { s with mem := t.mem, cursor := t.cursor, gstate := .header, gpalLen := t.gpalLen } ∧
        t.gpalLen.toNat = (if isFirstFrame s then frameTableLen s else s.gpalLen.toNat) ∧
        t.cursor.toNat = s.cursor.toNat + (frameBytes s (frameTableLen s) pal indices).length ∧
        holdsBytes t .out s.cursor.toNat (frameBytes s (frameTableLen s) pal indices) ∧
        sameMemoryOutside s t (outAddr s.cursor.toNat)
          (outAddr s.cursor.toNat + (frameBytes s (frameTableLen s) pal indices).length))

/-- 44_gif_mux.md R347 (which the spec marks as derived from R346 and R182): in FINAL every command that would write
or rewind the stream raises E_STATE (L.ENC with a legal depth), and no command but SRST changes the stream. -/
def Obligations.FinalStreamIsImmutable : Prop :=
  ∀ s : State, s.Inv → s.gstate = .final →
    (∀ b, Raises (.bsWb b) s .state) ∧ Raises .bsWbs s .state ∧ Raises .bsRst s .state ∧
    (∀ d : BitVec 4, d.toNat ≤ 8 → Raises (.lEnc d) s .state) ∧ Raises .gHdr s .state ∧ Raises .gFrm s .state ∧
    Raises .gFin s .state ∧
    ∀ (i : Instr) (t : State), exec i s = .next t → i ≠ .srst →
      t.gstate = .final ∧ t.cursor = s.cursor ∧
      ∀ k < s.cursor.toNat, memByte t.mem (outAddr k) = memByte s.mem (outAddr k)

/-- 44_gif_mux.md R353: the first frame of an automatic-mode stream starts it with the signature, later frames keep it,
and a successful G.FIN ends it with 3B. -/
def Obligations.GifStartsSignedAndEndsWithTrailer : Prop :=
  ∀ s t : State, s.params.wf → s.err = .none → t.err = .none →
    (exec .gFrm s = .next t → s.modeAuto = true → s.gstate = .uninit → s.cursor = 0 → streamSigned t) ∧
    (exec .gFrm s = .next t → streamSigned s → streamSigned t) ∧
    (exec .gFin s = .next t → streamSigned s →
      streamSigned t ∧ memByte t.mem (outAddr (t.cursor.toNat - 1)) = some 0x3B)

/-- 44_gif_mux.md R333 (the spec takes ctsize from general knowledge of the format): 2^ctsize(L) is the smallest power
of two of at least 2 that holds L entries; a table of L entries has that many, and the size field of a packed byte is
ctsize(L) - 1. -/
def Obligations.CtSizeIsTheSmallest : Prop :=
  (∀ l : Nat, 1 ≤ l → l ≤ 2 ^ ctSize l ∧ 1 ≤ ctSize l ∧ ∀ k, 1 ≤ k → l ≤ 2 ^ k → ctSize l ≤ k) ∧
  (∀ pal : List Word, 1 ≤ pal.length → (tableBytes pal).length = 3 * 2 ^ ctSize pal.length) ∧
  ∀ (l : Nat) (w h : BitVec 16), 1 ≤ l → l ≤ 256 →
    ((lsdPacked l).extractLsb' 0 3).toNat = ctSize l - 1 ∧
    (imageDescBytes w h true l)[9]?.map (fun b => (b.extractLsb' 0 3).toNat) = some (ctSize l - 1)

/-! ## The host's side -/

/-- 10_state.md R30, R37 to R41, R44, R46, R50 to R52: a read-write register reads back what was written, reserved
fields as 0. -/
def Obligations.RegistersReadBack : Prop :=
  ∀ (s : State) (v : Word), s.busy = false →
    ∀ r ∈ [(0x0C#32, 0x00000001#32), (0x10#32, 0xFFFFFFFF#32), (0x14#32, 0xFFFFFFFF#32), (0x18#32, 0xFFFFFFFF#32),
           (0x1C#32, 0xFFFFFFFF#32), (0x28#32, 0x000001FF#32), (0x30#32, 0x00FFFF01#32), (0x40#32, 0xFFFFFFFF#32),
           (0x44#32, 0xFFFFFFFF#32), (0x48#32, 0x0000FFFF#32)],
      ∃ t u, hostAccess s (.write r.1 .word v) = .next t ∧ hostAccess t (.read r.1 .word) = .next u ∧
        u.rdata = v &&& r.2

/-- 10_state.md R54, R30: a write to a read-only register changes nothing but the model's own counter. -/
def Obligations.ReadOnlyRegistersIgnoreWrites : Prop :=
  ∀ (s : State) (v : Word), s.busy = false →
    ∀ a ∈ [0x00#32, 0x08#32, 0x20#32, 0x24#32, 0x2C#32, 0x34#32, 0x38#32, 0x3C#32, 0x4C#32, 0x50#32],
      ∃ t, hostAccess s (.write a .word v) = .next t ∧ t = { s with draws := t.draws }

/-- 10_state.md R32: a write to CMD while idle latches the word and sets BUSY, while busy it is discarded and sets
HAZ; CMD reads 0. -/
def Obligations.CmdWriteStartsACommand : Prop :=
  ∀ (s : State) (v : Word),
    (s.busy = false → ∃ t, hostAccess s (.write 0x04#32 .word v) = .next t ∧
      t = { s with cmdl := v, busy := true, draws := t.draws }) ∧
    (s.busy = true → ∃ t, hostAccess s (.write 0x04#32 .word v) = .next t ∧ t = { s with haz := true, draws := t.draws }) ∧
    (s.busy = false → ∃ t, hostAccess s (.read 0x04#32 .word) = .next t ∧ t = { s with rdata := 0 })

/-- 20_memory.md R112: while BUSY is 1 a write to any register or memory window is discarded and sets HAZ, and only the
five registers the rule names are read with their current value. -/
def Obligations.BusyRuleHolds : Prop :=
  ∀ (s : State) (a v : Word), s.busy = true → a.toNat % 4 = 0 →
    ((∃ r, busTarget s.params a.toNat = .reg r) ∨ (∃ sp, busTarget s.params a.toNat = .mem sp) →
      (∃ t, hostAccess s (.write a .word v) = .next t ∧ t = { s with haz := true, draws := t.draws }) ∧
      (∃ t, hostAccess s (.read a .word) = .next t ∧ t = { s with rdata := t.rdata, draws := t.draws })) ∧
    (∃ t, hostAccess s (.read 0x08#32 .word) = .next t ∧ t.rdata = statusWord s) ∧
    (∃ t, hostAccess s (.read 0x00#32 .word) = .next t ∧ t.rdata = 0x47494601#32) ∧
    (∃ t, hostAccess s (.read 0x24#32 .word) = .next t ∧ t.rdata = BitVec.ofNat 32 s.params.outCap) ∧
    (∃ t, hostAccess s (.read 0x4C#32 .word) = .next t ∧ t.rdata = BitVec.ofNat 32 s.params.pixWords) ∧
    (∃ t, hostAccess s (.read 0x50#32 .word) = .next t ∧ t.rdata = BitVec.ofNat 32 s.params.bufBytes)

/-- 10_state.md R33 to R36: the fields of STATUS. -/
def Obligations.StatusFields : Prop :=
  ∀ s : State,
    (statusWord s).extractLsb' 0 1 = BitVec.ofBool s.busy ∧ (statusWord s).extractLsb' 1 1 = BitVec.ofBool s.haz ∧
    (statusWord s).extractLsb' 2 2 = gstateCode s.gstate ∧ (statusWord s).extractLsb' 4 4 = 0 ∧
    (statusWord s).extractLsb' 8 8 = errCode s.err ∧ (statusWord s).extractLsb' 16 8 = s.errOp ∧
    (statusWord s).extractLsb' 24 8 = 0

/-- 40_bytestream.md R190, 20_memory.md R107: an idle core shows the stream below CURSOR, element 4j + m in bits
[8m+7 : 8m] of word j, in its last word too. -/
def Obligations.StreamIsReadable : Prop :=
  ∀ (s : State) (j : Nat), s.Inv → s.busy = false → 4 * j < s.cursor.toNat →
    ∃ t, hostAccess s (.read (BitVec.ofNat 32 (0x04000000 + 4 * j)) .word) = .next t ∧ t = { s with rdata := t.rdata } ∧
      ∀ m < 4, 4 * j + m < s.cursor.toNat →
        memByte s.mem (outAddr (4 * j + m)) = some (t.rdata.extractLsb' (8 * m) 8)

/-- 20_memory.md R100 to R107: a word the host writes to PIX, PAL, IDX or BUF while idle is the element a command reads,
little-endian in the byte memories, and no other byte of memory changes. -/
def Obligations.HostWritesReachElements : Prop :=
  ∀ (s : State) (v : Word) (k : Nat), s.params.wf → s.busy = false →
    (k < s.params.pixWords → ∃ t, hostAccess s (.write (BitVec.ofNat 32 (elemAddr .pix k)) .word v) = .next t ∧
      t = { s with mem := t.mem, draws := t.draws } ∧ memReadWord t .pix k = .ok v ∧
      sameMemoryOutside s t (elemAddr .pix k) (elemAddr .pix (k + 1))) ∧
    (k < 256 → ∃ t, hostAccess s (.write (BitVec.ofNat 32 (elemAddr .pal k)) .word v) = .next t ∧
      t = { s with mem := t.mem, draws := t.draws } ∧ memReadWord t .pal k = .ok v ∧
      sameMemoryOutside s t (elemAddr .pal k) (elemAddr .pal (k + 1))) ∧
    (4 * k < s.params.pixWords → ∃ t, hostAccess s (.write (BitVec.ofNat 32 (elemAddr .idx (4 * k))) .word v) = .next t ∧
      t = { s with mem := t.mem, draws := t.draws } ∧
      (∀ m < 4, memReadByte t .idx (4 * k + m) = .ok (v.extractLsb' (8 * m) 8)) ∧
      sameMemoryOutside s t (elemAddr .idx (4 * k)) (elemAddr .idx (4 * k + 4))) ∧
    (4 * k < s.params.bufBytes → ∃ t, hostAccess s (.write (BitVec.ofNat 32 (elemAddr .buf (4 * k))) .word v) = .next t ∧
      t = { s with mem := t.mem, draws := t.draws } ∧
      (∀ m < 4, memReadByte t .buf (4 * k + m) = .ok (v.extractLsb' (8 * m) 8)) ∧
      sameMemoryOutside s t (elemAddr .buf (4 * k)) (elemAddr .buf (4 * k + 4)))

/-- 20_memory.md R109: an idle core's reads change nothing but the answer, and a repeated read gives the same value
(also where that value is a free one: log 6). -/
def Obligations.IdleReadsRepeat : Prop :=
  ∀ (s t : State) (a : Word) (sz : AccessSize), s.busy = false → hostAccess s (.read a sz) = .next t →
    t = { s with rdata := t.rdata } ∧ hostAccess t (.read a sz) = .next t

/-! ## Reset and invariants -/

/-- 70_reset_and_hazards.md R440, R444: the values hardware reset leaves; memory holds no value (20_memory.md R113,
log 3) and the model's own fields and the parameters stay (log 9). CMDL is not stated: its reset value is the model's
choice. -/
def Obligations.HardwareResetValues : Prop :=
  ∀ (s : State) (rest : List Event), s.schedule = .access .reset :: rest →
    ∃ t, step s = .next t ∧ t.busy = false ∧ t.haz = false ∧ t.gstate = .uninit ∧ t.err = .none ∧ t.errOp = 0 ∧
      t.modeAuto = true ∧ t.src = 0 ∧ t.dst = 0 ∧ t.count = 0 ∧ t.bufAddr = 0 ∧ t.cursor = 0 ∧ t.palLen = 0 ∧
      t.gpalLen = 0 ∧ qcfgWord t.qcfg = 0x00000001#32 ∧ t.histBins = 0 ∧ t.histPixels = 0 ∧ t.histFmt = .rgb565 ∧
      t.frWidth = 0 ∧ t.frHeight = 0 ∧ t.frDelay = 0 ∧ t.frLoop = 0 ∧ frFlagsWord t.frFlags = 0x00000008#32 ∧
      (∀ k, binAt t.hist k = Bin.zero) ∧ (∀ a, memByte t.mem a = none) ∧
      t.params = s.params ∧ t.schedule = rest ∧ t.rdata = s.rdata

/-- The invariant holds at reset. -/
def Obligations.ResetMeetsTheInvariant : Prop := State.reset.Inv

/-- 10_state.md R42, R47, R48, R60, R35, R45: every step of the machine keeps the invariant. -/
def Obligations.StepKeepsTheInvariant : Prop := ∀ s t : State, s.Inv → step s = .next t → t.Inv

/-- Every step keeps the canonical form of memory. -/
def Obligations.StepKeepsMemoryCanonical : Prop :=
  ∀ s t : State, Memory.wf s.mem → step s = .next t → Memory.wf t.mem

/-- 10_state.md R42, 40_bytestream.md R180: cursor never exceeds capacity. -/
def Obligations.StepKeepsCursorBounded : Prop :=
  ∀ s t : State, s.params.wf → s.cursorBounded → step s = .next t → t.params = s.params ∧ t.cursorBounded

/-- 10_state.md R47, R48, R60: every step keeps HIST_BINS the number of non-empty bins and HIST_PIXELS the sum of their
counts. -/
def Obligations.StepKeepsHistogramCounts : Prop :=
  ∀ s t : State, s.histOk → step s = .next t → t.histOk
end

