-- ==== Sys2Proof/Laws/State.lean ====
section
/-! SUPPORT. One lemma per field of State for each shared update: what it writes and what it leaves. -/

namespace Sys2Proof.Machine

@[simp] theorem pushByte_params (s : State) (v : Byte) : (pushByte s v).params = s.params := rfl
@[simp] theorem pushByte_cmdl (s : State) (v : Byte) : (pushByte s v).cmdl = s.cmdl := rfl
@[simp] theorem pushByte_busy (s : State) (v : Byte) : (pushByte s v).busy = s.busy := rfl
@[simp] theorem pushByte_haz (s : State) (v : Byte) : (pushByte s v).haz = s.haz := rfl
@[simp] theorem pushByte_gstate (s : State) (v : Byte) : (pushByte s v).gstate = s.gstate := rfl
@[simp] theorem pushByte_err (s : State) (v : Byte) : (pushByte s v).err = s.err := rfl
@[simp] theorem pushByte_errOp (s : State) (v : Byte) : (pushByte s v).errOp = s.errOp := rfl
@[simp] theorem pushByte_modeAuto (s : State) (v : Byte) : (pushByte s v).modeAuto = s.modeAuto := rfl
@[simp] theorem pushByte_src (s : State) (v : Byte) : (pushByte s v).src = s.src := rfl
@[simp] theorem pushByte_dst (s : State) (v : Byte) : (pushByte s v).dst = s.dst := rfl
@[simp] theorem pushByte_count (s : State) (v : Byte) : (pushByte s v).count = s.count := rfl
@[simp] theorem pushByte_bufAddr (s : State) (v : Byte) : (pushByte s v).bufAddr = s.bufAddr := rfl
@[simp] theorem pushByte_cursor (s : State) (v : Byte) : (pushByte s v).cursor = s.cursor + 1 := rfl
@[simp] theorem pushByte_palLen (s : State) (v : Byte) : (pushByte s v).palLen = s.palLen := rfl
@[simp] theorem pushByte_gpalLen (s : State) (v : Byte) : (pushByte s v).gpalLen = s.gpalLen := rfl
@[simp] theorem pushByte_qcfg (s : State) (v : Byte) : (pushByte s v).qcfg = s.qcfg := rfl
@[simp] theorem pushByte_histBins (s : State) (v : Byte) : (pushByte s v).histBins = s.histBins := rfl
@[simp] theorem pushByte_histPixels (s : State) (v : Byte) : (pushByte s v).histPixels = s.histPixels := rfl
@[simp] theorem pushByte_histFmt (s : State) (v : Byte) : (pushByte s v).histFmt = s.histFmt := rfl
@[simp] theorem pushByte_frWidth (s : State) (v : Byte) : (pushByte s v).frWidth = s.frWidth := rfl
@[simp] theorem pushByte_frHeight (s : State) (v : Byte) : (pushByte s v).frHeight = s.frHeight := rfl
@[simp] theorem pushByte_frDelay (s : State) (v : Byte) : (pushByte s v).frDelay = s.frDelay := rfl
@[simp] theorem pushByte_frLoop (s : State) (v : Byte) : (pushByte s v).frLoop = s.frLoop := rfl
@[simp] theorem pushByte_frFlags (s : State) (v : Byte) : (pushByte s v).frFlags = s.frFlags := rfl
@[simp] theorem pushByte_hist (s : State) (v : Byte) : (pushByte s v).hist = s.hist := rfl
@[simp] theorem pushByte_mem (s : State) (v : Byte) : (pushByte s v).mem = setByte s.mem (outAddr s.cursor.toNat) v := rfl
@[simp] theorem pushByte_schedule (s : State) (v : Byte) : (pushByte s v).schedule = s.schedule := rfl
@[simp] theorem pushByte_rdata (s : State) (v : Byte) : (pushByte s v).rdata = s.rdata := rfl
@[simp] theorem pushByte_draws (s : State) (v : Byte) : (pushByte s v).draws = s.draws := rfl

@[simp] theorem raiseError_params (s : State) (op : BitVec 8) (e : ErrCode) : (raiseError s op e).params = s.params := rfl
@[simp] theorem raiseError_cmdl (s : State) (op : BitVec 8) (e : ErrCode) : (raiseError s op e).cmdl = s.cmdl := rfl
@[simp] theorem raiseError_busy (s : State) (op : BitVec 8) (e : ErrCode) : (raiseError s op e).busy = s.busy := rfl
@[simp] theorem raiseError_haz (s : State) (op : BitVec 8) (e : ErrCode) : (raiseError s op e).haz = s.haz := rfl
@[simp] theorem raiseError_gstate (s : State) (op : BitVec 8) (e : ErrCode) : (raiseError s op e).gstate = s.gstate := rfl
@[simp] theorem raiseError_err (s : State) (op : BitVec 8) (e : ErrCode) : (raiseError s op e).err = e := rfl
@[simp] theorem raiseError_errOp (s : State) (op : BitVec 8) (e : ErrCode) : (raiseError s op e).errOp = op := rfl
@[simp] theorem raiseError_modeAuto (s : State) (op : BitVec 8) (e : ErrCode) : (raiseError s op e).modeAuto = s.modeAuto := rfl
@[simp] theorem raiseError_src (s : State) (op : BitVec 8) (e : ErrCode) : (raiseError s op e).src = s.src := rfl
@[simp] theorem raiseError_dst (s : State) (op : BitVec 8) (e : ErrCode) : (raiseError s op e).dst = s.dst := rfl
@[simp] theorem raiseError_count (s : State) (op : BitVec 8) (e : ErrCode) : (raiseError s op e).count = s.count := rfl
@[simp] theorem raiseError_bufAddr (s : State) (op : BitVec 8) (e : ErrCode) : (raiseError s op e).bufAddr = s.bufAddr := rfl
@[simp] theorem raiseError_cursor (s : State) (op : BitVec 8) (e : ErrCode) : (raiseError s op e).cursor = s.cursor := rfl
@[simp] theorem raiseError_palLen (s : State) (op : BitVec 8) (e : ErrCode) : (raiseError s op e).palLen = s.palLen := rfl
@[simp] theorem raiseError_gpalLen (s : State) (op : BitVec 8) (e : ErrCode) : (raiseError s op e).gpalLen = s.gpalLen := rfl
@[simp] theorem raiseError_qcfg (s : State) (op : BitVec 8) (e : ErrCode) : (raiseError s op e).qcfg = s.qcfg := rfl
@[simp] theorem raiseError_histBins (s : State) (op : BitVec 8) (e : ErrCode) : (raiseError s op e).histBins = s.histBins := rfl
@[simp] theorem raiseError_histPixels (s : State) (op : BitVec 8) (e : ErrCode) : (raiseError s op e).histPixels = s.histPixels := rfl
@[simp] theorem raiseError_histFmt (s : State) (op : BitVec 8) (e : ErrCode) : (raiseError s op e).histFmt = s.histFmt := rfl
@[simp] theorem raiseError_frWidth (s : State) (op : BitVec 8) (e : ErrCode) : (raiseError s op e).frWidth = s.frWidth := rfl
@[simp] theorem raiseError_frHeight (s : State) (op : BitVec 8) (e : ErrCode) : (raiseError s op e).frHeight = s.frHeight := rfl
@[simp] theorem raiseError_frDelay (s : State) (op : BitVec 8) (e : ErrCode) : (raiseError s op e).frDelay = s.frDelay := rfl
@[simp] theorem raiseError_frLoop (s : State) (op : BitVec 8) (e : ErrCode) : (raiseError s op e).frLoop = s.frLoop := rfl
@[simp] theorem raiseError_frFlags (s : State) (op : BitVec 8) (e : ErrCode) : (raiseError s op e).frFlags = s.frFlags := rfl
@[simp] theorem raiseError_hist (s : State) (op : BitVec 8) (e : ErrCode) : (raiseError s op e).hist = s.hist := rfl
@[simp] theorem raiseError_mem (s : State) (op : BitVec 8) (e : ErrCode) : (raiseError s op e).mem = forgetBytes s.mem (outAddr s.cursor.toNat) (outAddr s.params.outCap) := rfl
@[simp] theorem raiseError_schedule (s : State) (op : BitVec 8) (e : ErrCode) : (raiseError s op e).schedule = s.schedule := rfl
@[simp] theorem raiseError_rdata (s : State) (op : BitVec 8) (e : ErrCode) : (raiseError s op e).rdata = s.rdata := rfl
@[simp] theorem raiseError_draws (s : State) (op : BitVec 8) (e : ErrCode) : (raiseError s op e).draws = s.draws := rfl

@[simp] theorem retire_params (s : State) : (retire s).params = s.params := rfl
@[simp] theorem retire_cmdl (s : State) : (retire s).cmdl = s.cmdl := rfl
@[simp] theorem retire_busy (s : State) : (retire s).busy = false := rfl
@[simp] theorem retire_haz (s : State) : (retire s).haz = s.haz := rfl
@[simp] theorem retire_gstate (s : State) : (retire s).gstate = s.gstate := rfl
@[simp] theorem retire_err (s : State) : (retire s).err = s.err := rfl
@[simp] theorem retire_errOp (s : State) : (retire s).errOp = s.errOp := rfl
@[simp] theorem retire_modeAuto (s : State) : (retire s).modeAuto = s.modeAuto := rfl
@[simp] theorem retire_src (s : State) : (retire s).src = s.src := rfl
@[simp] theorem retire_dst (s : State) : (retire s).dst = s.dst := rfl
@[simp] theorem retire_count (s : State) : (retire s).count = s.count := rfl
@[simp] theorem retire_bufAddr (s : State) : (retire s).bufAddr = s.bufAddr := rfl
@[simp] theorem retire_cursor (s : State) : (retire s).cursor = s.cursor := rfl
@[simp] theorem retire_palLen (s : State) : (retire s).palLen = s.palLen := rfl
@[simp] theorem retire_gpalLen (s : State) : (retire s).gpalLen = s.gpalLen := rfl
@[simp] theorem retire_qcfg (s : State) : (retire s).qcfg = s.qcfg := rfl
@[simp] theorem retire_histBins (s : State) : (retire s).histBins = s.histBins := rfl
@[simp] theorem retire_histPixels (s : State) : (retire s).histPixels = s.histPixels := rfl
@[simp] theorem retire_histFmt (s : State) : (retire s).histFmt = s.histFmt := rfl
@[simp] theorem retire_frWidth (s : State) : (retire s).frWidth = s.frWidth := rfl
@[simp] theorem retire_frHeight (s : State) : (retire s).frHeight = s.frHeight := rfl
@[simp] theorem retire_frDelay (s : State) : (retire s).frDelay = s.frDelay := rfl
@[simp] theorem retire_frLoop (s : State) : (retire s).frLoop = s.frLoop := rfl
@[simp] theorem retire_frFlags (s : State) : (retire s).frFlags = s.frFlags := rfl
@[simp] theorem retire_hist (s : State) : (retire s).hist = s.hist := rfl
@[simp] theorem retire_mem (s : State) : (retire s).mem = s.mem := rfl
@[simp] theorem retire_schedule (s : State) : (retire s).schedule = s.schedule := rfl
@[simp] theorem retire_rdata (s : State) : (retire s).rdata = s.rdata := rfl
@[simp] theorem retire_draws (s : State) : (retire s).draws = s.draws + 1 := rfl

@[simp] theorem latchCmd_params (s : State) (w : Word) : (latchCmd s w).params = s.params := rfl
@[simp] theorem latchCmd_cmdl (s : State) (w : Word) : (latchCmd s w).cmdl = w := rfl
@[simp] theorem latchCmd_busy (s : State) (w : Word) : (latchCmd s w).busy = true := rfl
@[simp] theorem latchCmd_haz (s : State) (w : Word) : (latchCmd s w).haz = s.haz := rfl
@[simp] theorem latchCmd_gstate (s : State) (w : Word) : (latchCmd s w).gstate = s.gstate := rfl
@[simp] theorem latchCmd_err (s : State) (w : Word) : (latchCmd s w).err = s.err := rfl
@[simp] theorem latchCmd_errOp (s : State) (w : Word) : (latchCmd s w).errOp = s.errOp := rfl
@[simp] theorem latchCmd_modeAuto (s : State) (w : Word) : (latchCmd s w).modeAuto = s.modeAuto := rfl
@[simp] theorem latchCmd_src (s : State) (w : Word) : (latchCmd s w).src = s.src := rfl
@[simp] theorem latchCmd_dst (s : State) (w : Word) : (latchCmd s w).dst = s.dst := rfl
@[simp] theorem latchCmd_count (s : State) (w : Word) : (latchCmd s w).count = s.count := rfl
@[simp] theorem latchCmd_bufAddr (s : State) (w : Word) : (latchCmd s w).bufAddr = s.bufAddr := rfl
@[simp] theorem latchCmd_cursor (s : State) (w : Word) : (latchCmd s w).cursor = s.cursor := rfl
@[simp] theorem latchCmd_palLen (s : State) (w : Word) : (latchCmd s w).palLen = s.palLen := rfl
@[simp] theorem latchCmd_gpalLen (s : State) (w : Word) : (latchCmd s w).gpalLen = s.gpalLen := rfl
@[simp] theorem latchCmd_qcfg (s : State) (w : Word) : (latchCmd s w).qcfg = s.qcfg := rfl
@[simp] theorem latchCmd_histBins (s : State) (w : Word) : (latchCmd s w).histBins = s.histBins := rfl
@[simp] theorem latchCmd_histPixels (s : State) (w : Word) : (latchCmd s w).histPixels = s.histPixels := rfl
@[simp] theorem latchCmd_histFmt (s : State) (w : Word) : (latchCmd s w).histFmt = s.histFmt := rfl
@[simp] theorem latchCmd_frWidth (s : State) (w : Word) : (latchCmd s w).frWidth = s.frWidth := rfl
@[simp] theorem latchCmd_frHeight (s : State) (w : Word) : (latchCmd s w).frHeight = s.frHeight := rfl
@[simp] theorem latchCmd_frDelay (s : State) (w : Word) : (latchCmd s w).frDelay = s.frDelay := rfl
@[simp] theorem latchCmd_frLoop (s : State) (w : Word) : (latchCmd s w).frLoop = s.frLoop := rfl
@[simp] theorem latchCmd_frFlags (s : State) (w : Word) : (latchCmd s w).frFlags = s.frFlags := rfl
@[simp] theorem latchCmd_hist (s : State) (w : Word) : (latchCmd s w).hist = s.hist := rfl
@[simp] theorem latchCmd_mem (s : State) (w : Word) : (latchCmd s w).mem = s.mem := rfl
@[simp] theorem latchCmd_schedule (s : State) (w : Word) : (latchCmd s w).schedule = s.schedule := rfl
@[simp] theorem latchCmd_rdata (s : State) (w : Word) : (latchCmd s w).rdata = s.rdata := rfl
@[simp] theorem latchCmd_draws (s : State) (w : Word) : (latchCmd s w).draws = s.draws := rfl

@[simp] theorem flagHazard_params (s : State) : (flagHazard s).params = s.params := rfl
@[simp] theorem flagHazard_cmdl (s : State) : (flagHazard s).cmdl = s.cmdl := rfl
@[simp] theorem flagHazard_busy (s : State) : (flagHazard s).busy = s.busy := rfl
@[simp] theorem flagHazard_haz (s : State) : (flagHazard s).haz = true := rfl
@[simp] theorem flagHazard_gstate (s : State) : (flagHazard s).gstate = s.gstate := rfl
@[simp] theorem flagHazard_err (s : State) : (flagHazard s).err = s.err := rfl
@[simp] theorem flagHazard_errOp (s : State) : (flagHazard s).errOp = s.errOp := rfl
@[simp] theorem flagHazard_modeAuto (s : State) : (flagHazard s).modeAuto = s.modeAuto := rfl
@[simp] theorem flagHazard_src (s : State) : (flagHazard s).src = s.src := rfl
@[simp] theorem flagHazard_dst (s : State) : (flagHazard s).dst = s.dst := rfl
@[simp] theorem flagHazard_count (s : State) : (flagHazard s).count = s.count := rfl
@[simp] theorem flagHazard_bufAddr (s : State) : (flagHazard s).bufAddr = s.bufAddr := rfl
@[simp] theorem flagHazard_cursor (s : State) : (flagHazard s).cursor = s.cursor := rfl
@[simp] theorem flagHazard_palLen (s : State) : (flagHazard s).palLen = s.palLen := rfl
@[simp] theorem flagHazard_gpalLen (s : State) : (flagHazard s).gpalLen = s.gpalLen := rfl
@[simp] theorem flagHazard_qcfg (s : State) : (flagHazard s).qcfg = s.qcfg := rfl
@[simp] theorem flagHazard_histBins (s : State) : (flagHazard s).histBins = s.histBins := rfl
@[simp] theorem flagHazard_histPixels (s : State) : (flagHazard s).histPixels = s.histPixels := rfl
@[simp] theorem flagHazard_histFmt (s : State) : (flagHazard s).histFmt = s.histFmt := rfl
@[simp] theorem flagHazard_frWidth (s : State) : (flagHazard s).frWidth = s.frWidth := rfl
@[simp] theorem flagHazard_frHeight (s : State) : (flagHazard s).frHeight = s.frHeight := rfl
@[simp] theorem flagHazard_frDelay (s : State) : (flagHazard s).frDelay = s.frDelay := rfl
@[simp] theorem flagHazard_frLoop (s : State) : (flagHazard s).frLoop = s.frLoop := rfl
@[simp] theorem flagHazard_frFlags (s : State) : (flagHazard s).frFlags = s.frFlags := rfl
@[simp] theorem flagHazard_hist (s : State) : (flagHazard s).hist = s.hist := rfl
@[simp] theorem flagHazard_mem (s : State) : (flagHazard s).mem = s.mem := rfl
@[simp] theorem flagHazard_schedule (s : State) : (flagHazard s).schedule = s.schedule := rfl
@[simp] theorem flagHazard_rdata (s : State) : (flagHazard s).rdata = s.rdata := rfl
@[simp] theorem flagHazard_draws (s : State) : (flagHazard s).draws = s.draws + 1 := rfl

@[simp] theorem newDraws_params (s : State) : (newDraws s).params = s.params := rfl
@[simp] theorem newDraws_cmdl (s : State) : (newDraws s).cmdl = s.cmdl := rfl
@[simp] theorem newDraws_busy (s : State) : (newDraws s).busy = s.busy := rfl
@[simp] theorem newDraws_haz (s : State) : (newDraws s).haz = s.haz := rfl
@[simp] theorem newDraws_gstate (s : State) : (newDraws s).gstate = s.gstate := rfl
@[simp] theorem newDraws_err (s : State) : (newDraws s).err = s.err := rfl
@[simp] theorem newDraws_errOp (s : State) : (newDraws s).errOp = s.errOp := rfl
@[simp] theorem newDraws_modeAuto (s : State) : (newDraws s).modeAuto = s.modeAuto := rfl
@[simp] theorem newDraws_src (s : State) : (newDraws s).src = s.src := rfl
@[simp] theorem newDraws_dst (s : State) : (newDraws s).dst = s.dst := rfl
@[simp] theorem newDraws_count (s : State) : (newDraws s).count = s.count := rfl
@[simp] theorem newDraws_bufAddr (s : State) : (newDraws s).bufAddr = s.bufAddr := rfl
@[simp] theorem newDraws_cursor (s : State) : (newDraws s).cursor = s.cursor := rfl
@[simp] theorem newDraws_palLen (s : State) : (newDraws s).palLen = s.palLen := rfl
@[simp] theorem newDraws_gpalLen (s : State) : (newDraws s).gpalLen = s.gpalLen := rfl
@[simp] theorem newDraws_qcfg (s : State) : (newDraws s).qcfg = s.qcfg := rfl
@[simp] theorem newDraws_histBins (s : State) : (newDraws s).histBins = s.histBins := rfl
@[simp] theorem newDraws_histPixels (s : State) : (newDraws s).histPixels = s.histPixels := rfl
@[simp] theorem newDraws_histFmt (s : State) : (newDraws s).histFmt = s.histFmt := rfl
@[simp] theorem newDraws_frWidth (s : State) : (newDraws s).frWidth = s.frWidth := rfl
@[simp] theorem newDraws_frHeight (s : State) : (newDraws s).frHeight = s.frHeight := rfl
@[simp] theorem newDraws_frDelay (s : State) : (newDraws s).frDelay = s.frDelay := rfl
@[simp] theorem newDraws_frLoop (s : State) : (newDraws s).frLoop = s.frLoop := rfl
@[simp] theorem newDraws_frFlags (s : State) : (newDraws s).frFlags = s.frFlags := rfl
@[simp] theorem newDraws_hist (s : State) : (newDraws s).hist = s.hist := rfl
@[simp] theorem newDraws_mem (s : State) : (newDraws s).mem = s.mem := rfl
@[simp] theorem newDraws_schedule (s : State) : (newDraws s).schedule = s.schedule := rfl
@[simp] theorem newDraws_rdata (s : State) : (newDraws s).rdata = s.rdata := rfl
@[simp] theorem newDraws_draws (s : State) : (newDraws s).draws = s.draws + 1 := rfl

@[simp] theorem softReset_params (s : State) : (softReset s).params = s.params := rfl
@[simp] theorem softReset_cmdl (s : State) : (softReset s).cmdl = s.cmdl := rfl
@[simp] theorem softReset_busy (s : State) : (softReset s).busy = s.busy := rfl
@[simp] theorem softReset_haz (s : State) : (softReset s).haz = false := rfl
@[simp] theorem softReset_gstate (s : State) : (softReset s).gstate = .uninit := rfl
@[simp] theorem softReset_err (s : State) : (softReset s).err = .none := rfl
@[simp] theorem softReset_errOp (s : State) : (softReset s).errOp = 0 := rfl
@[simp] theorem softReset_modeAuto (s : State) : (softReset s).modeAuto = s.modeAuto := rfl
@[simp] theorem softReset_src (s : State) : (softReset s).src = s.src := rfl
@[simp] theorem softReset_dst (s : State) : (softReset s).dst = s.dst := rfl
@[simp] theorem softReset_count (s : State) : (softReset s).count = s.count := rfl
@[simp] theorem softReset_bufAddr (s : State) : (softReset s).bufAddr = s.bufAddr := rfl
@[simp] theorem softReset_cursor (s : State) : (softReset s).cursor = 0 := rfl
@[simp] theorem softReset_palLen (s : State) : (softReset s).palLen = s.palLen := rfl
@[simp] theorem softReset_gpalLen (s : State) : (softReset s).gpalLen = 0 := rfl
@[simp] theorem softReset_qcfg (s : State) : (softReset s).qcfg = s.qcfg := rfl
@[simp] theorem softReset_histBins (s : State) : (softReset s).histBins = s.histBins := rfl
@[simp] theorem softReset_histPixels (s : State) : (softReset s).histPixels = s.histPixels := rfl
@[simp] theorem softReset_histFmt (s : State) : (softReset s).histFmt = s.histFmt := rfl
@[simp] theorem softReset_frWidth (s : State) : (softReset s).frWidth = s.frWidth := rfl
@[simp] theorem softReset_frHeight (s : State) : (softReset s).frHeight = s.frHeight := rfl
@[simp] theorem softReset_frDelay (s : State) : (softReset s).frDelay = s.frDelay := rfl
@[simp] theorem softReset_frLoop (s : State) : (softReset s).frLoop = s.frLoop := rfl
@[simp] theorem softReset_frFlags (s : State) : (softReset s).frFlags = s.frFlags := rfl
@[simp] theorem softReset_hist (s : State) : (softReset s).hist = s.hist := rfl
@[simp] theorem softReset_mem (s : State) : (softReset s).mem = s.mem := rfl
@[simp] theorem softReset_schedule (s : State) : (softReset s).schedule = s.schedule := rfl
@[simp] theorem softReset_rdata (s : State) : (softReset s).rdata = s.rdata := rfl
@[simp] theorem softReset_draws (s : State) : (softReset s).draws = s.draws := rfl

@[simp] theorem writePalette_params (s : State) (pal : List Rgba) : (writePalette s pal).params = s.params := rfl
@[simp] theorem writePalette_cmdl (s : State) (pal : List Rgba) : (writePalette s pal).cmdl = s.cmdl := rfl
@[simp] theorem writePalette_busy (s : State) (pal : List Rgba) : (writePalette s pal).busy = s.busy := rfl
@[simp] theorem writePalette_haz (s : State) (pal : List Rgba) : (writePalette s pal).haz = s.haz := rfl
@[simp] theorem writePalette_gstate (s : State) (pal : List Rgba) : (writePalette s pal).gstate = s.gstate := rfl
@[simp] theorem writePalette_err (s : State) (pal : List Rgba) : (writePalette s pal).err = s.err := rfl
@[simp] theorem writePalette_errOp (s : State) (pal : List Rgba) : (writePalette s pal).errOp = s.errOp := rfl
@[simp] theorem writePalette_modeAuto (s : State) (pal : List Rgba) : (writePalette s pal).modeAuto = s.modeAuto := rfl
@[simp] theorem writePalette_src (s : State) (pal : List Rgba) : (writePalette s pal).src = s.src := rfl
@[simp] theorem writePalette_dst (s : State) (pal : List Rgba) : (writePalette s pal).dst = s.dst := rfl
@[simp] theorem writePalette_count (s : State) (pal : List Rgba) : (writePalette s pal).count = s.count := rfl
@[simp] theorem writePalette_bufAddr (s : State) (pal : List Rgba) : (writePalette s pal).bufAddr = s.bufAddr := rfl
@[simp] theorem writePalette_cursor (s : State) (pal : List Rgba) : (writePalette s pal).cursor = s.cursor := rfl
@[simp] theorem writePalette_palLen (s : State) (pal : List Rgba) : (writePalette s pal).palLen = BitVec.ofNat 9 pal.length := rfl
@[simp] theorem writePalette_gpalLen (s : State) (pal : List Rgba) : (writePalette s pal).gpalLen = s.gpalLen := rfl
@[simp] theorem writePalette_qcfg (s : State) (pal : List Rgba) : (writePalette s pal).qcfg = s.qcfg := rfl
@[simp] theorem writePalette_histBins (s : State) (pal : List Rgba) : (writePalette s pal).histBins = s.histBins := rfl
@[simp] theorem writePalette_histPixels (s : State) (pal : List Rgba) : (writePalette s pal).histPixels = s.histPixels := rfl
@[simp] theorem writePalette_histFmt (s : State) (pal : List Rgba) : (writePalette s pal).histFmt = s.histFmt := rfl
@[simp] theorem writePalette_frWidth (s : State) (pal : List Rgba) : (writePalette s pal).frWidth = s.frWidth := rfl
@[simp] theorem writePalette_frHeight (s : State) (pal : List Rgba) : (writePalette s pal).frHeight = s.frHeight := rfl
@[simp] theorem writePalette_frDelay (s : State) (pal : List Rgba) : (writePalette s pal).frDelay = s.frDelay := rfl
@[simp] theorem writePalette_frLoop (s : State) (pal : List Rgba) : (writePalette s pal).frLoop = s.frLoop := rfl
@[simp] theorem writePalette_frFlags (s : State) (pal : List Rgba) : (writePalette s pal).frFlags = s.frFlags := rfl
@[simp] theorem writePalette_hist (s : State) (pal : List Rgba) : (writePalette s pal).hist = s.hist := rfl
@[simp] theorem writePalette_mem (s : State) (pal : List Rgba) : (writePalette s pal).mem = setBytes s.mem (elemAddr .pal 0) (pal.flatMap (fun c => wordBytes (packPixel c))) := rfl
@[simp] theorem writePalette_schedule (s : State) (pal : List Rgba) : (writePalette s pal).schedule = s.schedule := rfl
@[simp] theorem writePalette_rdata (s : State) (pal : List Rgba) : (writePalette s pal).rdata = s.rdata := rfl
@[simp] theorem writePalette_draws (s : State) (pal : List Rgba) : (writePalette s pal).draws = s.draws := rfl

@[simp] theorem countPixel_params (s : State) (p : Word) : (countPixel s p).params = s.params := rfl
@[simp] theorem countPixel_cmdl (s : State) (p : Word) : (countPixel s p).cmdl = s.cmdl := rfl
@[simp] theorem countPixel_busy (s : State) (p : Word) : (countPixel s p).busy = s.busy := rfl
@[simp] theorem countPixel_haz (s : State) (p : Word) : (countPixel s p).haz = s.haz := rfl
@[simp] theorem countPixel_gstate (s : State) (p : Word) : (countPixel s p).gstate = s.gstate := rfl
@[simp] theorem countPixel_err (s : State) (p : Word) : (countPixel s p).err = s.err := rfl
@[simp] theorem countPixel_errOp (s : State) (p : Word) : (countPixel s p).errOp = s.errOp := rfl
@[simp] theorem countPixel_modeAuto (s : State) (p : Word) : (countPixel s p).modeAuto = s.modeAuto := rfl
@[simp] theorem countPixel_src (s : State) (p : Word) : (countPixel s p).src = s.src := rfl
@[simp] theorem countPixel_dst (s : State) (p : Word) : (countPixel s p).dst = s.dst := rfl
@[simp] theorem countPixel_count (s : State) (p : Word) : (countPixel s p).count = s.count := rfl
@[simp] theorem countPixel_bufAddr (s : State) (p : Word) : (countPixel s p).bufAddr = s.bufAddr := rfl
@[simp] theorem countPixel_cursor (s : State) (p : Word) : (countPixel s p).cursor = s.cursor := rfl
@[simp] theorem countPixel_palLen (s : State) (p : Word) : (countPixel s p).palLen = s.palLen := rfl
@[simp] theorem countPixel_gpalLen (s : State) (p : Word) : (countPixel s p).gpalLen = s.gpalLen := rfl
@[simp] theorem countPixel_qcfg (s : State) (p : Word) : (countPixel s p).qcfg = s.qcfg := rfl
@[simp] theorem countPixel_histPixels (s : State) (p : Word) : (countPixel s p).histPixels = s.histPixels := rfl
@[simp] theorem countPixel_histFmt (s : State) (p : Word) : (countPixel s p).histFmt = s.histFmt := rfl
@[simp] theorem countPixel_frWidth (s : State) (p : Word) : (countPixel s p).frWidth = s.frWidth := rfl
@[simp] theorem countPixel_frHeight (s : State) (p : Word) : (countPixel s p).frHeight = s.frHeight := rfl
@[simp] theorem countPixel_frDelay (s : State) (p : Word) : (countPixel s p).frDelay = s.frDelay := rfl
@[simp] theorem countPixel_frLoop (s : State) (p : Word) : (countPixel s p).frLoop = s.frLoop := rfl
@[simp] theorem countPixel_frFlags (s : State) (p : Word) : (countPixel s p).frFlags = s.frFlags := rfl
@[simp] theorem countPixel_mem (s : State) (p : Word) : (countPixel s p).mem = s.mem := rfl
@[simp] theorem countPixel_schedule (s : State) (p : Word) : (countPixel s p).schedule = s.schedule := rfl
@[simp] theorem countPixel_rdata (s : State) (p : Word) : (countPixel s p).rdata = s.rdata := rfl
@[simp] theorem countPixel_draws (s : State) (p : Word) : (countPixel s p).draws = s.draws := rfl

end Sys2Proof.Machine
end

