-- ==== Sys2Proof/Laws/Memory.lean ====
section
/-! SUPPORT. The laws of keyed lists and of memory: read after write, what a write leaves alone, and that every memory
operation keeps the canonical form. -/

namespace Sys2Proof.Machine

/-! ## Keyed lists -/

section Keyed
variable {α : Type}

@[simp] theorem lookupKey_nil (a : Nat) : lookupKey ([] : List (Nat × α)) a = none := rfl

theorem lookupKey_cons (c : Nat × α) (l : List (Nat × α)) (a : Nat) :
    lookupKey (c :: l) a = if a = c.1 then some c.2 else lookupKey l a := rfl

theorem lookupKey_insert_self (l : List (Nat × α)) (a : Nat) (v : α) : lookupKey (insertKey l a v) a = some v := by
  induction l with
  | nil => simp [insertKey, lookupKey]
  | cons c l ih =>
    simp only [insertKey]
    split_ifs with h1 h2
    · simp [lookupKey]
    · simp [lookupKey]
    · simp [lookupKey, h2, ih]

theorem lookupKey_insert_ne (l : List (Nat × α)) {a b : Nat} (v : α) (h : b ≠ a) :
    lookupKey (insertKey l a v) b = lookupKey l b := by
  induction l with
  | nil => simp [insertKey, lookupKey, h]
  | cons c l ih =>
    simp only [insertKey]
    split_ifs with h1 h2
    · simp [lookupKey, h]
    · subst h2; simp [lookupKey, h]
    · simp [lookupKey, ih]

theorem lookupKey_insert (l : List (Nat × α)) (a b : Nat) (v : α) :
    lookupKey (insertKey l a v) b = if b = a then some v else lookupKey l b := by
  split_ifs with h
  · subst h; exact lookupKey_insert_self l b v
  · exact lookupKey_insert_ne l v h

theorem lookupKey_filter (l : List (Nat × α)) (p : Nat → Bool) (a : Nat) :
    lookupKey (l.filter (fun c => p c.1)) a = if p a then lookupKey l a else none := by
  induction l with
  | nil => simp
  | cons c l ih =>
    by_cases hc : p c.1
    · by_cases ha : a = c.1
      · subst ha; simp [hc, lookupKey]
      · simp [hc, lookupKey, ha, ih]
    · by_cases ha : a = c.1
      · subst ha; simp [hc, ih]
      · simp [hc, lookupKey, ha, ih]

theorem lookupKey_erase (l : List (Nat × α)) (a b : Nat) :
    lookupKey (eraseKey l a) b = if b = a then none else lookupKey l b := by
  have h := lookupKey_filter l (fun k => decide (k ≠ a)) b
  simp only [eraseKey]
  rw [h]
  by_cases hb : b = a <;> simp [hb]

theorem mem_insertKey {l : List (Nat × α)} {a : Nat} {v : α} {c : Nat × α} (h : c ∈ insertKey l a v) :
    c = (a, v) ∨ c ∈ l := by
  induction l with
  | nil => simpa [insertKey] using h
  | cons d l ih =>
    simp only [insertKey] at h
    split_ifs at h with h1 h2
    · simpa using h
    · rcases List.mem_cons.1 h with h | h
      · exact .inl h
      · exact .inr (List.mem_cons_of_mem _ h)
    · rcases List.mem_cons.1 h with h | h
      · exact .inr (h ▸ List.mem_cons_self)
      · rcases ih h with h | h
        · exact .inl h
        · exact .inr (List.mem_cons_of_mem _ h)

/-- Inserting a key keeps the keys strictly rising. -/
theorem insertKey_sorted {l : List (Nat × α)} (a : Nat) (v : α) (h : l.Pairwise (fun c d => c.1 < d.1)) :
    (insertKey l a v).Pairwise (fun c d => c.1 < d.1) := by
  induction l with
  | nil => simp [insertKey]
  | cons c l ih =>
    obtain ⟨hc, hl⟩ := List.pairwise_cons.1 h
    simp only [insertKey]
    split_ifs with h1 h2
    · refine List.pairwise_cons.2 ⟨?_, h⟩
      intro d hd
      rcases List.mem_cons.1 hd with rfl | hd
      · exact h1
      · exact lt_trans h1 (hc d hd)
    · exact List.pairwise_cons.2 ⟨fun d hd => h2 ▸ hc d hd, hl⟩
    · refine List.pairwise_cons.2 ⟨?_, ih hl⟩
      intro d hd
      rcases mem_insertKey hd with rfl | hd
      · simp only; omega
      · exact hc d hd

/-- In a list with rising keys a listed cell is found. -/
theorem lookupKey_of_mem {l : List (Nat × α)} (h : l.Pairwise (fun c d => c.1 < d.1)) {c : Nat × α} (hc : c ∈ l) :
    lookupKey l c.1 = some c.2 := by
  induction l with
  | nil => simp at hc
  | cons d l ih =>
    obtain ⟨hd, hl⟩ := List.pairwise_cons.1 h
    rcases List.mem_cons.1 hc with rfl | hc
    · simp [lookupKey]
    · have := hd c hc
      rw [lookupKey_cons, if_neg (by omega), ih hl hc]

theorem mem_of_lookupKey {l : List (Nat × α)} {a : Nat} {v : α} (h : lookupKey l a = some v) : (a, v) ∈ l := by
  induction l with
  | nil => simp at h
  | cons c l ih =>
    rw [lookupKey_cons] at h
    split_ifs at h with h1
    · cases h; subst h1; exact List.mem_cons_self
    · exact List.mem_cons_of_mem _ (ih h)

end Keyed

/-! ## Bytes of memory -/

@[simp] theorem memByte_nil (a : Nat) : memByte [] a = none := rfl

theorem memByte_eq (m : Memory) (a : Nat) : memByte m a = lookupKey m a := by
  simp [memByte, unlistedByte]

theorem memByte_setByte (m : Memory) (a b : Nat) (v : Byte) :
    memByte (setByte m a v) b = if b = a then some v else memByte m b := by
  simp only [memByte_eq, setByte, lookupKey_insert]

@[simp] theorem memByte_setByte_self (m : Memory) (a : Nat) (v : Byte) : memByte (setByte m a v) a = some v := by
  simp [memByte_setByte]

/-- Everything a write of consecutive bytes does to the byte at `b`. -/
theorem memByte_setBytes (m : Memory) (a b : Nat) (vs : List Byte) :
    memByte (setBytes m a vs) b = if a ≤ b ∧ b < a + vs.length then vs[b - a]? else memByte m b := by
  induction vs generalizing m a with
  | nil => simp [setBytes]
  | cons v vs ih =>
    simp only [setBytes, ih, memByte_setByte, List.length_cons]
    by_cases h1 : b = a
    · subst h1; simp
    · by_cases h2 : a + 1 ≤ b ∧ b < a + 1 + vs.length
      · rw [if_pos h2, if_pos (by omega), (by omega : b - a = (b - (a + 1)) + 1)]; simp
      · rw [if_neg h2, if_neg h1, if_neg (by omega)]

theorem memByte_setBytes_outside {m : Memory} {a b : Nat} {vs : List Byte} (h : b < a ∨ a + vs.length ≤ b) :
    memByte (setBytes m a vs) b = memByte m b := by
  rw [memByte_setBytes, if_neg (by omega)]

theorem memByte_setBytes_inside {m : Memory} {a j : Nat} {vs : List Byte} (h : j < vs.length) :
    memByte (setBytes m a vs) (a + j) = some vs[j] := by
  rw [memByte_setBytes, if_pos (by omega)]
  simp [h]

/-- Everything forgetting a range does to the byte at `b`. -/
theorem memByte_forgetBytes (m : Memory) (lo hi b : Nat) :
    memByte (forgetBytes m lo hi) b = if lo ≤ b ∧ b < hi then none else memByte m b := by
  have h := lookupKey_filter m (fun k => decide (k < lo ∨ hi ≤ k)) b
  simp only [memByte_eq, forgetBytes]
  rw [h]
  by_cases hb : lo ≤ b ∧ b < hi
  · rw [if_neg (by simp; omega), if_pos hb]
  · rw [if_pos (by simp; omega), if_neg hb]

theorem setBytes_append (m : Memory) (a : Nat) (xs ys : List Byte) :
    setBytes m a (xs ++ ys) = setBytes (setBytes m a xs) (a + xs.length) ys := by
  induction xs generalizing m a with
  | nil => rfl
  | cons x xs ih => simp only [List.cons_append, setBytes, ih, List.length_cons]; congr 1; omega

/-! ## The canonical form -/

theorem setByte_wf {m : Memory} (a : Nat) (v : Byte) (h : Memory.wf m) : Memory.wf (setByte m a v) :=
  insertKey_sorted a v h

theorem setBytes_wf {m : Memory} (a : Nat) (vs : List Byte) (h : Memory.wf m) : Memory.wf (setBytes m a vs) := by
  induction vs generalizing m a with
  | nil => exact h
  | cons v vs ih => exact ih (a + 1) (setByte_wf a v h)

theorem forgetBytes_wf {m : Memory} (lo hi : Nat) (h : Memory.wf m) : Memory.wf (forgetBytes m lo hi) :=
  List.Pairwise.filter _ h

theorem resetWith_mem_wf (p : Params) : Memory.wf (State.resetWith p).mem := List.Pairwise.nil

theorem reset_mem_wf : Memory.wf State.reset.mem := resetWith_mem_wf _

end Sys2Proof.Machine
end

