-- ==== Sys2Proof/Laws/Words.lean ====
section
/-! SUPPORT. Words and their bytes: packing and unpacking undo each other. -/

namespace Sys2Proof.Machine

theorem wordOfBytes_wordBytes (w : Word) :
    wordOfBytes (w.extractLsb' 0 8) (w.extractLsb' 8 8) (w.extractLsb' 16 8) (w.extractLsb' 24 8) = w := by
  apply BitVec.eq_of_getLsbD_eq
  intro i hi
  simp only [wordOfBytes, BitVec.getLsbD_cast, BitVec.getLsbD_append, BitVec.getLsbD_extractLsb']
  interval_cases i <;> simp

theorem wordBytes_wordOfBytes (b0 b1 b2 b3 : Byte) : wordBytes (wordOfBytes b0 b1 b2 b3) = [b0, b1, b2, b3] := by
  simp only [wordBytes, wordOfBytes, List.cons.injEq, and_true]
  refine ⟨?_, ?_, ?_, ?_⟩ <;>
  · apply BitVec.eq_of_getLsbD_eq
    intro i hi
    simp only [BitVec.getLsbD_cast, BitVec.getLsbD_append, BitVec.getLsbD_extractLsb']
    interval_cases i <;> simp

@[simp] theorem wordBytes_length (w : Word) : (wordBytes w).length = 4 := rfl

/-- The bytes of a stored word. -/
theorem memByte_storedWord (m : Memory) (a k : Nat) (w : Word) (hk : k < 4) :
    memByte (setBytes m a (wordBytes w)) (a + k) = some (w.extractLsb' (8 * k) 8) := by
  rw [memByte_setBytes_inside (by simpa using hk)]
  interval_cases k <;> rfl

theorem unpackPixel_packPixel (c : Rgba) : unpackPixel (packPixel c) = c := by
  have h := wordBytes_wordOfBytes c.r c.g c.b c.a
  simp only [wordBytes, List.cons.injEq, and_true] at h
  obtain ⟨h0, h1, h2, h3⟩ := h
  cases c
  simp only [unpackPixel, packPixel, Rgba.mk.injEq]
  exact ⟨h0, h1, h2, h3⟩

end Sys2Proof.Machine
end

