-- ==== Sys2Proof/Laws/Ops.lean ====
section
/-! SUPPORT. One lemma for each shared operation that says everything it can do. -/

namespace Sys2Proof.Machine

@[simp] theorem raiseIf_false {α : Type} (e : ErrCode) (r : Except Stop α) : raiseIf false e r = r := rfl

@[simp] theorem raiseIf_true {α : Type} (e : ErrCode) (r : Except Stop α) : raiseIf true e r = .error (.err e) := rfl

/-- A guarded body goes on only where the guard does not raise. -/
theorem raiseIf_ok {α : Type} {bad : Bool} {e : ErrCode} {r : Except Stop α} {x : α} :
    raiseIf bad e r = .ok x ↔ bad = false ∧ r = .ok x := by
  cases bad <;> simp

/-- Everything the end of a command can be. -/
theorem perform_next {op : BitVec 8} {s t : State} {body : Except Stop State} :
    perform op s body = .next t ↔ body = .ok t ∨ ∃ e, body = .error (.err e) ∧ t = raiseError s op e := by
  rcases body with (_ | _) | u <;> simp [perform, eq_comm]

theorem bind_ok {α β : Type} {x : Except Stop α} {f : α → Except Stop β} {b : β} :
    x.bind f = .ok b ↔ ∃ a, x = .ok a ∧ f a = .ok b := by
  cases x <;> simp [Except.bind]

theorem map_ok {α β : Type} {x : Except Stop α} {f : α → β} {b : β} :
    x.map f = .ok b ↔ ∃ a, x = .ok a ∧ f a = b := by
  cases x <;> simp [Except.map]

/-! ## Element reads -/

theorem memReadByte_ok {s : State} {sp : Space} {a : Nat} {v : Byte} :
    memReadByte s sp a = .ok v ↔ memByte s.mem (elemAddr sp a) = some v := by
  unfold memReadByte; split <;> simp_all

theorem memReadWord_ok {s : State} {sp : Space} {a : Nat} {w : Word} :
    memReadWord s sp a = .ok w ↔ ∀ k < 4, memByte s.mem (elemAddr sp a + k) = some (w.extractLsb' (8 * k) 8) := by
  unfold memReadWord
  split
  · rename_i b0 b1 b2 b3 h0 h1 h2 h3
    simp only [Except.ok.injEq]
    constructor
    · rintro rfl k hk
      have hb := wordBytes_wordOfBytes b0 b1 b2 b3
      simp only [wordBytes, List.cons.injEq, and_true] at hb
      obtain ⟨e0, e1, e2, e3⟩ := hb
      interval_cases k
      · simpa [e0] using h0
      · simpa [e1] using h1
      · simpa [e2] using h2
      · simpa [e3] using h3
    · intro h
      have k0 := h 0 (by omega)
      have k1 := h 1 (by omega)
      have k2 := h 2 (by omega)
      have k3 := h 3 (by omega)
      simp only [Nat.add_zero, h0, h1, h2, h3, Option.some.injEq, Nat.mul_zero, Nat.reduceMul] at k0 k1 k2 k3
      rw [k0, k1, k2, k3, wordOfBytes_wordBytes]
  · rename_i hno
    simp only [reduceCtorEq, false_iff]
    intro h
    exact hno _ _ _ _ (by simpa using h 0 (by omega)) (h 1 (by omega)) (h 2 (by omega)) (h 3 (by omega))

/-- Everything a successful read of byte elements says. -/
theorem readByteElems_ok {s : State} {sp : Space} {a n : Nat} {l : List Byte} :
    readByteElems s sp a n = .ok l ↔ l.length = n ∧ holdsBytes s sp a l := by
  induction n generalizing a l with
  | zero =>
    cases l <;> simp [readByteElems, holdsBytes]
  | succ n ih =>
    simp only [readByteElems, bind_ok, map_ok, memReadByte_ok, ih, holdsBytes]
    constructor
    · rintro ⟨v, hv, l', ⟨rfl, hl⟩, rfl⟩
      refine ⟨rfl, ?_⟩
      intro j hj
      cases j with
      | zero => simpa using hv
      | succ j => simpa [Nat.add_assoc, Nat.add_comm 1 j] using hl j (by simpa using hj)
    · rintro ⟨hlen, h⟩
      cases l with
      | nil => simp at hlen
      | cons v l =>
        refine ⟨v, by simpa using h 0 (by simp), l, ⟨by simpa using hlen, ?_⟩, rfl⟩
        intro j hj
        simpa [Nat.add_assoc, Nat.add_comm 1 j] using h (j + 1) (by simpa using hj)

/-- Everything a successful read of word elements says. -/
theorem readWordElems_ok {s : State} {sp : Space} {a n : Nat} {l : List Word} :
    readWordElems s sp a n = .ok l ↔ l.length = n ∧ holdsWords s sp a l := by
  induction n generalizing a l with
  | zero =>
    cases l <;> simp [readWordElems, holdsWords]
  | succ n ih =>
    simp only [readWordElems, bind_ok, map_ok, memReadWord_ok, ih, holdsWords]
    constructor
    · rintro ⟨v, hv, l', ⟨rfl, hl⟩, rfl⟩
      refine ⟨rfl, ?_⟩
      intro j hj
      cases j with
      | zero => simpa using hv
      | succ j => simpa [Nat.add_assoc, Nat.add_comm 1 j] using hl j (by simpa using hj)
    · rintro ⟨hlen, h⟩
      cases l with
      | nil => simp at hlen
      | cons v l =>
        refine ⟨v, by simpa using h 0 (by simp), l, ⟨by simpa using hlen, ?_⟩, rfl⟩
        intro j hj
        simpa [Nat.add_assoc, Nat.add_comm 1 j] using h (j + 1) (by simpa using hj)

/-- Everything a successful pass of the index check says. -/
theorem readIndices_ok {s : State} {limit a n : Nat} {l : List Byte} :
    readIndices s limit a n = .ok l ↔ l.length = n ∧ holdsBytes s .idx a l ∧ ∀ v ∈ l, v.toNat < limit := by
  induction n generalizing a l with
  | zero =>
    cases l <;> simp [readIndices, holdsBytes]
  | succ n ih =>
    simp only [readIndices, bind_ok, raiseIf_ok, map_ok, memReadByte_ok, ih, holdsBytes]
    constructor
    · rintro ⟨v, hv, hlt, l', ⟨rfl, hl, hall⟩, rfl⟩
      refine ⟨rfl, ?_, ?_⟩
      · intro j hj
        cases j with
        | zero => simpa using hv
        | succ j => simpa [Nat.add_assoc, Nat.add_comm 1 j] using hl j (by simpa using hj)
      · intro w hw
        rcases List.mem_cons.1 hw with rfl | hw
        · simpa using hlt
        · exact hall w hw
    · rintro ⟨hlen, h, hall⟩
      cases l with
      | nil => simp at hlen
      | cons v l =>
        refine ⟨v, by simpa using h 0 (by simp), by simpa using hall v (by simp), l,
          ⟨by simpa using hlen, ?_, fun w hw => hall w (List.mem_cons_of_mem _ hw)⟩, rfl⟩
        intro j hj
        simpa [Nat.add_assoc, Nat.add_comm 1 j] using h (j + 1) (by simpa using hj)

/-! ## The stream -/

theorem outAddr_eq (k : Nat) : outAddr k = 0x04000000 + k := by simp [outAddr, elemAddr, spaceBase, elemBytes]

@[simp] theorem pushBytes_nil (s : State) : pushBytes s [] = s := by
  simp [pushBytes, setBytes]

theorem streamAppend_ok {s t : State} {v : Byte} :
    streamAppend s v = .ok t ↔ s.cursor.toNat < s.params.outCap ∧ t = pushByte s v := by
  rw [streamAppend, raiseIf_ok, decide_eq_false_iff_not, not_le, Except.ok.injEq, eq_comm (a := t)]

/-- Everything StreamAppend of several bytes can do, where CURSOR cannot wrap. -/
theorem appendBytes_eq {s : State} (vs : List Byte) (hcap : s.params.outCap < 2 ^ 32) :
    appendBytes s vs =
      if vs = [] ∨ s.cursor.toNat + vs.length ≤ s.params.outCap then .ok (pushBytes s vs)
      else .error (.err .streamFull) := by
  induction vs generalizing s with
  | nil => simp [appendBytes]
  | cons v vs ih =>
    simp only [appendBytes, streamAppend]
    by_cases hfull : s.params.outCap ≤ s.cursor.toNat
    · rw [decide_eq_true hfull, if_neg (by simp; omega)]; rfl
    · have hcur : (s.cursor + 1).toNat = s.cursor.toNat + 1 := by
        rw [BitVec.toNat_add, Nat.mod_eq_of_lt]
        · rfl
        · have : (1 : BitVec 32).toNat = 1 := rfl
          omega
      have hpush : pushBytes (pushByte s v) vs = pushBytes s (v :: vs) := by
        have hout : outAddr (s.cursor.toNat + 1) = outAddr s.cursor.toNat + 1 := by simp [outAddr_eq]; omega
        have hlen : s.cursor + 1 + BitVec.ofNat 32 vs.length = s.cursor + BitVec.ofNat 32 (v :: vs).length := by
          rw [List.length_cons, BitVec.add_assoc, Nat.add_comm vs.length 1, BitVec.ofNat_add]
          rfl
        simp only [pushBytes, pushByte, setBytes, hcur, hout, hlen]
      rw [decide_eq_false hfull, raiseIf_false, Except.bind]
      simp only [ih (s := pushByte s v) (by simpa using hcap), pushByte_cursor, pushByte_params, hcur, hpush]
      by_cases hfit : s.cursor.toNat + (v :: vs).length ≤ s.params.outCap
      · rw [List.length_cons] at hfit
        rw [if_pos (.inr (by omega)), if_pos (.inr (by simpa using hfit))]
      · rw [List.length_cons] at hfit
        rw [if_neg, if_neg (by simpa using hfit)]
        rintro (rfl | h)
        · simp at hfit; omega
        · omega

/-- What appended bytes leave of memory. -/
theorem memByte_pushBytes (s : State) (vs : List Byte) (b : Nat) :
    memByte (pushBytes s vs).mem b =
      if outAddr s.cursor.toNat ≤ b ∧ b < outAddr s.cursor.toNat + vs.length then vs[b - outAddr s.cursor.toNat]?
      else memByte s.mem b := memByte_setBytes _ _ _ _

/-- What error entry leaves of memory (60_exceptions.md R410). -/
theorem memByte_raiseError (s : State) (op : BitVec 8) (e : ErrCode) (b : Nat) :
    memByte (raiseError s op e).mem b =
      if outAddr s.cursor.toNat ≤ b ∧ b < outAddr s.params.outCap then none else memByte s.mem b :=
  memByte_forgetBytes _ _ _ _

/-! ## Appends that fit, and that do not -/

theorem outCap_lt {p : Params} (h : p.wf) : p.outCap < 2 ^ 32 := by
  obtain ⟨-, -, -, -, -, -, -, -, hcap, -⟩ := h; omega

theorem cursor_add {s : State} {n : Nat} (hp : s.params.wf) (h : s.cursor.toNat + n ≤ s.params.outCap) :
    (s.cursor + BitVec.ofNat 32 n).toNat = s.cursor.toNat + n := by
  have := outCap_lt hp
  rw [BitVec.toNat_add, BitVec.toNat_ofNat, Nat.mod_eq_of_lt (a := n) (by omega), Nat.mod_eq_of_lt (by omega)]

theorem appendBytes_fits {s : State} {vs : List Byte} (hp : s.params.wf)
    (h : s.cursor.toNat + vs.length ≤ s.params.outCap) : appendBytes s vs = .ok (pushBytes s vs) := by
  rw [appendBytes_eq vs (outCap_lt hp), if_pos (.inr h)]

theorem appendBytes_full {s : State} {vs : List Byte} (hp : s.params.wf) (hne : vs ≠ [])
    (h : s.params.outCap < s.cursor.toNat + vs.length) : appendBytes s vs = .error (.err .streamFull) := by
  rw [appendBytes_eq vs (outCap_lt hp), if_neg (by simp [hne]; omega)]

/-- The appended bytes stand from the old CURSOR on. -/
theorem holdsBytes_pushBytes (s : State) (vs : List Byte) : holdsBytes (pushBytes s vs) .out s.cursor.toNat vs := by
  intro j hj
  rw [memByte_pushBytes]
  simp only [elemAddr, outAddr_eq, spaceBase, elemBytes]
  rw [if_pos (by omega)]
  congr 1; omega

theorem sameMemoryOutside_pushBytes (s : State) (vs : List Byte) :
    sameMemoryOutside s (pushBytes s vs) (outAddr s.cursor.toNat) (outAddr s.cursor.toNat + vs.length) := by
  intro a ha
  rw [memByte_pushBytes, if_neg (by omega)]

/-- The index check raises E_INDEX_RANGE at an index that is too large (41_lzw.md R200, 44_gif_mux.md R340). -/
theorem readIndices_bad {s : State} {limit a n : Nat} {l : List Byte} (hl : l.length = n) (hb : holdsBytes s .idx a l)
    (hbad : ∃ v ∈ l, limit ≤ v.toNat) : readIndices s limit a n = .error (.err .indexRange) := by
  induction n generalizing a l with
  | zero => obtain ⟨v, hv, _⟩ := hbad; simp [List.eq_nil_of_length_eq_zero hl] at hv
  | succ n ih =>
    cases l with
    | nil => simp at hl
    | cons v l =>
      have h0 : memReadByte s .idx a = .ok v := memReadByte_ok.2 (by simpa using hb 0 (by simp))
      have hb' : holdsBytes s .idx (a + 1) l := fun j hj => by
        simpa [Nat.add_assoc, Nat.add_comm 1 j] using hb (j + 1) (by simpa using hj)
      simp only [readIndices, h0, Except.bind]
      by_cases hv : limit ≤ v.toNat
      · rw [decide_eq_true hv]; rfl
      · rw [decide_eq_false hv, raiseIf_false, ih (by simpa using hl) hb']
        · rfl
        · obtain ⟨w, hw, hwl⟩ := hbad
          rcases List.mem_cons.1 hw with rfl | hw
          · exact absurd hwl hv
          · exact ⟨w, hw, hwl⟩

/-! ## Words written in a row -/

/-- The bytes of the words written from `a` on. -/
theorem memByte_setWords (m : Memory) {a j k : Nat} {ws : List Word} (hj : j < ws.length) (hk : k < 4) :
    memByte (setBytes m a (ws.flatMap wordBytes)) (a + 4 * j + k) = ws[j]?.map (fun w => w.extractLsb' (8 * k) 8) := by
  induction ws generalizing m a j with
  | nil => simp at hj
  | cons w ws ih =>
    rw [List.flatMap_cons, setBytes_append, wordBytes_length]
    cases j with
    | zero =>
      rw [memByte_setBytes_outside (by omega)]
      simpa using memByte_storedWord m a k w hk
    | succ j =>
      have := ih (setBytes m a (wordBytes w)) (a := a + 4) (j := j) (by simpa using hj)
      rw [show a + 4 * (j + 1) + k = a + 4 + 4 * j + k by omega, this]; simp

theorem flatMap_wordBytes_length (ws : List Word) : (ws.flatMap wordBytes).length = 4 * ws.length := by
  induction ws with
  | nil => rfl
  | cons w ws ih => rw [List.flatMap_cons, List.length_append, ih, wordBytes_length, List.length_cons]; omega

end Sys2Proof.Machine
end

