-- ==== Sys2Proof/Laws/Exec.lean ====
section
/-! SUPPORT. What each command can do, said once: `exec_cases`. A claim about every command follows by cases from it,
without unfolding a meaning. -/

namespace Sys2Proof.Machine

/-! ## Appends -/

/-- `t` is `s` after some StreamAppends (40_bytestream.md R180). -/
def Appended (s t : State) : Prop := ∃ vs, appendBytes s vs = .ok t

theorem Appended.refl (s : State) : Appended s s := ⟨[], rfl⟩

theorem appendBytes_append (s : State) (vs ws : List Byte) :
    appendBytes s (vs ++ ws) = (appendBytes s vs).bind fun t => appendBytes t ws := by
  induction vs generalizing s with
  | nil => rfl
  | cons v vs ih =>
    simp only [List.cons_append, appendBytes]
    cases streamAppend s v with
    | error _ => rfl
    | ok t => exact ih t

theorem Appended.trans {s t u : State} (h1 : Appended s t) (h2 : Appended t u) : Appended s u := by
  obtain ⟨vs, h1⟩ := h1
  obtain ⟨ws, h2⟩ := h2
  exact ⟨vs ++ ws, by rw [appendBytes_append, h1]; exact h2⟩

/-- Appends change memory and CURSOR only. -/
theorem Appended.frame {s t : State} (h : Appended s t) : t = { s with mem := t.mem, cursor := t.cursor } := by
  obtain ⟨vs, h⟩ := h
  induction vs generalizing s with
  | nil => simp [appendBytes] at h; subst h; rfl
  | cons v vs ih =>
    simp only [appendBytes, bind_ok, streamAppend_ok] at h
    obtain ⟨u, ⟨_, rfl⟩, h⟩ := h
    have := ih h
    rw [pushByte] at *
    exact this

/-- Where CURSOR cannot wrap, appends write some bytes, which fit, from CURSOR on. -/
theorem Appended.bytes {s t : State} (h : Appended s t) (hcap : s.params.outCap < 2 ^ 32) :
    ∃ vs, t = pushBytes s vs ∧ (vs = [] ∨ s.cursor.toNat + vs.length ≤ s.params.outCap) := by
  obtain ⟨vs, h⟩ := h
  rw [appendBytes_eq vs hcap] at h
  split at h
  · exact ⟨vs, by simpa using h.symm, ‹_›⟩
  · cases h

theorem appended_writeTableFrom {l k i : Nat} {s t : State} (h : writeTableFrom l k i s = .ok t) : Appended s t := by
  induction k generalizing s i with
  | zero => simp [writeTableFrom] at h; subst h; exact .refl _
  | succ k ih =>
    simp only [writeTableFrom, bind_ok] at h
    obtain ⟨b, _, u, h1, h2⟩ := h
    exact .trans ⟨b, h1⟩ (ih h2)

theorem appended_writeHeader {l : Nat} {s t : State} (h : writeHeader l s = .ok t) : Appended s t := by
  simp only [writeHeader, bind_ok] at h
  obtain ⟨u, h1, v, h2, h3⟩ := h
  refine .trans ⟨_, h1⟩ (.trans (appended_writeTableFrom h2) ?_)
  split at h3
  · exact ⟨_, h3⟩
  · cases h3; exact .refl _

/-- Everything the writing part of G.FRM can do but its bytes (44_gif_mux.md R340). -/
theorem writeFrame_effect {lp : Nat} {ix : List Byte} {s t : State} (h : writeFrame lp ix s = .ok t) :
    ∃ u, Appended s u ∧
      t = { u with gpalLen := if isFirstFrame s then BitVec.ofNat 9 lp else s.gpalLen, gstate := .header } := by
  simp only [writeFrame, bind_ok] at h
  obtain ⟨s1, h1, s2, h2, s3, h3, s4, h4, s5, h5, s6, h6, h7⟩ := h
  have e1 : Appended s s1 := by
    split at h1
    · exact ⟨_, h1⟩
    · cases h1; exact .refl _
  have e2 : Appended s1 s2 := by
    split at h2
    · exact appended_writeHeader h2
    · cases h2; exact .refl _
  have e5 : Appended s4 s5 := by
    split at h5
    · exact appended_writeTableFrom h5
    · cases h5; exact .refl _
  refine ⟨s6, e1.trans (e2.trans (.trans ⟨_, h3⟩ (.trans ⟨_, h4⟩ (e5.trans ⟨_, h6⟩)))), ?_⟩
  cases h7
  rfl

/-! ## Errors have a code -/

/-- The body does not end with an error whose code is 0, "no error" (60_exceptions.md R400). -/
def NamesErrors {α : Type} (x : Except Stop α) : Prop := x ≠ .error (.err .none)

theorem NamesErrors.ok {α : Type} (a : α) : NamesErrors (.ok a : Except Stop α) := by simp [NamesErrors]

theorem NamesErrors.raiseIf {α : Type} {bad : Bool} {e : ErrCode} {r : Except Stop α} (he : e ≠ .none)
    (h : bad = false → NamesErrors r) : NamesErrors (Sys2Proof.Machine.raiseIf bad e r) := by
  cases bad
  · exact h rfl
  · simpa [NamesErrors] using he

theorem NamesErrors.bind {α β : Type} {x : Except Stop α} {f : α → Except Stop β} (hx : NamesErrors x)
    (hf : ∀ a, NamesErrors (f a)) : NamesErrors (x.bind f) := by
  cases x with
  | error e => simpa [NamesErrors, Except.bind] using hx
  | ok a => exact hf a

theorem NamesErrors.map {α β : Type} {x : Except Stop α} {f : α → β} (hx : NamesErrors x) : NamesErrors (x.map f) := by
  cases x with
  | error e => simpa [NamesErrors, Except.map] using hx
  | ok a => simp [NamesErrors, Except.map]

theorem namesErrors_memReadByte (s : State) (sp : Space) (a : Nat) : NamesErrors (memReadByte s sp a) := by
  unfold memReadByte; split <;> simp [NamesErrors]

theorem namesErrors_memReadWord (s : State) (sp : Space) (a : Nat) : NamesErrors (memReadWord s sp a) := by
  unfold memReadWord; split <;> simp [NamesErrors]

theorem namesErrors_readByteElems (s : State) (sp : Space) (a n : Nat) : NamesErrors (readByteElems s sp a n) := by
  induction n generalizing a with
  | zero => exact .ok _
  | succ n ih => exact .bind (namesErrors_memReadByte s sp a) fun v => .map (ih (a + 1))

theorem namesErrors_readWordElems (s : State) (sp : Space) (a n : Nat) : NamesErrors (readWordElems s sp a n) := by
  induction n generalizing a with
  | zero => exact .ok _
  | succ n ih => exact .bind (namesErrors_memReadWord s sp a) fun v => .map (ih (a + 1))

theorem namesErrors_readIndices (s : State) (limit a n : Nat) : NamesErrors (readIndices s limit a n) := by
  induction n generalizing a with
  | zero => exact .ok _
  | succ n ih =>
    exact .bind (namesErrors_memReadByte s .idx a) fun v => .raiseIf (by decide) fun _ => .map (ih (a + 1))

theorem namesErrors_streamAppend (s : State) (v : Byte) : NamesErrors (streamAppend s v) :=
  .raiseIf (by decide) fun _ => .ok _

theorem namesErrors_appendBytes (s : State) (vs : List Byte) : NamesErrors (appendBytes s vs) := by
  induction vs generalizing s with
  | nil => exact .ok _
  | cons v vs ih => exact .bind (namesErrors_streamAppend s v) fun t => ih t

theorem namesErrors_writeTableFrom (l k i : Nat) (s : State) : NamesErrors (writeTableFrom l k i s) := by
  induction k generalizing i s with
  | zero => exact .ok _
  | succ k ih =>
    refine .bind ?_ fun bytes => .bind (namesErrors_appendBytes s bytes) fun t => ih (i + 1) t
    unfold tableEntry
    split
    · exact .map (namesErrors_memReadWord s .pal i)
    · exact .ok _

theorem namesErrors_writeHeader (l : Nat) (s : State) : NamesErrors (writeHeader l s) := by
  refine .bind (namesErrors_appendBytes _ _) fun s1 => .bind (namesErrors_writeTableFrom _ _ _ _) fun s2 => ?_
  split
  · exact namesErrors_appendBytes _ _
  · exact .ok _

theorem namesErrors_writeFrame (lp : Nat) (ix : List Byte) (s : State) : NamesErrors (writeFrame lp ix s) := by
  refine .bind ?_ fun s1 => .bind ?_ fun s2 => .bind (namesErrors_appendBytes _ _) fun s3 =>
    .bind (namesErrors_appendBytes _ _) fun s4 => .bind ?_ fun s5 => .bind (namesErrors_appendBytes _ _) fun s6 => .ok _
  · split
    · exact namesErrors_appendBytes _ _
    · exact .ok _
  · split
    · exact namesErrors_writeHeader _ _
    · exact .ok _
  · split
    · exact namesErrors_writeTableFrom _ _ _ _
    · exact .ok _

/-- A command that ends with an error entered records a code that is not 0. -/
theorem perform_cases {op : BitVec 8} {s t : State} {body : Except Stop State} (hb : NamesErrors body)
    (h : perform op s body = .next t) : body = .ok t ∨ ∃ e, e ≠ .none ∧ t = raiseError s op e := by
  rcases perform_next.1 h with h | ⟨e, h2, rfl⟩
  · exact .inl h
  · exact .inr ⟨e, fun he => hb (he ▸ h2), rfl⟩

/-! ## Commands -/

/-- Counting pixels changes the histogram and HIST_BINS only (42_quantizer.md R243). -/
theorem foldl_countPixel_frame (ps : List Word) (s : State) :
    ps.foldl countPixel s =
      { s with hist := (ps.foldl countPixel s).hist, histBins := (ps.foldl countPixel s).histBins } := by
  induction ps generalizing s with
  | nil => rfl
  | cons p ps ih => rw [List.foldl_cons, ih]; rfl

/-- What a command does when it does not raise. -/
def Effect (i : Instr) (s t : State) : Prop :=
  match i with
  | .nop => t = s
  | .srst => t = softReset s
  | .bsWb _ => Appended s t ∧ s.gstate ≠ .final
  | .bsWbs => Appended s t ∧ s.gstate ≠ .final
  | .bsRst => t = { s with cursor := 0 } ∧ s.gstate ≠ .final
  | .lEnc _ => Appended s t ∧ s.gstate ≠ .final
  | .qClr f => ∃ g, formatOf f = some g ∧ t = { s with hist := [], histFmt := g, histBins := 0, histPixels := 0 }
  | .qAcc => (s.count = 0 ∧ t = s) ∨
      ∃ ps : List Word, ps.length = s.count.toNat ∧ s.histPixels.toNat + s.count.toNat < 2 ^ 32 ∧
        t = { ps.foldl countPixel s with histPixels := s.histPixels + s.count }
  | .qRed n => t = writePalette s (reducePalette s.params s.qcfg s.histFmt s.hist n.toNat)
  | .mMap _ => ∃ vs : List Byte, t = { s with mem := setBytes s.mem (elemAddr .idx s.dst.toNat) vs } ∧
      (vs = [] ∨ s.dst.toNat + vs.length ≤ s.params.pixWords)
  | .gHdr => s.modeAuto = false ∧ s.gstate = .uninit ∧ ∃ u, Appended s u ∧ t = { u with gstate := .header }
  | .gFrm => s.gstate ≠ .final ∧ frameTableLen s ≤ maxPalette ∧ ∃ u, Appended s u ∧
      t = { u with gpalLen := if isFirstFrame s then BitVec.ofNat 9 (frameTableLen s) else s.gpalLen, gstate := .header }
  | .gFin => s.gstate = .header ∧ ∃ u, Appended s u ∧ t = { u with gstate := .final }

theorem mapPixels_length (f : Format) (pal : List Rgba) (cache : MapCache) (cs : List Rgba) :
    (mapPixels f pal cache cs).length = cs.length := by
  induction cs generalizing cache with
  | nil => rfl
  | cons c cs ih => simp only [mapPixels]; split <;> simp [ih]

/-- An error entered with a code that is not 0 by the command `i` in `s`. -/
abbrev Raised (i : Instr) (s t : State) : Prop := ∃ e, e ≠ .none ∧ t = raiseError s i.opcode e

theorem qAcc_cases {s t : State} (h : exec .qAcc s = .next t) : Raised .qAcc s t ∨ Effect .qAcc s t := by
  rcases perform_cases (by
    split
    · exact .ok _
    · exact .raiseIf (by decide) fun _ => .raiseIf (by decide) fun _ =>
        .bind (namesErrors_readWordElems _ _ _ _) fun _ => .ok _) h with h | h
  · refine .inr ?_
    split at h
    · rename_i h0
      cases h
      exact .inl ⟨BitVec.eq_of_toNat_eq (by simpa using h0), rfl⟩
    · simp only [raiseIf_ok, bind_ok, Except.ok.injEq, decide_eq_false_iff_not, readWordElems_ok] at h
      obtain ⟨h1, _, ps, hps, rfl⟩ := h
      refine .inr ⟨ps, hps.1, by omega, ?_⟩
      show ({ ps.foldl countPixel s with histPixels := (ps.foldl countPixel s).histPixels + s.count } : State) = _
      rw [foldl_countPixel_frame]
  · exact .inl h

theorem mMap_cases {f : BitVec 2} {s t : State} (h : exec (.mMap f) s = .next t) :
    Raised (.mMap f) s t ∨ Effect (.mMap f) s t := by
  rcases perform_cases (by
    split
    · simp [NamesErrors]
    · refine .raiseIf (by decide) fun _ => .raiseIf (by decide) fun _ => ?_
      split
      · exact .ok _
      · exact .raiseIf (by decide) fun _ => .raiseIf (by decide) fun _ =>
          .bind (namesErrors_readWordElems _ _ _ _) fun _ => .bind (namesErrors_readWordElems _ _ _ _) fun _ => .ok _)
    h with h | h
  · refine .inr ?_
    revert h
    cases formatOf f with
    | none => simp
    | some g =>
      simp only [raiseIf_ok]
      rintro ⟨_, _, h⟩
      split at h
      · cases h; exact ⟨[], rfl, .inl rfl⟩
      · simp only [raiseIf_ok, bind_ok, Except.ok.injEq, decide_eq_false_iff_not, readWordElems_ok] at h
        obtain ⟨_, h2, ps, ⟨hps, _⟩, pal, _, rfl⟩ := h
        exact ⟨_, rfl, .inr (by rw [mapPixels_length, List.length_map, hps]; omega)⟩
  · exact .inl h

/-- Everything a command can do: raise an error, or have its effect. -/
theorem exec_cases {i : Instr} {s t : State} (h : exec i s = .next t) : Raised i s t ∨ Effect i s t := by
  cases i
  case nop => cases h; exact .inr rfl
  case srst => cases h; exact .inr rfl
  case qAcc => exact qAcc_cases h
  case mMap => exact mMap_cases h
  case bsWb v =>
    refine (perform_cases (by
      exact .raiseIf (by decide) fun _ => namesErrors_streamAppend _ _) h).symm.imp id fun h => ?_
    simp only [raiseIf_ok, decide_eq_false_iff_not] at h
    exact ⟨⟨[v], by simp [appendBytes, h.2, Except.bind]⟩, h.1⟩
  case bsWbs =>
    refine (perform_cases (by
      refine .raiseIf (by decide) fun _ => ?_
      split
      · exact .ok _
      · exact .raiseIf (by decide) fun _ => .raiseIf (by decide) fun _ => 
          .bind (namesErrors_readByteElems _ _ _ _) fun _ => namesErrors_appendBytes _ _) h).symm.imp id fun h => ?_
    rw [raiseIf_ok, decide_eq_false_iff_not] at h
    refine ⟨?_, h.1⟩
    replace h := h.2
    split at h
    · cases h; exact .refl _
    · simp only [raiseIf_ok, bind_ok] at h
      obtain ⟨_, _, _, _, h⟩ := h
      exact ⟨_, h⟩
  case bsRst =>
    refine (perform_cases (by
      exact .raiseIf (by decide) fun _ => .ok _) h).symm.imp id fun h => ?_
    simp only [raiseIf_ok, decide_eq_false_iff_not] at h
    obtain ⟨h1, h⟩ := h
    cases h; exact ⟨rfl, h1⟩
  case lEnc =>
    refine (perform_cases (by
      exact .raiseIf (by decide) fun _ => .raiseIf (by decide) fun _ => .raiseIf (by decide) fun _ => 
        .raiseIf (by decide) fun _ => .bind (namesErrors_readIndices _ _ _ _) fun _ =>
        namesErrors_appendBytes _ _) h).symm.imp id fun h => ?_
    simp only [raiseIf_ok, bind_ok, decide_eq_false_iff_not] at h
    obtain ⟨_, h1, _, _, _, _, h⟩ := h
    exact ⟨⟨_, h⟩, h1⟩
  case qClr f =>
    refine (perform_cases (by
      split
      · simp [NamesErrors]
      · exact .ok _) h).symm.imp id fun h => ?_
    revert h
    cases hf : formatOf f with
    | none => simp
    | some g => simp only [Except.ok.injEq]; rintro rfl; exact ⟨g, hf, rfl⟩
  case qRed =>
    refine (perform_cases (by
      exact .raiseIf (by decide) fun _ => .raiseIf (by decide) fun _ => .ok _) h).symm.imp id fun h => ?_
    simp only [raiseIf_ok, Except.ok.injEq] at h
    exact h.2.2.symm
  case gHdr =>
    refine (perform_cases (by
      exact .raiseIf (by decide) fun _ => .bind (namesErrors_appendBytes _ _) fun _ => .ok _) h).symm.imp id fun h => ?_
    simp only [raiseIf_ok, bind_ok, decide_eq_false_iff_not, Except.ok.injEq] at h
    obtain ⟨h1, u, h2, rfl⟩ := h
    exact ⟨by simp at h1; exact h1.1, by simp at h1; tauto, u, ⟨_, h2⟩, rfl⟩
  case gFrm =>
    refine (perform_cases (by
      exact .raiseIf (by decide) fun _ => .raiseIf (by decide) fun _ => .raiseIf (by decide) fun _ => 
        .raiseIf (by decide) fun _ => .raiseIf (by decide) fun _ => 
        .bind (namesErrors_readIndices _ _ _ _) fun _ => namesErrors_writeFrame _ _ _) h).symm.imp id fun h => ?_
    simp only [raiseIf_ok, bind_ok, decide_eq_false_iff_not] at h
    obtain ⟨h1, _, h2, _, _, _, _, h⟩ := h
    exact ⟨h1, by omega, writeFrame_effect h⟩
  case gFin =>
    refine (perform_cases (by
      exact .raiseIf (by decide) fun _ => .bind (namesErrors_streamAppend _ _) fun _ => .ok _) h).symm.imp id fun h => ?_
    simp only [raiseIf_ok, bind_ok, decide_eq_false_iff_not, Except.ok.injEq] at h
    obtain ⟨h1, u, h2, rfl⟩ := h
    exact ⟨by simpa using h1, u, ⟨[trailerByte], by simp [appendBytes, h2, Except.bind]⟩, rfl⟩

end Sys2Proof.Machine
end

