-- ==== Sys2Proof/Laws/Histogram.lean ====
section
/-! SUPPORT. The histogram: its canonical form, and everything counting pixels does to its bins, its size and its total
(42_quantizer.md R243, 10_state.md R47, R48, R60). -/

namespace Sys2Proof.Machine

section Keyed
variable {α : Type}

/-- Replacing the value of a listed key keeps the length; a new key adds one. -/
theorem length_insertKey {l : List (Nat × α)} (h : l.Pairwise (fun c d => c.1 < d.1)) (a : Nat) (v : α) :
    (insertKey l a v).length = if (lookupKey l a).isSome then l.length else l.length + 1 := by
  induction l with
  | nil => rfl
  | cons c l ih =>
    obtain ⟨hc, hl⟩ := List.pairwise_cons.1 h
    simp only [insertKey, lookupKey_cons]
    have hno : a < c.1 → lookupKey l a = none := by
      intro hlt
      cases hlk : lookupKey l a with
      | none => rfl
      | some w => exact absurd (hc _ (mem_of_lookupKey hlk)) (by simp; omega)
    have ih := ih hl
    by_cases h1 : a < c.1
    · simp [h1, hno h1, show a ≠ c.1 by omega]
    · by_cases h2 : a = c.1
      · simp [h2]
      · simp only [if_neg h1, if_neg h2, List.length_cons, ih]
        split <;> rfl

/-- What inserting a key does to a sum over the list. -/
theorem sum_insertKey {l : List (Nat × α)} (h : l.Pairwise (fun c d => c.1 < d.1)) (a : Nat) (v : α) (f : α → Nat) :
    ((insertKey l a v).map (fun c => f c.2)).sum + ((lookupKey l a).map f).getD 0 =
      (l.map (fun c => f c.2)).sum + f v := by
  induction l with
  | nil => simp [insertKey]
  | cons c l ih =>
    obtain ⟨hc, hl⟩ := List.pairwise_cons.1 h
    simp only [insertKey, lookupKey_cons]
    split_ifs with h1 h2 h3
    · omega
    · cases hlk : lookupKey l a with
      | none => simp; omega
      | some w => exact absurd (hc _ (mem_of_lookupKey hlk)) (by simp; omega)
    · simp; omega
    · have := ih hl
      simp only [List.map_cons, List.sum_cons]; omega

end Keyed

/-! ## Bins -/

theorem binAt_setBin {h : Histogram} (k j : Nat) (b : Bin) :
    binAt (setBin h k b) j = if j = k then b else binAt h j := by
  unfold setBin binAt
  split_ifs with h1 h2 h2
  · subst h1 h2; simp [lookupKey_erase]
  · subst h1; simp [lookupKey_erase, h2]
  · subst h2; simp [lookupKey_insert]
  · simp [lookupKey_insert, h2]

/-- A canonical histogram stays canonical. -/
theorem setBin_wf {h : Histogram} (hw : Histogram.wf h) {k : Nat} (hk : k < 65536) (b : Bin) :
    Histogram.wf (setBin h k b) := by
  unfold setBin
  split_ifs with hb
  · exact ⟨List.Pairwise.filter _ hw.1, fun c hc => hw.2 c (List.mem_of_mem_filter hc)⟩
  · refine ⟨insertKey_sorted k b hw.1, fun c hc => ?_⟩
    rcases mem_insertKey hc with rfl | hc
    · exact ⟨hk, hb⟩
    · exact hw.2 c hc

theorem colorKey_lt (f : Format) (c : Rgba) : colorKey f c < domain f := by
  obtain ⟨r, g, b, a⟩ := c
  have hr := r.isLt; have hg := g.isLt; have hb := b.isLt; have ha := a.isLt
  cases f <;> simp only [colorKey, domain]
  · have h1 : (r.toNat >>> 3) <<< 11 < 2 ^ 16 := by simp only [Nat.shiftRight_eq_div_pow, Nat.shiftLeft_eq]; omega
    have h2 : (g.toNat >>> 2) <<< 5 < 2 ^ 16 := by simp only [Nat.shiftRight_eq_div_pow, Nat.shiftLeft_eq]; omega
    have h3 : b.toNat >>> 3 < 2 ^ 16 := by simp only [Nat.shiftRight_eq_div_pow]; omega
    exact Nat.or_lt_two_pow (Nat.or_lt_two_pow h1 h2) h3
  · have h1 : (r.toNat >>> 4) <<< 8 < 2 ^ 12 := by simp only [Nat.shiftRight_eq_div_pow, Nat.shiftLeft_eq]; omega
    have h2 : (g.toNat >>> 4) <<< 4 < 2 ^ 12 := by simp only [Nat.shiftRight_eq_div_pow, Nat.shiftLeft_eq]; omega
    have h3 : b.toNat >>> 4 < 2 ^ 12 := by simp only [Nat.shiftRight_eq_div_pow]; omega
    exact Nat.or_lt_two_pow (Nat.or_lt_two_pow h1 h2) h3
  · have h1 : (r.toNat >>> 4) <<< 12 < 2 ^ 16 := by simp only [Nat.shiftRight_eq_div_pow, Nat.shiftLeft_eq]; omega
    have h2 : (g.toNat >>> 4) <<< 8 < 2 ^ 16 := by simp only [Nat.shiftRight_eq_div_pow, Nat.shiftLeft_eq]; omega
    have h3 : (b.toNat >>> 4) <<< 4 < 2 ^ 16 := by simp only [Nat.shiftRight_eq_div_pow, Nat.shiftLeft_eq]; omega
    have h4 : a.toNat >>> 4 < 2 ^ 16 := by simp only [Nat.shiftRight_eq_div_pow]; omega
    exact Nat.or_lt_two_pow (Nat.or_lt_two_pow (Nat.or_lt_two_pow h1 h2) h3) h4

theorem domain_le (f : Format) : domain f ≤ 65536 := by cases f <;> decide

/-- A canonical histogram lists at most 65536 bins. -/
theorem hist_length_le {h : Histogram} (hw : Histogram.wf h) : h.length ≤ 65536 := by
  have hn : (h.map Prod.fst).Nodup := List.pairwise_map.2 (hw.1.imp fun hlt => by omega)
  have hs : (h.map Prod.fst).toFinset ⊆ Finset.range 65536 := by
    intro k hk
    obtain ⟨c, hc, rfl⟩ := List.mem_map.1 (List.mem_toFinset.1 hk)
    exact Finset.mem_range.2 (hw.2 c hc).1
  have := Finset.card_le_card hs
  rwa [List.toFinset_card_of_nodup hn, List.length_map, Finset.card_range] at this

/-- A listed count is part of the total. -/
theorem cnt_le_pixelTotal {h : Histogram} (k : Nat) : (binAt h k).cnt.toNat ≤ pixelTotal h := by
  unfold binAt
  cases hk : lookupKey h k with
  | none => exact Nat.zero_le _
  | some b => exact List.single_le_sum (by simp) _ (List.mem_map.2 ⟨(k, b), mem_of_lookupKey hk, rfl⟩)

/-! ## Counting pixels -/

/-- What Q.ACC keeps while it counts: `histOk` with the total as an argument (10_state.md R47, R48, R60). -/
structure Counts (s : State) (total : Nat) : Prop where
  wf : Histogram.wf s.hist
  bins : ∀ c ∈ s.hist, c.1 < domain s.histFmt ∧ c.2.sound
  size : s.histBins.toNat = s.hist.length
  total : pixelTotal s.hist = total

theorem counts_of_histOk {s : State} (h : s.histOk) : Counts s s.histPixels.toNat :=
  ⟨h.1, h.2.1, h.2.2.1, h.2.2.2.symm⟩

/-- The bin of a key, listed or not, has sums of its count of channels. -/
theorem Counts.binAt_sums {s : State} {total : Nat} (h : Counts s total) (k : Nat) :
    (binAt s.hist k).rsum.toNat ≤ 255 * (binAt s.hist k).cnt.toNat ∧
    (binAt s.hist k).gsum.toNat ≤ 255 * (binAt s.hist k).cnt.toNat ∧
    (binAt s.hist k).bsum.toNat ≤ 255 * (binAt s.hist k).cnt.toNat ∧
    (binAt s.hist k).asum.toNat ≤ 255 * (binAt s.hist k).cnt.toNat := by
  unfold binAt
  cases hk : lookupKey s.hist k with
  | none => simp [Bin.zero]
  | some b => exact (h.bins _ (mem_of_lookupKey hk)).2.2

/-- The bin of a key is empty exactly where the key is not listed. -/
theorem Counts.cnt_eq_zero {s : State} {total : Nat} (h : Counts s total) (k : Nat) :
    (binAt s.hist k).cnt = 0 ↔ lookupKey s.hist k = none := by
  unfold binAt
  cases hk : lookupKey s.hist k with
  | none => simp [Bin.zero]
  | some b => simpa using (h.bins _ (mem_of_lookupKey hk)).2.1

/-- A sum that gains one channel does not wrap. -/
theorem sum_add_channel {x : BitVec 40} {c : BitVec 8} {n : Nat} (hx : x.toNat ≤ 255 * n) (hn : n < 2 ^ 32 - 1) :
    (x + c.setWidth 40).toNat = x.toNat + c.toNat := by
  have hc := c.isLt
  rw [BitVec.toNat_add, BitVec.toNat_setWidth, Nat.mod_eq_of_lt (a := c.toNat) (by omega), Nat.mod_eq_of_lt (by omega)]

/-- Everything one more pixel does to its bin, where the histogram is not full. -/
theorem Counts.addToBin_toNat {s : State} {total : Nat} (h : Counts s total) (ht : total + 1 < 2 ^ 32) (k : Nat)
    (c : Rgba) (alpha : Bool) :
    (addToBin alpha (binAt s.hist k) c).cnt.toNat = (binAt s.hist k).cnt.toNat + 1 ∧
    (addToBin alpha (binAt s.hist k) c).rsum.toNat = (binAt s.hist k).rsum.toNat + c.r.toNat ∧
    (addToBin alpha (binAt s.hist k) c).gsum.toNat = (binAt s.hist k).gsum.toNat + c.g.toNat ∧
    (addToBin alpha (binAt s.hist k) c).bsum.toNat = (binAt s.hist k).bsum.toNat + c.b.toNat ∧
    (addToBin alpha (binAt s.hist k) c).asum.toNat =
      (binAt s.hist k).asum.toNat + if alpha then c.a.toNat else 0 := by
  have hcnt : (binAt s.hist k).cnt.toNat ≤ total := h.total ▸ cnt_le_pixelTotal k
  obtain ⟨hr, hg, hb, ha⟩ := h.binAt_sums k
  refine ⟨?_, sum_add_channel hr (by omega), sum_add_channel hg (by omega), sum_add_channel hb (by omega), ?_⟩
  · have h1 : (1 : BitVec 32).toNat = 1 := rfl
    rw [addToBin, BitVec.toNat_add, h1, Nat.mod_eq_of_lt (by omega)]
  · cases alpha
    · rfl
    · exact sum_add_channel ha (by omega)

/-- One more pixel is counted in its bin and keeps what Q.ACC keeps. -/
theorem Counts.countPixel {s : State} {total : Nat} (h : Counts s total) (ht : total + 1 < 2 ^ 32) (p : Word) :
    Counts (Sys2Proof.Machine.countPixel s p) (total + 1) := by
  set k := colorKey s.histFmt (unpackPixel p) with hkdef
  set b := addToBin (hasAlpha s.histFmt) (binAt s.hist k) (unpackPixel p) with hbdef
  have hk : k < domain s.histFmt := colorKey_lt _ _
  have hk2 : k < 65536 := lt_of_lt_of_le hk (domain_le _)
  obtain ⟨hc, hr, hg, hbl, ha⟩ := h.addToBin_toNat ht k (unpackPixel p) (hasAlpha s.histFmt)
  rw [← hbdef] at hc hr hg hbl ha
  obtain ⟨or', og, ob, oa⟩ := h.binAt_sums k
  have h1 := (unpackPixel p).r.isLt
  have h2 := (unpackPixel p).g.isLt
  have h3 := (unpackPixel p).b.isLt
  have h4 := (unpackPixel p).a.isLt
  have hb0 : b.cnt ≠ 0 := by
    intro h0
    rw [h0] at hc
    simp at hc
  have hbz : b ≠ Bin.zero := fun h0 => hb0 (by rw [h0]; rfl)
  have hset : setBin s.hist k b = insertKey s.hist k b := by rw [setBin, if_neg hbz]
  have hwf : Histogram.wf (insertKey s.hist k b) := hset ▸ setBin_wf h.wf hk2 b
  have hlen := length_insertKey h.wf.1 k b
  have hle := hist_length_le hwf
  refine ⟨?_, ?_, ?_, ?_⟩
  · show Histogram.wf (setBin s.hist k b)
    rw [hset]; exact hwf
  · show ∀ c ∈ setBin s.hist k b, _
    rw [hset]
    intro c hc'
    rcases mem_insertKey hc' with rfl | hc'
    · have hsplit : (if hasAlpha s.histFmt = true then (unpackPixel p).a.toNat else 0) ≤ 255 := by split <;> omega
      exact ⟨hk, hb0, by simp only; omega, by simp only; omega, by simp only; omega, by simp only; omega⟩
    · exact h.bins c hc'
  · show (if (binAt s.hist k).cnt = 0 then s.histBins + 1 else s.histBins).toNat = (setBin s.hist k b).length
    rw [hset, hlen]
    have hs := h.size
    have h1 : (1 : BitVec 17).toNat = 1 := rfl
    by_cases hz : (binAt s.hist k).cnt = 0
    · have hnone := (h.cnt_eq_zero k).1 hz
      rw [if_pos hz]
      rw [hnone] at hlen ⊢
      simp only [Option.isSome_none, Bool.false_eq_true, if_false] at hlen ⊢
      rw [BitVec.toNat_add, h1, Nat.mod_eq_of_lt (by omega), hs]
    · rw [if_neg hz, hs]
      have : (lookupKey s.hist k).isSome := by
        rw [← Option.ne_none_iff_isSome]
        exact fun hn => hz ((h.cnt_eq_zero k).2 hn)
      rw [if_pos this]
  · show pixelTotal (setBin s.hist k b) = total + 1
    rw [hset]
    have hsum := sum_insertKey h.wf.1 k b (fun x => x.cnt.toNat)
    have hold : ((lookupKey s.hist k).map (fun x => x.cnt.toNat)).getD 0 = (binAt s.hist k).cnt.toNat := by
      unfold binAt
      cases lookupKey s.hist k <;> rfl
    have ht' := h.total
    simp only [pixelTotal] at ht' ⊢
    omega

/-- Everything counting one pixel does to a bin. -/
theorem binAt_countPixel (s : State) (p : Word) (k : Nat) :
    binAt (countPixel s p).hist k =
      if k = colorKey s.histFmt (unpackPixel p) then
        addToBin (hasAlpha s.histFmt) (binAt s.hist k) (unpackPixel p)
      else binAt s.hist k := by
  show binAt (setBin _ _ _) k = _
  rw [binAt_setBin]
  split_ifs with h
  · rw [h]
  · rfl

/-- Counting pixels keeps what Q.ACC keeps. -/
theorem Counts.foldl {s : State} {total : Nat} (h : Counts s total) (ps : List Word) (ht : total + ps.length < 2 ^ 32) :
    Counts (ps.foldl Sys2Proof.Machine.countPixel s) (total + ps.length) := by
  induction ps generalizing s total with
  | nil => exact h
  | cons p ps ih =>
    have h1 := h.countPixel (by simp at ht; omega) p
    have h2 := ih h1 (by simp at ht; omega)
    rw [List.foldl_cons, List.length_cons]
    exact (by omega : total + 1 + ps.length = total + (ps.length + 1)) ▸ h2

end Sys2Proof.Machine
end

