-- ==== Sys2Proof/Laws/Mux.lean ====
section
/-! SUPPORT. The multiplexer's writing operations as the bytes they append: WriteColorTable (44_gif_mux.md R334) and the
blocks of a frame (R340, R345). -/

namespace Sys2Proof.Machine

/-- The loop of WriteColorTable from entry `i` on appends the entries and then black ones. -/
theorem writeTableFrom_eq {s0 : State} (l : Nat) (pal : List Word) (hl : pal.length = l)
    (hpal : holdsWords s0 .pal 0 pal) :
    ∀ (k i : Nat) (s : State), s.params.wf →
      (∀ a, a < outAddr 0 → memByte s.mem a = memByte s0.mem a) → i + k ≤ 256 →
      let bs := (List.range' i k).flatMap (fun i => if h : i < l then rgbBytes (pal[i]'(by omega)) else [0,0,0])
      writeTableFrom l k i s = appendBytes s bs := by
  intro k
  induction k with
  | zero => intro i s _ _ _; rfl
  | succ k ih =>
    intro i s hp hm hik
    simp only [writeTableFrom, List.range'_succ, List.flatMap_cons, appendBytes_append]
    have he : tableEntry s l i = .ok (if h : i < l then rgbBytes (pal[i]'(by omega)) else [0,0,0]) := by
      unfold tableEntry
      by_cases h : i < l
      · rw [if_pos h, dif_pos h, show memReadWord s .pal i = .ok (pal[i]'(by omega)) from memReadWord_ok.2 ?_]
        · rfl
        · intro k hk
          rw [hm _ (by simp [outAddr_eq, elemAddr, spaceBase, elemBytes]; omega)]
          have := hpal i (by omega) k hk
          simpa [show i < pal.length by omega] using this
      · rw [if_neg h, dif_neg h]
    rw [he]
    show Except.bind (.ok _) _ = _
    simp only [Except.bind]
    cases happ : appendBytes s (if h : i < l then rgbBytes (pal[i]'(by omega)) else [0,0,0]) with
    | error e => rfl
    | ok t =>
      simp only
      have ha : Appended s t := ⟨_, happ⟩
      obtain ⟨vs, ht, _⟩ := ha.bytes (outCap_lt hp)
      rw [ih (i+1) t (by rw [ht]; exact hp) ?_ (by omega)]
      intro a hlt
      rw [ht, memByte_pushBytes, if_neg, hm a hlt]
      simp only [outAddr_eq] at *; omega

/-- The padding entries of a table. -/
theorem padding_eq (L n i : Nat) (g : Nat → List Byte) (hg : ∀ i, L ≤ i → g i = [0,0,0]) (hi : L ≤ i) :
    (List.range' i n).flatMap g = List.replicate (3 * n) 0 := by
  induction n generalizing i with
  | zero => rfl
  | succ n ih =>
    rw [List.range'_succ, List.flatMap_cons, hg i hi, ih (i+1) (by omega)]
    rw [show 3 * (n+1) = 3 + 3 * n by omega, ← List.replicate_append_replicate]; rfl

/-- The entries of a table from `i` on. -/
theorem entries_eq (pal : List Word) (i k : Nat) (hk : i + k = pal.length) :
    (List.range' i k).flatMap (fun i => if h : i < pal.length then rgbBytes (pal[i]'h) else [0,0,0]) =
      (pal.drop i).flatMap rgbBytes := by
  induction k generalizing i with
  | zero => rw [List.drop_eq_nil_of_le (by omega)]; rfl
  | succ k ih =>
    have hi : i < pal.length := by omega
    rw [List.range'_succ, List.flatMap_cons, ih (i+1) (by omega), dif_pos hi,
      List.drop_eq_getElem_cons hi, List.flatMap_cons]

theorem entries_padding_eq (pal : List Word) (n : Nat) :
    (List.range' 0 (pal.length + n)).flatMap (fun i => if h : i < pal.length then rgbBytes (pal[i]'h) else [0,0,0]) =
      pal.flatMap rgbBytes ++ List.replicate (3 * n) 0 := by
  rw [← List.range'_append_1, List.flatMap_append, entries_eq pal 0 pal.length (by omega),
    padding_eq pal.length n _ _ ?_ (by omega)]
  · rfl
  · intro i hi; rw [dif_neg (by omega)]

theorem ctSize_le {l : Nat} (h : l ≤ 256) : ctSize l ≤ 8 := by
  have : ∀ l ≤ 256, ctSize l ≤ 8 := by decide +kernel
  exact this l h

theorem le_pow_ctSize {l : Nat} (h : l ≤ 256) : l ≤ 2 ^ ctSize l := by
  have : ∀ l ≤ 256, l ≤ 2 ^ ctSize l := by decide +kernel
  exact this l h

/-- Everything WriteColorTable does where the palette is in memory (44_gif_mux.md R334). -/
theorem writeColorTable_eq {s0 s : State} (pal : List Word) (hl : pal.length ≤ 256) (hpal : holdsWords s0 .pal 0 pal)
    (hp : s.params.wf)     (hm : ∀ a, a < outAddr 0 → memByte s.mem a = memByte s0.mem a) :
    writeColorTable pal.length s = appendBytes s (tableBytes pal) := by
  have h256 : 2 ^ ctSize pal.length ≤ 2 ^ 8 := Nat.pow_le_pow_right (by omega) (ctSize_le hl)
  unfold writeColorTable
  rw [writeTableFrom_eq pal.length pal rfl hpal _ 0 s hp hm (by omega)]
  congr 1
  have := le_pow_ctSize hl
  rw [tableBytes, ← entries_padding_eq]
  congr 2; omega

/-- Appends leave memory below OUT alone. -/
theorem Appended.below {s t : State} (h : Appended s t) (hp : s.params.wf) :
    t.params.wf ∧ ∀ a, a < outAddr 0 → memByte t.mem a = memByte s.mem a := by
  obtain ⟨vs, ht, _⟩ := h.bytes (outCap_lt hp)
  subst ht
  refine ⟨hp, ?_⟩
  intro a hlt
  rw [memByte_pushBytes, if_neg]
  simp only [outAddr_eq] at *; omega

theorem bind_append (s : State) (vs ws : List Byte) {g : State → Except Stop State}
   (hg : ∀ t, Appended s t → g t = appendBytes t ws) : (appendBytes s vs).bind g = appendBytes s (vs ++ ws) := by
  rw [appendBytes_append]
  cases h : appendBytes s vs with
  | error e => rfl
  | ok t => exact hg t ⟨_, h⟩

theorem bind_bind {α β γ : Type} (x : Except Stop α) (f : α → Except Stop β) (g : β → Except Stop γ) :
    (x.bind f).bind g = x.bind fun a => (f a).bind g := by cases x <;> rfl

theorem bind_congr_ok {α β : Type} {x : Except Stop α} {f g : α → Except Stop β} (h : ∀ a, x = .ok a → f a = g a) :
    x.bind f = x.bind g := by
  cases hx : x with
  | error e => rfl
  | ok a => exact h a hx

/-- Everything the writing part of G.FRM does: it appends the bytes of the frame (44_gif_mux.md R345). -/
theorem writeFrame_eq (s : State) (ix : List Byte) (pal : List Word) (hp : s.params.wf)
    (h1 : s.frFlags.hasPal = true ∨ isFirstFrame s = false) (hle : frameTableLen s ≤ 256)
    (hpal : s.frFlags.hasPal = true → pal.length = s.palLen.toNat ∧ holdsWords s .pal 0 pal) :
    writeFrame (frameTableLen s) ix s =
      (appendBytes s (frameBytes s (frameTableLen s) pal ix)).bind fun u =>
        .ok { u with
          gpalLen := if isFirstFrame s then BitVec.ofNat 9 (frameTableLen s) else s.gpalLen
          gstate := .header } := by
  have hT : ∀ t, Appended s t → s.frFlags.hasPal = true →
      writeColorTable (frameTableLen s) t = appendBytes t (tableBytes pal) := by
    intro t ht hh
    obtain ⟨hpl, hpw⟩ := hpal hh
    have hlp : frameTableLen s = pal.length := by simp [frameTableLen, hh, hpl]
    obtain ⟨a, b⟩ := ht.below hp
    rw [hlp]
    exact writeColorTable_eq pal (by omega) hpw a b
  have hH : ∀ t, Appended s t → isFirstFrame s = true →
      t.frWidth = s.frWidth ∧ t.frHeight = s.frHeight ∧ t.frFlags = s.frFlags ∧ t.frLoop = s.frLoop →
      writeHeader (frameTableLen s) t = appendBytes t
        (lsdBytes s.frWidth s.frHeight (frameTableLen s) ++ tableBytes pal ++
          (if s.frFlags.loopEn then netscapeBytes s.frLoop else [])) := by
    intro t ht hf ⟨e1, e2, e3, e4⟩
    have hh : s.frFlags.hasPal = true := by rcases h1 with h | h; exact h; simp [h] at hf
    rw [writeHeader, e1, e2, List.append_assoc]
    refine bind_append t _ _ ?_
    intro u hu
    have hu' := ht.trans hu
    rw [hT u hu' hh]
    refine bind_append u _ _ ?_
    intro v hv
    have hv' := (hu.trans hv).frame
    have e5 : t.frFlags = s.frFlags := e3
    rw [e3, e4]
    split
    · rfl
    · rfl
  have hfr : ∀ t, Appended s t →
      t.frWidth = s.frWidth ∧ t.frHeight = s.frHeight ∧ t.frFlags = s.frFlags ∧ t.frLoop = s.frLoop := by
    intro t ht; rw [ht.frame]; simp
  unfold writeFrame frameBytes
  simp only [List.append_assoc]
  have hsig : (if (s.modeAuto && decide (s.gstate = GState.uninit)) = true then appendBytes s signatureBytes
      else Except.ok s) =
      appendBytes s (if s.modeAuto = true ∧ s.gstate = GState.uninit then signatureBytes else []) := by
    by_cases hc : s.modeAuto = true ∧ s.gstate = GState.uninit
    · simp [hc]
    · rw [if_neg hc, if_neg (by simpa using hc)]; rfl
  have hB : ∀ s1, Appended s s1 →
      (if isFirstFrame s = true then writeHeader (frameTableLen s) s1 else Except.ok s1) =
    appendBytes s1 (if isFirstFrame s = true then
                lsdBytes s.frWidth s.frHeight (frameTableLen s) ++
                  (tableBytes pal ++ if s.frFlags.loopEn = true then netscapeBytes s.frLoop else [])
              else []) := by
    intro s1 a1
    by_cases hf : isFirstFrame s = true
    · rw [if_pos hf, if_pos hf, hH s1 a1 hf (hfr s1 a1), List.append_assoc]
    · rw [if_neg hf, if_neg hf]; rfl
  have hE : ∀ s4, Appended s s4 →
      (if (s.frFlags.hasPal && !isFirstFrame s) = true then writeColorTable (frameTableLen s) s4 else .ok s4) =
     appendBytes s4 (if (s.frFlags.hasPal && !isFirstFrame s) = true then tableBytes pal else []) := by
    intro s4 a4
    by_cases hc : (s.frFlags.hasPal && !isFirstFrame s) = true
    · rw [if_pos hc, if_pos hc, hT s4 a4 (by simp at hc; exact hc.1)]
    · rw [if_neg hc, if_neg hc]; rfl
  rw [hsig, appendBytes_append, bind_bind]
  refine bind_congr_ok fun s1 h1 => ?_
  have a1 : Appended s s1 := ⟨_, h1⟩
  rw [hB s1 a1, appendBytes_append, bind_bind]
  refine bind_congr_ok fun s2 h2 => ?_
  have a2 := a1.trans ⟨_, h2⟩
  rw [appendBytes_append, bind_bind]
  refine bind_congr_ok fun s3 h3 => ?_
  have a3 := a2.trans ⟨_, h3⟩
  rw [appendBytes_append, bind_bind]
  refine bind_congr_ok fun s4 h4 => ?_
  have a4 := a3.trans ⟨_, h4⟩
  rw [hE s4 a4, appendBytes_append, bind_bind]

end Sys2Proof.Machine
end

