-- ==== Sys2Proof/Laws/PerInstr.lean ====
section
/-! SUPPORT. A statement for every command as syntax, one lemma per constructor: its word carries its opcode byte and
matches a row of the opcode table (30_encoding.md R142, R150, R152). -/

namespace Sys2Proof.Laws.EncodeMatches

open Sys2Proof Sys2Proof.Machine

/-- The word of a command has the command's opcode byte, a legal one, and matches a row. -/
def Statement (i : Instr) : Prop :=
  opField (encode i) = i.opcode ∧ i.opcode ∈ legalOpcodes ∧ ∃ r ∈ opcodeRows, rowMatches (encode i) r

/-- A word without an immediate is checked as it stands. -/
theorem nop : Statement .nop := ⟨rfl, by decide, (maskN, 0x00000000#32), by decide, by decide⟩

theorem srst : Statement .srst := ⟨rfl, by decide, (maskN, 0x01000000#32), by decide, by decide⟩

theorem bsWb (imm8 : BitVec 8) : Statement (.bsWb imm8) := by
  refine ⟨?_, by simp [Instr.opcode, legalOpcodes], (maskB, 0x10000000#32), by decide, ?_⟩ <;> revert imm8 <;> decide

theorem bsWbs : Statement .bsWbs := ⟨rfl, by decide, (maskN, 0x11000000#32), by decide, by decide⟩

theorem bsRst : Statement .bsRst := ⟨rfl, by decide, (maskN, 0x12000000#32), by decide, by decide⟩

theorem lEnc (d : BitVec 4) : Statement (.lEnc d) := by
  refine ⟨?_, by simp [Instr.opcode, legalOpcodes], (maskL, 0x20000000#32), by decide, ?_⟩ <;> revert d <;> decide

theorem qClr (fmt : BitVec 2) : Statement (.qClr fmt) := by
  refine ⟨?_, by simp [Instr.opcode, legalOpcodes], (maskF, 0x30000000#32), by decide, ?_⟩ <;> revert fmt <;> decide

theorem qAcc : Statement .qAcc := ⟨rfl, by decide, (maskN, 0x31000000#32), by decide, by decide⟩

theorem qRed (ncol : BitVec 9) : Statement (.qRed ncol) := by
  refine ⟨?_, by simp [Instr.opcode, legalOpcodes], (maskQ, 0x32000000#32), by decide, ?_⟩ <;> revert ncol <;> decide

theorem mMap (fmt : BitVec 2) : Statement (.mMap fmt) := by
  refine ⟨?_, by simp [Instr.opcode, legalOpcodes], (maskF, 0x40000000#32), by decide, ?_⟩ <;> revert fmt <;> decide

theorem gHdr : Statement .gHdr := ⟨rfl, by decide, (maskN, 0x50000000#32), by decide, by decide⟩

theorem gFrm : Statement .gFrm := ⟨rfl, by decide, (maskN, 0x51000000#32), by decide, by decide⟩

theorem gFin : Statement .gFin := ⟨rfl, by decide, (maskN, 0x52000000#32), by decide, by decide⟩

end Sys2Proof.Laws.EncodeMatches
end

