-- ==== Sys2Proof/Laws/Quantizer.lean ====
section
/-! SUPPORT. The reduction keeps the arena's length, so the palette is no longer than the histogram. -/

namespace Sys2Proof.Machine

theorem dedupFrom_length_le (seen l) : (dedupFrom seen l).length ≤ l.length := by
  induction l generalizing seen with
  | nil => simp [dedupFrom]
  | cons c l ih => simp only [dedupFrom]; split <;> simp <;> [have := ih seen; have := ih (c :: seen)] <;> omega

theorem walkList_length_le (ar k i) : (walkList ar k i).length ≤ k := by
  induction k generalizing i with
  | zero => simp [walkList]
  | succ k ih => simp only [walkList]; split <;> simp; exact ih _

theorem linkFrom_length (i ar) : (linkFrom i ar).length = ar.length := by
  induction ar generalizing i with
  | nil => rfl
  | cons x l ih => cases l with
    | nil => rfl
    | cons y l => simp only [linkFrom, List.length_cons]; have := ih (i+1); simp at this; omega

theorem findNN_length (p al ar i) : (findNN p al ar i).length = ar.length := by simp [findNN]

theorem buildHeap_length (p al k i ar hp) : (buildHeap p al k i ar hp).1.length = ar.length := by
  induction k generalizing i ar hp with
  | zero => rfl
  | succ k ih => simp only [buildHeap]; rw [ih, findNN_length]

theorem popValid_length (p al i k ar hp) : (popValid p al i k ar hp).1.length = ar.length := by
  induction k generalizing ar hp with
  | zero => rfl
  | succ k ih =>
    simp only [popValid]; split
    · rfl
    · split
      · rw [ih]
      · rw [ih]; simp [findNN_length]

theorem mergeBins_length (al ar i x y) : (mergeBins al ar i x y).length = ar.length := by
  simp only [mergeBins, unlinkBin]; split <;> simp

theorem mergeLoop_length (p al k i a) : (mergeLoop p al k i a).1.length = a.1.length := by
  induction k generalizing i a with
  | zero => rfl
  | succ k ih => simp only [mergeLoop]; rw [ih, mergeBins_length, popValid_length]

theorem dampen_length (p n ar) : (dampen p n ar).length = ar.length := by simp only [dampen]; split <;> simp

/-- MergeLoop begins with one arena bin for each bin of the histogram that holds a pixel (42_quantizer.md R251). -/
theorem mergeStart_length (p f h n) : (mergeStart p f h n).1.length = (compactBins f h).length := by
  rw [mergeStart, buildHeap_length, linkFrom_length, dampen_length]

theorem reducePalette_length_le (p q f h n) : (reducePalette p q f h n).length ≤ h.length := by
  simp only [reducePalette, extractPalette]
  refine (dedupFrom_length_le _ _).trans ?_
  rw [List.length_map]
  refine (walkList_length_le _ _ _).trans ?_
  rw [mergeLoop_length, mergeStart_length, compactBins, List.length_map]
  exact List.length_filter_le _ _

end Sys2Proof.Machine
end

