-- ==== Sys2Proof/Laws/Step.lean ====
section
/-! SUPPORT. What one step can do, said once: an invariant holds after a step if it survives a command, an error entry,
the end of a command and a host access (`step_keeps`); what a host access can do (`hostAccess_cases`); and that the core's
turn is `coreStep` (`CoreTurn.step_eq`). -/

namespace Sys2Proof.Machine

/-- Appends keep the canonical form of memory. -/
theorem Appended.mem_wf {s t : State} (h : Appended s t) (hm : Memory.wf s.mem) : Memory.wf t.mem := by
  obtain ⟨vs, h⟩ := h
  induction vs generalizing s with
  | nil => simp [appendBytes] at h; subst h; exact hm
  | cons v vs ih =>
    simp only [appendBytes, bind_ok, streamAppend_ok] at h
    obtain ⟨u, ⟨_, rfl⟩, h⟩ := h
    exact ih (setByte_wf _ _ hm) h

/-- Everything a host access can do: reset, a hazard, a register write, a word stored, an answer. -/
theorem hostAccess_cases {s t : State} {op : HostOp} (h : hostAccess s op = .next t) :
    t = hardReset s ∨ t = flagHazard s ∨ (∃ v r, t = newDraws (regWrite s v r)) ∨
    (∃ sp a v, busTarget s.params a = .mem sp ∧ t = newDraws (storeWord s sp a v)) ∨
    ∃ d n, t = { s with rdata := d, draws := n } := by
  cases op with
  | reset => cases h; exact .inl rfl
  | read a sz =>
    simp only [hostAccess, hostRead] at h
    split at h
    · split at h
      · cases h
      · cases h
      · split at h <;> cases h <;> exact .inr (.inr (.inr (.inr ⟨_, _, rfl⟩)))
      · split at h <;> cases h <;> exact .inr (.inr (.inr (.inr ⟨_, _, rfl⟩)))
    · cases h
  | write a sz v =>
    simp only [hostAccess, hostWrite] at h
    split at h
    · split at h
      · cases h
      · cases h
      · split at h <;> cases h
        · exact .inr (.inl rfl)
        · exact .inr (.inr (.inl ⟨_, _, rfl⟩))
      · rename_i sp hsp
        split at h <;> cases h
        · exact .inr (.inl rfl)
        · exact .inr (.inr (.inr (.inl ⟨_, _, _, hsp, rfl⟩)))
    · cases h

/-- While ERR is not 0 a latched word that is neither NOP nor SRST is discarded (60_exceptions.md R412). -/
theorem latched_discarded {s : State} (he : s.err ≠ .none) (h0 : s.cmdl ≠ 0x00000000#32) (h1 : s.cmdl ≠ 0x01000000#32) :
    latched s = .discarded := if_pos ⟨he, h0, h1⟩

/-- With ERR 0 the latched word is decoded (30_encoding.md R140). -/
theorem latched_decoded {s : State} (he : s.err = .none) :
    latched s = match decodeWord s.cmdl with
      | .ok i => .run i
      | .error _ => .illegal (opField s.cmdl) := if_neg fun h => h.1 he

/-- The core's turn of a busy core performs the latched word in `u`, which is `s` but for its schedule. -/
theorem CoreTurn.step_eq {s u : State} (h : CoreTurn s u) (hb : s.busy = true) :
    step s = coreStep u ∧ u = { s with schedule := u.schedule } := by
  rcases h with ⟨h, rfl⟩ | ⟨rest, h, rfl⟩ | ⟨rest, h, rfl⟩ <;> exact ⟨by simp [step, h, coreTurn, hb], rfl⟩

/-- A property that survives everything a step is made of survives a step. -/
theorem step_keeps (P : State → Prop)
    (hexec : ∀ i s t, P s → exec i s = .next t → P t)
    (hraise : ∀ s e, P s → e ≠ .none → P (raiseError s (opField s.cmdl) e))
    (hret : ∀ s, P s → P (retire s))
    (hsched : ∀ s l, P s → P { s with schedule := l })
    (hacc : ∀ s op t, P s → hostAccess s op = .next t → P t)
    (hpoll : ∀ s, P s → P (pollDone s)) :
    ∀ s t, P s → step s = .next t → P t := by
  have hcore : ∀ s t, P s → coreStep s = .next t → P t := by
    intro s t hs h
    unfold coreStep at h
    split at h
    · cases h; exact hret _ hs
    · rename_i op hl
      cases h
      have : op = opField s.cmdl := by
        unfold latched at hl
        split at hl
        · cases hl
        · split at hl <;> cases hl; rfl
      subst this
      exact hret _ (hraise _ _ hs (by simp))
    · rename_i i _
      revert h
      cases he : exec i s with
      | next u => simp only [retireOutcome]; intro h; cases h; exact hret _ (hexec _ _ _ hs he)
      | fault _ => simp [retireOutcome]
      | refused _ => simp [retireOutcome]
  have hturn : ∀ s t, P s → coreTurn s = .next t → P t := by
    intro s t hs h
    unfold coreTurn at h
    split at h
    · exact hcore _ _ hs h
    · cases h; exact hs
  intro s t hs h
  unfold step at h
  split at h
  · exact hturn _ _ hs h
  · exact hturn _ _ (hsched _ _ hs) h
  · exact hacc _ _ _ (hsched _ _ hs) h
  · split at h
    · exact hcore _ _ hs h
    · cases h; exact hpoll _ (hsched _ _ hs)

end Sys2Proof.Machine
end

