-- ==== Sys2Proof/Tests/Slice0.lean ====
section
/-! SUPPORT. The model's own tests: words written out from 30_encoding.md, vectors of 95_test_vectors.md, and for every
statement with hypotheses a witness that meets them, clause by clause. -/

namespace Sys2Proof.Tests

open Sys2Proof Sys2Proof.Machine

-- Kernel evaluations one after the other: side by side they ask for many threads at once.
set_option Elab.async false

/-! ## Helpers -/

/-- Parameters small enough to meet every limit: 8 pixels, 8 source bytes, 64 bytes of stream. -/
def tiny : Params := { Params.default with pixWords := 8, bufBytes := 8, outCap := 64 }

/-- A core just reset. -/
def start : State := State.resetWith tiny

/-- Bytes put into a memory from element `a` on. -/
def load (sp : Space) (a : Nat) (vs : List Byte) (s : State) : State :=
  { s with mem := setBytes s.mem (elemAddr sp a) vs }

/-- Words put into a memory from element `a` on. -/
def loadWords (sp : Space) (a : Nat) (ws : List Word) (s : State) : State := load sp a (ws.flatMap wordBytes) s

/-- The next state, if there is one. -/
def next? (o : Host.Outcome State Fault Refusal) : Option State :=
  match o with
  | .next t => some t
  | .fault _ => none
  | .refused _ => none

/-- The next state, or the reset state. -/
def after (o : Host.Outcome State Fault Refusal) : State := (next? o).getD start

theorem eq_next_after {o : Host.Outcome State Fault Refusal} (h : (next? o).isSome) : o = .next (after o) := by
  cases o <;> simp_all [next?, after]

/-- The stream: the bytes of OUT below CURSOR. -/
def streamOf (s : State) : List (Option Byte) :=
  (List.range s.cursor.toNat).map (fun k => memByte s.mem (outAddr k))

/-- The error record as (ERR, ERR_OP). -/
def errOf (s : State) : BitVec 8 × BitVec 8 := (errCode s.err, s.errOp)

/-- The core's step on a command word from `s`. -/
def run (s : State) (w : Nat) : State := after (step (s.withFetchWord 32 w))

/-- A core in FINAL. -/
def finalState : State := { start with gstate := .final }

/-- A core whose stream is `n` zero bytes. -/
def streamed (n : Nat) : State := pushBytes start (List.replicate n 0)

/-- Reading an idle core's bus address. -/
def readAt (s : State) (a : Word) : Word := (after (hostAccess s (.read a .word))).rdata

/-! ## Well-formedness -/

/-- 30_encoding.md R145: what lies just outside each field's legal range is refused, what lies just inside is not. -/
theorem test_wf_fields :
    (Instr.lEnc 9).wf = false ∧ (Instr.lEnc 8).wf = true ∧ (Instr.qClr 3).wf = false ∧ (Instr.qClr 2).wf = true ∧
    (Instr.qRed 0).wf = false ∧ (Instr.qRed 1).wf = true ∧ (Instr.qRed 256).wf = true ∧ (Instr.qRed 257).wf = false ∧
    (Instr.mMap 3).wf = false ∧ (Instr.mMap 2).wf = true := by decide

/-- 00_scope.md R9: the defaults meet the constraints. -/
theorem test_wf_defaults : Params.default.wf ∧ tiny.wf := by decide +kernel

/-- 00_scope.md R9: one set of parameters against each constraint. -/
theorem test_wf_params (p : Params) (h : p.wf) :
    p.pixWords ∉ [0, 6, 4194308] ∧ p.bufBytes ∉ [0, 10, 65540] ∧ p.outCap ∉ [60, 66, 67108868] ∧
    p.sqrtThreshold ∉ [0, 0x7FF0000000000001] ∧ p.lzwHsize ≠ 4090 := by
  obtain ⟨h1, h2, h3, h4, h5, h6, h7, h8, h9, h10, h11, h12⟩ := h
  refine ⟨?_, ?_, ?_, ?_, by omega⟩ <;> intro hm <;> simp at hm
  · omega
  · omega
  · omega
  · rcases hm with hm | hm <;> rw [hm] at h10 h11 <;> simp at h10 h11

/-! ## Decoding: words written out bit by bit from 30_encoding.md R143 and R150 -/

theorem test_decode_system :
    decodeWord 0b00000000_000000000000000000000000#32 = .ok .nop ∧
    decodeWord 0b00000001_000000000000000000000000#32 = .ok .srst := by decide

theorem test_decode_bytestream :
    decodeWord 0b00010000_0000000000000000_10100101#32 = .ok (.bsWb 0xA5) ∧
    decodeWord 0b00010001_000000000000000000000000#32 = .ok .bsWbs ∧
    decodeWord 0b00010010_000000000000000000000000#32 = .ok .bsRst := by decide

theorem test_decode_lzw : decodeWord 0b00100000_00000000000000000000_1001#32 = .ok (.lEnc 9) := by decide

theorem test_decode_quantizer :
    decodeWord 0b00110000_0000000000000000000000_10#32 = .ok (.qClr 2) ∧
    decodeWord 0b00110001_000000000000000000000000#32 = .ok .qAcc ∧
    decodeWord 0b00110010_000000000000000_100000001#32 = .ok (.qRed 257) := by decide

theorem test_decode_mapper : decodeWord 0b01000000_0000000000000000000000_01#32 = .ok (.mMap 1) := by decide

theorem test_decode_mux :
    decodeWord 0b01010000_000000000000000000000000#32 = .ok .gHdr ∧
    decodeWord 0b01010001_000000000000000000000000#32 = .ok .gFrm ∧
    decodeWord 0b01010010_000000000000000000000000#32 = .ok .gFin := by decide

/-- 95_test_vectors.md, 2.7: the words that are no command, each with the reason. -/
theorem test_decode_rejects :
    decodeWord 0x10000100#32 = .error (.reservedBits 0x10) ∧ decodeWord 0x33000000#32 = .error (.reservedOpcode 0x33) ∧
    decodeWord 0x32000200#32 = .error (.reservedBits 0x32) ∧ decodeWord 0x20000010#32 = .error (.reservedBits 0x20) ∧
    decodeWord 0x00000001#32 = .error (.reservedBits 0x00) ∧ decodeWord 0x01000001#32 = .error (.reservedBits 0x01) ∧
    decodeWord 0x51000001#32 = .error (.reservedBits 0x51) ∧ decodeWord 0x0F000000#32 = .error (.reservedOpcode 0x0F) ∧
    decodeWord 0xFF000000#32 = .error (.reservedOpcode 0xFF) := by decide

/-- The host's numbering of a word's bits. -/
theorem test_decode_table_word :
    decodeTableWord 32 0x10000041 = some (.bsWb 0x41) ∧ decodeTableWord 32 0x33000000 = none := by decide

/-- 95_test_vectors.md, 2.7: an illegal word through the step, SRST's opcode with bit 0 set among them. -/
theorem test_illegal_words :
    errOf (run start 0x33000000) = (0x01, 0x33) ∧ errOf (run (streamed 2) 0x01000001) = (0x01, 0x01) ∧
    (run (streamed 2) 0x01000001).cursor = 2 := by decide +kernel

/-- 60_exceptions.md R412, 10_state.md R35: an illegal word does not overwrite the first error, whatever its opcode byte. -/
theorem test_sticky_illegal :
    let s := { start with err := .arg, errOp := 0x20, cmdl := 0x01000001, busy := true }
    errOf (after (step s)) = (0x02, 0x20) ∧ (after (step s)).busy = false ∧
    errOf (after (step { s with cmdl := 0x33000000 })) = (0x02, 0x20) := by decide +kernel

/-! ## Commands -/

/-- 95_test_vectors.md E2: NOP runs while an error is recorded, and changes nothing. -/
theorem test_nop : errOf (after (exec .nop { start with err := .arg, errOp := 0x20 })) = (0x02, 0x20) := by
  decide +kernel

/-- 95_test_vectors.md E3, E4: SRST clears the session state and keeps MODE and PAL_LEN. -/
theorem test_srst :
    let t := run { streamed 3 with gpalLen := 2, palLen := 5, modeAuto := false, haz := true } 0x01000000
    (errOf t, t.cursor, t.gstate, t.gpalLen, t.haz) = ((0, 0), 0, .uninit, 0, false) ∧
    t.palLen = 5 ∧ t.modeAuto = false ∧ t.busy = false := by decide +kernel

/-- 95_test_vectors.md B1. -/
theorem test_bsWb : streamOf (run (run start 0x10000041) 0x10000042) = [some 0x41, some 0x42] := by decide +kernel

/-- 95_test_vectors.md B6: the 65th byte of a stream of 64. -/
theorem test_bsWb_full :
    let t := after (exec (.bsWb 64) (streamed 64))
    errOf t = (0x0A, 0x10) ∧ t.cursor = 64 := by decide +kernel

/-- 95_test_vectors.md B2. -/
theorem test_bsWbs :
    streamOf (after (exec .bsWbs { load .buf 0 [1, 2, 3, 4, 5] start with count := 5 })) =
      [some 1, some 2, some 3, some 4, some 5] := by decide +kernel

/-- 95_test_vectors.md B7, B8: 60 bytes and 5 more do not fit, and 4 more do. -/
theorem test_bsWbs_full :
    let s := load .buf 0 [1, 2, 3, 4, 5] (streamed 60)
    let t := after (exec .bsWbs { s with count := 5 })
    errOf t = (0x0A, 0x11) ∧ t.cursor = 60 ∧ (after (exec .bsWbs { s with count := 4 })).cursor = 64 := by
  decide +kernel

/-- 95_test_vectors.md B5, and the FINAL row for BS.RST. -/
theorem test_bsRst :
    (after (exec .bsRst (streamed 2))).cursor = 0 ∧ errOf (after (exec .bsRst finalState)) = (0x03, 0x12) := by
  decide +kernel

/-- 95_test_vectors.md L8: the width grows. -/
theorem test_lEnc :
    streamOf (after (exec (.lEnc 3) { load .idx 0 [7, 6, 5, 4, 3, 2, 1, 0] start with count := 8 })) =
      [some 0x03, some 0x06, some 0x78, some 0x56, some 0x34, some 0x12, some 0x20, some 0x01, some 0x00] := by
  decide +kernel

/-- 95_test_vectors.md L13, L14, L16, L18: E_LENGTH, E_INDEX_RANGE, E_ARG and E_STREAM_FULL. -/
theorem test_lEnc_errors :
    errOf (after (exec (.lEnc 2) start)) = (0x06, 0x20) ∧
    errOf (after (exec (.lEnc 2) { load .idx 0 [4] start with count := 1 })) = (0x08, 0x20) ∧
    errOf (after (exec (.lEnc 9) start)) = (0x02, 0x20) ∧
    errOf (after (exec (.lEnc 2) { load .idx 0 [0] (streamed 60) with count := 1 })) = (0x0A, 0x20) := by
  decide +kernel

/-- The pixels of 95_test_vectors.md Q1 counted: three red and one blue. -/
def q1 : State :=
  after (exec .qAcc { loadWords .pix 0 [0xFF0000FF, 0xFF0000FF, 0xFF0000FF, 0xFFFF0000] start with count := 4 })

/-- 95_test_vectors.md Q24, and Q.CLR after Q1. -/
theorem test_qClr :
    errOf (after (exec (.qClr 3) q1)) = (0x02, 0x30) ∧ (after (exec (.qClr 3) q1)).hist = q1.hist ∧
    (after (exec (.qClr 2) q1)).hist = [] ∧ (after (exec (.qClr 2) q1)).histFmt = .rgba4444 := by decide +kernel

/-- 95_test_vectors.md Q1: two bins, blue's key 0x001F before red's 0xF800. -/
theorem test_qAcc :
    q1.hist = [(0x001F, ⟨1, 0, 0, 255, 0⟩), (0xF800, ⟨3, 765, 0, 0, 0⟩)] ∧ q1.histBins = 2 ∧ q1.histPixels = 4 := by
  decide +kernel

/-- 95_test_vectors.md Q25, Q26. -/
theorem test_qAcc_errors :
    errOf (after (exec .qAcc { start with histPixels := 0xFFFFFFFE, count := 2 })) = (0x06, 0x31) ∧
    errOf (after (exec .qAcc { start with src := 7, count := 2 })) = (0x07, 0x31) := by decide +kernel

/-- 95_test_vectors.md Q1: one merge, PAL = [(191,0,64,255)]. -/
theorem test_qRed :
    let t := after (exec (.qRed 1) q1)
    t.palLen = 1 ∧ memReadWord t .pal 0 = .ok 0xFF4000BF ∧ t.hist = q1.hist := by decide +kernel

/-- 95_test_vectors.md Q19, Q21. -/
theorem test_qRed_errors :
    errOf (after (exec (.qRed 1) start)) = (0x09, 0x32) ∧ errOf (after (exec (.qRed 257) q1)) = (0x02, 0x32) := by
  decide +kernel

/-- The palette (0,0,0), (6,0,0) and the pixels (5,0,0), (2,0,0) of 95_test_vectors.md M3. -/
def m3 : State :=
  { loadWords .pal 0 [0xFF000000, 0xFF000006] (loadWords .pix 0 [0xFF000005, 0xFF000002] start) with
    palLen := 2, count := 2 }

/-- 95_test_vectors.md M3: the second pixel takes the index of the first with its key. -/
theorem test_mMap :
    let t := after (exec (.mMap 0) m3)
    memReadByte t .idx 0 = .ok 1 ∧ memReadByte t .idx 1 = .ok 1 := by decide +kernel

/-- 95_test_vectors.md M9, M11. -/
theorem test_mMap_errors :
    errOf (after (exec (.mMap 0) { m3 with palLen := 300 })) = (0x05, 0x40) ∧
    errOf (after (exec (.mMap 3) { m3 with palLen := 0 })) = (0x02, 0x40) := by decide +kernel

/-- 95_test_vectors.md G9, G11. -/
theorem test_gHdr :
    let t := after (exec .gHdr { start with modeAuto := false })
    streamOf t = [some 0x47, some 0x49, some 0x46, some 0x38, some 0x39, some 0x61] ∧ t.gstate = .header ∧
    errOf (after (exec .gHdr t)) = (0x03, 0x50) ∧ errOf (after (exec .gHdr start)) = (0x03, 0x50) := by decide +kernel

/-- The setup of 95_test_vectors.md P2: a 1×1 frame with the one-entry palette (0,128,255). -/
def p2 : State :=
  { loadWords .pal 0 [0xFFFF8000] (load .idx 0 [0] start) with
    palLen := 1, frWidth := 1, frHeight := 1, frFlags := frFlagsOfWord 0x0000000C, count := 1 }

/-- 95_test_vectors.md P2: the 61 bytes of the frame. -/
theorem test_gFrm :
    let t := after (exec .gFrm p2)
    t.cursor = 61 ∧ t.gstate = .header ∧ t.gpalLen = 1 ∧
    streamOf t = ([0x47, 0x49, 0x46, 0x38, 0x39, 0x61, 0x01, 0x00, 0x01, 0x00, 0xF0, 0x00, 0x00,
      0x00, 0x80, 0xFF, 0x00, 0x00, 0x00,
      0x21, 0xFF, 0x0B, 0x4E, 0x45, 0x54, 0x53, 0x43, 0x41, 0x50, 0x45, 0x32, 0x2E, 0x30, 0x03, 0x01, 0x00, 0x00, 0x00,
      0x21, 0xF9, 0x04, 0x00, 0x00, 0x00, 0x00, 0x00, 0x2C, 0x00, 0x00, 0x00, 0x00, 0x01, 0x00, 0x01, 0x00, 0x00,
      0x02, 0x02, 0x44, 0x01, 0x00] : List Byte).map some := by decide +kernel

/-- 95_test_vectors.md P4, frame 2: a local table of three entries, transparency index 2, automatic disposal 2. -/
theorem test_gFrm_local :
    let s := { loadWords .pal 0 [0xFF0000FF, 0xFF00FF00, 0xFFFF0000] (load .idx 2 [2, 0] start) with
      palLen := 3, frWidth := 2, frHeight := 1, frDelay := 5, frFlags := frFlagsOfWord 0x00000205, src := 2, count := 2,
      gstate := .header, modeAuto := false, gpalLen := 2 }
    streamOf (after (exec .gFrm s)) = ([0x21, 0xF9, 0x04, 0x09, 0x05, 0x00, 0x02, 0x00,
      0x2C, 0x00, 0x00, 0x00, 0x00, 0x02, 0x00, 0x01, 0x00, 0x81,
      0xFF, 0x00, 0x00, 0x00, 0xFF, 0x00, 0x00, 0x00, 0xFF, 0x00, 0x00, 0x00,
      0x02, 0x02, 0x14, 0x0A, 0x00] : List Byte).map some := by decide +kernel

/-- 95_test_vectors.md P2 and G8. -/
theorem test_gFin :
    let t := after (exec .gFin { streamed 61 with gstate := .header })
    t.gstate = .final ∧ t.cursor = 62 ∧ memByte t.mem (outAddr 61) = some 0x3B ∧
    errOf (after (exec .gFin start)) = (0x03, 0x52) := by decide +kernel

/-! ## The host's side -/

/-- 95_test_vectors.md P3: STATUS after the error is 0x00200200. -/
theorem test_status : readAt { start with err := .arg, errOp := 0x20 } 0x08 = 0x00200200#32 := by decide +kernel

/-- 95_test_vectors.md P2: `RDW OUT[0]` is 0x38464947. -/
theorem test_read_stream :
    readAt (after (exec .gHdr { start with modeAuto := false })) 0x04000000 = 0x38464947#32 := by decide +kernel

/-- 10_state.md R54, 20_memory.md R100, R108: what a model refuses. -/
theorem test_refused_accesses :
    hostAccess start (.read 0x54 .word) = .refused (.unassignedRegister 0x54) ∧
    hostAccess start (.write 0x00002000 .word 0) = .refused (.unmappedAddress 0x00002000) ∧
    hostAccess start (.read 0x02 .word) = .refused (.unsupportedAccess 0x02) ∧
    hostAccess start (.write 0x10 .byte 0) = .refused (.unsupportedAccess 0x10) := ⟨rfl, rfl, rfl, rfl⟩

/-- A POLL gives the core its turn, then answers STATUS with BUSY 0 (30_encoding.md R156). -/
theorem test_poll :
    let s := { start with cmdl := 0x10000041, busy := true, schedule := [.poll] }
    let t := after (step s)
    t.busy = false ∧ t.schedule = [.poll] ∧ (after (step t)).schedule = [] ∧ (after (step t)).rdata = 0 := by
  decide +kernel

/-! ## Witnesses: each statement's hypotheses, clause by clause, met at a boundary where there is one -/

/-- No row matches a NOP with bit 0 set. -/
theorem no_row_matches : ∀ r ∈ opcodeRows, ¬ rowMatches 0x00000001#32 r := by
  intro r hr
  simp only [opcodeRows, List.mem_cons, List.not_mem_nil, or_false] at hr
  rcases hr with rfl | rfl | rfl | rfl | rfl | rfl | rfl | rfl | rfl | rfl | rfl | rfl | rfl <;> decide

theorem witness_EncodeDecodeRoundTrip : decodeWord 0x320001FF#32 = .ok (.qRed 511) := by decide

theorem witness_ExactlyOneRowMatches :
    (maskN, 0x52000000#32) ∈ opcodeRows ∧ rowMatches 0x52000000#32 (maskN, 0x52000000#32) ∧
    ∀ r ∈ opcodeRows, ¬ rowMatches 0x00000001#32 r := by
  refine ⟨by decide, by decide, no_row_matches⟩

theorem witness_FieldValuesAreLegalOrRaise :
    (Instr.lEnc 9).wf = false ∧ (Instr.qRed 0).wf = false ∧ (Instr.qRed 257).wf = false ∧ (Instr.qClr 3).wf = false ∧
    (Instr.mMap 3).wf = false ∧ (Instr.lEnc 8).wf = true ∧ (Instr.qRed 256).wf = true ∧ start.err ≠ .arg ∧
    exec (.lEnc 8) start = .next (after (exec (.lEnc 8) start)) :=
  ⟨rfl, rfl, rfl, rfl, rfl, rfl, rfl, by decide +kernel, eq_next_after (by decide +kernel)⟩

/-- A busy core with the word of `BS.WB 0x41` latched and the given schedule. -/
def latchedByte (sched : List Event) : State := { start with cmdl := 0x10000041, busy := true, schedule := sched }

theorem witness_StepRunsTheLatchedCommand :
    (latchedByte []).busy = true ∧ decodeWord (latchedByte []).cmdl = .ok (.bsWb 0x41) ∧ (latchedByte []).err = .none ∧
    (latchedByte []).schedule = [] ∧ (latchedByte [.core]).schedule = .core :: [] ∧
    (latchedByte [.poll]).schedule = .poll :: [] ∧
    exec (.bsWb 0x41) (latchedByte []) = .next (after (exec (.bsWb 0x41) (latchedByte []))) ∧
    decodeWord { latchedByte [] with cmdl := 0, err := .arg }.cmdl = .ok .nop :=
  ⟨rfl, by decide, rfl, rfl, rfl, rfl, eq_next_after (by decide +kernel), by decide⟩

theorem witness_StickyErrorDiscards :
    let s (l : List Event) (w : Word) : State := { latchedByte l with err := .arg, errOp := 0x20, cmdl := w }
    (s [] 0x00000001#32).busy = true ∧ (s [] 0x00000001#32).err ≠ .none ∧ CoreTurn (s [] 0x00000001#32) (s [] 0x00000001#32) ∧
    (0x00000001#32 : Word) ≠ 0x00000000#32 ∧ (0x00000001#32 : Word) ≠ 0x01000000#32 ∧
    CoreTurn (s [.core] 0x01000001#32) (s [] 0x01000001#32) ∧ CoreTurn (s [.poll] 0x10000041#32) (s [.poll] 0x10000041#32) ∧
    step (s [] 0x01000000#32) = .next (retire (softReset (s [] 0x01000000#32))) ∧
    step (s [] 0x00000001#32) = .next (retire (s [] 0x00000001#32)) :=
  ⟨rfl, by decide, .inl ⟨rfl, rfl⟩, by decide, by decide, .inr (.inl ⟨[], rfl, rfl⟩), .inr (.inr ⟨[], rfl, rfl⟩), rfl, rfl⟩

theorem witness_IllegalWordRaises :
    (latchedByte [.core]).busy = true ∧ (latchedByte [.core]).err = .none ∧ CoreTurn (latchedByte [.core]) (latchedByte []) ∧
    (maskB, 0x10000000#32) ∈ opcodeRows ∧ rowMatches (latchedByte [.core]).cmdl (maskB, 0x10000000#32) ∧
    ∀ r ∈ opcodeRows, ¬ rowMatches { latchedByte [.core] with cmdl := 0x00000001 }.cmdl r :=
  ⟨rfl, rfl, .inr (.inl ⟨[], rfl, rfl⟩), by decide, by decide, no_row_matches⟩

theorem witness_IdleCoreStays :
    start.busy = false ∧ start.schedule = [] ∧ step start = .next start ∧
    { start with schedule := [.core] }.schedule = .core :: [] ∧ { start with schedule := [.poll] }.schedule = .poll :: [] ∧
    { start with schedule := [.access (.write 0x04#32 .word 0)] }.busy = false := ⟨rfl, rfl, rfl, rfl, rfl, rfl⟩

theorem witness_ErrorsArePrecise :
    finalState.err = .none ∧ exec .bsRst finalState = .next (after (exec .bsRst finalState)) ∧
    (after (exec .bsRst finalState)).err ≠ .none ∧
    (let s := { start with cmdl := 0x00000001, busy := true, schedule := [.core] }
     s.busy = true ∧ CoreTurn s { s with schedule := [] } ∧ s.err = .none ∧ step s = .next (after (step s)) ∧
     (after (step s)).err ≠ .none) :=
  ⟨rfl, eq_next_after (by decide +kernel), by decide +kernel, rfl, .inr (.inl ⟨[], rfl, rfl⟩), rfl,
    eq_next_after (by decide +kernel), by decide +kernel⟩

theorem witness_NopHasNoEffect :
    (let s := { start with cmdl := 0x00000000#32, busy := true, err := .arg }
     s.busy = true ∧ s.cmdl = 0x00000000#32 ∧ CoreTurn s s) ∧
    opField 0x00800000#32 = 0x00#8 ∧ (0x00800000#32 : Word) ≠ 0x00000000#32 :=
  ⟨⟨rfl, rfl, .inl ⟨rfl, rfl⟩⟩, by decide, by decide⟩

theorem witness_SrstClearsTheSession :
    let s := { finalState with cmdl := 0x01000000#32, busy := true, err := .state, schedule := [.core] }
    s.busy = true ∧ s.cmdl = 0x01000000#32 ∧ CoreTurn s { s with schedule := [] } :=
  ⟨rfl, rfl, .inr (.inl ⟨[], rfl, rfl⟩)⟩

theorem witness_CommandsLeaveOperandRegisters : exec .srst (streamed 2) = .next (softReset (streamed 2)) := rfl

theorem witness_GstateTransitions :
    exec .nop start = .next start ∧ exec .srst finalState = .next (softReset finalState) ∧
    (∃ t, exec .gHdr { start with modeAuto := false } = .next t ∧ t.gstate = .header) ∧
    (∃ t, exec .gFrm p2 = .next t ∧ t.gstate = .header) ∧
    (∃ t, exec .gFin { start with gstate := .header } = .next t ∧ t.gstate = .final) :=
  ⟨rfl, rfl, ⟨_, eq_next_after (by decide +kernel), by decide +kernel⟩,
    ⟨_, eq_next_after (by decide +kernel), by decide +kernel⟩, ⟨_, eq_next_after (by decide +kernel), by decide +kernel⟩⟩

theorem witness_UnwrittenReadFaults_bsWbs :
    let s := { load .buf 6 [1] (streamed 62) with bufAddr := 6, count := 2 }
    1 < s.count.toNat ∧ s.gstate ≠ .final ∧ s.bufAddr.toNat + s.count.toNat ≤ s.params.bufBytes ∧
    s.cursor.toNat + s.count.toNat ≤ s.params.outCap ∧ memByte s.mem (elemAddr .buf (s.bufAddr.toNat + 1)) = none := by
  decide +kernel

/-- IDX ends with the index 3 and an element without a value. -/
theorem witness_UnwrittenReadFaults_lEnc :
    let s := { load .idx 6 [3] start with src := 6, count := 2 }
    1 < s.count.toNat ∧ (2#4).toNat ≤ 8 ∧ s.gstate ≠ .final ∧ s.src.toNat + s.count.toNat ≤ s.params.pixWords ∧
    (∀ i < 1, ∀ v, memByte s.mem (elemAddr .idx (s.src.toNat + i)) = some v → v.toNat < 2 ^ max 2 (2#4).toNat) ∧
    memByte s.mem (elemAddr .idx (s.src.toNat + 1)) = none := by
  refine ⟨by decide, by decide, by decide, by decide, ?_, by decide +kernel⟩
  intro i hi v hv
  obtain rfl : i = 0 := by omega
  have h : memByte (load .idx 6 [3] start).mem (elemAddr .idx 6) = some 3 := by decide +kernel
  obtain rfl : 3#8 = v := Option.some.inj (h.symm.trans hv)
  decide

/-- PIX ends with a pixel and an element without a value. -/
theorem witness_UnwrittenReadFaults_qAcc :
    let s := { loadWords .pix 6 [1] start with src := 6, count := 2, histPixels := 0xFFFFFFFD }
    1 < s.count.toNat ∧ s.histPixels.toNat + s.count.toNat ≤ 2 ^ 32 - 1 ∧
    s.src.toNat + s.count.toNat ≤ s.params.pixWords ∧
    ∃ b < 4, memByte s.mem (elemAddr .pix (s.src.toNat + 1) + b) = none := by decide +kernel

/-- A pixel without a value; then both pixels held and the second palette entry without one. -/
theorem witness_UnwrittenReadFaults_mMap :
    let s := { loadWords .pix 6 [1] start with src := 6, dst := 6, count := 2, palLen := 256 }
    let u := { m3 with palLen := 3 }
    (0#2 : BitVec 2) ≠ 3 ∧ 1 ≤ s.palLen.toNat ∧ s.palLen.toNat ≤ 256 ∧ 0 < s.count.toNat ∧
    s.src.toNat + s.count.toNat ≤ s.params.pixWords ∧ s.dst.toNat + s.count.toNat ≤ s.params.pixWords ∧
    1 < s.count.toNat ∧ (∃ b < 4, memByte s.mem (elemAddr .pix (s.src.toNat + 1) + b) = none) ∧
    [0xFF000005#32, 0xFF000002#32].length = u.count.toNat ∧
    holdsWords u .pix u.src.toNat [0xFF000005#32, 0xFF000002#32] ∧ 2 < u.palLen.toNat ∧
    ∃ b < 4, memByte u.mem (elemAddr .pal 2 + b) = none := by decide +kernel

theorem witness_BsWbAppendsOneByte :
    finalState.gstate = .final ∧
    ((streamed 64).gstate ≠ .final ∧ (streamed 64).params.outCap ≤ (streamed 64).cursor.toNat) ∧
    ((streamed 63).gstate ≠ .final ∧ (streamed 63).cursor.toNat < (streamed 63).params.outCap) := by decide +kernel

/-- Three source bytes at the end of BUF, and `n` stream bytes. -/
def buffered (n : Nat) : State := { load .buf 5 [7, 8, 9] (streamed n) with bufAddr := 5, count := 3 }

theorem witness_BsWbsAppendsTheBuffer :
    start.params.wf ∧ finalState.gstate = .final ∧ (start.gstate ≠ .final ∧ start.count.toNat = 0) ∧
    (let s := { buffered 0 with bufAddr := 6 }
     s.gstate ≠ .final ∧ 0 < s.count.toNat ∧ s.params.bufBytes < s.bufAddr.toNat + s.count.toNat) ∧
    (let s := buffered 62
     s.gstate ≠ .final ∧ 0 < s.count.toNat ∧ s.bufAddr.toNat + s.count.toNat ≤ s.params.bufBytes ∧
     s.params.outCap < s.cursor.toNat + s.count.toNat) ∧
    (let s := buffered 61
     s.params.wf ∧ [7, 8, 9].length = s.count.toNat ∧ holdsBytes s .buf s.bufAddr.toNat [7, 8, 9] ∧ s.gstate ≠ .final ∧
     0 < s.count.toNat ∧ s.bufAddr.toNat + s.count.toNat ≤ s.params.bufBytes ∧
     s.cursor.toNat + s.count.toNat ≤ s.params.outCap) := by decide +kernel

theorem witness_BsRstRewinds : finalState.gstate = .final ∧ (streamed 2).gstate ≠ .final := by decide +kernel

theorem witness_AppendsSplitInvariantly :
    let s := buffered 61
    s.params.wf ∧ [7, 8, 9].length = s.count.toNat ∧ holdsBytes s .buf s.bufAddr.toNat [7, 8, 9] ∧ s.gstate ≠ .final ∧
    s.bufAddr.toNat + s.count.toNat ≤ s.params.bufBytes ∧ s.cursor.toNat + s.count.toNat ≤ s.params.outCap := by
  decide +kernel

/-- One index at the end of IDX, and `n` stream bytes. -/
def indexed (v : Byte) (n : Nat) : State := { load .idx 7 [v] (streamed n) with src := 7, count := 1 }

theorem witness_LEncAppendsImageData :
    start.params.wf ∧ 8 < (9#4).toNat ∧ ((8#4).toNat ≤ 8 ∧ finalState.gstate = .final) ∧
    (start.gstate ≠ .final ∧ start.count.toNat = 0) ∧
    (let s := { start with src := 8, count := 1 }
     s.gstate ≠ .final ∧ 0 < s.count.toNat ∧ s.params.pixWords < s.src.toNat + s.count.toNat) ∧
    (let s := indexed 4 0
     [4].length = s.count.toNat ∧ holdsBytes s .idx s.src.toNat [4] ∧ s.gstate ≠ .final ∧ 0 < s.count.toNat ∧
     s.src.toNat + s.count.toNat ≤ s.params.pixWords ∧ ∃ v ∈ [4#8], 2 ^ max 2 (2#4).toNat ≤ v.toNat) ∧
    (let s := indexed 3 60
     holdsBytes s .idx s.src.toNat [3] ∧ (∀ v ∈ [3#8], v.toNat < 2 ^ max 2 (2#4).toNat) ∧
     s.params.outCap < s.cursor.toNat + (lzwEncode (max 2 (2#4).toNat) [3]).length) ∧
    (let s := indexed 3 59
     holdsBytes s .idx s.src.toNat [3] ∧ (∀ v ∈ [3#8], v.toNat < 2 ^ max 2 (2#4).toNat) ∧
     s.cursor.toNat + (lzwEncode (max 2 (2#4).toNat) [3]).length ≤ s.params.outCap) := by decide +kernel

theorem witness_LzwBytesAreThePackedCodes : 2 ≤ 2 ∧ 2 ≤ 8 ∧ ∀ v ∈ 3#8 :: [0#8], v.toNat < 2 ^ 2 := by decide

theorem witness_LzwCodesFitTheirWidth :
    2 ≤ 2 ∧ 2 ≤ 8 ∧ [0#8, 0#8, 0#8, 0#8] ≠ [] ∧ (∀ v ∈ [0#8, 0#8, 0#8, 0#8], v.toNat < 2 ^ 2) ∧
    (lzwCodes 2 [0, 0, 0, 0])[0]? = some (4, 3) ∧
    lzwCodes 2 [0, 0, 0, 0] = [(4, 3), (0, 3), (6, 3), (0, 3), (5, 4)] := by
  decide +kernel

theorem witness_LzwIsLossless : 2 ≤ 8 ∧ 8 ≤ 8 ∧ [255#8] ≠ [] ∧ ∀ v ∈ [255#8], v.toNat < 2 ^ 8 := by decide

theorem witness_QClrStartsAHistogram : formatCode .rgba4444 = 2 ∧ formatCode .rgb565 = 0 := by decide

/-- A pixel at the end of PIX and a histogram of `n` pixels with key 0. -/
def counted (n : BitVec 32) : State :=
  { loadWords .pix 7 [0xFF0000FF] start with
    src := 7, count := 1, hist := [(0, ⟨n, 0, 0, 0, 0⟩)], histBins := 1, histPixels := n }

theorem witness_QAccCountsPixels :
    (start.histOk ∧ start.count.toNat = 0) ∧
    (let s := counted 0xFFFFFFFF
     s.histOk ∧ 0 < s.count.toNat ∧ 2 ^ 32 - 1 < s.histPixels.toNat + s.count.toNat) ∧
    (let s := { counted 0xFFFFFFFE with src := 8 }
     s.histOk ∧ 0 < s.count.toNat ∧ s.histPixels.toNat + s.count.toNat ≤ 2 ^ 32 - 1 ∧
     s.params.pixWords < s.src.toNat + s.count.toNat) ∧
    (let s := counted 0xFFFFFFFE
     s.histOk ∧ [0xFF0000FF#32].length = s.count.toNat ∧ holdsWords s .pix s.src.toNat [0xFF0000FF#32] ∧
     0 < s.count.toNat ∧ s.histPixels.toNat + s.count.toNat ≤ 2 ^ 32 - 1 ∧
     s.src.toNat + s.count.toNat ≤ s.params.pixWords) :=
  ⟨by decide +kernel, by decide +kernel, by decide +kernel, by decide +kernel⟩

theorem witness_QAccAccumulates :
    let s := loadWords .pix 6 [0xFF0000FF, 0xFFFF0000] { start with src := 6 }
    let t := after (exec .qAcc { s with count := 1 })
    let u := after (exec .qAcc { t with src := s.src + 1, count := 1 })
    0 < (1#32).toNat ∧ (1#32).toNat + (1#32).toNat < 2 ^ 32 ∧ s.src.toNat + (1#32).toNat < 2 ^ 32 ∧ s.err = .none ∧
    exec .qAcc { s with count := 1 } = .next t ∧ t.err = .none ∧
    exec .qAcc { t with src := s.src + 1, count := 1 } = .next u ∧ u.err = .none :=
  ⟨by decide, by decide, by decide +kernel, by decide +kernel, eq_next_after (by decide +kernel), by decide +kernel,
    eq_next_after (by decide +kernel), by decide +kernel⟩

theorem witness_QRedWritesThePalette :
    (0#9).toNat = 0 ∧ 256 < (257#9).toNat ∧ (1 ≤ (1#9).toNat ∧ (1#9).toNat ≤ 256 ∧ start.histBins = 0) ∧
    (1 ≤ (256#9).toNat ∧ (256#9).toNat ≤ 256 ∧ q1.histBins ≠ 0) := by decide +kernel

theorem witness_FewBinsNeedNoMerge : q1.histOk ∧ q1.hist ≠ [] ∧ 1 ≤ 1 ∧ 1 ≤ 2 ∧ q1.hist.length ≤ 2 := by decide +kernel

theorem witness_PaletteHasNoDuplicates :
    [(⟨0, 0, 0, 0⟩ : Rgba), ⟨1, 0, 0, 0⟩][1]? = some ⟨1, 0, 0, 0⟩ ∧
    ∀ i < 1, [(⟨0, 0, 0, 0⟩ : Rgba), ⟨1, 0, 0, 0⟩][i]? ≠ some ⟨1, 0, 0, 0⟩ := by decide

/-- Bin 0 of 95_test_vectors.md Q1 with the cost 1.0, and a deleted bin. -/
def twoBins : Arena :=
  [{ compactBin false ⟨1, 0, 0, 255, 0⟩ with err := f64One }, ArenaBin.absent]

theorem witness_MergeLoopFindsAValidTop : MergeReady twoBins [1, 0] 0 where
  heapIndex := by decide
  heapLive := ⟨0, by decide, by decide +kernel⟩
  headLive := by decide +kernel
  timeBound x _ := by
    rcases x with _ | _ | x
    · decide +kernel
    · decide +kernel
    · exact Nat.zero_le _
  linkLive x hx := by
    rcases x with _ | _ | x
    · exact .inl (by decide +kernel)
    · exact .inl (by decide +kernel)
    · exact .inl rfl

/-- The reduction of 95_test_vectors.md Q1 to one colour makes one merge. -/
theorem witness_MergeLoopFindsAValidTop_reduction : q1.histOk ∧ 1 ≤ 1 ∧ 0 + 1 < q1.hist.length := by decide +kernel

/-- The costs of `twoBins`, bins outside the arena among them, are numbers. -/
theorem twoBins_costsNumeric : CostsNumeric twoBins := by
  intro x
  rcases x with _ | _ | x
  · decide +kernel
  · decide +kernel
  · show (f64Rat sentinel).isSome
    decide +kernel

/-- 1.0 above 1e100. -/
theorem twoBins_ordered : HeapOrdered twoBins [0, 1] := by
  intro c h2 hc
  obtain rfl : c = 2 := by simp at hc; omega
  decide +kernel

theorem witness_HeapPushKeepsOrder : CostsNumeric twoBins ∧ HeapOrdered twoBins [0, 1] :=
  ⟨twoBins_costsNumeric, twoBins_ordered⟩

/-- Below the root nothing is out of order; at the root 1e100 stands above 1.0. -/
theorem witness_SiftDownRestoresOrder :
    CostsNumeric twoBins ∧ [1, 0] ≠ [] ∧ HeapOrderedBelow twoBins [1, 0] :=
  ⟨twoBins_costsNumeric, by decide, fun c h4 hc => absurd hc (by simp; omega)⟩

/-- 0.5 -/
def half : F64 := 0x3FE0000000000000#64

theorem f64Rat_one : f64Rat f64One = some 1 := by
  have h : f64Val f64One = .fin false (2 ^ 52) (-52) := by decide +kernel
  rw [f64Rat, h]; norm_num

theorem f64Rat_half : f64Rat half = some (1 / 2) := by
  have h : f64Val half = .fin false (2 ^ 52) (-53) := by decide +kernel
  rw [f64Rat, h]; norm_num

theorem three_lt_overflowBound : 3 < overflowBound := by
  have h : (1 : ℚ) ≤ 2 ^ 970 := one_le_pow₀ (by norm_num)
  have e : overflowBound = (2 : ℚ) ^ 970 * (2 ^ 54 - 1) := by rw [overflowBound, mul_sub, ← pow_add, mul_one]
  rw [e]
  exact lt_of_lt_of_le (by norm_num) (mul_le_mul_of_nonneg_right h (by norm_num : (0 : ℚ) ≤ 2 ^ 54 - 1))

theorem witness_FloatArithmeticRounds :
    f64Rat f64One = some 1 ∧ f64Rat half = some (1 / 2) ∧ |(1 : ℚ) + 1 / 2| < overflowBound ∧
    |(1 : ℚ) - 1 / 2| < overflowBound ∧ |(1 : ℚ) * (1 / 2)| < overflowBound ∧ (1 / 2 : ℚ) ≠ 0 ∧
    |(1 : ℚ) / (1 / 2)| < overflowBound :=
  have h := three_lt_overflowBound
  ⟨f64Rat_one, f64Rat_half, by rw [abs_lt]; constructor <;> linarith, by rw [abs_lt]; constructor <;> linarith,
    by rw [abs_lt]; constructor <;> linarith, by norm_num, by rw [abs_lt]; constructor <;> linarith⟩

theorem witness_FloatSqrtRounds : f64Rat half = some (1 / 2) ∧ (0 : ℚ) ≤ 1 / 2 := ⟨f64Rat_half, by norm_num⟩

theorem witness_FloatComparisonsAreExact : f64Rat half = some (1 / 2) ∧ f64Rat f64One = some 1 :=
  ⟨f64Rat_half, f64Rat_one⟩

theorem witness_RoundClampRoundsHalvesUp : f64Rat half = some (1 / 2) ∧ roundClamp half = 1 :=
  ⟨f64Rat_half, by decide +kernel⟩

theorem witness_NearestIsTheLastOfTheLeast :
    [(⟨10, 0, 0, 0⟩ : Rgba), ⟨20, 0, 0, 0⟩] ≠ [] ∧
    [(⟨10, 0, 0, 0⟩ : Rgba), ⟨20, 0, 0, 0⟩][0]? = some ⟨10, 0, 0, 0⟩ ∧
    colorDist false ⟨10, 0, 0, 0⟩ ⟨15, 0, 0, 0⟩ = colorDist false ⟨20, 0, 0, 0⟩ ⟨15, 0, 0, 0⟩ := by decide

theorem witness_CacheGivesTheRepresentativesIndex :
    let cs : List Rgba := [⟨5, 0, 0, 255⟩, ⟨2, 0, 0, 255⟩]
    cs[1]? = some ⟨2, 0, 0, 255⟩ ∧
    cs.find? (fun e => colorKey .rgb565 e = colorKey .rgb565 ⟨2, 0, 0, 255⟩) = some ⟨5, 0, 0, 255⟩ := by decide

theorem witness_MMapWritesTheIndices :
    formatCode .rgb565 = 0 ∧ start.palLen.toNat = 0 ∧ 256 < { start with palLen := 257 }.palLen.toNat ∧
    (let s := { start with palLen := 256 }
     1 ≤ s.palLen.toNat ∧ s.palLen.toNat ≤ 256 ∧ s.count.toNat = 0) ∧
    (let s := { m3 with src := 7 }
     0 < s.count.toNat ∧ s.params.pixWords < s.src.toNat + s.count.toNat) ∧
    (let s := { m3 with dst := 7 }
     0 < s.count.toNat ∧ s.params.pixWords < s.dst.toNat + s.count.toNat) ∧
    (let s := { m3 with dst := 6 }
     [0xFF000005#32, 0xFF000002#32].length = s.count.toNat ∧
     holdsWords s .pix s.src.toNat [0xFF000005#32, 0xFF000002#32] ∧
     [0xFF000000#32, 0xFF000006#32].length = s.palLen.toNat ∧ holdsWords s .pal 0 [0xFF000000#32, 0xFF000006#32] ∧
     1 ≤ s.palLen.toNat ∧ s.palLen.toNat ≤ 256 ∧ 0 < s.count.toNat ∧
     s.src.toNat + s.count.toNat ≤ s.params.pixWords ∧ s.dst.toNat + s.count.toNat ≤ s.params.pixWords) := by
  decide +kernel

theorem witness_GHdrWritesTheSignature :
    start.params.wf ∧ start.modeAuto = true ∧ finalState.gstate ≠ .uninit ∧
    (let s := { streamed 59 with modeAuto := false }
     s.gstate = .uninit ∧ s.params.outCap < s.cursor.toNat + 6) ∧
    (let s := { streamed 58 with modeAuto := false }
     s.params.wf ∧ s.modeAuto = false ∧ s.gstate = .uninit ∧ s.cursor.toNat + 6 ≤ s.params.outCap) := by decide +kernel

theorem witness_GFinWritesTheTrailer :
    start.gstate ≠ .header ∧
    (let s := { streamed 64 with gstate := .header }
     s.gstate = .header ∧ s.params.outCap ≤ s.cursor.toNat) ∧
    (let s := { streamed 63 with gstate := .header }
     s.gstate = .header ∧ s.cursor.toNat < s.params.outCap) := by decide +kernel

theorem witness_GFrmChecksInOrder :
    finalState.gstate = .final ∧ p2.gstate ≠ .final ∧
    (let s := { p2 with palLen := 0 }
     s.frFlags.hasPal = true ∧ s.palLen = 0) ∧
    (start.frFlags.hasPal = false ∧ isFirstFrame start = true) ∧
    (let s := { start with gstate := .header }
     s.frFlags.hasPal = false ∧ isFirstFrame s = false ∧ s.gpalLen = 0) ∧
    (let s := { p2 with palLen := 257 }
     s.frFlags.hasPal = true ∧ 256 < s.palLen.toNat) ∧
    (let s := { p2 with frWidth := 0 }
     s.frFlags.hasPal = true ∧ 1 ≤ frameTableLen s ∧ frameTableLen s ≤ 256 ∧ s.frWidth = 0) ∧
    { p2 with frHeight := 0 }.frHeight = 0 ∧
    (let s := { p2 with count := 2 }
     s.count.toNat ≠ s.frWidth.toNat * s.frHeight.toNat) ∧
    (let s := { p2 with src := 8, palLen := 256 }
     frameTableLen s = 256 ∧ s.frWidth ≠ 0 ∧ s.frHeight ≠ 0 ∧ s.count.toNat = s.frWidth.toNat * s.frHeight.toNat ∧
     s.params.pixWords < s.src.toNat + s.count.toNat) ∧
    (let s := { start with gstate := .header, gpalLen := 1 }
     isFirstFrame s = false ∧ 1 ≤ frameTableLen s ∧ s.frWidth = 0) := by decide +kernel

/-- The common hypotheses of GFrmWritesTheFrame. -/
abbrev frameHyps (s : State) (indices : List Byte) (pal : List Word) : Prop :=
  s.params.wf ∧ s.gstate ≠ .final ∧ (s.frFlags.hasPal = true ∨ isFirstFrame s = false) ∧ 1 ≤ frameTableLen s ∧
  frameTableLen s ≤ 256 ∧ s.frWidth ≠ 0 ∧ s.frHeight ≠ 0 ∧ s.count.toNat = s.frWidth.toNat * s.frHeight.toNat ∧
  s.src.toNat + s.count.toNat ≤ s.params.pixWords ∧ indices.length = s.count.toNat ∧
  holdsBytes s .idx s.src.toNat indices ∧
  (s.frFlags.hasPal = true → pal.length = s.palLen.toNat ∧ holdsWords s .pal 0 pal)

/-- The setup of 95_test_vectors.md P2 after `n` stream bytes (G14, G15), with the index `v`. -/
def p2At (v : Byte) (n : Nat) : State :=
  { p2 with mem := setBytes (setBytes p2.mem (outAddr 0) (List.replicate n 0)) (elemAddr .idx 0) [v],
            cursor := BitVec.ofNat 32 n }

theorem witness_GFrmWritesTheFrame :
    (frameHyps (p2At 1 0) [1] [0xFFFF8000] ∧ ∃ v ∈ [1#8], frameTableLen (p2At 1 0) ≤ v.toNat) ∧
    (frameHyps (p2At 0 4) [0] [0xFFFF8000] ∧ (∀ v ∈ [0#8], v.toNat < frameTableLen (p2At 0 4)) ∧
      (p2At 0 4).params.outCap < (p2At 0 4).cursor.toNat + (frameBytes (p2At 0 4) 1 [0xFFFF8000] [0]).length) ∧
    (frameHyps (p2At 0 3) [0] [0xFFFF8000] ∧ (∀ v ∈ [0#8], v.toNat < frameTableLen (p2At 0 3)) ∧
      (p2At 0 3).cursor.toNat + (frameBytes (p2At 0 3) 1 [0xFFFF8000] [0]).length ≤ (p2At 0 3).params.outCap) :=
  ⟨⟨by decide +kernel, by decide +kernel⟩, ⟨by decide +kernel, by decide +kernel, by decide +kernel⟩,
    ⟨by decide +kernel, by decide +kernel, by decide +kernel⟩⟩

/-- The frame of 95_test_vectors.md P2 without its index, and then without its palette entry's last byte. -/
theorem witness_UnwrittenReadFaults_gFrm :
    let s := { p2 with src := 1 }
    let u := { p2 with mem := eraseKey p2.mem (elemAddr .pal 0 + 3) }
    (s.params.wf ∧ s.gstate ≠ .final ∧ s.frFlags.hasPal = true ∧ 1 ≤ frameTableLen s ∧ frameTableLen s ≤ 256 ∧
      s.frWidth ≠ 0 ∧ s.frHeight ≠ 0 ∧ s.count.toNat = s.frWidth.toNat * s.frHeight.toNat ∧
      s.src.toNat + s.count.toNat ≤ s.params.pixWords) ∧
    (0 < s.count.toNat ∧ memByte s.mem (elemAddr .idx (s.src.toNat + 0)) = none) ∧
    ([0#8].length = u.count.toNat ∧ holdsBytes u .idx u.src.toNat [0] ∧ (∀ v ∈ [0#8], v.toNat < frameTableLen u) ∧
      [0#32].length = u.palLen.toNat ∧
      u.cursor.toNat + (frameBytes u (frameTableLen u) [0] [0]).length ≤ u.params.outCap ∧
      0 < u.palLen.toNat ∧ ∃ b < 4, memByte u.mem (elemAddr .pal 0 + b) = none) := by decide +kernel

/-- A later frame that uses the global table. -/
theorem witness_GFrmWritesTheFrame_global :
    let s := { p2 with gstate := .header, gpalLen := 2, palLen := 0, frFlags := frFlagsOfWord 0x00000008 }
    frameHyps s [0] [] ∧ (∀ v ∈ [0#8], v.toNat < frameTableLen s) ∧
    s.cursor.toNat + (frameBytes s (frameTableLen s) [] [0]).length ≤ s.params.outCap := by decide +kernel

theorem witness_FinalStreamIsImmutable :
    let s := { streamed 2 with gstate := .final }
    s.Inv ∧ s.gstate = .final ∧ (8#4).toNat ≤ 8 ∧ exec .nop s = .next s ∧ Instr.nop ≠ .srst ∧ 1 < s.cursor.toNat :=
  ⟨by decide +kernel, by decide +kernel, by decide, rfl, by decide, by decide +kernel⟩

/-- A stream that is the signature, with another frame to come. -/
def signed : State :=
  { pushBytes p2 signatureBytes with
    gstate := .header, gpalLen := 2, palLen := 0, frFlags := frFlagsOfWord 0x00000008 }

theorem witness_GifStartsSignedAndEndsWithTrailer :
    (p2.params.wf ∧ p2.err = .none ∧ (after (exec .gFrm p2)).err = .none ∧
      exec .gFrm p2 = .next (after (exec .gFrm p2)) ∧ p2.modeAuto = true ∧ p2.gstate = .uninit ∧ p2.cursor = 0) ∧
    ((after (exec .gFrm signed)).err = .none ∧ exec .gFrm signed = .next (after (exec .gFrm signed)) ∧
      streamSigned signed) ∧
    ((after (exec .gFin signed)).err = .none ∧ exec .gFin signed = .next (after (exec .gFin signed))) :=
  ⟨⟨by decide +kernel, rfl, by decide +kernel, eq_next_after (by decide +kernel), rfl, rfl, rfl⟩,
    ⟨by decide +kernel, eq_next_after (by decide +kernel), by decide +kernel⟩,
    ⟨by decide +kernel, eq_next_after (by decide +kernel)⟩⟩

theorem witness_CtSizeIsTheSmallest :
    1 ≤ 3 ∧ 1 ≤ 2 ∧ 3 ≤ 2 ^ 2 ∧ 1 ≤ [0xFF000000#32].length ∧ 1 ≤ 256 ∧ 256 ≤ 256 := by decide

theorem witness_RegistersReadBack :
    start.busy = false ∧ (0x30#32, 0x00FFFF01#32) ∈ [(0x0C#32, 0x00000001#32), (0x30#32, 0x00FFFF01#32)] := by decide

theorem witness_ReadOnlyRegistersIgnoreWrites : start.busy = false := rfl

theorem witness_CmdWriteStartsACommand : start.busy = false ∧ (latchedByte []).busy = true := by decide

theorem witness_BusyRuleHolds :
    (latchedByte []).busy = true ∧ (0x20#32).toNat % 4 = 0 ∧ busTarget tiny (0x20#32).toNat = .reg .cursor ∧
    (0x0400003C#32).toNat % 4 = 0 ∧ busTarget tiny (0x0400003C#32).toNat = .mem .out := by decide +kernel

theorem witness_StreamIsReadable :
    (streamed 5).Inv ∧ (streamed 5).busy = false ∧ 4 * 1 < (streamed 5).cursor.toNat ∧
    4 * 1 + 0 < (streamed 5).cursor.toNat := by decide +kernel

theorem witness_HostWritesReachElements :
    start.params.wf ∧ start.busy = false ∧ 7 < start.params.pixWords ∧ 255 < 256 ∧ 4 * 1 < start.params.pixWords ∧
    4 * 1 < start.params.bufBytes := by decide +kernel

theorem witness_IdleReadsRepeat :
    start.busy = false ∧ hostAccess start (.read 0x01000000 .word) =
      .next (after (hostAccess start (.read 0x01000000 .word))) :=
  ⟨rfl, eq_next_after rfl⟩

theorem witness_HardwareResetValues :
    { streamed 2 with schedule := [.access .reset, .core] }.schedule = .access .reset :: [.core] := rfl

/-- A core with a stream, a histogram, an error recorded and a command to discard. -/
def busyState : State :=
  { counted 5 with
    mem := (pushBytes (counted 5) [1, 2]).mem, cursor := 2, err := .arg, errOp := 0x20, busy := true, cmdl := 0x10000041 }

theorem busyState_steps : step busyState = .next (retire busyState) := rfl

theorem witness_StepKeepsTheInvariant : busyState.Inv ∧ step busyState = .next (retire busyState) :=
  ⟨by decide +kernel, rfl⟩

theorem witness_StepKeepsMemoryCanonical : Memory.wf busyState.mem ∧ step busyState = .next (retire busyState) :=
  ⟨by decide +kernel, rfl⟩

theorem witness_StepKeepsCursorBounded :
    busyState.params.wf ∧ busyState.cursorBounded ∧ step busyState = .next (retire busyState) :=
  ⟨by decide +kernel, by decide +kernel, rfl⟩

theorem witness_StepKeepsHistogramCounts : busyState.histOk ∧ step busyState = .next (retire busyState) :=
  ⟨by decide +kernel, rfl⟩

end Sys2Proof.Tests
end

section
/-! The host's word accesses to a mapped register (10_state.md R30, R32; 20_memory.md R112), and what they say of CMD. -/

namespace Sys2Proof.Machine

/-- A supported write to a register of an idle core has the register's own effect (10_state.md R30). -/
theorem hostWrite_reg_of_idle {s : State} {addr : Word} {size : AccessSize} {r : Reg} (v : Word)
    (hsup : supportedAccess addr size = true) (hreg : busTarget s.params addr.toNat = .reg r) (hidle : s.busy = false) :
    hostWrite s addr size v = .next (newDraws (regWrite s v r)) := by
  simp [hostWrite, hsup, hreg, hidle]

/-- A supported write to a register of a busy core is discarded and flagged (20_memory.md R112). -/
theorem hostWrite_reg_of_busy {s : State} {addr : Word} {size : AccessSize} {r : Reg} (v : Word)
    (hsup : supportedAccess addr size = true) (hreg : busTarget s.params addr.toNat = .reg r) (hbusy : s.busy = true) :
    hostWrite s addr size v = .next (flagHazard s) := by
  simp [hostWrite, hsup, hreg, hbusy]

/-- A supported read of a register of an idle core answers the register's value (10_state.md R30). -/
theorem hostRead_reg_of_idle {s : State} {addr : Word} {size : AccessSize} {r : Reg}
    (hsup : supportedAccess addr size = true) (hreg : busTarget s.params addr.toNat = .reg r) (hidle : s.busy = false) :
    hostRead s addr size = .next { s with rdata := regRead s r } := by
  simp [hostRead, hsup, hreg, hidle]

/-- CMD stands at offset 4 of the register window whatever the parameters are (10_state.md R30). -/
theorem busTarget_cmd (p : Params) : busTarget p (0x04#32).toNat = .reg .cmd := rfl

/-- Settles O49: offset 4 is CMD's, and the three sentences of 10_state.md R32 are the three ways a host's access to a
register goes, at CMD's own effect (`latchCmd`) and value (0). -/
theorem cmdWriteStartsACommand : Obligations.CmdWriteStartsACommand := by
  intro s v
  have hsup : supportedAccess 0x04#32 .word = true := rfl
  have hcmd := busTarget_cmd s.params
  refine ⟨fun hidle => ?_, fun hbusy => ?_, fun hidle => ?_⟩
  · exact ⟨newDraws (latchCmd s v), hostWrite_reg_of_idle v hsup hcmd hidle, rfl⟩
  · exact ⟨flagHazard s, hostWrite_reg_of_busy v hsup hcmd hbusy, rfl⟩
  · exact ⟨{ s with rdata := 0 }, hostRead_reg_of_idle hsup hcmd hidle, rfl⟩

end Sys2Proof.Machine
end

section
/-! The busy rule (20_memory.md R112): what a host's word access to a register or memory window of a busy core does. -/

namespace Sys2Proof.Machine

/-- The supported word accesses are the aligned ones (20_memory.md R108). -/
theorem supportedAccess_word_iff {addr : Word} : supportedAccess addr .word = true ↔ addr.toNat % 4 = 0 := by
  simp [supportedAccess]

/-- A supported write to a memory window of a busy core is discarded and flagged. -/
theorem hostWrite_mem_of_busy {s : State} {addr : Word} {size : AccessSize} {sp : Space} (v : Word)
    (hsup : supportedAccess addr size = true) (hmem : busTarget s.params addr.toNat = .mem sp) (hbusy : s.busy = true) :
    hostWrite s addr size v = .next (flagHazard s) := by
  simp [hostWrite, hsup, hmem, hbusy]

/-- A supported read of one of R112's five registers answers its value, whether the core is busy or idle. -/
theorem hostRead_reg_of_readable {s : State} {addr : Word} {size : AccessSize} {r : Reg}
    (hsup : supportedAccess addr size = true) (hreg : busTarget s.params addr.toNat = .reg r)
    (hread : readableWhileBusy r = true) : hostRead s addr size = .next { s with rdata := regRead s r } := by
  simp [hostRead, hsup, hreg, hread]

/-- A supported read of any other register of a busy core is answered with a free value. -/
theorem hostRead_reg_of_busy {s : State} {addr : Word} {size : AccessSize} {r : Reg}
    (hsup : supportedAccess addr size = true) (hreg : busTarget s.params addr.toNat = .reg r) (hbusy : s.busy = true)
    (hread : readableWhileBusy r = false) : hostRead s addr size = .next (answerFree s addr.toNat) := by
  simp [hostRead, hsup, hreg, hbusy, hread]

/-- A supported read of a memory window of a busy core is answered with a free value. -/
theorem hostRead_mem_of_busy {s : State} {addr : Word} {size : AccessSize} {sp : Space}
    (hsup : supportedAccess addr size = true) (hmem : busTarget s.params addr.toNat = .mem sp) (hbusy : s.busy = true) :
    hostRead s addr size = .next (answerFree s addr.toNat) := by
  simp [hostRead, hsup, hmem, hbusy]

/-- The frame of a read of a register or memory window of a busy core: the answer and the model's own counter. -/
theorem hostRead_frame_of_busy {s : State} {addr : Word} {size : AccessSize} (hsup : supportedAccess addr size = true)
    (hbusy : s.busy = true)
    (hmapped : (∃ r, busTarget s.params addr.toNat = .reg r) ∨ ∃ sp, busTarget s.params addr.toNat = .mem sp) :
    ∃ t, hostRead s addr size = .next t ∧ t = { s with rdata := t.rdata, draws := t.draws } := by
  obtain ⟨r, hreg⟩ | ⟨sp, hmem⟩ := hmapped
  · cases hread : readableWhileBusy r with
    | true => exact ⟨_, hostRead_reg_of_readable hsup hreg hread, rfl⟩
    | false => exact ⟨_, hostRead_reg_of_busy hsup hreg hbusy hread, rfl⟩
  · exact ⟨_, hostRead_mem_of_busy hsup hmem hbusy, rfl⟩

/-- Settles O50: a write to either kind of target only flags the hazard and a read of it has the frame above; each of the
five registers R112 names stands at its offset for all parameters and is answered with its value (`regRead`). -/
theorem busyRuleHolds : Obligations.BusyRuleHolds := by
  intro s a v hbusy haligned
  have hsup : supportedAccess a .word = true := supportedAccess_word_iff.mpr haligned
  refine ⟨fun hmapped => ⟨⟨flagHazard s, ?_, rfl⟩, hostRead_frame_of_busy hsup hbusy hmapped⟩, ?_, ?_, ?_, ?_, ?_⟩
  · obtain ⟨r, hreg⟩ | ⟨sp, hmem⟩ := hmapped
    · exact hostWrite_reg_of_busy v hsup hreg hbusy
    · exact hostWrite_mem_of_busy v hsup hmem hbusy
  · exact ⟨_, hostRead_reg_of_readable (r := .status) rfl rfl rfl, rfl⟩
  · exact ⟨_, hostRead_reg_of_readable (r := .id) rfl rfl rfl, rfl⟩
  · exact ⟨_, hostRead_reg_of_readable (r := .capacity) rfl rfl rfl, rfl⟩
  · exact ⟨_, hostRead_reg_of_readable (r := .pixWords) rfl rfl rfl, rfl⟩
  · exact ⟨_, hostRead_reg_of_readable (r := .bufBytes) rfl rfl rfl, rfl⟩

end Sys2Proof.Machine
end

section
/-! Which row of the opcode table matches a word (30_encoding.md R152). A row fixes the opcode byte and the rows' opcode
bytes differ, so at most one row matches; the decoder is the search of the table. -/

namespace Sys2Proof.Machine

/-- Every row's mask holds the whole opcode byte, so a row that matches a word has the word's opcode byte. -/
theorem opField_of_rowMatches {w : Word} {r : Word × Word} (hr : r ∈ opcodeRows) (h : rowMatches w r) :
    opField r.2 = opField w := by
  have hmasks : (opcodeRows.map fun r => opField r.1) = List.replicate 13 (BitVec.allOnes 8) := rfl
  have hmask : opField r.1 = BitVec.allOnes 8 := List.eq_of_mem_replicate (hmasks ▸ List.mem_map_of_mem hr)
  have hop : opField (w &&& r.1) = opField w &&& opField r.1 := BitVec.extractLsb'_and
  rw [← h, hop, hmask, BitVec.and_allOnes]

/-- No two rows have the same opcode byte (30_encoding.md R150). -/
theorem opcodeRows_opField_inj {r r' : Word × Word} (hr : r ∈ opcodeRows) (hr' : r' ∈ opcodeRows)
    (h : opField r.2 = opField r'.2) : r = r' := by
  have hnodup : (opcodeRows.map fun r => opField r.2).Nodup := by decide
  exact List.inj_on_of_nodup_map hnodup hr hr' h

theorem rowMatches_unique {w : Word} {r r' : Word × Word} (hr : r ∈ opcodeRows) (hr' : r' ∈ opcodeRows)
    (h : rowMatches w r) (h' : rowMatches w r') : r = r' :=
  opcodeRows_opField_inj hr hr' ((opField_of_rowMatches hr h).trans (opField_of_rowMatches hr' h').symm)

/-- `x` is the answer of a search of `rows` for a row that matches `w`: a command with the opcode byte of a row that
matches, or a rejection where none does. -/
def SearchOf (w : Word) (rows : List (Word × Word)) (x : Except DecodeError Instr) : Prop :=
  (∃ r ∈ rows, rowMatches w r ∧ ∃ i, x = .ok i ∧ i.opcode = opField r.2) ∨
  ((∀ r ∈ rows, ¬ rowMatches w r) ∧ ∃ e, x = .error e)

theorem SearchOf.nil (w : Word) (e : DecodeError) : SearchOf w [] (.error e) :=
  .inr ⟨by simp, e, rfl⟩

theorem SearchOf.cons {w : Word} {r : Word × Word} {rows : List (Word × Word)} {i : Instr}
    {x : Except DecodeError Instr} (hop : i.opcode = opField r.2) (hx : SearchOf w rows x) :
    SearchOf w (r :: rows) (if w &&& r.1 = r.2 then .ok i else x) := by
  split
  · next h => exact .inl ⟨r, List.mem_cons_self, h, i, rfl, hop⟩
  · next h =>
    refine hx.imp ?_ ?_
    · rintro ⟨r', hr', hfound⟩
      exact ⟨r', List.mem_cons_of_mem r hr', hfound⟩
    · rintro ⟨hnone, hrejected⟩
      exact ⟨List.forall_mem_cons.mpr ⟨h, hnone⟩, hrejected⟩

/-- The decoder searches the opcode table: its thirteen tests are the thirteen rows in order. -/
theorem decodeWord_searchOf (w : Word) : SearchOf w opcodeRows (decodeWord w) := by
  unfold opcodeRows decodeWord
  iterate 13 refine .cons rfl ?_
  exact .nil w (rejectWord w)

/-- Settles O3: the row the decoder's search found is the row that matches, since only one does. -/
theorem exactlyOneRowMatches : Obligations.ExactlyOneRowMatches := by
  intro w
  refine ⟨fun r hr r' hr' h h' => rowMatches_unique hr hr' h h', fun r hr h => ?_, fun hnone => ?_⟩
  · obtain ⟨r', hr', h', hdecoded⟩ | ⟨hnone, -⟩ := decodeWord_searchOf w
    · exact rowMatches_unique hr' hr h' h ▸ hdecoded
    · exact absurd h (hnone r hr)
  · obtain ⟨r, hr, h, -⟩ | ⟨-, hrejected⟩ := decodeWord_searchOf w
    · exact absurd h (hnone r hr)
    · exact hrejected

end Sys2Proof.Machine
end

section
/-! The legal field values (30_encoding.md R145): a command with another raises E_ARG, and one with a legal value never
records it. For the second, `Avoids e Q x` says of a command's body what it cannot raise and what its result keeps; the
shared operations raise E_INDEX_RANGE and E_STREAM_FULL at most. -/

namespace Sys2Proof.Machine

section Bodies
variable {α β : Type} {e c : ErrCode} {s t : State}

/-- The body `x` does not raise `e`, and what it ends with, if it ends, meets `Q`. -/
def Avoids (e : ErrCode) (Q : α → Prop) : Except Stop α → Prop
  | .ok a => Q a
  | .error (.err c) => c ≠ e
  | .error (.fault _) => True

theorem Avoids.raiseIf {Q : α → Prop} {bad : Bool} {r : Except Stop α} (hbad : bad = true → c ≠ e)
    (hr : bad = false → Avoids e Q r) : Avoids e Q (Sys2Proof.Machine.raiseIf bad c r) := by
  cases bad with
  | false => exact hr rfl
  | true => exact hbad rfl

theorem Avoids.bind {Q : α → Prop} {R : β → Prop} {x : Except Stop α} {f : α → Except Stop β} (hx : Avoids e Q x)
    (hf : ∀ a, Q a → Avoids e R (f a)) : Avoids e R (x.bind f) :=
  match x, hx with
  | .ok a, ha => hf a ha
  | .error (.err _), hc => hc
  | .error (.fault _), _ => trivial

theorem Avoids.map {Q : α → Prop} {R : β → Prop} {x : Except Stop α} {f : α → β} (hx : Avoids e Q x)
    (hf : ∀ a, Q a → R (f a)) : Avoids e R (x.map f) :=
  match x, hx with
  | .ok a, ha => hf a ha
  | .error (.err _), hc => hc
  | .error (.fault _), _ => trivial

/-- A command whose body avoids `e` does not record it. -/
theorem perform_err_ne {op : BitVec 8} {body : Except Stop State} (h : perform op s body = .next t)
    (hb : Avoids e (·.err ≠ e) body) : t.err ≠ e := by
  obtain rfl | ⟨c, rfl, rfl⟩ := perform_next.mp h
  · exact hb
  · exact hb

/-! ## Reads -/

theorem avoids_memReadByte (s : State) (sp : Space) (a : Nat) : Avoids e (fun _ => True) (memReadByte s sp a) := by
  unfold memReadByte; split <;> trivial

theorem avoids_memReadWord (s : State) (sp : Space) (a : Nat) : Avoids e (fun _ => True) (memReadWord s sp a) := by
  unfold memReadWord; split <;> trivial

theorem avoids_readByteElems (s : State) (sp : Space) (a n : Nat) :
    Avoids e (fun _ => True) (readByteElems s sp a n) := by
  induction n generalizing a with
  | zero => trivial
  | succ n ih => exact (avoids_memReadByte s sp a).bind fun _ _ => (ih (a + 1)).map fun _ _ => trivial

theorem avoids_readWordElems (s : State) (sp : Space) (a n : Nat) :
    Avoids e (fun _ => True) (readWordElems s sp a n) := by
  induction n generalizing a with
  | zero => trivial
  | succ n ih => exact (avoids_memReadWord s sp a).bind fun _ _ => (ih (a + 1)).map fun _ _ => trivial

theorem avoids_readIndices (s : State) (limit a n : Nat) (he : ErrCode.indexRange ≠ e) :
    Avoids e (fun _ => True) (readIndices s limit a n) := by
  induction n generalizing a with
  | zero => trivial
  | succ n ih =>
    exact (avoids_memReadByte s .idx a).bind fun _ _ => .raiseIf (fun _ => he) fun _ =>
      (ih (a + 1)).map fun _ _ => trivial

/-! ## Writes to the stream -/

section Stream
variable (hs : s.err ≠ e) (he : ErrCode.streamFull ≠ e)
include hs he

theorem avoids_streamAppend (v : Byte) : Avoids e (·.err ≠ e) (streamAppend s v) :=
  .raiseIf (fun _ => he) fun _ => hs

theorem avoids_appendBytes (vs : List Byte) : Avoids e (·.err ≠ e) (appendBytes s vs) := by
  induction vs generalizing s with
  | nil => exact hs
  | cons v vs ih => exact (avoids_streamAppend hs he v).bind fun _ ht => ih ht

theorem avoids_writeTableFrom (l k i : Nat) : Avoids e (·.err ≠ e) (writeTableFrom l k i s) := by
  induction k generalizing s i with
  | zero => exact hs
  | succ k ih =>
    have hentry : Avoids e (fun _ => True) (tableEntry s l i) := by
      unfold tableEntry
      split
      · exact (avoids_memReadWord s .pal i).map fun _ _ => trivial
      · trivial
    exact hentry.bind fun bytes _ => (avoids_appendBytes hs he bytes).bind fun _ ht => ih ht (i + 1)

theorem avoids_writeHeader (l : Nat) : Avoids e (·.err ≠ e) (writeHeader l s) := by
  refine (avoids_appendBytes hs he _).bind fun s1 h1 => (avoids_writeTableFrom h1 he _ _ _).bind fun s2 h2 => ?_
  split
  · exact avoids_appendBytes h2 he _
  · exact h2

theorem avoids_writeFrame (lp : Nat) (ix : List Byte) : Avoids e (·.err ≠ e) (writeFrame lp ix s) := by
  refine .bind (Q := (·.err ≠ e)) ?_ fun s1 h1 => .bind (Q := (·.err ≠ e)) ?_ fun s2 h2 =>
    (avoids_appendBytes h2 he _).bind fun s3 h3 => (avoids_appendBytes h3 he _).bind fun s4 h4 =>
    .bind (Q := (·.err ≠ e)) ?_ fun s5 h5 => (avoids_appendBytes h5 he _).bind fun s6 h6 => h6
  · split
    · exact avoids_appendBytes hs he _
    · exact hs
  · split
    · exact avoids_writeHeader h1 he _
    · exact h1
  · split
    · exact avoids_writeTableFrom h4 he _ _ _
    · exact h4

end Stream

/-! ## Field values -/

theorem wf_lEnc_iff (d : BitVec 4) : (Instr.lEnc d).wf = true ↔ d.toNat ≤ 8 := decide_eq_true_iff

theorem wf_qRed_iff (n : BitVec 9) : (Instr.qRed n).wf = true ↔ 1 ≤ n.toNat ∧ n.toNat ≤ 256 := decide_eq_true_iff

/-- The legal values of FMT are the codes of a format (42_quantizer.md R240). -/
theorem wf_qClr_iff (f : BitVec 2) : (Instr.qClr f).wf = true ↔ formatOf f ≠ none := by
  revert f; decide

theorem wf_mMap_iff (f : BitVec 2) : (Instr.mMap f).wf = true ↔ formatOf f ≠ none := wf_qClr_iff f

theorem formatOf_ne_none_iff (f : BitVec 2) : formatOf f ≠ none ↔ f ≠ 3 := by
  revert f; decide

theorem perform_raiseIf_of_bad {op : BitVec 8} {bad : Bool} {rest : Except Stop State} (h : bad = true) :
    perform op s (raiseIf bad c rest) = .next (raiseError s op c) := by
  subst h; rfl

/-- A field value that is not legal is found before anything else is looked at (60_exceptions.md R410). -/
theorem raises_arg_of_not_wf {i : Instr} (hi : i.wf = false) : Raises i s .arg := by
  have hno : ¬ i.wf = true := by simp [hi]
  cases i with
  | nop | srst | bsWb | bsWbs | bsRst | qAcc | gHdr | gFrm | gFin => cases hi
  | lEnc d =>
    rw [wf_lEnc_iff] at hno
    exact perform_raiseIf_of_bad (decide_eq_true (by omega))
  | qRed n =>
    rw [wf_qRed_iff] at hno
    exact perform_raiseIf_of_bad (decide_eq_true (by omega))
  | qClr f =>
    rw [wf_qClr_iff, not_not] at hno
    simp only [Raises, exec, execQClr, hno]; rfl
  | mMap f =>
    rw [wf_mMap_iff, not_not] at hno
    simp only [Raises, exec, execMMap, hno]; rfl

/-- A command with a legal field value leaves E_ARG unrecorded. -/
theorem exec_err_ne_arg {i : Instr} (hi : i.wf = true) (hs : s.err ≠ .arg) (h : exec i s = .next t) :
    t.err ≠ .arg := by
  have hfull : ErrCode.streamFull ≠ .arg := nofun
  have hindex : ErrCode.indexRange ≠ .arg := nofun
  cases i with
  | nop => cases h; exact hs
  | srst => cases h; exact nofun
  | bsWb v => exact perform_err_ne h (.raiseIf nofun fun _ => avoids_streamAppend hs hfull v)
  | bsWbs =>
    refine perform_err_ne h (.raiseIf nofun fun _ => ?_)
    split
    · exact hs
    · exact .raiseIf nofun fun _ => .raiseIf nofun fun _ =>
        (avoids_readByteElems _ _ _ _).bind fun _ _ => avoids_appendBytes hs hfull _
  | bsRst => exact perform_err_ne h (.raiseIf nofun fun _ => hs)
  | lEnc d =>
    have hd := (wf_lEnc_iff d).mp hi
    exact perform_err_ne h (.raiseIf (fun hbad => absurd hd (by simpa using hbad)) fun _ => .raiseIf nofun fun _ =>
      .raiseIf nofun fun _ => .raiseIf nofun fun _ =>
      (avoids_readIndices _ _ _ _ hindex).bind fun _ _ => avoids_appendBytes hs hfull _)
  | qClr f =>
    refine perform_err_ne h ?_
    split
    · next hnone => exact absurd hnone ((wf_qClr_iff f).mp hi)
    · exact hs
  | qAcc =>
    refine perform_err_ne h ?_
    split
    · exact hs
    · refine .raiseIf nofun fun _ => .raiseIf nofun fun _ => (avoids_readWordElems _ _ _ _).bind fun ps _ => ?_
      show (ps.foldl countPixel s).err ≠ .arg
      rw [foldl_countPixel_frame]
      exact hs
  | qRed n =>
    have hn := (wf_qRed_iff n).mp hi
    exact perform_err_ne h (.raiseIf (fun hbad => by have := of_decide_eq_true hbad; omega) fun _ =>
      .raiseIf nofun fun _ => hs)
  | mMap f =>
    refine perform_err_ne h ?_
    split
    · next hnone => exact absurd hnone ((wf_mMap_iff f).mp hi)
    · refine .raiseIf nofun fun _ => .raiseIf nofun fun _ => ?_
      split
      · exact hs
      · exact .raiseIf nofun fun _ => .raiseIf nofun fun _ =>
          (avoids_readWordElems _ _ _ _).bind fun _ _ => (avoids_readWordElems _ _ _ _).bind fun _ _ => hs
  | gHdr => exact perform_err_ne h (.raiseIf nofun fun _ => (avoids_appendBytes hs hfull _).bind fun _ ht => ht)
  | gFrm =>
    exact perform_err_ne h (.raiseIf nofun fun _ => .raiseIf nofun fun _ => .raiseIf nofun fun _ =>
      .raiseIf nofun fun _ => .raiseIf nofun fun _ =>
      (avoids_readIndices _ _ _ _ hindex).bind fun _ _ => avoids_writeFrame hs hfull _ _)
  | gFin => exact perform_err_ne h (.raiseIf nofun fun _ => (avoids_streamAppend hs hfull _).bind fun _ ht => ht)

end Bodies

/-- Settles O5: `wf` is R145's list, its failure is the first thing a command looks at, and no other check or shared
operation raises E_ARG. -/
theorem fieldValuesAreLegalOrRaise : Obligations.FieldValuesAreLegalOrRaise := by
  have hfmt (f : BitVec 2) : (Instr.qClr f).wf = true ↔ f ≠ 3 := (wf_qClr_iff f).trans (formatOf_ne_none_iff f)
  refine ⟨fun _ => rfl, wf_lEnc_iff, fun f => ⟨hfmt f, hfmt f⟩, wf_qRed_iff, fun i s => ⟨raises_arg_of_not_wf, ?_⟩⟩
  intro hi hs t h
  exact exec_err_ne_arg hi hs h

end Sys2Proof.Machine
end

section
/-! The bytestream_writer (40_bytestream.md R182 to R184): each command's checks in its rule's order, and the state it
completes in, which is `pushByte` or `pushBytes` of the state before or differs from it in CURSOR. -/

namespace Sys2Proof.Machine

/-- A check that finds nothing wrong leaves the rest of the body. -/
theorem raiseIf_decide_of_neg {α : Type} {p : Prop} [Decidable p] {e : ErrCode} {r : Except Stop α} (h : ¬ p) :
    raiseIf (decide p) e r = r := by
  rw [decide_eq_false h, raiseIf_false]

/-! ## BS.WB -/

/-- The decoder gives back the byte that the word of BS.WB carries (30_encoding.md R150). -/
theorem decodeWord_bsWb (b : BitVec 8) : decodeWord (0x10000000#32 ||| b.setWidth 32) = .ok (.bsWb b) := by
  revert b; decide

theorem pushByte_eq_pushBytes (s : State) (v : Byte) : pushByte s v = pushBytes s [v] := rfl

theorem sameMemoryOutside_pushByte (s : State) (v : Byte) :
    sameMemoryOutside s (pushByte s v) (outAddr s.cursor.toNat) (outAddr s.cursor.toNat + 1) := by
  rw [pushByte_eq_pushBytes]
  exact sameMemoryOutside_pushBytes s [v]

section Commands
variable {s : State}

/-- Past the GSTATE check BS.WB is one StreamAppend. -/
theorem exec_bsWb_of_not_final (b : BitVec 8) (hopen : s.gstate ≠ .final) :
    exec (.bsWb b) s = perform 0x10 s (streamAppend s b) :=
  congrArg (perform 0x10 s) (raiseIf_decide_of_neg hopen)

theorem bsWb_raises_streamFull (b : BitVec 8) (hopen : s.gstate ≠ .final)
    (hfull : s.params.outCap ≤ s.cursor.toNat) : Raises (.bsWb b) s .streamFull :=
  (exec_bsWb_of_not_final b hopen).trans (perform_raiseIf_of_bad (decide_eq_true hfull))

theorem exec_bsWb_of_room (b : BitVec 8) (hopen : s.gstate ≠ .final) (hroom : s.cursor.toNat < s.params.outCap) :
    exec (.bsWb b) s = .next (pushByte s b) := by
  rw [exec_bsWb_of_not_final b hopen, streamAppend_ok.mpr ⟨hroom, rfl⟩]; rfl

/-! ## BS.WBS -/

/-- With COUNT 0, BS.WBS looks at GSTATE only. -/
theorem exec_bsWbs_of_count_zero (hopen : s.gstate ≠ .final) (hzero : s.count.toNat = 0) :
    exec .bsWbs s = .next s := by
  simp only [exec, execBsWbs]
  rw [raiseIf_decide_of_neg hopen, if_pos hzero]; rfl

/-- Past the checks of GSTATE and COUNT, BS.WBS checks the range in BUF, then the room in OUT, and then appends. -/
theorem exec_bsWbs_of_count_pos (hopen : s.gstate ≠ .final) (hpos : 0 < s.count.toNat) :
    exec .bsWbs s = perform 0x11 s (
      raiseIf (s.params.bufBytes < s.bufAddr.toNat + s.count.toNat) .bounds <|
      raiseIf (s.params.outCap < s.cursor.toNat + s.count.toNat) .streamFull <|
      (readByteElems s .buf s.bufAddr.toNat s.count.toNat).bind (appendBytes s)) := by
  simp only [exec, execBsWbs]
  rw [raiseIf_decide_of_neg hopen, if_neg hpos.ne']

theorem bsWbs_raises_bounds (hopen : s.gstate ≠ .final) (hpos : 0 < s.count.toNat)
    (hout : s.params.bufBytes < s.bufAddr.toNat + s.count.toNat) : Raises .bsWbs s .bounds :=
  (exec_bsWbs_of_count_pos hopen hpos).trans (perform_raiseIf_of_bad (decide_eq_true hout))

theorem bsWbs_raises_streamFull (hopen : s.gstate ≠ .final) (hpos : 0 < s.count.toNat)
    (hin : s.bufAddr.toNat + s.count.toNat ≤ s.params.bufBytes)
    (hfull : s.params.outCap < s.cursor.toNat + s.count.toNat) : Raises .bsWbs s .streamFull := by
  rw [Raises, exec_bsWbs_of_count_pos hopen hpos, raiseIf_decide_of_neg hin.not_gt]
  exact perform_raiseIf_of_bad (decide_eq_true hfull)

/-- BS.WBS of a range of BUF that holds `bytes` and that fits OUT. -/
theorem exec_bsWbs_of_room {bytes : List Byte} (hp : s.params.wf) (hlen : bytes.length = s.count.toNat)
    (hbuf : holdsBytes s .buf s.bufAddr.toNat bytes) (hopen : s.gstate ≠ .final) (hpos : 0 < s.count.toNat)
    (hin : s.bufAddr.toNat + s.count.toNat ≤ s.params.bufBytes)
    (hroom : s.cursor.toNat + s.count.toNat ≤ s.params.outCap) :
    exec .bsWbs s = .next (pushBytes s bytes) := by
  have hread : readByteElems s .buf s.bufAddr.toNat s.count.toNat = .ok bytes := readByteElems_ok.mpr ⟨hlen, hbuf⟩
  have happend : appendBytes s bytes = .ok (pushBytes s bytes) := appendBytes_fits hp (hlen ▸ hroom)
  rw [exec_bsWbs_of_count_pos hopen hpos, raiseIf_decide_of_neg hin.not_gt, raiseIf_decide_of_neg hroom.not_gt, hread,
    Except.bind, happend]
  rfl

/-! ## BS.RST -/

theorem exec_bsRst_of_not_final (hopen : s.gstate ≠ .final) : exec .bsRst s = .next { s with cursor := 0 } :=
  congrArg (perform 0x12 s) (raiseIf_decide_of_neg hopen)

end Commands

/-! ## The statements -/

/-- Settles O16: past its two checks BS.WB leaves `pushByte`, which writes the one byte at CURSOR. -/
theorem bsWbAppendsOneByte : Obligations.BsWbAppendsOneByte := by
  intro b s
  refine ⟨fun hfinal => perform_raiseIf_of_bad (decide_eq_true hfinal), decodeWord_bsWb b, bsWb_raises_streamFull b, ?_⟩
  intro hopen hroom
  exact ⟨pushByte s b, exec_bsWb_of_room b hopen hroom, rfl, memByte_setByte_self _ _ _, sameMemoryOutside_pushByte s b⟩

/-- Settles O17: the checks raise in R183's order, and past them BS.WBS leaves `pushBytes` of the buffer's bytes; CURSOR
does not wrap, since OUT_CAP is far below 2^32. -/
theorem bsWbsAppendsTheBuffer : Obligations.BsWbsAppendsTheBuffer := by
  refine ⟨rfl, fun s hp => ⟨fun hfinal => perform_raiseIf_of_bad (decide_eq_true hfinal), exec_bsWbs_of_count_zero,
    bsWbs_raises_bounds, bsWbs_raises_streamFull, ?_⟩⟩
  intro bytes hlen hbuf hopen hpos hin hroom
  have hexec := exec_bsWbs_of_room hp hlen hbuf hopen hpos hin hroom
  rw [← hlen] at hroom ⊢
  exact ⟨pushBytes s bytes, hexec, rfl, cursor_add hp hroom, holdsBytes_pushBytes s bytes,
    sameMemoryOutside_pushBytes s bytes⟩

/-- Settles O18: GSTATE is the one thing BS.RST checks and CURSOR the one field it writes. -/
theorem bsRstRewinds : Obligations.BsRstRewinds :=
  ⟨rfl, fun _ => ⟨fun hfinal => perform_raiseIf_of_bad (decide_eq_true hfinal), exec_bsRst_of_not_final⟩⟩

end Sys2Proof.Machine
end

section
/-! The command L.ENC (41_lzw.md R200): its four checks before the first read, the check of the indices as they are read,
and the append of the image data, which leaves `pushBytes` of the bytes of `lzwEncode`. -/

namespace Sys2Proof.Machine

/-- The decoder gives back the depth that the word of L.ENC carries (30_encoding.md R150). -/
theorem decodeWord_lEnc (d : BitVec 4) : decodeWord (0x20000000#32 ||| d.setWidth 32) = .ok (.lEnc d) := by
  revert d; decide

/-- Image data ends with the block terminator, so it is not empty (41_lzw.md R202). -/
theorem lzwEncode_ne_nil (S : Nat) {indices : List Byte} (h : indices ≠ []) : lzwEncode S indices ≠ [] := by
  cases indices with
  | nil => exact absurd rfl h
  | cons c cs => exact List.append_ne_nil_of_right_ne_nil _ (List.cons_ne_nil _ _)

section LEnc
variable {d : BitVec 4} {s : State} (hd : d.toNat ≤ 8)
include hd

/-- Past the check of D, L.ENC checks GSTATE, COUNT and the range in IDX in R200's order, and then encodes. -/
theorem exec_lEnc_of_depth :
    exec (.lEnc d) s = perform 0x20 s (
      raiseIf (s.gstate = .final) .state <|
      raiseIf (s.count.toNat = 0) .length <|
      raiseIf (s.params.pixWords < s.src.toNat + s.count.toNat) .bounds <|
      (readIndices s (2 ^ max 2 d.toNat) s.src.toNat s.count.toNat).bind fun indices =>
        appendBytes s (lzwEncode (max 2 d.toNat) indices)) :=
  congrArg (perform 0x20 s) (raiseIf_decide_of_neg hd.not_gt)

theorem lEnc_raises_state (hfinal : s.gstate = .final) : Raises (.lEnc d) s .state :=
  (exec_lEnc_of_depth hd).trans (perform_raiseIf_of_bad (decide_eq_true hfinal))

variable (hopen : s.gstate ≠ .final)
include hopen

theorem lEnc_raises_length (hzero : s.count.toNat = 0) : Raises (.lEnc d) s .length := by
  rw [Raises, exec_lEnc_of_depth hd, raiseIf_decide_of_neg hopen]
  exact perform_raiseIf_of_bad (decide_eq_true hzero)

variable (hpos : 0 < s.count.toNat)
include hpos

theorem lEnc_raises_bounds (hout : s.params.pixWords < s.src.toNat + s.count.toNat) : Raises (.lEnc d) s .bounds := by
  rw [Raises, exec_lEnc_of_depth hd, raiseIf_decide_of_neg hopen, raiseIf_decide_of_neg hpos.ne']
  exact perform_raiseIf_of_bad (decide_eq_true hout)

variable (hin : s.src.toNat + s.count.toNat ≤ s.params.pixWords)
include hin

/-- Past the checks L.ENC reads the indices, each checked as it is read, and appends their image data. -/
theorem exec_lEnc_of_range :
    exec (.lEnc d) s = perform 0x20 s (
      (readIndices s (2 ^ max 2 d.toNat) s.src.toNat s.count.toNat).bind fun indices =>
        appendBytes s (lzwEncode (max 2 d.toNat) indices)) := by
  rw [exec_lEnc_of_depth hd, raiseIf_decide_of_neg hopen, raiseIf_decide_of_neg hpos.ne',
    raiseIf_decide_of_neg hin.not_gt]

variable {indices : List Byte} (hlen : indices.length = s.count.toNat) (hidx : holdsBytes s .idx s.src.toNat indices)
include hlen hidx

theorem lEnc_raises_indexRange (hbad : ∃ v ∈ indices, 2 ^ max 2 d.toNat ≤ v.toNat) :
    Raises (.lEnc d) s .indexRange := by
  rw [Raises, exec_lEnc_of_range hd hopen hpos hin, readIndices_bad hlen hidx hbad]
  rfl

variable (hall : ∀ v ∈ indices, v.toNat < 2 ^ max 2 d.toNat)
include hall

/-- With every index in its range, all that is left of L.ENC is the append of the image data. -/
theorem exec_lEnc_of_indices :
    exec (.lEnc d) s = perform 0x20 s (appendBytes s (lzwEncode (max 2 d.toNat) indices)) := by
  rw [exec_lEnc_of_range hd hopen hpos hin, readIndices_ok.mpr ⟨hlen, hidx, hall⟩]
  rfl

theorem lEnc_raises_streamFull (hp : s.params.wf)
    (hfull : s.params.outCap < s.cursor.toNat + (lzwEncode (max 2 d.toNat) indices).length) :
    Raises (.lEnc d) s .streamFull := by
  have hne : indices ≠ [] := List.ne_nil_of_length_pos (hlen ▸ hpos)
  rw [Raises, exec_lEnc_of_indices hd hopen hpos hin hlen hidx hall,
    appendBytes_full hp (lzwEncode_ne_nil _ hne) hfull]
  rfl

theorem exec_lEnc_of_room (hp : s.params.wf)
    (hroom : s.cursor.toNat + (lzwEncode (max 2 d.toNat) indices).length ≤ s.params.outCap) :
    exec (.lEnc d) s = .next (pushBytes s (lzwEncode (max 2 d.toNat) indices)) := by
  rw [exec_lEnc_of_indices hd hopen hpos hin hlen hidx hall, appendBytes_fits hp hroom]
  rfl

end LEnc

/-- Settles O20: the checks raise in R200's order, and past them L.ENC leaves `pushBytes` of the image data; CURSOR does
not wrap, since OUT_CAP is far below 2^32. -/
theorem lEncAppendsImageData : Obligations.LEncAppendsImageData := by
  refine ⟨decodeWord_lEnc, fun d s hp => ⟨fun hdeep => perform_raiseIf_of_bad (decide_eq_true hdeep), lEnc_raises_state,
    lEnc_raises_length, lEnc_raises_bounds, ?_⟩⟩
  intro indices hlen hidx hd hopen hpos hin
  refine ⟨lEnc_raises_indexRange hd hopen hpos hin hlen hidx, fun hall hfull => ?_, fun hall hroom => ?_⟩
  · exact lEnc_raises_streamFull hd hopen hpos hin hlen hidx hall hp hfull
  · exact ⟨pushBytes s (lzwEncode (max 2 d.toNat) indices),
      exec_lEnc_of_room hd hopen hpos hin hlen hidx hall hp hroom, rfl, cursor_add hp hroom,
      holdsBytes_pushBytes s _, sameMemoryOutside_pushBytes s _⟩

end Sys2Proof.Machine
end

section
/-! The histogram commands of the color_quantizer (42_quantizer.md R242, R243). Q.CLR checks its format and nothing else.
Q.ACC checks the total and the range in PIX and then counts pixel by pixel: `BinGains` says what a list of pixels adds to
the bin of a key, for one pixel by the laws of `Counts` (no counter wraps) and for more by joining lists. -/

namespace Sys2Proof.Machine

/-! ## Q.CLR -/

/-- The decoder gives back the format that the word of Q.CLR carries (30_encoding.md R150). -/
theorem decodeWord_qClr (fmt : BitVec 2) : decodeWord (0x30000000#32 ||| fmt.setWidth 32) = .ok (.qClr fmt) := by
  revert fmt; decide

@[simp] theorem formatOf_formatCode (f : Format) : formatOf (formatCode f) = some f := by cases f <;> rfl

@[simp] theorem binAt_nil (k : Nat) : binAt [] k = Bin.zero := rfl

theorem exec_qClr_formatCode (f : Format) (s : State) :
    exec (.qClr (formatCode f)) s = .next { s with hist := [], histFmt := f, histBins := 0, histPixels := 0 } := by
  simp only [exec, execQClr, formatOf_formatCode]; rfl

/-- Settles O24: FMT 3 is the code of no format, and a code of a format is all that Q.CLR asks for. -/
theorem qClrStartsAHistogram : Obligations.QClrStartsAHistogram := by
  refine ⟨decodeWord_qClr, fun s => ⟨raises_arg_of_not_wf rfl, ?_⟩⟩
  rintro _ f rfl
  exact ⟨_, exec_qClr_formatCode f s, binAt_nil, rfl⟩

/-! ## What pixels add to a bin -/

theorem hasAlpha_iff {f : Format} : hasAlpha f = true ↔ f = .rgba4444 := by cases f <;> decide

theorem keySum_append (f : Format) (k : Nat) (chan : Rgba → BitVec 8) (ps qs : List Word) :
    keySum f k chan (ps ++ qs) = keySum f k chan ps + keySum f k chan qs := by
  simp only [keySum, List.filter_append, List.map_append, List.sum_append]

theorem keySum_singleton (f : Format) (k : Nat) (chan : Rgba → BitVec 8) (p : Word) :
    keySum f k chan [p] = if colorKey f (unpackPixel p) = k then (chan (unpackPixel p)).toNat else 0 := by
  by_cases hk : colorKey f (unpackPixel p) = k <;> simp [keySum, hk]

/-- `b'` is the bin `b` of the key `k` once `pixels` are counted: its count grows by the number of them with the key and
its sums by the channels of those (42_quantizer.md R243). -/
structure BinGains (f : Format) (k : Nat) (pixels : List Word) (b b' : Bin) : Prop where
  cnt : b'.cnt.toNat = b.cnt.toNat + (pixels.filter (fun p => colorKey f (unpackPixel p) = k)).length
  rsum : b'.rsum.toNat = b.rsum.toNat + keySum f k Rgba.r pixels
  gsum : b'.gsum.toNat = b.gsum.toNat + keySum f k Rgba.g pixels
  bsum : b'.bsum.toNat = b.bsum.toNat + keySum f k Rgba.b pixels
  asum : b'.asum.toNat = b.asum.toNat + if f = .rgba4444 then keySum f k Rgba.a pixels else 0

theorem BinGains.nil (f : Format) (k : Nat) (b : Bin) : BinGains f k [] b b := by
  constructor <;> simp [keySum]

theorem BinGains.append {f : Format} {k : Nat} {ps qs : List Word} {b c d : Bin} (h1 : BinGains f k ps b c)
    (h2 : BinGains f k qs c d) : BinGains f k (ps ++ qs) b d where
  cnt := by rw [h2.cnt, h1.cnt, List.filter_append, List.length_append, Nat.add_assoc]
  rsum := by rw [h2.rsum, h1.rsum, keySum_append, Nat.add_assoc]
  gsum := by rw [h2.gsum, h1.gsum, keySum_append, Nat.add_assoc]
  bsum := by rw [h2.bsum, h1.bsum, keySum_append, Nat.add_assoc]
  asum := by rw [h2.asum, h1.asum, keySum_append]; split <;> omega

section Counting
variable {s : State} {total : Nat} (h : Counts s total)
include h

/-- One pixel, in a histogram that is not full, is added to the bin of its key and to no other. -/
theorem Counts.binGains_countPixel (hroom : total + 1 < 2 ^ 32) (p : Word) (k : Nat) :
    BinGains s.histFmt k [p] (binAt s.hist k) (binAt (Sys2Proof.Machine.countPixel s p).hist k) := by
  rw [binAt_countPixel]
  by_cases hkey : colorKey s.histFmt (unpackPixel p) = k
  · obtain ⟨hcnt, hr, hg, hb, ha⟩ := h.addToBin_toNat hroom k (unpackPixel p) (hasAlpha s.histFmt)
    rw [if_pos hkey.symm]
    constructor
    · simpa [hkey] using hcnt
    · rw [hr, keySum_singleton, if_pos hkey]
    · rw [hg, keySum_singleton, if_pos hkey]
    · rw [hb, keySum_singleton, if_pos hkey]
    · simp only [ha, hasAlpha_iff, keySum_singleton, if_pos hkey]
  · rw [if_neg (Ne.symm hkey)]
    constructor <;> simp [keySum_singleton, hkey]

/-- Pixels for which the histogram has room are added to the bins of their keys. -/
theorem Counts.binGains_foldl (ps : List Word) (hroom : total + ps.length < 2 ^ 32) (k : Nat) :
    BinGains s.histFmt k ps (binAt s.hist k) (binAt (ps.foldl Sys2Proof.Machine.countPixel s).hist k) := by
  induction ps generalizing s total with
  | nil => exact .nil _ _ _
  | cons p ps ih =>
    rw [List.length_cons] at hroom
    have hfirst := h.binGains_countPixel (by omega) p k
    have hrest := ih (h.countPixel (by omega) p) (by omega)
    exact hfirst.append hrest

end Counting

/-! ## Q.ACC -/

/-- The state with the pixels counted and COUNT added to HIST_PIXELS, which Q.ACC completes in. -/
def accumulate (s : State) (pixels : List Word) : State :=
  { pixels.foldl countPixel s with histPixels := s.histPixels + s.count }

theorem accumulate_frame (s : State) (pixels : List Word) :
    accumulate s pixels = { s with
      hist := (accumulate s pixels).hist
      histBins := (accumulate s pixels).histBins
      histPixels := (accumulate s pixels).histPixels } := by
  simp only [accumulate]
  rw [foldl_countPixel_frame]

section QAcc
variable {s : State}

theorem exec_qAcc_of_count_zero (hzero : s.count.toNat = 0) : exec .qAcc s = .next s := by
  simp only [exec, execQAcc, if_pos hzero]; rfl

/-- Where there are pixels to count, Q.ACC checks the total, then the range in PIX, and then reads and counts them. -/
theorem exec_qAcc_of_count_pos (hpos : 0 < s.count.toNat) :
    exec .qAcc s = perform 0x31 s (
      raiseIf (2 ^ 32 - 1 < s.histPixels.toNat + s.count.toNat) .length <|
      raiseIf (s.params.pixWords < s.src.toNat + s.count.toNat) .bounds <|
      (readWordElems s .pix s.src.toNat s.count.toNat).bind fun pixels => .ok (accumulate s pixels)) := by
  have hcounted (pixels : List Word) :
      { pixels.foldl countPixel s with histPixels := (pixels.foldl countPixel s).histPixels + s.count } =
        accumulate s pixels := by
    rw [accumulate, foldl_countPixel_frame]
  simp only [exec, execQAcc, if_neg hpos.ne', hcounted]

theorem qAcc_raises_length (hpos : 0 < s.count.toNat) (hfull : 2 ^ 32 - 1 < s.histPixels.toNat + s.count.toNat) :
    Raises .qAcc s .length :=
  (exec_qAcc_of_count_pos hpos).trans (perform_raiseIf_of_bad (decide_eq_true hfull))

section Room
variable (hpos : 0 < s.count.toNat) (hroom : s.histPixels.toNat + s.count.toNat ≤ 2 ^ 32 - 1)
include hroom

theorem histPixels_add_count : (s.histPixels + s.count).toNat = s.histPixels.toNat + s.count.toNat :=
  BitVec.toNat_add_of_lt (by omega)

/-- The accumulation of COUNT pixels keeps the histogram's registers in agreement with it. -/
theorem histOk_accumulate {pixels : List Word} (h : s.histOk) (hlen : pixels.length = s.count.toNat) :
    (accumulate s pixels).histOk := by
  have hcounts := (counts_of_histOk h).foldl pixels (by omega)
  refine ⟨hcounts.wf, hcounts.bins, hcounts.size, ?_⟩
  show (s.histPixels + s.count).toNat = pixelTotal (pixels.foldl countPixel s).hist
  rw [hcounts.total, histPixels_add_count hroom, hlen]

include hpos

theorem qAcc_raises_bounds (hout : s.params.pixWords < s.src.toNat + s.count.toNat) : Raises .qAcc s .bounds := by
  rw [Raises, exec_qAcc_of_count_pos hpos, raiseIf_decide_of_neg hroom.not_gt]
  exact perform_raiseIf_of_bad (decide_eq_true hout)

theorem exec_qAcc_of_pixels {pixels : List Word} (hlen : pixels.length = s.count.toNat)
    (hpix : holdsWords s .pix s.src.toNat pixels) (hin : s.src.toNat + s.count.toNat ≤ s.params.pixWords) :
    exec .qAcc s = .next (accumulate s pixels) := by
  rw [exec_qAcc_of_count_pos hpos, raiseIf_decide_of_neg hroom.not_gt, raiseIf_decide_of_neg hin.not_gt,
    readWordElems_ok.mpr ⟨hlen, hpix⟩]
  rfl

end Room

end QAcc

/-- Settles O25: the checks raise in R243's order, and past them Q.ACC leaves `accumulate` of the pixels read; the total
is below 2^32, so neither a count nor a sum wraps. -/
theorem qAccCountsPixels : Obligations.QAccCountsPixels := by
  refine ⟨rfl, fun s h => ⟨exec_qAcc_of_count_zero, qAcc_raises_length, qAcc_raises_bounds, ?_⟩⟩
  intro pixels hlen hpix hpos hroom hin
  refine ⟨accumulate s pixels, exec_qAcc_of_pixels hpos hroom hlen hpix hin, accumulate_frame s pixels,
    histOk_accumulate hroom h hlen, histPixels_add_count hroom, fun k => ?_⟩
  obtain ⟨hcnt, hr, hg, hb, ha⟩ := (counts_of_histOk h).binGains_foldl pixels (by omega) k
  exact ⟨hcnt, hr, hg, hb, ha⟩

end Sys2Proof.Machine
end

section
/-! The palette_mapper command M.MAP (43_mapper.md R300): its checks in R300's order, with `mapTo` for the state past
them, and the bound on the indices it writes. Nearest answers an index of the palette, and the cache only repeats its
answers. -/

namespace Sys2Proof.Machine

/-- The decoder gives back the format that the word of M.MAP carries (30_encoding.md R150). -/
theorem decodeWord_mMap (fmt : BitVec 2) : decodeWord (0x40000000#32 ||| fmt.setWidth 32) = .ok (.mMap fmt) := by
  revert fmt; decide

/-! ## The indices -/

/-- The loop of Nearest answers the index it holds or one of the entries it looks at. -/
theorem nearestFrom_lt {n x : Nat} (alpha : Bool) (c : Rgba) (qs : List Rgba) (i best : Nat) (hqs : i + qs.length ≤ n)
    (hx : x < n) : nearestFrom alpha c qs i best x < n := by
  induction qs generalizing i best x with
  | nil => exact hx
  | cons q qs ih =>
    rw [List.length_cons] at hqs
    rw [nearestFrom]
    split
    · exact ih _ _ (by omega) (by omega)
    · exact ih _ _ (by omega) hx

theorem nearest_lt_length (alpha : Bool) {pal : List Rgba} (c : Rgba) (hpal : 0 < pal.length) :
    nearest alpha pal c < pal.length :=
  nearestFrom_lt alpha c pal 0 _ (Nat.zero_add _).le hpal

/-- An index of a palette of at most 256 entries fits a byte, so it is stored as it is. -/
theorem toNat_ofNat_nearest_lt (alpha : Bool) {pal : List Rgba} (c : Rgba) (hpos : 0 < pal.length)
    (hle : pal.length ≤ maxPalette) : (BitVec.ofNat 8 (nearest alpha pal c)).toNat < pal.length := by
  have hlt := nearest_lt_length alpha c hpos
  have hbyte : nearest alpha pal c < 2 ^ 8 := hlt.trans_le hle
  rwa [BitVec.toNat_ofNat, Nat.mod_eq_of_lt hbyte]

/-- Every answer of the cache is an index of the palette. -/
def CacheBounded (pal : List Rgba) (cache : MapCache) : Prop :=
  ∀ k x, lookupKey cache k = some x → x.toNat < pal.length

theorem cacheBounded_nil (pal : List Rgba) : CacheBounded pal [] := nofun

theorem CacheBounded.cons {pal : List Rgba} {cache : MapCache} (h : CacheBounded pal cache) (k : Nat) {x : Byte}
    (hx : x.toNat < pal.length) : CacheBounded pal ((k, x) :: cache) := by
  intro j y hy
  rw [lookupKey_cons] at hy
  split at hy
  · obtain rfl := Option.some.inj hy
    exact hx
  · exact h j y hy

/-- Every index the loop of M.MAP writes is below the palette's length (43_mapper.md R300). -/
theorem mapPixels_lt_length (f : Format) {pal : List Rgba} (hpos : 0 < pal.length) (hle : pal.length ≤ maxPalette)
    {cache : MapCache} (hcache : CacheBounded pal cache) (cs : List Rgba) :
    ∀ x ∈ mapPixels f pal cache cs, x.toNat < pal.length := by
  induction cs generalizing cache with
  | nil => exact nofun
  | cons c cs ih =>
    rw [mapPixels]
    split
    · next x hit => exact List.forall_mem_cons.mpr ⟨hcache _ x hit, ih hcache⟩
    · have hx := toNat_ofNat_nearest_lt (hasAlpha f) c hpos hle
      exact List.forall_mem_cons.mpr ⟨hx, ih (hcache.cons _ hx)⟩

/-! ## What a write of bytes to IDX leaves -/

theorem elemAddr_idx (a : Nat) : elemAddr .idx a = 0x02000000 + a := by simp [elemAddr, spaceBase, elemBytes]

theorem elemAddr_idx_add (a j : Nat) : elemAddr .idx (a + j) = elemAddr .idx a + j := by
  rw [elemAddr_idx, elemAddr_idx, Nat.add_assoc]

theorem holdsBytes_setBytes_idx (s : State) (a : Nat) (vs : List Byte) :
    holdsBytes { s with mem := setBytes s.mem (elemAddr .idx a) vs } .idx a vs := by
  intro j hj
  rw [elemAddr_idx_add, memByte_setBytes_inside hj, List.getElem?_eq_getElem hj]

theorem sameMemoryOutside_setBytes_idx (s : State) (a : Nat) (vs : List Byte) :
    sameMemoryOutside s { s with mem := setBytes s.mem (elemAddr .idx a) vs } (elemAddr .idx a)
      (elemAddr .idx (a + vs.length)) := by
  intro b hb
  rw [elemAddr_idx_add] at hb
  exact memByte_setBytes_outside hb

/-! ## M.MAP -/

/-- The indices of the pixel words under the palette words, from an empty cache. -/
abbrev mappedIndices (f : Format) (pal pixels : List Word) : List Byte :=
  mapPixels f (pal.map unpackPixel) [] (pixels.map unpackPixel)

/-- The state with the mapped indices in IDX from DST on, which M.MAP completes in. -/
def mapTo (f : Format) (pal pixels : List Word) (s : State) : State :=
  { s with mem := setBytes s.mem (elemAddr .idx s.dst.toNat) (mappedIndices f pal pixels) }

section MMap
variable (f : Format) {s : State}

/-- With the code of a format M.MAP checks PAL_LEN, then COUNT, then both ranges, and then maps (43_mapper.md R300). -/
theorem exec_mMap_formatCode :
    exec (.mMap (formatCode f)) s = perform 0x40 s (
      raiseIf (s.palLen.toNat = 0) .noPalette <|
      raiseIf (maxPalette < s.palLen.toNat) .paletteSize <|
      if s.count.toNat = 0 then .ok s else
      raiseIf (s.params.pixWords < s.src.toNat + s.count.toNat) .bounds <|
      raiseIf (s.params.pixWords < s.dst.toNat + s.count.toNat) .bounds <|
      (readWordElems s .pix s.src.toNat s.count.toNat).bind fun pixels =>
      (readWordElems s .pal 0 s.palLen.toNat).bind fun pal => .ok (mapTo f pal pixels s)) := by
  simp only [exec, execMMap, formatOf_formatCode]; rfl

theorem mMap_raises_noPalette (hnone : s.palLen.toNat = 0) : Raises (.mMap (formatCode f)) s .noPalette :=
  (exec_mMap_formatCode f).trans (perform_raiseIf_of_bad (decide_eq_true hnone))

theorem mMap_raises_paletteSize (hbig : maxPalette < s.palLen.toNat) :
    Raises (.mMap (formatCode f)) s .paletteSize := by
  rw [Raises, exec_mMap_formatCode, raiseIf_decide_of_neg (Nat.ne_zero_of_lt hbig)]
  exact perform_raiseIf_of_bad (decide_eq_true hbig)

variable (hpal : 1 ≤ s.palLen.toNat) (hmax : s.palLen.toNat ≤ maxPalette)
include hpal hmax

theorem exec_mMap_of_count_zero (hzero : s.count.toNat = 0) : exec (.mMap (formatCode f)) s = .next s := by
  rw [exec_mMap_formatCode, raiseIf_decide_of_neg (Nat.ne_zero_of_lt hpal), raiseIf_decide_of_neg hmax.not_gt,
    if_pos hzero]
  rfl

variable (hpos : 0 < s.count.toNat)
include hpos

/-- Past the checks of PAL_LEN and COUNT, M.MAP checks the range in PIX, then the range in IDX, and then maps. -/
theorem exec_mMap_of_count_pos :
    exec (.mMap (formatCode f)) s = perform 0x40 s (
      raiseIf (s.params.pixWords < s.src.toNat + s.count.toNat) .bounds <|
      raiseIf (s.params.pixWords < s.dst.toNat + s.count.toNat) .bounds <|
      (readWordElems s .pix s.src.toNat s.count.toNat).bind fun pixels =>
      (readWordElems s .pal 0 s.palLen.toNat).bind fun pal => .ok (mapTo f pal pixels s)) := by
  rw [exec_mMap_formatCode, raiseIf_decide_of_neg (Nat.ne_zero_of_lt hpal), raiseIf_decide_of_neg hmax.not_gt,
    if_neg hpos.ne']

theorem mMap_raises_bounds
    (hout : s.params.pixWords < s.src.toNat + s.count.toNat ∨ s.params.pixWords < s.dst.toNat + s.count.toNat) :
    Raises (.mMap (formatCode f)) s .bounds := by
  rw [Raises, exec_mMap_of_count_pos f hpal hmax hpos]
  by_cases hsrc : s.params.pixWords < s.src.toNat + s.count.toNat
  · exact perform_raiseIf_of_bad (decide_eq_true hsrc)
  · rw [raiseIf_decide_of_neg hsrc]
    exact perform_raiseIf_of_bad (decide_eq_true (hout.resolve_left hsrc))

theorem exec_mMap_of_words {pixels pal : List Word} (hlen : pixels.length = s.count.toNat)
    (hpix : holdsWords s .pix s.src.toNat pixels) (hpalLen : pal.length = s.palLen.toNat)
    (hpalHolds : holdsWords s .pal 0 pal) (hsrc : s.src.toNat + s.count.toNat ≤ s.params.pixWords)
    (hdst : s.dst.toNat + s.count.toNat ≤ s.params.pixWords) :
    exec (.mMap (formatCode f)) s = .next (mapTo f pal pixels s) := by
  rw [exec_mMap_of_count_pos f hpal hmax hpos, raiseIf_decide_of_neg hsrc.not_gt, raiseIf_decide_of_neg hdst.not_gt,
    readWordElems_ok.mpr ⟨hlen, hpix⟩, readWordElems_ok.mpr ⟨hpalLen, hpalHolds⟩]
  rfl

end MMap

/-- Settles O39: the checks raise in R300's order, and past them M.MAP leaves `mapTo` of the pixels and palette entries
read, whose indices are Nearest's answers, each an index of the palette. -/
theorem mMapWritesTheIndices : Obligations.MMapWritesTheIndices := by
  refine ⟨decodeWord_mMap, ?_⟩
  rintro _ f s rfl
  refine ⟨raises_arg_of_not_wf rfl, mMap_raises_noPalette f, mMap_raises_paletteSize f, exec_mMap_of_count_zero f,
    mMap_raises_bounds f, ?_⟩
  intro pixels pal hlen hpix hpalLen hpalHolds hpal hmax hpos hsrc hdst
  refine ⟨mapTo f pal pixels s, exec_mMap_of_words f hpal hmax hpos hlen hpix hpalLen hpalHolds hsrc hdst, rfl,
    holdsBytes_setBytes_idx s _ _, ?_, ?_⟩
  · have hentries : (pal.map unpackPixel).length = s.palLen.toNat := by rw [List.length_map, hpalLen]
    rw [← hentries] at hpal hmax ⊢
    exact mapPixels_lt_length f hpal hmax (cacheBounded_nil _) _
  · have hcount : (mappedIndices f pal pixels).length = s.count.toNat := by
      rw [mapPixels_length, List.length_map, hlen]
    rw [← hcount]
    exact sameMemoryOutside_setBytes_idx s _ _

end Sys2Proof.Machine
end

section
/-! The gif_frame_multiplexer commands G.HDR (44_gif_mux.md R335) and G.FIN (R346): past its check of GSTATE each is one
append, of the signature or of the trailer, and leaves `pushBytes` or `pushByte` of the state before with GSTATE moved
on. -/

namespace Sys2Proof.Machine

/-! ## G.HDR -/

/-- The state with the signature appended and the stream opened, which G.HDR completes in. -/
def openStream (s : State) : State := { pushBytes s signatureBytes with gstate := .header }

section GHdr
variable {s : State}

theorem gHdr_raises_state (hbad : s.modeAuto = true ∨ s.gstate ≠ .uninit) : Raises .gHdr s .state :=
  perform_raiseIf_of_bad (decide_eq_true hbad)

variable (hmanual : s.modeAuto = false) (hunopened : s.gstate = .uninit)
include hmanual hunopened

/-- In manual mode and before the stream is opened, G.HDR is the append of the signature. -/
theorem exec_gHdr_of_unopened :
    exec .gHdr s = perform 0x50 s
      ((appendBytes s signatureBytes).bind fun t => .ok { t with gstate := .header }) := by
  have hgood : ¬ (s.modeAuto = true ∨ s.gstate ≠ .uninit) := by simp [hmanual, hunopened]
  exact congrArg (perform 0x50 s) (raiseIf_decide_of_neg hgood)

variable (hp : s.params.wf)
include hp

theorem gHdr_raises_streamFull (hfull : s.params.outCap < s.cursor.toNat + 6) : Raises .gHdr s .streamFull := by
  rw [Raises, exec_gHdr_of_unopened hmanual hunopened,
    appendBytes_full (vs := signatureBytes) hp (List.cons_ne_nil _ _) hfull]
  rfl

theorem exec_gHdr_of_room (hroom : s.cursor.toNat + 6 ≤ s.params.outCap) : exec .gHdr s = .next (openStream s) := by
  rw [exec_gHdr_of_unopened hmanual hunopened, appendBytes_fits (vs := signatureBytes) hp hroom]
  rfl

end GHdr

/-! ## G.FIN -/

/-- The state with the trailer appended and the stream finished, which G.FIN completes in. -/
def finishStream (s : State) : State := { pushByte s trailerByte with gstate := .final }

section GFin
variable {s : State}

theorem gFin_raises_state (hbad : s.gstate ≠ .header) : Raises .gFin s .state :=
  perform_raiseIf_of_bad (decide_eq_true hbad)

variable (hopen : s.gstate = .header)
include hopen

/-- On an open stream G.FIN is one StreamAppend of the trailer. -/
theorem exec_gFin_of_header :
    exec .gFin s = perform 0x52 s ((streamAppend s trailerByte).bind fun t => .ok { t with gstate := .final }) :=
  congrArg (perform 0x52 s) (raiseIf_decide_of_neg (not_not_intro hopen))

theorem gFin_raises_streamFull (hfull : s.params.outCap ≤ s.cursor.toNat) : Raises .gFin s .streamFull := by
  rw [Raises, exec_gFin_of_header hopen, streamAppend, decide_eq_true hfull]
  rfl

theorem exec_gFin_of_room (hroom : s.cursor.toNat < s.params.outCap) : exec .gFin s = .next (finishStream s) := by
  rw [exec_gFin_of_header hopen, streamAppend_ok.mpr ⟨hroom, rfl⟩]
  rfl

end GFin

/-! ## The statements -/

/-- Settles O40: past its check of the mode and GSTATE, G.HDR leaves `openStream`, whose memory is that of `pushBytes`
of the six signature bytes. -/
theorem gHdrWritesTheSignature : Obligations.GHdrWritesTheSignature := by
  refine ⟨rfl, fun s hp => ⟨gHdr_raises_state,
    fun hmanual hunopened => gHdr_raises_streamFull hmanual hunopened hp, ?_⟩⟩
  intro hmanual hunopened hroom
  exact ⟨openStream s, exec_gHdr_of_room hmanual hunopened hp hroom, rfl, holdsBytes_pushBytes s signatureBytes,
    sameMemoryOutside_pushBytes s signatureBytes⟩

/-- Settles O41: past its check of GSTATE, G.FIN leaves `finishStream`, whose memory is that of `pushByte` of the
trailer. -/
theorem gFinWritesTheTrailer : Obligations.GFinWritesTheTrailer := by
  refine ⟨rfl, fun s => ⟨gFin_raises_state, gFin_raises_streamFull, ?_⟩⟩
  intro hopen hroom
  exact ⟨finishStream s, exec_gFin_of_room hopen hroom, rfl, memByte_setByte_self _ _ _,
    sameMemoryOutside_pushByte s trailerByte⟩

end Sys2Proof.Machine
end

section
/-! The system commands (45_system.md R380, R381). Both are exempt from the sticky discard (60_exceptions.md R412), so
the core's turn performs them whatever ERR holds; a word with their opcode byte and a reserved bit set is neither. -/

namespace Sys2Proof.Machine

/-! ## The core's turn on a system command -/

section CoreTurns
variable {s u : State} {i : Instr}

/-- A word with the value of NOP or SRST is decoded and performed whatever ERR holds (60_exceptions.md R412). -/
theorem latched_of_system (hi : i = .nop ∨ i = .srst) (hcmd : s.cmdl = encode i) : latched s = .run i := by
  have hkept : ¬ (s.err ≠ .none ∧ s.cmdl ≠ encode .nop ∧ s.cmdl ≠ encode .srst) := by
    rintro ⟨-, hnop, hsrst⟩
    rcases hi with rfl | rfl
    · exact hnop hcmd
    · exact hsrst hcmd
  have hdecoded : decodeWord s.cmdl = .ok i := by
    rw [hcmd]
    rcases hi with rfl | rfl <;> rfl
  rw [latched, if_neg hkept, hdecoded]

/-- The core's turn on a system command is the command's own meaning, and then BUSY is cleared. -/
theorem CoreTurn.step_of_system (hturn : CoreTurn s u) (hbusy : s.busy = true) (hi : i = .nop ∨ i = .srst)
    (hcmd : s.cmdl = encode i) : step s = retireOutcome (exec i u) := by
  obtain ⟨hstep, hu⟩ := hturn.step_eq hbusy
  have hcmdu : u.cmdl = encode i := by rw [hu]; exact hcmd
  rw [hstep, coreStep, latched_of_system hi hcmdu]

end CoreTurns

/-! ## Words that no row matches -/

/-- The decoder names the rejection of a word that no row of the opcode table matches (30_encoding.md R152). -/
theorem decodeWord_of_no_row {w : Word} (hnone : ∀ r ∈ opcodeRows, ¬ rowMatches w r) :
    decodeWord w = .error (rejectWord w) := by
  simp only [opcodeRows, List.forall_mem_cons] at hnone
  simp only [decodeWord, hnone, if_false]

/-- NOP's row is the only one with opcode byte 0, and it matches the word 0 alone. -/
theorem eq_zero_of_rowMatches {w : Word} {r : Word × Word} (hr : r ∈ opcodeRows) (hop : opField w = 0x00#8)
    (h : rowMatches w r) : w = 0x00000000#32 := by
  have hnop : (maskN, 0x00000000#32) ∈ opcodeRows := List.mem_cons_self
  have hrow : r = (maskN, 0x00000000#32) :=
    opcodeRows_opField_inj hr hnop ((opField_of_rowMatches hr h).trans hop)
  subst hrow
  exact BitVec.and_allOnes.symm.trans h

/-- A word with opcode byte 0 and another bit set is rejected for that bit. -/
theorem decodeWord_of_opField_zero {w : Word} (hop : opField w = 0x00#8) (hw : w ≠ 0x00000000#32) :
    decodeWord w = .error (.reservedBits 0x00#8) := by
  have hlegal : opField w ∈ legalOpcodes := by rw [hop]; exact List.mem_cons_self
  rw [decodeWord_of_no_row fun r hr h => hw (eq_zero_of_rowMatches hr hop h), rejectWord, if_pos hlegal, hop]

/-! ## The statements -/

/-- Settles O14: the turn performs NOP, which leaves the state as it is, so that only `retire` changes it; no row but
NOP's has opcode byte 0. -/
theorem nopHasNoEffect : Obligations.NopHasNoEffect := by
  refine ⟨rfl, fun s => rfl, fun s u hbusy hcmd hturn => ?_, fun w => decodeWord_of_opField_zero⟩
  exact ⟨retire u, hturn.step_of_system hbusy (.inl rfl) hcmd, rfl⟩

/-- Settles O15: the turn performs SRST, which completes in `softReset` of the state. -/
theorem srstClearsTheSession : Obligations.SrstClearsTheSession := by
  refine ⟨rfl, fun s u hbusy hcmd hturn => hturn.step_of_system hbusy (.inr rfl) hcmd, fun s => ?_⟩
  exact ⟨softReset s, rfl, rfl, rfl, rfl, rfl, rfl, rfl, rfl⟩

end Sys2Proof.Machine
end

section
/-! Precise errors (60_exceptions.md R410). The effects of commands (`Effect`) record no error, so a command that ends
with one recorded has entered it, and `raiseError` says what that changes. The core's turn enters an error in two ways, by
a command and by an illegal word; each records the latched word's opcode byte. -/

namespace Sys2Proof.Machine

theorem Appended.err_eq {s t : State} (h : Appended s t) : t.err = s.err := by rw [h.frame]

section Commands
variable {i : Instr} {s t : State}

/-- No effect of a command records an error: SRST clears ERR and the others keep it. -/
theorem Effect.err_eq_none (h : Effect i s t) (hs : s.err = .none) : t.err = .none := by
  cases i with
  | nop => obtain rfl : t = s := h; exact hs
  | srst => obtain rfl : t = softReset s := h; rfl
  | bsWb | bsWbs | lEnc => exact h.1.err_eq.trans hs
  | bsRst => rw [h.1]; exact hs
  | qClr =>
    obtain ⟨_, -, rfl⟩ := h
    exact hs
  | qAcc =>
    obtain ⟨-, rfl⟩ | ⟨pixels, -, -, rfl⟩ := h
    · exact hs
    · show (pixels.foldl countPixel s).err = .none
      rw [foldl_countPixel_frame]
      exact hs
  | qRed => rw [h]; exact hs
  | mMap =>
    obtain ⟨_, rfl, -⟩ := h
    exact hs
  | gHdr | gFrm =>
    obtain ⟨-, -, u, hu, rfl⟩ := h
    exact hu.err_eq.trans hs
  | gFin =>
    obtain ⟨-, u, hu, rfl⟩ := h
    exact hu.err_eq.trans hs

/-- A command that records an error has entered it. -/
theorem raised_of_err_ne_none (h : exec i s = .next t) (hs : s.err = .none) (ht : t.err ≠ .none) : Raised i s t :=
  (exec_cases h).resolve_right fun heffect => ht (heffect.err_eq_none hs)

end Commands

/-- Error entry forgets the OUT elements at and above CURSOR and no other byte. -/
theorem sameMemoryOutside_raiseError (s : State) (op : BitVec 8) (e : ErrCode) :
    sameMemoryOutside s (raiseError s op e) (outAddr s.cursor.toNat) (outAddr s.params.outCap) := by
  intro a ha
  rw [memByte_raiseError, if_neg (by omega)]

/-! ## The core's turn -/

/-- The decoder answers with a command of the word's own opcode byte. -/
theorem opcode_of_decodeWord {w : Word} {i : Instr} (h : decodeWord w = .ok i) : i.opcode = opField w := by
  obtain ⟨r, hr, hmatch, j, hj, hop⟩ | ⟨-, e, he⟩ := decodeWord_searchOf w
  · obtain rfl : i = j := Except.ok.inj (h.symm.trans hj)
    exact hop.trans (opField_of_rowMatches hr hmatch)
  · cases h.symm.trans he

theorem retireOutcome_next {o : Host.Outcome State Fault Refusal} {t : State} :
    retireOutcome o = .next t ↔ ∃ v, o = .next v ∧ t = retire v := by
  cases o <;> simp [retireOutcome, eq_comm]

/-- A turn of the core that records an error has entered it with the latched word's opcode byte, for an illegal word and
for a command alike, and then cleared BUSY. -/
theorem coreStep_raised {s t : State} (h : coreStep s = .next t) (hs : s.err = .none) (ht : t.err ≠ .none) :
    ∃ e, t = retire (raiseError s (opField s.cmdl) e) := by
  rw [coreStep, latched_decoded hs] at h
  cases hdec : decodeWord s.cmdl with
  | error _ =>
    rw [hdec] at h
    cases h
    exact ⟨.illegalCmd, rfl⟩
  | ok i =>
    rw [hdec] at h
    obtain ⟨v, hexec, rfl⟩ := retireOutcome_next.mp h
    obtain ⟨e, -, rfl⟩ := raised_of_err_ne_none hexec hs ht
    exact ⟨e, by rw [opcode_of_decodeWord hdec]⟩

/-! ## The statement -/

/-- Settles O10: a command and a turn of the core that record an error end in `raiseError`, whose frame is R410's. -/
theorem errorsArePrecise : Obligations.ErrorsArePrecise := by
  refine ⟨fun i s t hs h ht => ?_, fun s u t hbusy hturn hs h ht => ?_⟩
  · obtain ⟨e, -, rfl⟩ := raised_of_err_ne_none h hs ht
    exact ⟨rfl, sameMemoryOutside_raiseError s _ e⟩
  · obtain ⟨hstep, hu⟩ := hturn.step_eq hbusy
    obtain ⟨rest, rfl⟩ : ∃ rest, u = { s with schedule := rest } := ⟨_, hu⟩
    obtain ⟨e, rfl⟩ := coreStep_raised (hstep.symm.trans h) hs ht
    exact ⟨rfl, sameMemoryOutside_raiseError s (opField s.cmdl) e⟩

end Sys2Proof.Machine
end

section
/-! The idle core (70_reset_and_hazards.md R441). Its turn and a POLL leave BUSY alone by the equations of `step`; of the
host's accesses, reads and stores leave BUSY alone, a reset clears it, and among the registers only CMD sets it. CMD
stands at offset 4 alone, and only a word access reaches it. -/

namespace Sys2Proof.Machine

/-! ## CMD's place in the address map -/

/-- No other offset of the register window is CMD's (10_state.md R30). -/
theorem eq_four_of_regAt_cmd {off : Nat} (h : regAt off = some .cmd) : off = 4 := by
  unfold regAt at h
  split at h <;> cases h
  rfl

/-- CMD is at offset 4 of the bus and nowhere else, the converse of `busTarget_cmd`. -/
theorem eq_four_of_busTarget_cmd {p : Params} {a : Nat} (h : busTarget p a = .reg .cmd) : a = 4 := by
  unfold busTarget at h
  split at h
  · cases hreg : regAt a with
    | none => simp [hreg] at h
    | some r =>
      obtain rfl : r = .cmd := by simpa [hreg] using h
      exact eq_four_of_regAt_cmd hreg
  · cases hsp : spaceAt p a <;> simp [hsp] at h

/-! ## BUSY under the host's accesses -/

section Accesses
variable {s t : State} {addr v : Word} {size : AccessSize}

theorem regWrite_busy {r : Reg} (hr : r ≠ .cmd) : (regWrite s v r).busy = s.busy := by
  cases r with
  | cmd => exact absurd rfl hr
  | _ => rfl

@[simp] theorem storeWord_busy (s : State) (sp : Space) (a : Nat) (v : Word) : (storeWord s sp a v).busy = s.busy := by
  cases sp <;> rfl

/-- A read changes the answer and the model's own counter, whether the core is busy or idle. -/
theorem hostRead_frame (h : hostRead s addr size = .next t) : t = { s with rdata := t.rdata, draws := t.draws } := by
  unfold hostRead at h
  split at h
  · split at h
    case h_1 | h_2 => cases h
    case h_3 | h_4 => split at h <;> cases h <;> rfl
  · cases h

/-- A write that an idle core's host is allowed is a word write, to a register or to a memory window. -/
theorem hostWrite_cases_of_idle (hidle : s.busy = false) (h : hostWrite s addr size v = .next t) :
    size = .word ∧ ((∃ r, busTarget s.params addr.toNat = .reg r ∧ t = newDraws (regWrite s v r)) ∨
      ∃ sp, t = newDraws (storeWord s sp addr.toNat v)) := by
  cases hsup : supportedAccess addr size with
  | false => simp [hostWrite, hsup] at h
  | true =>
    refine ⟨(of_decide_eq_true hsup).1, ?_⟩
    cases htarget : busTarget s.params addr.toNat with
    | unmapped | unassigned => simp [hostWrite, hsup, htarget] at h
    | reg r =>
      rw [hostWrite_reg_of_idle v hsup htarget hidle] at h
      cases h
      exact .inl ⟨r, rfl, rfl⟩
    | mem sp =>
      simp only [hostWrite, hsup, htarget, hidle] at h
      cases h
      exact .inr ⟨sp, rfl⟩

/-- The one host access that makes an idle core busy is the word write to CMD (10_state.md R32). -/
theorem hostAccess_idle {op : HostOp} (hidle : s.busy = false) (h : hostAccess s op = .next t) :
    t.busy = false ∨ ∃ v, op = .write 0x04#32 .word v := by
  cases op with
  | reset => cases h; exact .inl rfl
  | read addr size =>
    refine .inl ?_
    rw [hostRead_frame h]
    exact hidle
  | write addr size v =>
    obtain ⟨rfl, ⟨r, htarget, rfl⟩ | ⟨sp, rfl⟩⟩ := hostWrite_cases_of_idle hidle h
    · by_cases hr : r = .cmd
      · subst hr
        obtain rfl : addr = 0x04#32 := BitVec.eq_of_toNat_eq (eq_four_of_busTarget_cmd htarget)
        exact .inr ⟨v, rfl⟩
      · exact .inl ((regWrite_busy hr).trans hidle)
    · exact .inl ((storeWord_busy s sp addr.toNat v).trans hidle)

end Accesses

/-! ## The steps of an idle core -/

section Steps
variable {s : State} {rest : List Event}

theorem step_unscheduled_of_idle (hidle : s.busy = false) (h : s.schedule = []) : step s = .next s := by
  simp [step, h, coreTurn, hidle]

theorem step_core_of_idle (hidle : s.busy = false) (h : s.schedule = .core :: rest) :
    step s = .next { s with schedule := rest } := by
  simp [step, h, coreTurn, hidle]

theorem step_poll_of_idle (hidle : s.busy = false) (h : s.schedule = .poll :: rest) :
    step s = .next { s with schedule := rest, rdata := statusWord s } := by
  have hpoll : step s = .next (pollDone { s with schedule := rest }) := by simp [step, h, hidle]
  exact hpoll

theorem step_access {op : HostOp} (h : s.schedule = .access op :: rest) :
    step s = hostAccess { s with schedule := rest } op := by
  simp [step, h]

end Steps

/-- Settles O9: the core's own turns and a POLL go by the equations of an idle core's step, and a host access by
`hostAccess_idle`. -/
theorem idleCoreStays : Obligations.IdleCoreStays := by
  refine ⟨rfl, fun s hidle => ⟨step_unscheduled_of_idle hidle, fun _ => step_core_of_idle hidle,
    fun _ => step_poll_of_idle hidle⟩, fun s t hidle h => ?_⟩
  cases hsched : s.schedule with
  | nil =>
    cases (step_unscheduled_of_idle hidle hsched).symm.trans h
    exact .inl hidle
  | cons event rest =>
    cases event with
    | core =>
      cases (step_core_of_idle hidle hsched).symm.trans h
      exact .inl hidle
    | poll =>
      cases (step_poll_of_idle hidle hsched).symm.trans h
      exact .inl hidle
    | access op =>
      have hacc := (step_access hsched).symm.trans h
      obtain hbusy | ⟨v, rfl⟩ := hostAccess_idle (s := { s with schedule := rest }) hidle hacc
      · exact .inl hbusy
      · exact .inr ⟨v, rest, rfl⟩

end Sys2Proof.Machine
end

section
/-! Encoding and decoding are inverse (30_encoding.md R143, R150, R152). A row's mask leaves the low bits of a field free, so
a word that the row matches is the row's value with its own field in those bits (`or_field_of_and_mask`). -/

namespace Sys2Proof.Machine

/-- The decoder gives back the colour count that the word of Q.RED carries (30_encoding.md R150). -/
theorem decodeWord_qRed (ncol : BitVec 9) : decodeWord (0x32000000#32 ||| ncol.setWidth 32) = .ok (.qRed ncol) := by
  revert ncol; decide

/-- Settles O1: a word without a field is decoded as it stands, one with a field by the lemma of its format. -/
theorem decodeEncodeRoundTrip : Obligations.DecodeEncodeRoundTrip := by
  intro i
  cases i with
  | nop | srst | bsWbs | bsRst | qAcc | gHdr | gFrm | gFin => rfl
  | bsWb b => exact decodeWord_bsWb b
  | lEnc d => exact decodeWord_lEnc d
  | qClr f => exact decodeWord_qClr f
  | qRed n => exact decodeWord_qRed n
  | mMap f => exact decodeWord_mMap f

/-- A word is what a mask keeps of it together with its `n` low bits, where those are what the mask leaves free. -/
theorem or_field_of_and_mask {w mask m : Word} {n : Nat} (hmask : mask = ~~~ (BitVec.allOnes n).setWidth 32)
    (h : w &&& mask = m) : m ||| (w.extractLsb' 0 n).setWidth 32 = w := by
  subst hmask h
  apply BitVec.eq_of_getLsbD_eq
  intro i hi
  by_cases hn : i < n <;> simp [hi, hn]

/-- The answer `x` of a search for `w`, if it is a command, is one whose encoding is `w`. -/
def EncodesBack (w : Word) (x : Except DecodeError Instr) : Prop := ∀ i, x = .ok i → encode i = w

theorem EncodesBack.cons {w mask m : Word} {i : Instr} {x : Except DecodeError Instr}
    (hi : w &&& mask = m → encode i = w) (hx : EncodesBack w x) :
    EncodesBack w (if w &&& mask = m then .ok i else x) := by
  split
  · next h =>
    rintro _ ⟨⟩
    exact hi h
  · exact hx

theorem encodesBack_decodeWord (w : Word) : EncodesBack w (decodeWord w) := by
  have hN {m : Word} (h : w &&& maskN = m) : m = w := h.symm.trans BitVec.and_allOnes
  unfold decodeWord
  refine .cons hN <| .cons hN <| .cons (or_field_of_and_mask (n := 8) rfl) <| .cons hN <| .cons hN <|
    .cons (or_field_of_and_mask (n := 4) rfl) <| .cons (or_field_of_and_mask (n := 2) rfl) <| .cons hN <|
    .cons (or_field_of_and_mask (n := 9) rfl) <| .cons (or_field_of_and_mask (n := 2) rfl) <| .cons hN <|
    .cons hN <| .cons hN ?_
  exact nofun

/-- Settles O2: each row's test fixes every bit of the word outside the field that the command carries. -/
theorem encodeDecodeRoundTrip : Obligations.EncodeDecodeRoundTrip := encodesBack_decodeWord

/-- Settles O4: each of the words is looked up in the table by evaluation. -/
theorem specWordsDecode : Obligations.SpecWordsDecode := by
  unfold Obligations.SpecWordsDecode
  decide

end Sys2Proof.Machine
end

section
/-! Frames of the commands: the fields that no command writes, and the transitions of GSTATE (44_gif_mux.md R330). Both are
read off `exec_cases`: an error entry changes the error record and memory, and an effect is an explicit update. -/

namespace Sys2Proof.Machine

section Commands
variable {i : Instr} {s t : State}

/-- An effect changes memory, the stream's registers, the palette lengths, the histogram and the session flags at most. -/
theorem Effect.frame (h : Effect i s t) :
    t = { s with
      haz := t.haz, gstate := t.gstate, err := t.err, errOp := t.errOp, cursor := t.cursor, palLen := t.palLen
      gpalLen := t.gpalLen, histBins := t.histBins, histPixels := t.histPixels, histFmt := t.histFmt
      hist := t.hist, mem := t.mem } := by
  cases i with
  | nop => obtain rfl : t = s := h; rfl
  | srst => obtain rfl : t = softReset s := h; rfl
  | bsWb | bsWbs | lEnc => rw [h.1.frame]
  | bsRst => rw [h.1]
  | qClr =>
    obtain ⟨_, -, rfl⟩ := h
    rfl
  | qAcc =>
    obtain ⟨-, rfl⟩ | ⟨pixels, -, -, rfl⟩ := h
    · rfl
    · rw [foldl_countPixel_frame]
  | qRed => rw [h]; rfl
  | mMap =>
    obtain ⟨_, rfl, -⟩ := h
    rfl
  | gHdr | gFrm =>
    obtain ⟨-, -, u, hu, rfl⟩ := h
    rw [hu.frame]
  | gFin =>
    obtain ⟨-, u, hu, rfl⟩ := h
    rw [hu.frame]

/-- What a command leaves as it is, whether it raises or has its effect (10_state.md R55). -/
theorem exec_frame (h : exec i s = .next t) :
    t = { s with
      haz := t.haz, gstate := t.gstate, err := t.err, errOp := t.errOp, cursor := t.cursor, palLen := t.palLen
      gpalLen := t.gpalLen, histBins := t.histBins, histPixels := t.histPixels, histFmt := t.histFmt
      hist := t.hist, mem := t.mem } := by
  obtain ⟨e, -, rfl⟩ | heffect := exec_cases h
  · rfl
  · exact heffect.frame

theorem Appended.gstate_eq (h : Appended s t) : t.gstate = s.gstate := by rw [h.frame]

theorem Appended.haz_eq (h : Appended s t) : t.haz = s.haz := by rw [h.frame]

/-- Only SRST writes HAZ (10_state.md R36). -/
theorem Effect.haz_eq (h : Effect i s t) (hi : i ≠ .srst) : t.haz = s.haz := by
  cases i with
  | nop => obtain rfl : t = s := h; rfl
  | srst => exact absurd rfl hi
  | bsWb | bsWbs | lEnc => exact h.1.haz_eq
  | bsRst => rw [h.1]
  | qClr =>
    obtain ⟨_, -, rfl⟩ := h
    rfl
  | qAcc =>
    obtain ⟨-, rfl⟩ | ⟨pixels, -, -, rfl⟩ := h
    · rfl
    · rw [foldl_countPixel_frame]
  | qRed => rw [h]; rfl
  | mMap =>
    obtain ⟨_, rfl, -⟩ := h
    rfl
  | gHdr | gFrm =>
    obtain ⟨-, -, u, hu, rfl⟩ := h
    exact hu.haz_eq
  | gFin =>
    obtain ⟨-, u, hu, rfl⟩ := h
    exact hu.haz_eq

/-- The transitions of 44_gif_mux.md R330's table that commands make. -/
theorem Effect.gstate_cases (h : Effect i s t) :
    t.gstate = s.gstate ∨ (i = .srst ∧ t.gstate = .uninit) ∨
    (i = .gHdr ∧ s.modeAuto = false ∧ s.gstate = .uninit ∧ t.gstate = .header) ∨
    (i = .gFrm ∧ s.gstate ≠ .final ∧ t.gstate = .header) ∨
    (i = .gFin ∧ s.gstate = .header ∧ t.gstate = .final) := by
  cases i with
  | nop => obtain rfl : t = s := h; exact .inl rfl
  | srst => obtain rfl : t = softReset s := h; exact .inr (.inl ⟨rfl, rfl⟩)
  | bsWb | bsWbs | lEnc => exact .inl h.1.gstate_eq
  | bsRst => exact .inl (by rw [h.1])
  | qClr =>
    obtain ⟨_, -, rfl⟩ := h
    exact .inl rfl
  | qAcc =>
    obtain ⟨-, rfl⟩ | ⟨pixels, -, -, rfl⟩ := h
    · exact .inl rfl
    · exact .inl (by rw [foldl_countPixel_frame])
  | qRed => exact .inl (by rw [h]; rfl)
  | mMap =>
    obtain ⟨_, rfl, -⟩ := h
    exact .inl rfl
  | gHdr =>
    obtain ⟨hmanual, hunopened, u, -, rfl⟩ := h
    exact .inr (.inr (.inl ⟨rfl, hmanual, hunopened, rfl⟩))
  | gFrm =>
    obtain ⟨hopen, -, u, -, rfl⟩ := h
    exact .inr (.inr (.inr (.inl ⟨rfl, hopen, rfl⟩)))
  | gFin =>
    obtain ⟨hopen, u, -, rfl⟩ := h
    exact .inr (.inr (.inr (.inr ⟨rfl, hopen, rfl⟩)))

end Commands

/-- Settles O11: `exec_frame` names what a command may write, and none of it is an operand or configuration register. -/
theorem commandsLeaveOperandRegisters : Obligations.CommandsLeaveOperandRegisters := by
  intro i s t h
  have hhaz : t.haz = s.haz ∨ i = .srst := by
    by_cases hi : i = .srst
    · exact .inr hi
    · obtain ⟨e, -, rfl⟩ | heffect := exec_cases h
      · exact .inl rfl
      · exact .inl (heffect.haz_eq hi)
  rw [exec_frame h] at hhaz ⊢
  exact ⟨rfl, rfl, rfl, rfl, rfl, rfl, rfl, rfl, rfl, rfl, rfl, rfl, rfl, rfl, rfl, rfl, rfl, hhaz⟩

/-- Settles O12: an error entry leaves GSTATE, and the effects make the transitions of R330's table. -/
theorem gstateTransitions : Obligations.GstateTransitions := by
  intro i s t h
  obtain ⟨e, -, rfl⟩ | heffect := exec_cases h
  · exact .inl rfl
  · exact heffect.gstate_cases

end Sys2Proof.Machine
end

section
/-! The invariants of a step (10_state.md R35, R42, R45, R47, R48, R60). `step_keeps` asks for each what the parts of a step
do to it; three lemmas say that once for all of them: `Effect.mem_cases` for a command's memory and CURSOR,
`Effect.histOk` for its histogram, and `hostAccess_wrote` for a host access. -/

namespace Sys2Proof.Machine

/-! ## What a host access writes -/

/-- `t` is `s` after a host access that is no reset: registers that no command keeps for itself, some bytes of memory, the
answer and the model's counter may differ. -/
structure HostWrote (s t : State) : Prop where
  frame : t = { s with
    cmdl := t.cmdl, busy := t.busy, haz := t.haz, modeAuto := t.modeAuto, src := t.src, dst := t.dst, count := t.count
    bufAddr := t.bufAddr, palLen := t.palLen, qcfg := t.qcfg, frWidth := t.frWidth, frHeight := t.frHeight
    frDelay := t.frDelay, frLoop := t.frLoop, frFlags := t.frFlags, mem := t.mem, rdata := t.rdata, draws := t.draws }
  mem : ∃ a vs, t.mem = setBytes s.mem a vs

theorem hostWrote_regWrite (s : State) (v : Word) (r : Reg) : HostWrote s (newDraws (regWrite s v r)) := by
  constructor
  · cases r <;> rfl
  · exact ⟨0, [], by cases r <;> rfl⟩

theorem hostWrote_storeWord (s : State) (sp : Space) (a : Nat) (v : Word) :
    HostWrote s (newDraws (storeWord s sp a v)) := by
  unfold storeWord
  split
  · exact ⟨rfl, 0, [], rfl⟩
  · exact ⟨rfl, a, wordBytes v, rfl⟩

/-- A busy core flags every write it does not refuse (20_memory.md R112). -/
theorem hostWrite_of_busy {s t : State} {addr v : Word} {size : AccessSize} (hbusy : s.busy = true)
    (h : hostWrite s addr size v = .next t) : t = flagHazard s := by
  cases hsup : supportedAccess addr size with
  | false => simp [hostWrite, hsup] at h
  | true =>
    cases htarget : busTarget s.params addr.toNat with
    | unmapped | unassigned => simp [hostWrite, hsup, htarget] at h
    | reg r =>
      cases (hostWrite_reg_of_busy v hsup htarget hbusy).symm.trans h
      rfl
    | mem sp =>
      cases (hostWrite_mem_of_busy v hsup htarget hbusy).symm.trans h
      rfl

/-- Every access of the host is a reset or leaves the fields that `HostWrote` does not name. -/
theorem hostAccess_wrote {s t : State} {op : HostOp} (h : hostAccess s op = .next t) :
    (op = .reset ∧ t = hardReset s) ∨ HostWrote s t := by
  cases op with
  | reset =>
    cases h
    exact .inl ⟨rfl, rfl⟩
  | read addr size =>
    rw [hostRead_frame h]
    exact .inr ⟨rfl, 0, [], rfl⟩
  | write addr size v =>
    refine .inr ?_
    cases hbusy : s.busy with
    | true =>
      rw [hostWrite_of_busy hbusy h]
      exact ⟨rfl, 0, [], rfl⟩
    | false =>
      obtain ⟨-, ⟨r, -, rfl⟩ | ⟨sp, rfl⟩⟩ := hostWrite_cases_of_idle hbusy h
      · exact hostWrote_regWrite s v r
      · exact hostWrote_storeWord s sp _ v

/-! ## What a command writes -/

section Commands
variable {i : Instr} {s t : State}

/-- The three ways a command without an error leaves memory and CURSOR: the stream rewound, bytes written with CURSOR in
place (none by most commands), or bytes appended. -/
theorem Effect.mem_cases (h : Effect i s t) :
    (t.cursor = 0 ∧ t.mem = s.mem) ∨ (t.cursor = s.cursor ∧ ∃ a vs, t.mem = setBytes s.mem a vs) ∨
    ∃ u, Appended s u ∧ t.cursor = u.cursor ∧ t.mem = u.mem := by
  cases i with
  | nop =>
    obtain rfl : t = s := h
    exact .inr (.inl ⟨rfl, 0, [], rfl⟩)
  | srst =>
    obtain rfl : t = softReset s := h
    exact .inl ⟨rfl, rfl⟩
  | bsWb | bsWbs | lEnc => exact .inr (.inr ⟨t, h.1, rfl, rfl⟩)
  | bsRst => exact .inl (by rw [h.1]; exact ⟨rfl, rfl⟩)
  | qClr =>
    obtain ⟨_, -, rfl⟩ := h
    exact .inr (.inl ⟨rfl, 0, [], rfl⟩)
  | qAcc =>
    obtain ⟨-, rfl⟩ | ⟨pixels, -, -, rfl⟩ := h
    · exact .inr (.inl ⟨rfl, 0, [], rfl⟩)
    · rw [foldl_countPixel_frame]
      exact .inr (.inl ⟨rfl, 0, [], rfl⟩)
  | qRed =>
    rw [h]
    exact .inr (.inl ⟨rfl, _, _, rfl⟩)
  | mMap =>
    obtain ⟨vs, rfl, -⟩ := h
    exact .inr (.inl ⟨rfl, _, vs, rfl⟩)
  | gHdr | gFrm =>
    obtain ⟨-, -, u, hu, rfl⟩ := h
    exact .inr (.inr ⟨u, hu, rfl, rfl⟩)
  | gFin =>
    obtain ⟨-, u, hu, rfl⟩ := h
    exact .inr (.inr ⟨u, hu, rfl, rfl⟩)

theorem Effect.mem_wf (h : Effect i s t) (hs : Memory.wf s.mem) : Memory.wf t.mem := by
  obtain ⟨-, hmem⟩ | ⟨-, a, vs, hmem⟩ | ⟨u, hu, -, hmem⟩ := h.mem_cases
  · rwa [hmem]
  · rw [hmem]
    exact setBytes_wf a vs hs
  · rw [hmem]
    exact hu.mem_wf hs

theorem Appended.cursorBounded (h : Appended s t) (hp : s.params.wf) (hs : s.cursorBounded) : t.cursorBounded := by
  obtain ⟨vs, rfl, rfl | hfit⟩ := h.bytes (outCap_lt hp)
  · rwa [pushBytes_nil]
  · show (s.cursor + BitVec.ofNat 32 vs.length).toNat ≤ s.params.outCap
    rwa [cursor_add hp hfit]

theorem Effect.cursorBounded (h : Effect i s t) (hp : s.params.wf) (hs : s.cursorBounded) : t.cursorBounded := by
  have hparams : t.params = s.params := by rw [h.frame]
  obtain ⟨hcursor, -⟩ | ⟨hcursor, -⟩ | ⟨u, hu, hcursor, -⟩ := h.mem_cases
  · simp [State.cursorBounded, hcursor]
  · rwa [State.cursorBounded, hcursor, hparams]
  · have hbound := hu.cursorBounded hp hs
    rw [hu.frame] at hbound
    rwa [State.cursorBounded, hcursor, hparams]

/-- Writing bytes takes no value from any byte of memory. -/
theorem isSome_memByte_setBytes {m : Memory} {b : Nat} (a : Nat) (vs : List Byte) (h : (memByte m b).isSome) :
    (memByte (setBytes m a vs) b).isSome := by
  rw [memByte_setBytes]
  split
  · rw [List.getElem?_eq_getElem (by omega)]; rfl
  · exact h

theorem Appended.streamWritten (h : Appended s t) (hp : s.params.wf) (hs : s.streamWritten) : t.streamWritten := by
  obtain ⟨vs, rfl, rfl | hfit⟩ := h.bytes (outCap_lt hp)
  · rwa [pushBytes_nil]
  · intro k hk
    have hcursor : (pushBytes s vs).cursor.toNat = s.cursor.toNat + vs.length := cursor_add hp hfit
    rw [hcursor] at hk
    by_cases hold : k < s.cursor.toNat
    · exact isSome_memByte_setBytes _ _ (hs k hold)
    · rw [memByte_pushBytes, outAddr_eq, outAddr_eq, if_pos (by omega), List.getElem?_eq_getElem (by omega)]
      rfl

theorem Effect.streamWritten (h : Effect i s t) (hp : s.params.wf) (hs : s.streamWritten) : t.streamWritten := by
  obtain ⟨hcursor, -⟩ | ⟨hcursor, a, vs, hmem⟩ | ⟨u, hu, hcursor, hmem⟩ := h.mem_cases
  · simp [State.streamWritten, hcursor]
  · rw [State.streamWritten, hcursor, hmem]
    exact fun k hk => isSome_memByte_setBytes a vs (hs k hk)
  · rw [State.streamWritten, hcursor, hmem]
    exact hu.streamWritten hp hs

theorem histOk_nil {s : State} {f : Format} :
    { s with hist := [], histFmt := f, histBins := 0, histPixels := 0 }.histOk :=
  ⟨⟨.nil, nofun⟩, nofun, rfl, rfl⟩

theorem Appended.histOk (h : Appended s t) (hs : s.histOk) : t.histOk := by rwa [h.frame]

/-- Q.CLR empties the histogram, Q.ACC counts pixels for which it has room, and the other commands leave it. -/
theorem Effect.histOk (h : Effect i s t) (hs : s.histOk) : t.histOk := by
  cases i with
  | nop => obtain rfl : t = s := h; exact hs
  | srst => obtain rfl : t = softReset s := h; exact hs
  | bsWb | bsWbs | lEnc => exact h.1.histOk hs
  | bsRst => rwa [h.1]
  | qClr =>
    obtain ⟨_, -, rfl⟩ := h
    exact histOk_nil
  | qAcc =>
    obtain ⟨-, rfl⟩ | ⟨pixels, hlen, hroom, rfl⟩ := h
    · exact hs
    · exact histOk_accumulate (by omega) hs hlen
  | qRed => rwa [h]
  | mMap =>
    obtain ⟨_, rfl, -⟩ := h
    exact hs
  | gHdr | gFrm =>
    obtain ⟨-, -, u, hu, rfl⟩ := h
    exact hu.histOk hs
  | gFin =>
    obtain ⟨-, u, hu, rfl⟩ := h
    exact hu.histOk hs

theorem Appended.errRecordOk (h : Appended s t) (hs : s.errRecordOk) : t.errRecordOk := by rwa [h.frame]

theorem Appended.gpalBounded (h : Appended s t) (hs : s.gpalBounded) : t.gpalBounded := by rwa [h.frame]

/-- SRST clears the error record and the other effects leave it. -/
theorem Effect.errRecordOk (h : Effect i s t) (hs : s.errRecordOk) : t.errRecordOk := by
  cases i with
  | nop => obtain rfl : t = s := h; exact hs
  | srst => obtain rfl : t = softReset s := h; exact fun _ => rfl
  | bsWb | bsWbs | lEnc => exact h.1.errRecordOk hs
  | bsRst => rwa [h.1]
  | qClr =>
    obtain ⟨_, -, rfl⟩ := h
    exact hs
  | qAcc =>
    obtain ⟨-, rfl⟩ | ⟨pixels, -, -, rfl⟩ := h
    · exact hs
    · rwa [foldl_countPixel_frame]
  | qRed => rwa [h]
  | mMap =>
    obtain ⟨_, rfl, -⟩ := h
    exact hs
  | gHdr | gFrm =>
    obtain ⟨-, -, u, hu, rfl⟩ := h
    exact hu.errRecordOk hs
  | gFin =>
    obtain ⟨-, u, hu, rfl⟩ := h
    exact hu.errRecordOk hs

/-- G.FRM records a length it has checked, SRST clears it and the other effects leave it (10_state.md R45). -/
theorem Effect.gpalBounded (h : Effect i s t) (hs : s.gpalBounded) : t.gpalBounded := by
  cases i with
  | nop => obtain rfl : t = s := h; exact hs
  | srst => obtain rfl : t = softReset s := h; exact Nat.zero_le _
  | bsWb | bsWbs | lEnc => exact h.1.gpalBounded hs
  | bsRst => rwa [h.1]
  | qClr =>
    obtain ⟨_, -, rfl⟩ := h
    exact hs
  | qAcc =>
    obtain ⟨-, rfl⟩ | ⟨pixels, -, -, rfl⟩ := h
    · exact hs
    · rwa [foldl_countPixel_frame]
  | qRed => rwa [h]
  | mMap =>
    obtain ⟨_, rfl, -⟩ := h
    exact hs
  | gHdr =>
    obtain ⟨-, -, u, hu, rfl⟩ := h
    exact hu.gpalBounded hs
  | gFrm =>
    obtain ⟨-, hlen, u, -, rfl⟩ := h
    show (if isFirstFrame s then BitVec.ofNat 9 (frameTableLen s) else s.gpalLen).toNat ≤ maxPalette
    split
    · rw [BitVec.toNat_ofNat]
      exact (Nat.mod_le _ _).trans hlen
    · exact hs
  | gFin =>
    obtain ⟨-, u, hu, rfl⟩ := h
    exact hu.gpalBounded hs

end Commands

/-! ## The statements -/

/-- Settles O58: every write keeps memory's form, forgetting the bytes above CURSOR does, and reset empties memory. -/
theorem stepKeepsMemoryCanonical : Obligations.StepKeepsMemoryCanonical := by
  refine step_keeps (fun s => Memory.wf s.mem) (fun i s t hs h => ?_) (fun s e hs _ => forgetBytes_wf _ _ hs)
    (fun s hs => hs) (fun s l hs => hs) (fun s op t hs h => ?_) (fun s hs => hs)
  · obtain ⟨e, -, rfl⟩ | heffect := exec_cases h
    · exact forgetBytes_wf _ _ hs
    · exact heffect.mem_wf hs
  · obtain ⟨-, rfl⟩ | hwrote := hostAccess_wrote h
    · exact List.Pairwise.nil
    · obtain ⟨a, vs, hmem⟩ := hwrote.mem
      exact hmem ▸ setBytes_wf a vs hs

/-- Settles O59: appends check the capacity, no other write raises CURSOR, and the parameters are no part of any write. -/
theorem stepKeepsCursorBounded : Obligations.StepKeepsCursorBounded := by
  intro s t hp hs h
  refine step_keeps (fun u => u.params = s.params ∧ u.cursorBounded) (fun i v w hv h => ?_) (fun v e hv _ => hv)
    (fun v hv => hv) (fun v l hv => hv) (fun v op w hv h => ?_) (fun v hv => hv) s t ⟨rfl, hs⟩ h
  · obtain ⟨hparams, hbound⟩ := hv
    obtain ⟨e, -, rfl⟩ | heffect := exec_cases h
    · exact ⟨hparams, hbound⟩
    · exact ⟨by rw [heffect.frame]; exact hparams, heffect.cursorBounded (hparams ▸ hp) hbound⟩
  · obtain ⟨hparams, hbound⟩ := hv
    obtain ⟨-, rfl⟩ | hwrote := hostAccess_wrote h
    · exact ⟨hparams, Nat.zero_le _⟩
    · rw [hwrote.frame]
      exact ⟨hparams, hbound⟩

/-- Settles O60: only Q.CLR, Q.ACC and reset write the histogram or its registers, and each keeps them in agreement. -/
theorem stepKeepsHistogramCounts : Obligations.StepKeepsHistogramCounts := by
  refine step_keeps (fun s => s.histOk) (fun i s t hs h => ?_) (fun s e hs _ => hs) (fun s hs => hs) (fun s l hs => hs)
    (fun s op t hs h => ?_) (fun s hs => hs)
  · obtain ⟨e, -, rfl⟩ | heffect := exec_cases h
    · exact hs
    · exact heffect.histOk hs
  · obtain ⟨-, rfl⟩ | hwrote := hostAccess_wrote h
    · exact histOk_nil (s := hardReset s)
    · rwa [hwrote.frame]

/-- The stream's bytes hold values after a step: an append writes what it adds, an error entry forgets bytes above CURSOR
only, and the other writes take no values away. -/
theorem step_keeps_streamWritten {s t : State} (hp : s.params.wf) (hs : s.streamWritten) (h : step s = .next t) :
    t.streamWritten := by
  have hraise (v : State) (op : BitVec 8) (e : ErrCode) (hv : v.streamWritten) : (raiseError v op e).streamWritten := by
    intro k hk
    replace hk : k < v.cursor.toNat := hk
    rw [memByte_raiseError, outAddr_eq, outAddr_eq, if_neg (by omega)]
    exact outAddr_eq k ▸ hv k hk
  refine (step_keeps (fun u => u.params = s.params ∧ u.streamWritten) (fun i v w hv h => ?_)
    (fun v e hv _ => ⟨hv.1, hraise v _ e hv.2⟩) (fun v hv => hv) (fun v l hv => hv) (fun v op w hv h => ?_)
    (fun v hv => hv) s t ⟨rfl, hs⟩ h).2
  · obtain ⟨hparams, hwritten⟩ := hv
    obtain ⟨e, -, rfl⟩ | heffect := exec_cases h
    · exact ⟨hparams, hraise v _ e hwritten⟩
    · exact ⟨by rw [heffect.frame]; exact hparams, heffect.streamWritten (hparams ▸ hp) hwritten⟩
  · obtain ⟨hparams, hwritten⟩ := hv
    obtain ⟨-, rfl⟩ | hwrote := hostAccess_wrote h
    · exact ⟨hparams, nofun⟩
    · obtain ⟨a, vs, hmem⟩ := hwrote.mem
      rw [hwrote.frame, hmem]
      exact ⟨hparams, fun k hk => isSome_memByte_setBytes a vs (hwritten k hk)⟩

/-- The error record and GPAL_LEN stay in their ranges. -/
theorem step_keeps_session {s t : State} (hs : s.errRecordOk ∧ s.gpalBounded) (h : step s = .next t) :
    t.errRecordOk ∧ t.gpalBounded := by
  refine step_keeps (fun u => u.errRecordOk ∧ u.gpalBounded) (fun i v w hv h => ?_)
    (fun v e hv he => ⟨fun h0 => absurd h0 he, hv.2⟩) (fun v hv => hv) (fun v l hv => hv) (fun v op w hv h => ?_)
    (fun v hv => hv) s t hs h
  · obtain ⟨e, he, rfl⟩ | heffect := exec_cases h
    · exact ⟨fun h0 => absurd h0 he, hv.2⟩
    · exact ⟨heffect.errRecordOk hv.1, heffect.gpalBounded hv.2⟩
  · obtain ⟨-, rfl⟩ | hwrote := hostAccess_wrote h
    · exact ⟨fun _ => rfl, Nat.zero_le _⟩
    · rwa [hwrote.frame]

/-- Settles O57: each part of the invariant is kept by itself, the stream's with the parameters that bound it. -/
theorem stepKeepsTheInvariant : Obligations.StepKeepsTheInvariant := by
  rintro s t ⟨hp, hmem, hcursor, hstream, hhist, herr, hgpal⟩ h
  obtain ⟨hparams, hcursor'⟩ := stepKeepsCursorBounded s t hp hcursor h
  obtain ⟨herr', hgpal'⟩ := step_keeps_session ⟨herr, hgpal⟩ h
  exact ⟨hparams ▸ hp, stepKeepsMemoryCanonical s t hmem h, hcursor', step_keeps_streamWritten hp hstream h,
    stepKeepsHistogramCounts s t hhist h, herr', hgpal'⟩

/-- The parameters' defaults meet their constraints (00_scope.md R9). -/
theorem default_wf : Params.default.wf := by decide +kernel

/-- Settles O56: memory, the stream and the histogram are empty at reset, and the error record is clear. -/
theorem resetMeetsTheInvariant : Obligations.ResetMeetsTheInvariant :=
  ⟨default_wf, reset_mem_wf, Nat.zero_le _, nofun, histOk_nil (s := State.reset), fun _ => rfl, Nat.zero_le _⟩

end Sys2Proof.Machine
end

section
/-! The code sequence of an LZW pass (41_lzw.md R204, R206, R209). `LoopState` is what holds before every code the loop
emits: the codes assigned so far fit the current width, and the pending code is an index or one of them. Every code fits its
width by it; the clear codes are counted by the entries inserted since the last one. -/

namespace Sys2Proof.Machine

/-! ## The loop's invariant -/

/-- What holds at the head of `loopCodes`, with the entries `d`, the width `w` and the pending code `ent`. -/
structure LoopState (S : Nat) (d : Phrases) (w ent : Nat) : Prop where
  size : 2 ≤ S ∧ S ≤ 8
  free_le : freeCode S d ≤ codeLimit
  free_fits : freeCode S d ≤ 2 ^ w
  width : S + 1 ≤ w ∧ w ≤ maxCodeBits
  pending_code : ent < clearCode S ∨ (firstFree S ≤ ent ∧ ent < freeCode S d)

/-- A pair's code is the first free code of the time of its insertion (41_lzw.md R203). -/
theorem phraseCode_eq_some {S : Nat} {d : Phrases} {pre idx code : Nat} (h : phraseCode S d pre idx = some code) :
    ∃ k, code = firstFree S + k ∧ d[k]? = some (pre, idx) := by
  obtain ⟨k, hk, rfl⟩ := Option.map_eq_some_iff.mp h
  refine ⟨k, rfl, ?_⟩
  obtain ⟨hlt, heq, -⟩ := List.findIdx?_eq_some_iff_getElem.mp hk
  rw [List.getElem?_eq_getElem hlt]
  simpa using heq

theorem freeCode_nil (S : Nat) : freeCode S [] = firstFree S := rfl

theorem freeCode_concat (S : Nat) (d : Phrases) (e : Nat × Nat) : freeCode S (d ++ [e]) = freeCode S d + 1 := by
  simp [freeCode, Nat.add_assoc]

section Loop
variable {S w ent : Nat} {d : Phrases}

/-- The first state of the loop, and the one after each clear code. -/
theorem LoopState.start {c : Nat} (h2 : 2 ≤ S) (h8 : S ≤ 8) (hc : c < clearCode S) : LoopState S [] (S + 1) c := by
  have hlow : 2 ^ 2 ≤ 2 ^ S := Nat.pow_le_pow_right (by omega) h2
  have hhigh : 2 ^ S ≤ 2 ^ 8 := Nat.pow_le_pow_right (by omega) h8
  refine ⟨⟨h2, h8⟩, ?_, ?_, ⟨le_rfl, ?_⟩, .inl hc⟩
  · rw [freeCode_nil, firstFree, clearCode, codeLimit]; omega
  · rw [freeCode_nil, firstFree, clearCode, Nat.pow_succ]; omega
  · rw [maxCodeBits]; omega

variable (h : LoopState S d w ent)
include h

/-- The pending code is assigned and so fits the width. -/
theorem LoopState.pending_lt : ent < 2 ^ w := by
  have hfits := h.free_fits
  rw [freeCode, firstFree] at hfits
  obtain hindex | ⟨-, hassigned⟩ := h.pending_code
  · omega
  · exact hassigned.trans_le h.free_fits

theorem LoopState.pending_ne_clear : ent ≠ clearCode S := by
  have := h.pending_code
  rw [firstFree] at this
  omega

theorem LoopState.pending_ne_eoi : ent ≠ eoiCode S := by
  have := h.pending_code
  rw [firstFree] at this
  rw [eoiCode]
  omega

/-- The width after the next code is in range, and holds one more code where there is room for one. -/
theorem LoopState.grownWidth_spec :
    S + 1 ≤ grownWidth w (freeCode S d) ∧ grownWidth w (freeCode S d) ≤ maxCodeBits ∧
      freeCode S d ≤ 2 ^ grownWidth w (freeCode S d) ∧
      (freeCode S d < codeLimit → freeCode S d + 1 ≤ 2 ^ grownWidth w (freeCode S d)) := by
  obtain ⟨hlow, hhigh⟩ := h.width
  have hfits := h.free_fits
  have hsucc : 2 ^ (w + 1) = 2 * 2 ^ w := by rw [Nat.pow_succ]; omega
  have hlimit : 2 ^ maxCodeBits = codeLimit := rfl
  unfold grownWidth
  split
  · have hpos : 0 < 2 ^ w := Nat.two_pow_pos w
    omega
  · next hkeep =>
    refine ⟨hlow, hhigh, hfits, fun hroom => ?_⟩
    by_cases hw : w < maxCodeBits
    · omega
    · obtain rfl : w = maxCodeBits := by omega
      omega

/-- A code that stands for a longer run takes the pending code's place. -/
theorem LoopState.hit {idx code : Nat} (hfound : phraseCode S d ent idx = some code) : LoopState S d w code := by
  obtain ⟨k, rfl, hk⟩ := phraseCode_eq_some hfound
  have hlt : k < d.length := (List.getElem?_eq_some_iff.mp hk).1
  refine ⟨h.size, h.free_le, h.free_fits, h.width, .inr ⟨Nat.le_add_right _ _, ?_⟩⟩
  rw [freeCode]
  omega

/-- A pair is inserted where the code space has room. -/
theorem LoopState.insert {c : Nat} (hroom : freeCode S d < codeLimit) (hc : c < clearCode S) :
    LoopState S (d ++ [(ent, c)]) (grownWidth w (freeCode S d)) c := by
  obtain ⟨hlow, hhigh, -, hfits⟩ := h.grownWidth_spec
  exact ⟨h.size, freeCode_concat S d _ ▸ hroom, freeCode_concat S d _ ▸ hfits hroom, ⟨hlow, hhigh⟩, .inl hc⟩

/-- The clear and end codes are below the first free one, so they fit the width after the next code. -/
theorem LoopState.eoi_lt : clearCode S < eoiCode S ∧ eoiCode S < 2 ^ grownWidth w (freeCode S d) := by
  obtain ⟨-, -, hfits, -⟩ := h.grownWidth_spec
  have hfree : freeCode S d = eoiCode S + 1 + d.length := rfl
  rw [eoiCode] at *
  omega

end Loop

/-! ## The equations of the loop -/

section Equations
variable {S w ent : Nat} {d : Phrases} {c : Byte} {cs : List Byte}

theorem loopCodes_hit {code : Nat} (h : phraseCode S d ent c.toNat = some code) :
    loopCodes S d w ent (c :: cs) = loopCodes S d w code cs := by
  simp only [loopCodes, h]

theorem loopCodes_insert (h : phraseCode S d ent c.toNat = none) (hroom : freeCode S d < codeLimit) :
    loopCodes S d w ent (c :: cs) =
      (ent, w) :: loopCodes S (d ++ [(ent, c.toNat)]) (grownWidth w (freeCode S d)) c.toNat cs := by
  simp only [loopCodes, h, if_pos hroom]

theorem loopCodes_clear (h : phraseCode S d ent c.toNat = none) (hfull : ¬ freeCode S d < codeLimit) :
    loopCodes S d w ent (c :: cs) =
      (ent, w) :: (clearCode S, grownWidth w (freeCode S d)) :: loopCodes S [] (S + 1) c.toNat cs := by
  simp only [loopCodes, h, if_neg hfull]

end Equations

/-- The recursion of `loopCodes` with its invariant: a statement about the codes from a state on holds if it holds at the
end of the input and comes back from what a hit, an insertion and a clear leave. -/
theorem LoopState.induction {S : Nat} {P : Phrases → Nat → Nat → List Byte → Prop}
    (nil : ∀ {d w ent}, LoopState S d w ent → P d w ent [])
    (hit : ∀ {d w ent code} {c : Byte} {cs}, LoopState S d w ent → phraseCode S d ent c.toNat = some code →
      P d w code cs → P d w ent (c :: cs))
    (insert : ∀ {d w ent} {c : Byte} {cs}, LoopState S d w ent → phraseCode S d ent c.toNat = none →
      freeCode S d < codeLimit → c.toNat < clearCode S →
      P (d ++ [(ent, c.toNat)]) (grownWidth w (freeCode S d)) c.toNat cs → P d w ent (c :: cs))
    (clear : ∀ {d w ent} {c : Byte} {cs}, LoopState S d w ent → phraseCode S d ent c.toNat = none →
      freeCode S d = codeLimit → c.toNat < clearCode S → P [] (S + 1) c.toNat cs → P d w ent (c :: cs))
    {d : Phrases} {w ent : Nat} {cs : List Byte} (h : LoopState S d w ent) (hcs : ∀ c ∈ cs, c.toNat < clearCode S) :
    P d w ent cs := by
  induction cs generalizing d w ent with
  | nil => exact nil h
  | cons c cs ih =>
    obtain ⟨hc, hcs⟩ := List.forall_mem_cons.mp hcs
    cases hfound : phraseCode S d ent c.toNat with
    | some code => exact hit h hfound (ih (h.hit hfound) hcs)
    | none =>
      by_cases hroom : freeCode S d < codeLimit
      · exact insert h hfound hroom hc (ih (h.insert hroom hc) hcs)
      · exact clear h hfound (le_antisymm h.free_le (not_lt.mp hroom)) hc (ih (.start h.size.1 h.size.2 hc) hcs)

/-! ## The places of the clear and end codes -/

/-- The codes between two clear codes, with the first of them: 4096 - 2^S (41_lzw.md R209). -/
abbrev clearPeriod (S : Nat) : Nat := 4096 - 2 ^ S

/-- What LzwCodesFitTheirWidth says of the code `c` at the place `i` of `len` codes, the place being counted on from the
last clear code by `p`. -/
structure CodeAt (S : Nat) (p i len : Nat) (c : Nat × Nat) : Prop where
  fits : c.1 < 2 ^ c.2
  width : S + 1 ≤ c.2 ∧ c.2 ≤ maxCodeBits
  eoi : c.1 = eoiCode S ↔ i + 1 = len
  clear : c.1 = clearCode S ↔ p % clearPeriod S = 0 ∧ i + 1 < len

/-- A code one place later in a list one longer. -/
theorem CodeAt.cons {S p i len : Nat} {c : Nat × Nat} (h : CodeAt S p i len c) : CodeAt S p (i + 1) (len + 1) c :=
  ⟨h.fits, h.width, by rw [h.eoi]; omega, by rw [h.clear]; omega⟩

theorem loopCodes_length (S : Nat) (d : Phrases) (w ent : Nat) (cs : List Byte) :
    2 ≤ (loopCodes S d w ent cs).length := by
  induction cs generalizing d w ent with
  | nil => rfl
  | cons c cs ih =>
    cases hfound : phraseCode S d ent c.toNat with
    | some code => rw [loopCodes_hit hfound]; exact ih d w code
    | none =>
      by_cases hroom : freeCode S d < codeLimit
      · rw [loopCodes_insert hfound hroom]; exact (ih _ _ _).trans (Nat.le_succ _)
      · rw [loopCodes_clear hfound hroom]; simp

section Places
variable {S w ent : Nat} {d : Phrases} (h : LoopState S d w ent)
include h

/-- The entries inserted since the last clear code do not fill a period. -/
theorem LoopState.length_lt_clearPeriod : d.length + 1 < clearPeriod S := by
  have hfree := h.free_le
  rw [freeCode, firstFree, clearCode, codeLimit] at hfree
  rw [clearPeriod]
  omega

/-- The pending code is neither the clear nor the end code, and its place is no clear code's. -/
theorem LoopState.codeAt_pending {len : Nat} (hlen : 2 ≤ len) : CodeAt S (d.length + 1) 0 len (ent, w) := by
  have hplace : (d.length + 1) % clearPeriod S ≠ 0 := by
    rw [Nat.mod_eq_of_lt h.length_lt_clearPeriod]
    omega
  exact ⟨h.pending_lt, h.width, by simp [h.pending_ne_eoi]; omega, by simp [h.pending_ne_clear, hplace]⟩

theorem LoopState.codeAt_eoi (p : Nat) :
    CodeAt S p 1 2 (eoiCode S, grownWidth w (freeCode S d)) := by
  obtain ⟨hlow, hhigh, -⟩ := h.grownWidth_spec
  exact ⟨h.eoi_lt.2, ⟨hlow, hhigh⟩, by simp, by simp [h.eoi_lt.1.ne']⟩

/-- In a saturated code space the place after the pending code's is a multiple of the period. -/
theorem LoopState.codeAt_clear {len : Nat} (hfull : freeCode S d = codeLimit) (hlen : 2 < len) :
    CodeAt S (d.length + 2) 1 len (clearCode S, grownWidth w (freeCode S d)) := by
  obtain ⟨hlow, hhigh, -⟩ := h.grownWidth_spec
  have hperiod : d.length + 2 = clearPeriod S := by
    rw [freeCode, firstFree, clearCode, codeLimit] at hfull
    rw [clearPeriod]
    omega
  refine ⟨h.eoi_lt.1.trans h.eoi_lt.2, ⟨hlow, hhigh⟩, ?_, ?_⟩
  · have := h.eoi_lt.1
    simp only
    omega
  · simp [hperiod, hlen]

/-- Every code of the loop, counted from the last clear code. -/
theorem LoopState.codeAt_loopCodes {cs : List Byte} (hcs : ∀ c ∈ cs, c.toNat < clearCode S) :
    ∀ {i : Nat} {c : Nat × Nat}, (loopCodes S d w ent cs)[i]? = some c →
      CodeAt S (d.length + 1 + i) i (loopCodes S d w ent cs).length c := by
  refine h.induction (P := fun d w ent cs => ∀ {i : Nat} {c : Nat × Nat}, (loopCodes S d w ent cs)[i]? = some c →
    CodeAt S (d.length + 1 + i) i (loopCodes S d w ent cs).length c) ?_ ?_ ?_ ?_ hcs
  · intro d w ent h i c hi
    match i, hi with
    | 0, rfl => exact h.codeAt_pending le_rfl
    | 1, rfl => exact h.codeAt_eoi _
  · intro d w ent code c cs h hfound ih
    rwa [loopCodes_hit hfound]
  · intro d w ent c cs h hfound hroom hc ih i e hi
    rw [loopCodes_insert hfound hroom, List.length_cons] at *
    cases i with
    | zero =>
      obtain rfl := Option.some.inj hi
      exact h.codeAt_pending ((loopCodes_length _ _ _ _ _).trans (Nat.le_succ _))
    | succ i =>
      have hrest := (ih hi).cons
      rw [List.length_append, List.length_singleton] at hrest
      rwa [show d.length + 1 + (i + 1) = d.length + 1 + 1 + i by omega]
  · intro d w ent c cs h hfound hfull hc ih i e hi
    rw [loopCodes_clear hfound hfull.not_lt, List.length_cons, List.length_cons] at *
    have hlen := loopCodes_length S [] (S + 1) c.toNat cs
    match i, hi with
    | 0, rfl => exact h.codeAt_pending (by omega)
    | 1, rfl => exact h.codeAt_clear hfull (by omega)
    | i + 2, hi =>
      have hrest := (ih hi).cons.cons
      have hperiod : d.length + 1 + (i + 2) = ([] : Phrases).length + 1 + i + clearPeriod S := by
        have : d.length + 2 = clearPeriod S := by
          rw [freeCode, firstFree, clearCode, codeLimit] at hfull
          rw [clearPeriod]
          omega
        simp only [List.length_nil]
        omega
      refine ⟨hrest.fits, hrest.width, hrest.eoi, ?_⟩
      rw [hperiod, Nat.add_mod_right]
      exact hrest.clear

end Places

/-- Settles O22: the first code is a clear code, and the others are the loop's. -/
theorem lzwCodesFitTheirWidth : Obligations.LzwCodesFitTheirWidth := by
  intro S indices h2 h8 hne hall i c hi
  cases indices with
  | nil => exact absurd rfl hne
  | cons v vs =>
    obtain ⟨hv, hvs⟩ := List.forall_mem_cons.mp hall
    have hstart := LoopState.start h2 h8 hv
    suffices h : CodeAt S i i (lzwCodes S (v :: vs)).length c by
      exact ⟨h.fits, h.width.1, h.width.2, h.eoi, h.clear⟩
    rw [lzwCodes, List.length_cons] at *
    cases i with
    | zero =>
      obtain rfl := Option.some.inj hi
      have hlen := loopCodes_length S [] (S + 1) v.toNat vs
      have hlt : clearCode S < 2 ^ (S + 1) := by rw [clearCode, Nat.pow_succ]; have := Nat.two_pow_pos S; omega
      refine ⟨hlt, ⟨le_rfl, hstart.width.2⟩, ?_, ?_⟩
      · rw [eoiCode]; simp only; omega
      · simp; omega
    | succ i =>
      have hrest := (hstart.codeAt_loopCodes hvs hi).cons
      rwa [List.length_nil, Nat.zero_add, Nat.add_comm 1 i] at hrest

end Sys2Proof.Machine
end

section
/-! The bytes of an LZW pass (41_lzw.md R202, R205, R208). Three relations tie the byte machine to the code sequence:
`Staged` says that the bytes appended and the staging buffer hold some data bytes, `BitsHeld` that with the accumulator
they hold a bit string, and `Tracks` that the bit string is that of the codes emitted so far and the control registers and
the dictionary are those of a state of `loopCodes`. -/

namespace Sys2Proof.Machine

/-! ## Sub-blocks -/

/-- The bound on the number of sub-blocks changes nothing where it is large enough. -/
theorem subBlocks_congr_fuel {j k : Nat} {data : List Byte} (hj : data.length ≤ j) (hk : data.length ≤ k) :
    subBlocks j data = subBlocks k data := by
  induction j generalizing k data with
  | zero =>
    obtain rfl := List.eq_nil_of_length_eq_zero (Nat.le_zero.mp hj)
    cases k <;> rfl
  | succ j ih =>
    cases data with
    | nil => cases k <;> rfl
    | cons b bs =>
      cases k with
      | zero => simp at hk
      | succ k =>
        have hdrop : ((b :: bs).drop subblockMax).length ≤ bs.length := by simp [subblockMax]
        rw [List.length_cons] at hj hk
        rw [subBlocks, subBlocks, ih (k := k) (by omega) (by omega)]

/-- The sub-blocks of data bytes (41_lzw.md R208). -/
def blocks (data : List Byte) : List Byte := subBlocks data.length data

@[simp] theorem blocks_nil : blocks [] = [] := rfl

theorem blocks_of_ne_nil {data : List Byte} (h : data ≠ []) :
    blocks data =
      BitVec.ofNat 8 (data.take subblockMax).length ::
        (data.take subblockMax ++ blocks (data.drop subblockMax)) := by
  cases data with
  | nil => exact absurd rfl h
  | cons b bs =>
    have hdrop : ((b :: bs).drop subblockMax).length ≤ bs.length := by simp [subblockMax]
    rw [blocks, List.length_cons, subBlocks, if_neg h, blocks, subBlocks_congr_fuel hdrop le_rfl]

/-- A full sub-block is followed by the sub-blocks of the rest. -/
theorem blocks_append_of_full {full : List Byte} (h : full.length = subblockMax) (rest : List Byte) :
    blocks (full ++ rest) = BitVec.ofNat 8 full.length :: (full ++ blocks rest) := by
  have hne : full ++ rest ≠ [] := by
    apply List.append_ne_nil_of_left_ne_nil
    rintro rfl
    cases h
  rw [blocks_of_ne_nil hne, ← h, List.take_left, List.drop_left]

/-- Data that fits one sub-block. -/
theorem blocks_of_short {data : List Byte} (hne : data ≠ []) (h : data.length ≤ subblockMax) :
    blocks data = BitVec.ofNat 8 data.length :: data := by
  rw [blocks_of_ne_nil hne, List.take_of_length_le h, List.drop_of_length_le h, blocks_nil, List.append_nil]

/-! ## The staging buffer -/

/-- The bytes appended so far and the staging buffer hold the code size byte and `data`: whatever comes after, they make
the sub-blocks of all of it. -/
structure Staged (S : Nat) (z : LzwState) (data : List Byte) : Prop where
  short : z.stage.length < subblockMax
  blocks_eq : ∀ rest, z.out ++ blocks (z.stage ++ rest) = BitVec.ofNat 8 S :: blocks (data ++ rest)

theorem charOut_frame (z : LzwState) (b : Byte) :
    charOut z b = { z with stage := (charOut z b).stage, out := (charOut z b).out } := by
  simp only [charOut, flushBlock]
  split
  · split <;> rfl
  · rfl

/-- CharOut adds its byte to the data, whether it fills a sub-block or not. -/
theorem Staged.after_charOut {S : Nat} {z : LzwState} {data : List Byte} (h : Staged S z data) (b : Byte) :
    Staged S (charOut z b) (data ++ [b]) := by
  have hcons (rest : List Byte) : z.out ++ blocks (z.stage ++ [b] ++ rest) =
      BitVec.ofNat 8 S :: blocks (data ++ [b] ++ rest) := by
    simpa using h.blocks_eq (b :: rest)
  have hlen : (z.stage ++ [b]).length = z.stage.length + 1 := by simp
  have hshort := h.short
  by_cases hfull : (z.stage ++ [b]).length ≥ subblockMax
  · have heq : (z.stage ++ [b]).length = subblockMax := by omega
    have hout : charOut z b =
        { z with out := z.out ++ BitVec.ofNat 8 (z.stage ++ [b]).length :: (z.stage ++ [b]), stage := [] } := by
      simp only [charOut, if_pos hfull, flushBlock, if_pos (show (z.stage ++ [b]).length > 0 by omega)]
    rw [hout]
    refine ⟨Nat.zero_lt_succ _, fun rest => ?_⟩
    rw [← hcons rest, blocks_append_of_full heq]
    simp
  · have hout : charOut z b = { z with stage := z.stage ++ [b] } := by
      simp only [charOut, if_neg hfull]
    rw [hout]
    exact ⟨not_le.mp hfull, hcons⟩

/-- FlushBlock completes the sub-blocks. -/
theorem Staged.flushBlock_out {S : Nat} {z : LzwState} {data : List Byte} (h : Staged S z data) :
    (flushBlock z).out = BitVec.ofNat 8 S :: blocks data := by
  have hend := h.blocks_eq []
  rw [List.append_nil, List.append_nil] at hend
  rw [← hend, flushBlock]
  split
  · next hpos => rw [blocks_of_short (List.ne_nil_of_length_pos hpos) h.short.le]
  · next hpos =>
    have hnil : z.stage = [] := List.eq_nil_of_length_eq_zero (by omega)
    rw [hnil, blocks_nil, List.append_nil]

/-! ## The accumulator -/

/-- The `n` lowest bytes of a number. -/
def lowBytes (n v : Nat) : List Byte := (List.range n).map fun i => BitVec.ofNat 8 (v >>> (8 * i))

theorem lowBytes_succ (n v : Nat) : lowBytes (n + 1) v = lowBytes n v ++ [BitVec.ofNat 8 (v >>> (8 * n))] := by
  simp [lowBytes, List.range_succ]

/-- Bits above the low bytes do not show in them. -/
theorem lowBytes_add {n len : Nat} (v code : Nat) (h : 8 * n ≤ len) : lowBytes n (v + 2 ^ len * code) = lowBytes n v := by
  apply List.map_congr_left
  intro i hi
  have hi : 8 * i + 8 ≤ len := by have := List.mem_range.mp hi; omega
  apply BitVec.eq_of_toNat_eq
  rw [BitVec.toNat_ofNat, BitVec.toNat_ofNat, Nat.shiftRight_eq_div_pow, Nat.shiftRight_eq_div_pow]
  have hsplit : 2 ^ len * code = 2 ^ (8 * i) * (2 ^ 8 * (2 ^ (len - (8 * i + 8)) * code)) := by
    rw [← Nat.mul_assoc, ← Nat.mul_assoc, ← Nat.pow_add, ← Nat.pow_add]
    congr 2
    omega
  rw [hsplit, Nat.add_mul_div_left _ _ (Nat.two_pow_pos _), Nat.add_mul_mod_self_left]

/-- The machine holds the bit string of length `len` whose number is `v`: whole bytes as data, the rest in the
accumulator. -/
def BitsHeld (S : Nat) (z : LzwState) (v len : Nat) : Prop :=
  ∃ n, Staged S z (lowBytes n v) ∧ len = 8 * n + z.accbits ∧ z.acc = v >>> (8 * n)

/-- The control registers are no part of the bits held. -/
theorem BitsHeld.congr {S v len : Nat} {z z' : LzwState} (h : BitsHeld S z v len) (hacc : z'.acc = z.acc)
    (haccbits : z'.accbits = z.accbits) (hstage : z'.stage = z.stage) (hout : z'.out = z.out) :
    BitsHeld S z' v len := by
  obtain ⟨n, hstaged, hlen, hvalue⟩ := h
  refine ⟨n, ⟨hstage ▸ hstaged.short, ?_⟩, haccbits ▸ hlen, hacc ▸ hvalue⟩
  rw [hstage, hout]
  exact hstaged.blocks_eq

theorem drainBytes_frame (k : Nat) (z : LzwState) :
    drainBytes k z = { z with
      acc := (drainBytes k z).acc, accbits := (drainBytes k z).accbits
      stage := (drainBytes k z).stage, out := (drainBytes k z).out } := by
  induction k generalizing z with
  | zero => rfl
  | succ k ih =>
    simp only [drainBytes]
    split
    · rw [ih, charOut_frame]
    · rfl

/-- Draining moves whole bytes from the accumulator to the data and leaves less than one. -/
theorem BitsHeld.after_drain {S v len k : Nat} {z : LzwState} (h : BitsHeld S z v len) (hk : z.accbits ≤ k) :
    BitsHeld S (drainBytes k z) v len ∧ (drainBytes k z).accbits < 8 := by
  induction k generalizing z with
  | zero => exact ⟨h, by rw [drainBytes]; omega⟩
  | succ k ih =>
    simp only [drainBytes]
    split
    · next hbyte =>
      obtain ⟨n, hstaged, hlen, hacc⟩ := h
      refine ih ⟨n + 1, ?_, by simp only; omega, ?_⟩ (by simp only; omega)
      · rw [lowBytes_succ, ← hacc]
        obtain ⟨hshort, heq⟩ := hstaged.after_charOut (BitVec.ofNat 8 z.acc)
        exact ⟨hshort, heq⟩
      · simp only
        rw [hacc, ← Nat.shiftRight_add, Nat.mul_succ]
    · next hbyte => exact ⟨h, by omega⟩

/-- Packing a code adds it above the bits held (41_lzw.md R205). -/
theorem BitsHeld.after_pack {S v len : Nat} {z : LzwState} (h : BitsHeld S z v len) (code : Nat) :
    BitsHeld S (packCode z code) (v + 2 ^ len * code) (len + z.nbits) ∧ (packCode z code).accbits < 8 := by
  obtain ⟨n, hstaged, hlen, hacc⟩ := h
  refine BitsHeld.after_drain ⟨n, ?_, by simp only; omega, ?_⟩ le_rfl
  · rw [lowBytes_add v code (by omega)]
    exact ⟨hstaged.short, hstaged.blocks_eq⟩
  · simp only
    rw [hacc, hlen, Nat.shiftRight_eq_div_pow, Nat.shiftRight_eq_div_pow, Nat.pow_add, Nat.mul_assoc,
      Nat.add_mul_div_left _ _ (Nat.two_pow_pos _), Nat.mul_comm code]

theorem packCode_frame (z : LzwState) (code : Nat) :
    packCode z code = { z with
      acc := (packCode z code).acc, accbits := (packCode z code).accbits
      stage := (packCode z code).stage, out := (packCode z code).out } := by
  rw [packCode, drainBytes_frame]

@[simp] theorem packCode_free (z : LzwState) (code : Nat) : (packCode z code).free = z.free := by rw [packCode_frame]

@[simp] theorem packCode_nbits (z : LzwState) (code : Nat) : (packCode z code).nbits = z.nbits := by rw [packCode_frame]

@[simp] theorem packCode_maxcode (z : LzwState) (code : Nat) : (packCode z code).maxcode = z.maxcode := by
  rw [packCode_frame]

@[simp] theorem packCode_clearFlg (z : LzwState) (code : Nat) : (packCode z code).clearFlg = z.clearFlg := by
  rw [packCode_frame]

@[simp] theorem packCode_dict (z : LzwState) (code : Nat) : (packCode z code).dict = z.dict := by rw [packCode_frame]

/-- The flush after the last code pads the bit string to whole bytes and completes the sub-blocks. -/
theorem BitsHeld.flushBits_out {S v len : Nat} {z : LzwState} (h : BitsHeld S z v len) (hshort : z.accbits < 8) :
    (flushBits z).out = BitVec.ofNat 8 S :: blocks (lowBytes ((len + 7) / 8) v) := by
  obtain ⟨n, hstaged, hlen, hacc⟩ := h
  apply Staged.flushBlock_out
  split
  · have hbytes : (len + 7) / 8 = n + 1 := by omega
    rw [hbytes, lowBytes_succ, ← hacc]
    obtain ⟨hlt, heq⟩ := hstaged.after_charOut (BitVec.ofNat 8 z.acc)
    exact ⟨hlt, heq⟩
  · have hbytes : (len + 7) / 8 = n := by omega
    rwa [hbytes]

/-! ## Packed codes -/

theorem packLength_append (cs ds : List (Nat × Nat)) : packLength (cs ++ ds) = packLength cs + packLength ds := by
  simp [packLength]

theorem packValue_append (cs ds : List (Nat × Nat)) :
    packValue (cs ++ ds) = packValue cs + 2 ^ packLength cs * packValue ds := by
  induction cs with
  | nil => simp [packValue, packLength]
  | cons c cs ih =>
    have hlen : packLength (c :: cs) = c.2 + packLength cs := rfl
    rw [List.cons_append, packValue, packValue, ih, hlen, Nat.pow_add]
    ring

theorem packBytes_eq_lowBytes (cs : List (Nat × Nat)) : packBytes cs = lowBytes ((packLength cs + 7) / 8) (packValue cs) :=
  rfl

/-! ## The byte machine and the code sequence -/

/-- The greatest number `free` may reach before the width `w` grows (41_lzw.md R206). -/
def widthLimit (w : Nat) : Nat := if w = maxCodeBits then codeLimit else 2 ^ w - 1

/-- The machine has emitted `codes` and is in the state of `loopCodes` with entries `d` and width `w`. -/
structure Tracks (S : Nat) (z : LzwState) (codes : List (Nat × Nat)) (d : Phrases) (w : Nat) : Prop where
  bits : BitsHeld S z (packValue codes) (packLength codes)
  short : z.accbits < 8
  free : z.free = freeCode S d
  nbits : z.nbits = w
  maxcode : z.maxcode = widthLimit w
  clearFlg : z.clearFlg = false
  dict : ∀ pre idx, dictFind z.dict pre idx = phraseCode S d pre idx

theorem adjustWidth_frame (S : Nat) (z : LzwState) :
    adjustWidth S z = { z with
      nbits := (adjustWidth S z).nbits, maxcode := (adjustWidth S z).maxcode
      clearFlg := (adjustWidth S z).clearFlg } := by
  unfold adjustWidth
  split
  · split <;> rfl
  · rfl

/-- The width grows as the code sequence says (41_lzw.md R206). -/
theorem adjustWidth_of_tracking {S : Nat} {z : LzwState} (hmax : z.maxcode = widthLimit z.nbits)
    (hclear : z.clearFlg = false) (hbits : z.nbits ≤ maxCodeBits) (hfree : z.free ≤ codeLimit) :
    adjustWidth S z = { z with nbits := grownWidth z.nbits z.free, maxcode := widthLimit (grownWidth z.nbits z.free) } := by
  have hpos : 0 < 2 ^ z.nbits := Nat.two_pow_pos _
  by_cases hgrow : z.nbits < maxCodeBits ∧ 2 ^ z.nbits ≤ z.free
  · have hover : z.free > z.maxcode := by
      rw [hmax, widthLimit, if_neg (by omega)]
      omega
    rw [adjustWidth, if_pos (.inl hover), if_neg (by simp [hclear]), grownWidth, if_pos hgrow]
    rfl
  · have hkeep : ¬ (z.free > z.maxcode ∨ z.clearFlg = true) := by
      rw [hclear, hmax, widthLimit]
      split <;> simp only [Bool.false_eq_true, or_false] <;> omega
    rw [adjustWidth, if_neg hkeep, grownWidth, if_neg hgrow, ← hmax]

section Tracking
variable {S w ent code : Nat} {z : LzwState} {codes : List (Nat × Nat)} {d : Phrases}

/-- Every code but the last is packed, and then the width is adjusted. -/
theorem outputCode_of_ne_eoi (hcode : code ≠ eoiCode S) : outputCode S z code = adjustWidth S (packCode z code) :=
  if_neg hcode

/-- The last code is packed, and the bits are flushed after it. -/
theorem outputCode_eoi : outputCode S z (eoiCode S) = flushBits (adjustWidth S (packCode z (eoiCode S))) :=
  if_pos rfl

/-- One more code's bits, whatever the control registers are afterwards. -/
theorem BitsHeld.after_code (h : BitsHeld S z (packValue codes) (packLength codes)) (hw : z.nbits = w) :
    BitsHeld S (adjustWidth S (packCode z code)) (packValue (codes ++ [(code, w)])) (packLength (codes ++ [(code, w)])) ∧
      (adjustWidth S (packCode z code)).accbits < 8 := by
  obtain ⟨hbits, hshort⟩ := h.after_pack code
  have hvalue : packValue codes + 2 ^ packLength codes * code = packValue (codes ++ [(code, w)]) := by
    rw [packValue_append]
    simp [packValue]
  have hlength : packLength codes + z.nbits = packLength (codes ++ [(code, w)]) := by
    rw [packLength_append, hw]
    simp [packLength]
  rw [hvalue, hlength] at hbits
  rw [adjustWidth_frame]
  exact ⟨hbits.congr rfl rfl rfl rfl, hshort⟩

/-- A code before the last leaves the state it is emitted in but for the width. -/
theorem Tracks.after_code (h : Tracks S z codes d w) (hw : w ≤ maxCodeBits) (hfree : freeCode S d ≤ codeLimit)
    (hcode : code ≠ eoiCode S) :
    Tracks S (outputCode S z code) (codes ++ [(code, w)]) d (grownWidth w (freeCode S d)) := by
  obtain ⟨hbits, hshort⟩ := h.bits.after_code (code := code) h.nbits
  have hadjusted : adjustWidth S (packCode z code) = { packCode z code with
      nbits := grownWidth w (freeCode S d), maxcode := widthLimit (grownWidth w (freeCode S d)) } := by
    rw [adjustWidth_of_tracking] <;> simp [h.nbits, h.free, h.maxcode, h.clearFlg, hw, hfree]
  rw [outputCode_of_ne_eoi hcode]
  refine ⟨hbits, hshort, ?_, ?_, ?_, ?_, ?_⟩ <;> rw [hadjusted]
  · exact (packCode_free z code).trans h.free
  · exact (packCode_clearFlg z code).trans h.clearFlg
  · simp only [packCode_dict]
    exact h.dict

/-- A pair that was not inserted before gets the first free code, and the others keep theirs. -/
theorem phraseCode_concat {idx : Nat} (hnew : phraseCode S d ent idx = none) (pre c : Nat) :
    phraseCode S (d ++ [(ent, idx)]) pre c =
      if (ent, idx) = (pre, c) then some (freeCode S d) else phraseCode S d pre c := by
  have hnew : d.idxOf? (ent, idx) = none := Option.map_eq_none_iff.mp hnew
  have happend : (d ++ [(ent, idx)]).idxOf? (pre, c) =
      (d.idxOf? (pre, c)).or (if (ent, idx) = (pre, c) then some d.length else none) := by
    rw [List.idxOf?, List.findIdx?_append]
    congr 1
    by_cases heq : (ent, idx) = (pre, c)
    · simp [heq]
    · simp [List.findIdx?_cons, heq]
  rw [phraseCode, phraseCode, happend]
  split
  · next heq =>
    rw [← heq, hnew]
    rfl
  · rw [Option.or_none]

/-- A dictionary miss with room in the code space (41_lzw.md R202). -/
theorem Tracks.after_insert {c : Nat} (h : Tracks S z codes d w) (hs : LoopState S d w ent)
    (hnew : phraseCode S d ent c = none) (hroom : freeCode S d < codeLimit) :
    Tracks S (lzwMiss S z ent c) (codes ++ [(ent, w)]) (d ++ [(ent, c)]) (grownWidth w (freeCode S d)) := by
  have hout := h.after_code hs.width.2 hs.free_le hs.pending_ne_eoi
  simp only [lzwMiss, hout.free, if_pos hroom]
  refine ⟨hout.bits.congr rfl rfl rfl rfl, hout.short, (freeCode_concat S d _).symm, hout.nbits, hout.maxcode,
    hout.clearFlg, fun pre idx => ?_⟩
  rw [phraseCode_concat hnew, ← hout.dict]
  rfl

/-- The clear code of a saturated code space, after which the loop starts again (41_lzw.md R209). -/
theorem Tracks.after_clear (h : Tracks S z codes d w) (hS : S + 1 < maxCodeBits) :
    Tracks S (outputCode S { z with dict := [], free := firstFree S, clearFlg := true } (clearCode S))
      (codes ++ [(clearCode S, w)]) [] (S + 1) := by
  have hcleared : BitsHeld S { z with dict := [], free := firstFree S, clearFlg := true }
      (packValue codes) (packLength codes) := h.bits.congr rfl rfl rfl rfl
  obtain ⟨hbits, hshort⟩ := hcleared.after_code (code := clearCode S) h.nbits
  have hadjusted (y : LzwState) (hy : y.clearFlg = true) :
      adjustWidth S y = { y with nbits := S + 1, maxcode := 2 ^ (S + 1) - 1, clearFlg := false } := by
    rw [adjustWidth, if_pos (.inr hy), if_pos hy]
  rw [outputCode_of_ne_eoi (Nat.lt_succ_self _).ne]
  refine ⟨hbits, hshort, ?_, ?_, ?_, ?_, ?_⟩ <;> rw [hadjusted _ (by simp)]
  · simp [freeCode_nil]
  · rw [widthLimit, if_neg hS.ne]
  · simp only [packCode_dict]
    exact fun _ _ => rfl

end Tracking

/-! ## The loop -/

/-- What LzwEncode does after its loop: the last pending code, the end code, the terminator. -/
def finishEncode (S : Nat) (e : LzwState × Nat) : List Byte :=
  (outputCode S (outputCode S e.1 e.2) (eoiCode S)).out ++ [0]

/-- The bytes of a bit string of codes. -/
def codeBytes (S : Nat) (codes : List (Nat × Nat)) : List Byte :=
  BitVec.ofNat 8 S :: (blocks (packBytes codes) ++ [0])

/-- The loop of the byte machine emits the codes of `loopCodes`. -/
theorem LoopState.finishEncode_lzwLoop {S w ent : Nat} {d : Phrases} {cs : List Byte} (hs : LoopState S d w ent)
    (hcs : ∀ c ∈ cs, c.toNat < clearCode S) :
    ∀ {z : LzwState} {codes : List (Nat × Nat)}, Tracks S z codes d w →
      finishEncode S (lzwLoop S z ent cs) = codeBytes S (codes ++ loopCodes S d w ent cs) := by
  refine hs.induction (P := fun d w ent cs => ∀ {z : LzwState} {codes : List (Nat × Nat)}, Tracks S z codes d w →
      finishEncode S (lzwLoop S z ent cs) = codeBytes S (codes ++ loopCodes S d w ent cs)) ?_ ?_ ?_ ?_ hcs
  · intro d w ent hs z codes h
    have hout := h.after_code hs.width.2 hs.free_le hs.pending_ne_eoi
    obtain ⟨hbits, hshort⟩ := hout.bits.after_code (code := eoiCode S) hout.nbits
    rw [lzwLoop, finishEncode, outputCode_eoi, hbits.flushBits_out hshort, codeBytes, loopCodes, packBytes_eq_lowBytes,
      List.append_assoc]
    rfl
  · intro d w ent code c cs hs hfound ih z codes h
    rw [lzwLoop, h.dict, hfound, loopCodes_hit hfound]
    exact ih h
  · intro d w ent c cs hs hnew hroom hc ih z codes h
    rw [lzwLoop, h.dict, hnew, loopCodes_insert hnew hroom, List.append_cons codes]
    exact ih (h.after_insert hs hnew hroom)
  · intro d w ent c cs hs hnew hfull hc ih z codes h
    have hout := h.after_code hs.width.2 hs.free_le hs.pending_ne_eoi
    have hmiss : lzwMiss S z ent c.toNat =
        outputCode S { outputCode S z ent with dict := [], free := firstFree S, clearFlg := true } (clearCode S) := by
      simp only [lzwMiss, hout.free, if_neg hfull.not_lt]
    have hS : S + 1 < maxCodeBits := by have := hs.size; rw [maxCodeBits]; omega
    rw [lzwLoop, h.dict, hnew, hmiss, loopCodes_clear hnew hfull.not_lt, List.append_cons codes,
      List.append_cons (codes ++ _)]
    exact ih (hout.after_clear hS)

/-- The machine after the first clear code (41_lzw.md R202). -/
theorem tracks_start {S : Nat} (h2 : 2 ≤ S) (h8 : S ≤ 8) :
    Tracks S (outputCode S (lzwInit S) (clearCode S)) [(clearCode S, S + 1)] [] (S + 1) := by
  have hstart := LoopState.start h2 h8 (Nat.two_pow_pos S)
  have hinit : Tracks S (lzwInit S) [] [] (S + 1) := by
    refine ⟨⟨0, ⟨Nat.zero_lt_succ _, fun rest => rfl⟩, rfl, rfl⟩, Nat.zero_lt_succ _, rfl, rfl, ?_, rfl, fun _ _ => rfl⟩
    rw [widthLimit, if_neg (by rw [maxCodeBits]; omega)]
    rfl
  have hkeep : grownWidth (S + 1) (freeCode S []) = S + 1 := by
    have hpow : 2 ^ 2 ≤ 2 ^ S := Nat.pow_le_pow_right (by omega) h2
    rw [grownWidth, if_neg]
    rw [freeCode_nil, firstFree, clearCode, Nat.pow_succ]
    omega
  have hclear := hinit.after_code hstart.width.2 hstart.free_le (Nat.lt_succ_self (clearCode S)).ne
  rwa [hkeep] at hclear

theorem lzwEncode_eq_codeBytes {S : Nat} {c : Byte} {cs : List Byte} (h2 : 2 ≤ S) (h8 : S ≤ 8)
    (hall : ∀ v ∈ c :: cs, v.toNat < 2 ^ S) : lzwEncode S (c :: cs) = codeBytes S (lzwCodes S (c :: cs)) := by
  obtain ⟨hc, hcs⟩ := List.forall_mem_cons.mp hall
  exact (LoopState.start h2 h8 hc).finishEncode_lzwLoop hcs (tracks_start h2 h8)

/-- Settles O21: the machine's loop tracks the code sequence to its end, where the bits held are flushed as sub-blocks. -/
theorem lzwBytesAreThePackedCodes : Obligations.LzwBytesAreThePackedCodes :=
  fun _ _ _ h2 h8 hall => lzwEncode_eq_codeBytes h2 h8 hall

end Sys2Proof.Machine
end

section
/-! The LZW decoder gives back the indices (41_lzw.md R211). Three layers are undone one after the other: the sub-blocks
(`joinBlocks_blocks`), the packing (`bytesValue_packBytes` and the equations of `decodeBits`), and the codes. For the last
the decoder's table follows the encoder's dictionary one entry behind (`Synced`), until the next code's string completes
it. -/

namespace Sys2Proof.Machine

/-! ## Sub-blocks -/

/-- Joining undoes the cutting into sub-blocks, with the terminator after them. -/
theorem joinBlocks_blocks {data : List Byte} {k : Nat} (hk : (blocks data).length < k) :
    joinBlocks k (blocks data ++ [0]) = some data := by
  induction k generalizing data with
  | zero => omega
  | succ k ih =>
    by_cases hne : data = []
    · subst hne
      rfl
    · have hpos : 0 < (data.take subblockMax).length := by
        rw [List.length_take, subblockMax]
        have := List.length_pos_of_ne_nil hne
        omega
      have hbyte : (data.take subblockMax).length < 2 ^ 8 := by
        rw [List.length_take, subblockMax]
        omega
      have hlen : (BitVec.ofNat 8 (data.take subblockMax).length).toNat = (data.take subblockMax).length := by
        rw [BitVec.toNat_ofNat, Nat.mod_eq_of_lt hbyte]
      have hnz : BitVec.ofNat 8 (data.take subblockMax).length ≠ 0 := by
        intro h
        rw [h] at hlen
        have hzero : (0 : Byte).toNat = 0 := rfl
        omega
      rw [blocks_of_ne_nil hne] at hk ⊢
      rw [List.length_cons, List.length_append] at hk
      rw [List.cons_append, List.append_assoc, joinBlocks, if_neg hnz, hlen,
        if_neg (by rw [List.length_append]; omega), List.take_left, List.drop_left, ih (by omega), Option.map_some,
        List.take_append_drop]

/-! ## Packing -/

theorem bytesValue_lowBytes {n v : Nat} (h : v < 2 ^ (8 * n)) : bytesValue (lowBytes n v) = v := by
  induction n generalizing v with
  | zero => simp_all [lowBytes, bytesValue]
  | succ n ih =>
    have hcons : lowBytes (n + 1) v = BitVec.ofNat 8 v :: lowBytes n (v >>> 8) := by
      simp only [lowBytes, List.range_succ_eq_map, List.map_cons, List.map_map]
      congr 1
      apply List.map_congr_left
      intro i _
      simp only [Function.comp, Nat.succ_eq_add_one]
      rw [← Nat.shiftRight_add, Nat.mul_add, Nat.add_comm (8 * i)]
    have hrest : v >>> 8 < 2 ^ (8 * n) := by
      rw [Nat.shiftRight_eq_div_pow]
      refine Nat.div_lt_of_lt_mul ?_
      rwa [← Nat.pow_add, Nat.add_comm]
    rw [hcons, bytesValue, ih hrest, BitVec.toNat_ofNat, Nat.shiftRight_eq_div_pow]
    exact Nat.mod_add_div v (2 ^ 8)

/-- Codes that fit their widths make a number of the bit string's length. -/
theorem packValue_lt {cs : List (Nat × Nat)} (h : ∀ c ∈ cs, c.1 < 2 ^ c.2) : packValue cs < 2 ^ packLength cs := by
  induction cs with
  | nil => exact Nat.one_pos
  | cons c cs ih =>
    obtain ⟨hc, hcs⟩ := List.forall_mem_cons.mp h
    have hlen : packLength (c :: cs) = c.2 + packLength cs := rfl
    rw [packValue, hlen, Nat.pow_add]
    calc c.1 + 2 ^ c.2 * packValue cs < 2 ^ c.2 * (packValue cs + 1) := by rw [Nat.mul_succ]; omega
      _ ≤ 2 ^ c.2 * 2 ^ packLength cs := Nat.mul_le_mul_left _ (ih hcs)

theorem packBytes_length (cs : List (Nat × Nat)) : (packBytes cs).length = (packLength cs + 7) / 8 := by
  simp [packBytes]

theorem bytesValue_packBytes {cs : List (Nat × Nat)} (h : ∀ c ∈ cs, c.1 < 2 ^ c.2) :
    bytesValue (packBytes cs) = packValue cs := by
  rw [packBytes_eq_lowBytes]
  refine bytesValue_lowBytes ((packValue_lt h).trans_le (Nat.pow_le_pow_right Nat.two_pos ?_))
  omega

section Reading
variable {S k w left code : Nat} {table : List (List Byte)} {prev : Option (List Byte)} {rest : List (Nat × Nat)}
  (hfits : code < 2 ^ w)
include hfits

/-- The lowest bits are the first code. -/
theorem packValue_cons_mod : packValue ((code, w) :: rest) % 2 ^ w = code := by
  rw [packValue, Nat.add_mul_mod_self_left, Nat.mod_eq_of_lt hfits]

/-- The bits above the first code are those of the others. -/
theorem packValue_cons_shift : packValue ((code, w) :: rest) >>> w = packValue rest := by
  rw [packValue, Nat.shiftRight_eq_div_pow, Nat.add_mul_div_left _ _ (Nat.two_pow_pos w), Nat.div_eq_of_lt hfits,
    Nat.zero_add]

variable (hleft : w ≤ left)
include hleft

theorem decodeBits_eoi (heoi : code = eoiCode S) :
    decodeBits S (k + 1) w table prev (packValue ((code, w) :: rest)) left = some [] := by
  rw [decodeBits, if_neg hleft.not_gt]
  simp only [packValue_cons_mod hfits, if_pos heoi]

theorem decodeBits_clear (hclear : code = clearCode S) :
    decodeBits S (k + 1) w table prev (packValue ((code, w) :: rest)) left =
      decodeBits S k (S + 1) [] none (packValue rest) (left - w) := by
  have hne : code ≠ eoiCode S := hclear ▸ (Nat.lt_succ_self _).ne
  rw [decodeBits, if_neg hleft.not_gt]
  simp only [packValue_cons_mod hfits, if_neg hne, if_pos hclear, packValue_cons_shift hfits]

/-- A code that stands for a string extends the table and gives the string. -/
theorem decodeBits_string {e : List Byte} (hne : code ≠ eoiCode S) (hnc : code ≠ clearCode S)
    (hentry : decodeEntry S table prev code = some e) :
    decodeBits S (k + 1) w table prev (packValue ((code, w) :: rest)) left =
      (decodeBits S k (decodeWidth S w (growTable S table prev e)) (growTable S table prev e) (some e)
        (packValue rest) (left - w)).map (e ++ ·) := by
  rw [decodeBits, if_neg hleft.not_gt]
  simp only [packValue_cons_mod hfits, if_neg hne, if_neg hnc, hentry, packValue_cons_shift hfits]

end Reading

/-! ## The table -/

section Table
variable {S code : Nat} {T : List (List Byte)} {e : List Byte}

theorem decodeEntry_index (table : List (List Byte)) (prev : Option (List Byte)) (h : code < clearCode S) :
    decodeEntry S table prev code = some [BitVec.ofNat 8 code] := if_pos h

/-- An assigned code stands for the entry at its place. -/
theorem decodeEntry_assigned (T : List (List Byte)) (k : Nat) : decodeEntry S T none (firstFree S + k) = T[k]? := by
  have hclear : ¬ firstFree S + k < clearCode S := by rw [firstFree]; omega
  rw [decodeEntry, if_neg hclear, if_neg (by omega), Nat.add_sub_cancel_left]
  cases T[k]? with
  | none => simp
  | some e => rfl

/-- A code with a string is an index or an assigned code. -/
theorem decodeEntry_cases (h : decodeEntry S T none code = some e) :
    (code < clearCode S ∧ e = [BitVec.ofNat 8 code]) ∨ ∃ k, code = firstFree S + k ∧ T[k]? = some e := by
  by_cases hindex : code < clearCode S
  · rw [decodeEntry_index _ _ hindex] at h
    exact .inl ⟨hindex, (Option.some.inj h).symm⟩
  · by_cases hcontrol : code < firstFree S
    · rw [decodeEntry, if_neg hindex, if_pos hcontrol] at h
      cases h
    · obtain ⟨k, rfl⟩ := Nat.exists_eq_add_of_le (not_lt.mp hcontrol)
      exact .inr ⟨k, rfl, decodeEntry_assigned T k ▸ h⟩

/-- More entries change no string. -/
theorem decodeEntry_append (h : decodeEntry S T none code = some e) (more : List (List Byte)) :
    decodeEntry S (T ++ more) none code = some e := by
  obtain ⟨hindex, rfl⟩ | ⟨k, rfl, hk⟩ := decodeEntry_cases h
  · exact decodeEntry_index _ _ hindex
  · rw [decodeEntry_assigned, List.getElem?_append_left (List.getElem?_eq_some_iff.mp hk).1, hk]

end Table

/-- The decoder, with `table` and the last string `prev`, follows the encoder, whose entries `d` stand for the strings `T`
and whose pending code `ent` stands for `e`: right after a clear code the tables agree, and otherwise the encoder's last
entry is `prev` with the first index of `e`, which the decoder adds when it reads `ent`. -/
structure Synced (S : Nat) (d : Phrases) (T : List (List Byte)) (ent : Nat) (e : List Byte) (table : List (List Byte))
    (prev : Option (List Byte)) : Prop where
  length_eq : T.length = d.length
  entries : ∀ k pre idx : Nat, d[k]? = some (pre, idx) →
    ∃ f, decodeEntry S T none pre = some f ∧ T[k]? = some (f ++ [BitVec.ofNat 8 idx])
  current : decodeEntry S T none ent = some e
  ne_nil : e ≠ []
  lag : (prev = none ∧ table = T) ∨ ∃ p, prev = some p ∧ p ≠ [] ∧ T = table ++ [p ++ e.take 1]

theorem take_one_append {α : Type} {l : List α} (h : l ≠ []) (l' : List α) : (l ++ l').take 1 = l.take 1 := by
  cases l with
  | nil => exact absurd rfl h
  | cons a l => rfl

theorem Synced.start {S : Nat} {c : Byte} (hc : c.toNat < clearCode S) : Synced S [] [] c.toNat [c] [] none := by
  refine ⟨rfl, nofun, ?_, List.cons_ne_nil _ _, .inl ⟨rfl, rfl⟩⟩
  rw [decodeEntry_index _ _ hc]
  simp

section Sync
variable {S ent : Nat} {d : Phrases} {T table : List (List Byte)} {e : List Byte} {prev : Option (List Byte)} {c : Byte}
  (h : Synced S d T ent e table prev)
include h

/-- A hit lengthens the encoder's string by the index read. -/
theorem Synced.hit {code : Nat} (hfound : phraseCode S d ent c.toNat = some code) :
    Synced S d T code (e ++ [c]) table prev := by
  obtain ⟨k, rfl, hk⟩ := phraseCode_eq_some hfound
  obtain ⟨f, hf, hT⟩ := h.entries k ent c.toNat hk
  obtain rfl : e = f := Option.some.inj (h.current.symm.trans hf)
  refine ⟨h.length_eq, h.entries, ?_, List.append_ne_nil_of_left_ne_nil h.ne_nil _, ?_⟩
  · rw [decodeEntry_assigned, hT]
    simp
  · rw [take_one_append h.ne_nil]
    exact h.lag

/-- The decoder reads the encoder's string, also where its entry is the one about to be added. -/
theorem Synced.decodeEntry_eq : decodeEntry S table prev ent = some e := by
  obtain ⟨hindex, rfl⟩ | ⟨k, rfl, hk⟩ := decodeEntry_cases h.current
  · exact decodeEntry_index _ _ hindex
  · obtain ⟨rfl, rfl⟩ | ⟨p, rfl, hp, hT⟩ := h.lag
    · rw [decodeEntry_assigned, hk]
    · have hclear : ¬ firstFree S + k < clearCode S := by rw [firstFree]; omega
      rw [decodeEntry, if_neg hclear, if_neg (by omega), Nat.add_sub_cancel_left]
      have hlt := (List.getElem?_eq_some_iff.mp hk).1
      rw [hT] at hk hlt
      by_cases hold : k < table.length
      · rw [List.getElem?_append_left hold] at hk
        rw [hk]
      · obtain rfl : k = table.length := by simp at hlt; omega
        have he : p ++ e.take 1 = e := by simpa using hk
        cases p with
        | nil => exact absurd rfl hp
        | cons a p =>
          have hhead : e.take 1 = [a] := by rw [← he]; rfl
          rw [hhead] at he
          simpa using he

/-- After the pending code the decoder's table is the encoder's. -/
theorem Synced.growTable_eq (hfree : freeCode S d ≤ codeLimit) : growTable S table prev e = T := by
  obtain ⟨rfl, rfl⟩ | ⟨p, rfl, -, hT⟩ := h.lag
  · rfl
  · have hlen : table.length + 1 = d.length := by rw [← h.length_eq, hT]; simp
    rw [freeCode] at hfree
    simp only [growTable]
    rw [if_pos (by omega), hT]

/-- The width after the pending code is the encoder's. -/
theorem Synced.decodeWidth_eq (w : Nat) : decodeWidth S w T = grownWidth w (freeCode S d) := by
  rw [decodeWidth, h.length_eq]
  rfl

/-- The pair inserted after a miss is the decoder's next entry. -/
theorem Synced.insert (hc : c.toNat < clearCode S) :
    Synced S (d ++ [(ent, c.toNat)]) (T ++ [e ++ [c]]) c.toNat [c] T (some e) := by
  refine ⟨by simp [h.length_eq], fun k pre idx hk => ?_, ?_, List.cons_ne_nil _ _, .inr ⟨e, rfl, h.ne_nil, rfl⟩⟩
  · by_cases hold : k < d.length
    · rw [List.getElem?_append_left hold] at hk
      obtain ⟨f, hf, hT⟩ := h.entries k pre idx hk
      refine ⟨f, decodeEntry_append hf _, ?_⟩
      rw [List.getElem?_append_left (h.length_eq ▸ hold), hT]
    · obtain rfl : k = d.length := by
        have := (List.getElem?_eq_some_iff.mp hk).1
        simp at this
        omega
      obtain ⟨rfl, rfl⟩ : ent = pre ∧ c.toNat = idx := by simpa using hk
      refine ⟨e, decodeEntry_append h.current _, ?_⟩
      rw [← h.length_eq]
      simp
  · rw [decodeEntry_index _ _ hc]
    simp

end Sync

/-! ## The codes -/

/-- The decoder reads the codes of the loop as the string of the pending code and the indices still to come. -/
theorem LoopState.decodeBits_loopCodes {S w ent : Nat} {d : Phrases} {cs : List Byte} (hs : LoopState S d w ent)
    (hcs : ∀ c ∈ cs, c.toNat < clearCode S) :
    ∀ ⦃T table e prev k left⦄, Synced S d T ent e table prev → (loopCodes S d w ent cs).length ≤ k →
      packLength (loopCodes S d w ent cs) ≤ left →
      decodeBits S k w table prev (packValue (loopCodes S d w ent cs)) left = some (e ++ cs) := by
  have hlength (c : Nat × Nat) (cs : List (Nat × Nat)) : packLength (c :: cs) = c.2 + packLength cs := rfl
  have hread {d w ent T table e prev} {rest : List (Nat × Nat)} {k left : Nat} (hs : LoopState S d w ent)
      (h : Synced S d T ent e table prev) (hk : ((ent, w) :: rest).length ≤ k)
      (hleft : packLength ((ent, w) :: rest) ≤ left) :
      ∃ j, k = j + 1 ∧ rest.length ≤ j ∧ packLength rest ≤ left - w ∧
        decodeBits S k w table prev (packValue ((ent, w) :: rest)) left =
          (decodeBits S j (grownWidth w (freeCode S d)) T (some e) (packValue rest) (left - w)).map (e ++ ·) := by
    rw [List.length_cons] at hk
    rw [hlength] at hleft
    obtain ⟨j, rfl⟩ : ∃ j, k = j + 1 := ⟨k - 1, by omega⟩
    refine ⟨j, rfl, by omega, by simp only at hleft; omega, ?_⟩
    rw [decodeBits_string hs.pending_lt (by simp only at hleft; omega) hs.pending_ne_eoi hs.pending_ne_clear
      h.decodeEntry_eq, h.growTable_eq hs.free_le, h.decodeWidth_eq]
  refine hs.induction (P := fun d w ent cs => ∀ ⦃T table e prev k left⦄, Synced S d T ent e table prev →
      (loopCodes S d w ent cs).length ≤ k → packLength (loopCodes S d w ent cs) ≤ left →
      decodeBits S k w table prev (packValue (loopCodes S d w ent cs)) left = some (e ++ cs)) ?_ ?_ ?_ ?_ hcs
  · intro d w ent hs T table e prev k left h hk hleft
    obtain ⟨j, rfl, hj, hrest, heq⟩ := hread hs h hk hleft
    rw [hlength] at hrest
    obtain ⟨i, rfl⟩ : ∃ i, j = i + 1 := ⟨j - 1, by simp at hj; omega⟩
    rw [loopCodes, heq, decodeBits_eoi hs.eoi_lt.2 (by simp only at hrest; omega) rfl]
    rfl
  · intro d w ent code c cs hs hfound ih T table e prev k left h hk hleft
    rw [loopCodes_hit hfound] at hk hleft ⊢
    rw [ih (h.hit hfound) hk hleft, List.append_assoc]
    rfl
  · intro d w ent c cs hs hnew hroom hc ih T table e prev k left h hk hleft
    rw [loopCodes_insert hnew hroom] at hk hleft ⊢
    obtain ⟨j, rfl, hj, hrest, heq⟩ := hread hs h hk hleft
    rw [heq, ih (h.insert hc) hj hrest]
    rfl
  · intro d w ent c cs hs hnew hfull hc ih T table e prev k left h hk hleft
    rw [loopCodes_clear hnew hfull.not_lt] at hk hleft ⊢
    obtain ⟨j, rfl, hj, hrest, heq⟩ := hread hs h hk hleft
    rw [List.length_cons] at hj
    rw [hlength] at hrest
    obtain ⟨i, rfl⟩ : ∃ i, j = i + 1 := ⟨j - 1, by omega⟩
    rw [heq, decodeBits_clear (hs.eoi_lt.1.trans hs.eoi_lt.2) (by simp only at hrest; omega) rfl,
      ih (.start hc) (by omega) (by simp only at hrest; omega)]
    rfl

/-- The bits of a bit string are enough to bound the number of its codes. -/
theorem length_le_packLength {cs : List (Nat × Nat)} (h : ∀ c ∈ cs, 1 ≤ c.2) : cs.length ≤ packLength cs := by
  induction cs with
  | nil => exact Nat.zero_le _
  | cons c cs ih =>
    obtain ⟨hc, hcs⟩ := List.forall_mem_cons.mp h
    have hlen : packLength (c :: cs) = c.2 + packLength cs := rfl
    have := ih hcs
    rw [List.length_cons, hlen]
    omega

/-- The decoder undoes the sub-blocks, the packing and the codes of a pass. -/
theorem lzwDecode_codeBytes {S : Nat} {c : Byte} {cs : List Byte} (h2 : 2 ≤ S) (h8 : S ≤ 8)
    (hall : ∀ v ∈ c :: cs, v.toNat < 2 ^ S) :
    lzwDecode (codeBytes S (lzwCodes S (c :: cs))) = some (c :: cs) := by
  have hcodes : ∀ p ∈ lzwCodes S (c :: cs), p.1 < 2 ^ p.2 ∧ 1 ≤ p.2 := by
    intro p hp
    obtain ⟨i, hi⟩ := List.getElem?_of_mem hp
    obtain ⟨hfits, hwidth, -⟩ := lzwCodesFitTheirWidth S (c :: cs) h2 h8 (List.cons_ne_nil _ _) hall i p hi
    exact ⟨hfits, by omega⟩
  have hS : (BitVec.ofNat 8 S).toNat = S := by rw [BitVec.toNat_ofNat, Nat.mod_eq_of_lt (by omega)]
  obtain ⟨hc, hcs⟩ := List.forall_mem_cons.mp hall
  have hstart := LoopState.start h2 h8 hc
  have hbits : packLength (lzwCodes S (c :: cs)) ≤ 8 * (packBytes (lzwCodes S (c :: cs))).length := by
    rw [packBytes_length]
    omega
  have hcount := (length_le_packLength fun p hp => (hcodes p hp).2).trans hbits
  rw [codeBytes, lzwDecode, joinBlocks_blocks (by simp), Option.bind_some, hS,
    bytesValue_packBytes fun p hp => (hcodes p hp).1]
  revert hbits hcount
  generalize 8 * (packBytes (lzwCodes S (c :: cs))).length = n
  intro hbits hcount
  rw [lzwCodes, List.length_cons] at hcount
  have hlen : packLength (lzwCodes S (c :: cs)) = S + 1 + packLength (loopCodes S [] (S + 1) c.toNat cs) := rfl
  obtain ⟨k, hk⟩ : ∃ k, n = k + 1 := ⟨n - 1, by omega⟩
  have hclear : clearCode S < 2 ^ (S + 1) := by
    have := Nat.two_pow_pos S
    rw [clearCode, Nat.pow_succ]
    omega
  have hloop := hstart.decodeBits_loopCodes hcs (.start hc) (k := k) (left := n - (S + 1)) (by omega) (by omega)
  rw [lzwCodes]
  nth_rw 1 [hk]
  rw [decodeBits_clear hclear (by omega) rfl, hloop]
  rfl

/-- Settles O23: the bytes of a pass are those of its codes (`lzwEncode_eq_codeBytes`), and the decoder undoes them. -/
theorem lzwIsLossless : Obligations.LzwIsLossless := by
  intro S indices h2 h8 hne hall
  cases indices with
  | nil => exact absurd rfl hne
  | cons c cs => rw [lzwEncode_eq_codeBytes h2 h8 hall, lzwDecode_codeBytes h2 h8 hall]

end Sys2Proof.Machine
end

section
/-! The core's turn (30_encoding.md R140, R151; 60_exceptions.md R412, R413). `latched` says what the turn does with the
latched word, and the turn is the same whichever way it comes (`CoreTurn`); the other steps are those of an idle core and
the host's accesses. -/

namespace Sys2Proof.Machine

section Turns
variable {s t u : State} {i : Instr}

/-- The latched word is performed if it decodes and is not discarded. -/
theorem latched_run (hdec : decodeWord s.cmdl = .ok i) (hkept : s.err = .none ∨ i = .nop ∨ i = .srst) :
    latched s = .run i := by
  obtain herr | hsystem := hkept
  · rw [latched_decoded herr, hdec]
  · exact latched_of_system hsystem (encodeDecodeRoundTrip _ _ hdec).symm

/-- The schedule is no part of what the core does with the latched word. -/
theorem CoreTurn.latched_eq (h : CoreTurn s u) (hbusy : s.busy = true) : latched u = latched s := by
  rw [(h.step_eq hbusy).2]
  rfl

theorem CoreTurn.step_of_run (h : CoreTurn s u) (hbusy : s.busy = true) (hl : latched s = .run i) :
    step s = retireOutcome (exec i u) := by
  rw [(h.step_eq hbusy).1, coreStep, h.latched_eq hbusy, hl]

theorem CoreTurn.step_of_discarded (h : CoreTurn s u) (hbusy : s.busy = true) (hl : latched s = .discarded) :
    step s = .next (retire u) := by
  rw [(h.step_eq hbusy).1, coreStep, h.latched_eq hbusy, hl]

theorem CoreTurn.step_of_illegal {op : BitVec 8} (h : CoreTurn s u) (hbusy : s.busy = true)
    (hl : latched s = .illegal op) : step s = .next (retire (raiseError u op .illegalCmd)) := by
  rw [(h.step_eq hbusy).1, coreStep, h.latched_eq hbusy, hl]

/-- The next step is the core's turn or an access of the host. -/
theorem coreTurn_or_access (s : State) :
    (∃ u, CoreTurn s u) ∨ ∃ op rest, s.schedule = .access op :: rest := by
  cases hsched : s.schedule with
  | nil => exact .inl ⟨s, .inl ⟨hsched, rfl⟩⟩
  | cons event rest =>
    cases event with
    | access op => exact .inr ⟨op, rest, rfl⟩
    | core => exact .inl ⟨_, .inr (.inl ⟨rest, hsched, rfl⟩)⟩
    | poll => exact .inl ⟨s, .inr (.inr ⟨rest, hsched, rfl⟩)⟩

/-- The turn of an idle core changes the schedule at most, and the answer where a POLL reads STATUS. -/
theorem CoreTurn.step_of_idle (h : CoreTurn s u) (hidle : s.busy = false) :
    ∃ l d, step s = .next { s with schedule := l, rdata := d } := by
  obtain ⟨hsched, -⟩ | ⟨rest, hsched, -⟩ | ⟨rest, hsched, -⟩ := h
  · exact ⟨s.schedule, s.rdata, step_unscheduled_of_idle hidle hsched⟩
  · exact ⟨rest, s.rdata, step_core_of_idle hidle hsched⟩
  · exact ⟨rest, statusWord s, step_poll_of_idle hidle hsched⟩

/-- What becomes of a recorded error in a step of a busy core's own: SRST clears it, and every other word leaves it. -/
theorem CoreTurn.errRecord (h : CoreTurn s u) (hbusy : s.busy = true) (herr : s.err ≠ .none) (hstep : step s = .next t) :
    (t.err = s.err ∧ t.errOp = s.errOp) ∨ (s.cmdl = 0x01000000#32 ∧ t.err = .none ∧ t.errOp = 0) := by
  have hu := (h.step_eq hbusy).2
  by_cases hsrst : s.cmdl = 0x01000000#32
  · cases (h.step_of_system (i := .srst) hbusy (.inr rfl) hsrst).symm.trans hstep
    exact .inr ⟨hsrst, rfl, rfl⟩
  · have ht : t = retire u := by
      by_cases hnop : s.cmdl = 0x00000000#32
      · cases (h.step_of_system (i := .nop) hbusy (.inl rfl) hnop).symm.trans hstep
        rfl
      · cases (h.step_of_discarded hbusy (latched_discarded herr hnop hsrst)).symm.trans hstep
        rfl
    rw [ht, retire_err, retire_errOp, hu]
    exact .inl ⟨rfl, rfl⟩

end Turns

/-! ## The statements -/

/-- Settles O6: in each form of the turn the latched word is `.run i`, and `retire` is what ends the command. -/
theorem stepRunsTheLatchedCommand : Obligations.StepRunsTheLatchedCommand := by
  intro s i hbusy hdec hkept
  have hrun {u : State} (hturn : CoreTurn s u) : step s = retireOutcome (exec i u) :=
    hturn.step_of_run hbusy (latched_run hdec hkept)
  refine ⟨fun hsched => hrun (.inl ⟨hsched, rfl⟩), fun rest hsched => hrun (.inr (.inl ⟨rest, hsched, rfl⟩)),
    fun rest hsched => hrun (.inr (.inr ⟨rest, hsched, rfl⟩)), fun t _ => ⟨rfl, rfl⟩⟩

/-- Settles O7: a discarded word leaves `retire` of the state; of the steps that are not the core's turn on a busy core,
only a reset touches the error record. -/
theorem stickyErrorDiscards : Obligations.StickyErrorDiscards := by
  refine ⟨fun s u hbusy herr hturn hnop hsrst => ?_, fun s t herr hstep => ?_⟩
  · exact ⟨retire u, hturn.step_of_discarded hbusy (latched_discarded herr hnop hsrst), rfl⟩
  · obtain ⟨u, hturn⟩ | ⟨op, rest, hsched⟩ := coreTurn_or_access s
    · cases hbusy : s.busy with
      | false =>
        obtain ⟨l, d, hidle⟩ := hturn.step_of_idle hbusy
        cases hidle.symm.trans hstep
        exact .inl ⟨rfl, rfl⟩
      | true =>
        obtain hkept | ⟨hsrst, hcleared⟩ := hturn.errRecord hbusy herr hstep
        · exact .inl hkept
        · exact .inr (.inl ⟨rfl, hsrst, ⟨u, hturn⟩, hcleared⟩)
    · rw [step_access hsched] at hstep
      obtain ⟨rfl, rfl⟩ | hwrote := hostAccess_wrote hstep
      · exact .inr (.inr ⟨⟨rest, hsched⟩, rfl, rfl⟩)
      · rw [hwrote.frame]
        exact .inl ⟨rfl, rfl⟩

/-- Settles O8: a word no row matches is `.illegal`, which raises and retires; any other decodes to a command it is the
encoding of, which with ERR 0 is performed. -/
theorem illegalWordRaises : Obligations.IllegalWordRaises := by
  intro s u hbusy herr hturn
  refine ⟨fun hnone => ?_, fun r hr hmatch => ?_⟩
  · have hl : latched s = .illegal (opField s.cmdl) := by rw [latched_decoded herr, decodeWord_of_no_row hnone]
    obtain ⟨rest, rfl⟩ : ∃ rest, u = { s with schedule := rest } := ⟨_, (hturn.step_eq hbusy).2⟩
    exact ⟨_, hturn.step_of_illegal hbusy hl, rfl, sameMemoryOutside_raiseError s (opField s.cmdl) .illegalCmd⟩
  · obtain ⟨i, hdec, -⟩ := (exactlyOneRowMatches s.cmdl).2.1 r hr hmatch
    exact ⟨i, encodeDecodeRoundTrip _ _ hdec, hturn.step_of_run hbusy (latched_run hdec (.inl herr))⟩

end Sys2Proof.Machine
end

section
/-! The host's accesses to registers (10_state.md R30 to R54). A write and a read of a register of an idle core compose to
`regRead` of `regWrite`; what is left for each register is which bits of the written word its fields keep. -/

namespace Sys2Proof.Machine

/-! ## STATUS -/

/-- A field of a concatenation of fields, bit by bit. -/
theorem statusWord_getLsbD (s : State) (k : Nat) (hk : k < 32) :
    (statusWord s).getLsbD k =
      if k < 1 then s.busy else if k < 2 then s.haz else if k < 4 then (gstateCode s.gstate).getLsbD (k - 2)
      else if k < 8 then false else if k < 16 then (errCode s.err).getLsbD (k - 8)
      else if k < 24 then s.errOp.getLsbD (k - 16) else false := by
  simp only [statusWord, BitVec.getLsbD_cast, BitVec.getLsbD_append]
  interval_cases k <;> simp

/-- Settles O51: each field is read back bit by bit. -/
theorem statusFields : Obligations.StatusFields := by
  intro s
  refine ⟨?_, ?_, ?_, ?_, ?_, ?_, ?_⟩ <;>
  · apply BitVec.eq_of_getLsbD_eq
    intro k hk
    rw [BitVec.getLsbD_extractLsb', statusWord_getLsbD s _ (by omega)]
    interval_cases k <;> simp

/-! ## Writing and reading back -/

theorem regRead_newDraws (s : State) (r : Reg) : regRead (newDraws s) r = regRead s r := by cases r <;> rfl

theorem regWrite_params (s : State) (v : Word) (r : Reg) : (regWrite s v r).params = s.params := by cases r <;> rfl

/-- A word written to a register other than CMD is read back under the mask of the bits that the register keeps. -/
theorem reads_back (r : Reg) {s : State} {addr v mask : Word} (hidle : s.busy = false)
    (hsup : supportedAccess addr .word = true) (hreg : ∀ p, busTarget p addr.toNat = .reg r) (hr : r ≠ .cmd)
    (hkept : regRead (regWrite s v r) r = v &&& mask) :
    ∃ t u, hostAccess s (.write addr .word v) = .next t ∧ hostAccess t (.read addr .word) = .next u ∧
      u.rdata = v &&& mask :=
  ⟨_, _, hostWrite_reg_of_idle v hsup (hreg _) hidle,
    hostRead_reg_of_idle hsup (hreg _) ((regWrite_busy hr).trans hidle), (regRead_newDraws _ r).trans hkept⟩

section Fields
variable (s : State) (v : Word)

theorem regRead_regWrite_mode : regRead (regWrite s v .mode) .mode = v &&& 0x00000001#32 := by
  show (BitVec.ofBool (v.getLsbD 0)).setWidth 32 = _
  apply BitVec.eq_of_getLsbD_eq
  intro k hk
  interval_cases k <;> simp

theorem regRead_regWrite_palLen : regRead (regWrite s v .palLen) .palLen = v &&& 0x000001FF#32 := by
  show (v.extractLsb' 0 9).setWidth 32 = _
  apply BitVec.eq_of_getLsbD_eq
  intro k hk
  interval_cases k <;> simp

theorem regRead_regWrite_qcfg : regRead (regWrite s v .qcfg) .qcfg = v &&& 0x00FFFF01#32 := by
  show qcfgWord (qcfgOfWord v) = _
  apply BitVec.eq_of_getLsbD_eq
  intro k hk
  simp only [qcfgWord, qcfgOfWord, BitVec.getLsbD_cast, BitVec.getLsbD_append]
  interval_cases k <;> simp

theorem regRead_regWrite_frFlags : regRead (regWrite s v .frFlags) .frFlags = v &&& 0x0000FFFF#32 := by
  show frFlagsWord (frFlagsOfWord v) = _
  apply BitVec.eq_of_getLsbD_eq
  intro k hk
  simp only [frFlagsWord, frFlagsOfWord, BitVec.getLsbD_cast, BitVec.getLsbD_append]
  interval_cases k <;> simp

/-- The two halves of a word put together again. -/
theorem halves_append : BitVec.cast rfl (v.extractLsb' 16 16 ++ v.extractLsb' 0 16) = v &&& 0xFFFFFFFF#32 := by
  apply BitVec.eq_of_getLsbD_eq
  intro k hk
  simp only [BitVec.getLsbD_cast, BitVec.getLsbD_append]
  interval_cases k <;> simp

end Fields

/-- Settles O47: each register of the list is written and read at its offset, and its fields keep the bits of the mask. -/
theorem registersReadBack : Obligations.RegistersReadBack := by
  intro s v hidle
  have hfull : v = v &&& 0xFFFFFFFF#32 := BitVec.and_allOnes.symm
  simp only [List.forall_mem_cons]
  refine ⟨?_, ?_, ?_, ?_, ?_, ?_, ?_, ?_, ?_, ?_, nofun⟩
  · exact reads_back .mode hidle rfl (fun _ => rfl) nofun (regRead_regWrite_mode s v)
  · exact reads_back .src hidle rfl (fun _ => rfl) nofun hfull
  · exact reads_back .dst hidle rfl (fun _ => rfl) nofun hfull
  · exact reads_back .count hidle rfl (fun _ => rfl) nofun hfull
  · exact reads_back .bufAddr hidle rfl (fun _ => rfl) nofun hfull
  · exact reads_back .palLen hidle rfl (fun _ => rfl) nofun (regRead_regWrite_palLen s v)
  · exact reads_back .qcfg hidle rfl (fun _ => rfl) nofun (regRead_regWrite_qcfg s v)
  · exact reads_back .frSize hidle rfl (fun _ => rfl) nofun (halves_append v)
  · exact reads_back .frTime hidle rfl (fun _ => rfl) nofun (halves_append v)
  · exact reads_back .frFlags hidle rfl (fun _ => rfl) nofun (regRead_regWrite_frFlags s v)

/-- A write to a register whose own effect is none moves the model's counter only. -/
theorem write_ignored (r : Reg) {s : State} {addr v : Word} (hidle : s.busy = false)
    (hsup : supportedAccess addr .word = true) (hreg : ∀ p, busTarget p addr.toNat = .reg r)
    (hignored : regWrite s v r = s) :
    ∃ t, hostAccess s (.write addr .word v) = .next t ∧ t = { s with draws := t.draws } := by
  have hwrite := hostWrite_reg_of_idle v hsup (hreg _) hidle
  rw [hignored] at hwrite
  exact ⟨newDraws s, hwrite, rfl⟩

/-- Settles O48: each offset of the list is a register whose own effect is none. -/
theorem readOnlyRegistersIgnoreWrites : Obligations.ReadOnlyRegistersIgnoreWrites := by
  intro s v hidle
  simp only [List.forall_mem_cons]
  refine ⟨?_, ?_, ?_, ?_, ?_, ?_, ?_, ?_, ?_, ?_, nofun⟩
  · exact write_ignored .id hidle rfl (fun _ => rfl) rfl
  · exact write_ignored .status hidle rfl (fun _ => rfl) rfl
  · exact write_ignored .cursor hidle rfl (fun _ => rfl) rfl
  · exact write_ignored .capacity hidle rfl (fun _ => rfl) rfl
  · exact write_ignored .gpalLen hidle rfl (fun _ => rfl) rfl
  · exact write_ignored .histBins hidle rfl (fun _ => rfl) rfl
  · exact write_ignored .histPixels hidle rfl (fun _ => rfl) rfl
  · exact write_ignored .histFmt hidle rfl (fun _ => rfl) rfl
  · exact write_ignored .pixWords hidle rfl (fun _ => rfl) rfl
  · exact write_ignored .bufBytes hidle rfl (fun _ => rfl) rfl

end Sys2Proof.Machine
end

section
/-! The host's accesses to memory windows (20_memory.md R100 to R109), reads of an idle core, and hardware reset
(70_reset_and_hazards.md R440). The windows do not overlap, so an address of a window is that memory's
(`busTarget_window`). -/

namespace Sys2Proof.Machine

/-! ## The windows -/

/-- The host byte address `a` is in the window of `sp` (20_memory.md R100). -/
abbrev inWindow (p : Params) (a : Nat) (sp : Space) : Prop := spaceBase sp ≤ a ∧ a < spaceBase sp + spaceBytes p sp

/-- The windows lie apart, for all parameters that meet their constraints. -/
theorem inWindow_unique {p : Params} (hp : p.wf) {a : Nat} {sp sp' : Space} (h : inWindow p a sp)
    (h' : inWindow p a sp') : sp = sp' := by
  obtain ⟨-, -, hpix, -, -, hbuf, -⟩ := hp
  cases sp <;> cases sp' <;> simp only [inWindow, spaceBase, spaceBytes, reduceCtorEq] at h h' ⊢ <;> omega

/-- The search for a window finds the one that the address is in. -/
theorem spaceAt_of_inWindow {p : Params} (hp : p.wf) {a : Nat} {sp : Space} (h : inWindow p a sp) :
    spaceAt p a = some sp := by
  cases hfound : spaceAt p a with
  | none =>
    have hmem : sp ∈ [Space.pal, .buf, .pix, .idx, .out] := by cases sp <;> decide
    exact absurd (decide_eq_true h) (List.find?_eq_none.mp hfound sp hmem)
  | some sp' =>
    have h' := List.find?_some (p := fun sp => decide (inWindow p a sp)) hfound
    rw [inWindow_unique hp h (of_decide_eq_true h')]

/-- An address of a memory's window belongs to that memory (20_memory.md R100). -/
theorem busTarget_window {p : Params} (hp : p.wf) {sp : Space} {k : Nat} (hk : k < spaceBytes p sp) :
    busTarget p (spaceBase sp + k) = .mem sp := by
  have hreg : ¬ spaceBase sp + k < 0x1000 := by cases sp <;> simp only [spaceBase] <;> omega
  rw [busTarget, if_neg hreg, spaceAt_of_inWindow hp ⟨Nat.le_add_right _ _, Nat.add_lt_add_left hk _⟩]

/-- The windows end below 2^32, so a bus word addresses each of their bytes. -/
theorem toNat_window {p : Params} (hp : p.wf) {sp : Space} {k : Nat} (hk : k < spaceBytes p sp) :
    (BitVec.ofNat 32 (spaceBase sp + k)).toNat = spaceBase sp + k := by
  obtain ⟨-, -, hpix, -, -, hbuf, -, -, hout, -⟩ := hp
  rw [BitVec.toNat_ofNat, Nat.mod_eq_of_lt]
  cases sp <;> simp only [spaceBase, spaceBytes] at hk ⊢ <;> omega

/-- A window's word accesses are the aligned ones, since its first address is aligned. -/
theorem supportedAccess_window {p : Params} (hp : p.wf) {sp : Space} {k : Nat} (hk : k < spaceBytes p sp)
    (haligned : k % 4 = 0) : supportedAccess (BitVec.ofNat 32 (spaceBase sp + k)) .word = true := by
  rw [supportedAccess_word_iff, toNat_window hp hk]
  cases sp <;> simp only [spaceBase] <;> omega

/-- A supported read of a memory window of an idle core answers the visible word. -/
theorem hostRead_mem_of_idle {s : State} {addr : Word} {size : AccessSize} {sp : Space}
    (hsup : supportedAccess addr size = true) (hmem : busTarget s.params addr.toNat = .mem sp) (hidle : s.busy = false) :
    hostRead s addr size = .next { s with rdata := visibleWord s sp addr.toNat } := by
  simp [hostRead, hsup, hmem, hidle]

section Accesses
variable {s : State} {sp : Space} {k : Nat} (hp : s.params.wf) (hidle : s.busy = false)
  (hk : k < spaceBytes s.params sp) (haligned : k % 4 = 0)
include hp hidle hk haligned

theorem hostRead_window :
    hostAccess s (.read (BitVec.ofNat 32 (spaceBase sp + k)) .word) =
      .next { s with rdata := visibleWord s sp (spaceBase sp + k) } := by
  have hread := hostRead_mem_of_idle (supportedAccess_window hp hk haligned)
    ((toNat_window hp hk).symm ▸ busTarget_window hp hk) hidle
  rwa [toNat_window hp hk] at hread

theorem hostWrite_window (v : Word) (hsp : sp ≠ .out) :
    hostAccess s (.write (BitVec.ofNat 32 (spaceBase sp + k)) .word v) =
      .next (newDraws { s with mem := setBytes s.mem (spaceBase sp + k) (wordBytes v) }) := by
  simp [hostAccess, hostWrite, supportedAccess_window hp hk haligned, toNat_window hp hk, busTarget_window hp hk, hidle,
    storeWord, hsp]

end Accesses

/-! ## Reading the stream -/

/-- The bytes of a word are the bytes it is made of. -/
theorem extractLsb'_visibleWord (s : State) (sp : Space) (a : Nat) {m : Nat} (hm : m < 4) :
    (visibleWord s sp a).extractLsb' (8 * m) 8 = visibleByte s sp (a + m) := by
  have hbytes := wordBytes_wordOfBytes (visibleByte s sp a) (visibleByte s sp (a + 1)) (visibleByte s sp (a + 2))
    (visibleByte s sp (a + 3))
  simp only [wordBytes, List.cons.injEq, and_true] at hbytes
  obtain ⟨h0, h1, h2, h3⟩ := hbytes
  interval_cases m
  · exact h0
  · exact h1
  · exact h2
  · exact h3

/-- A stream byte below CURSOR is shown as it is held (40_bytestream.md R190). -/
theorem memByte_eq_visibleByte {s : State} (hwritten : s.streamWritten) {k : Nat} (hk : k < s.cursor.toNat) :
    memByte s.mem (outAddr k) = some (visibleByte s .out (outAddr k)) := by
  have hbelow : ¬ (Space.out = .out ∧ outAddr s.cursor.toNat ≤ outAddr k) := by
    rw [outAddr_eq, outAddr_eq]
    omega
  obtain ⟨v, hv⟩ := Option.isSome_iff_exists.mp (hwritten k hk)
  rw [visibleByte, if_neg hbelow, hv]
  rfl

/-- Settles O52: the word of the OUT window is made of the visible bytes, which below CURSOR are the stream's. -/
theorem streamIsReadable : Obligations.StreamIsReadable := by
  rintro s j ⟨hp, -, hcursor, hwritten, -⟩ hidle hj
  have hk : 4 * j < spaceBytes s.params .out := hj.trans_le hcursor
  refine ⟨_, hostRead_window (sp := .out) hp hidle hk (Nat.mul_mod_right 4 j), rfl, fun m hm hlt => ?_⟩
  have haddr : outAddr (4 * j + m) = spaceBase .out + 4 * j + m := by rw [outAddr_eq, spaceBase, Nat.add_assoc]
  simp only
  rw [extractLsb'_visibleWord s .out _ hm, ← haddr, memByte_eq_visibleByte hwritten hlt]

/-! ## Writing elements -/

/-- The bytes of a word stored in an idle core's window: the word's at its place, and the others as before. -/
theorem hostWrites_word {s : State} {sp : Space} {k : Nat} (v : Word) (hp : s.params.wf) (hidle : s.busy = false)
    (hk : k < spaceBytes s.params sp) (haligned : k % 4 = 0) (hsp : sp ≠ .out) :
    ∃ t, hostAccess s (.write (BitVec.ofNat 32 (spaceBase sp + k)) .word v) = .next t ∧
      t = { s with mem := t.mem, draws := t.draws } ∧
      (∀ m < 4, memByte t.mem (spaceBase sp + k + m) = some (v.extractLsb' (8 * m) 8)) ∧
      sameMemoryOutside s t (spaceBase sp + k) (spaceBase sp + k + 4) :=
  ⟨_, hostWrite_window hp hidle hk haligned v hsp, rfl, fun m hm => memByte_storedWord s.mem _ m v hm,
    fun _ ha => memByte_setBytes_outside ha⟩

/-- A memory of words: the word written is the element. -/
theorem hostWrites_wordElem {s : State} {sp : Space} {k : Nat} (v : Word) (hp : s.params.wf) (hidle : s.busy = false)
    (hsize : elemBytes sp = 4) (hk : 4 * k < spaceBytes s.params sp) (hsp : sp ≠ .out) :
    ∃ t, hostAccess s (.write (BitVec.ofNat 32 (elemAddr sp k)) .word v) = .next t ∧
      t = { s with mem := t.mem, draws := t.draws } ∧ memReadWord t sp k = .ok v ∧
      sameMemoryOutside s t (elemAddr sp k) (elemAddr sp (k + 1)) := by
  obtain ⟨t, hwrite, hframe, hbytes, hsame⟩ := hostWrites_word v hp hidle hk (Nat.mul_mod_right 4 k) hsp
  have haddr (i : Nat) : elemAddr sp i = spaceBase sp + 4 * i := by rw [elemAddr, hsize]
  refine ⟨t, haddr k ▸ hwrite, hframe, memReadWord_ok.mpr fun m hm => haddr k ▸ hbytes m hm, ?_⟩
  rw [haddr, haddr]
  exact hsame

/-- A memory of bytes: the word's bytes are four elements. -/
theorem hostWrites_byteElems {s : State} {sp : Space} {k : Nat} (v : Word) (hp : s.params.wf) (hidle : s.busy = false)
    (hsize : elemBytes sp = 1) (hk : 4 * k < spaceBytes s.params sp) (hsp : sp ≠ .out) :
    ∃ t, hostAccess s (.write (BitVec.ofNat 32 (elemAddr sp (4 * k))) .word v) = .next t ∧
      t = { s with mem := t.mem, draws := t.draws } ∧
      (∀ m < 4, memReadByte t sp (4 * k + m) = .ok (v.extractLsb' (8 * m) 8)) ∧
      sameMemoryOutside s t (elemAddr sp (4 * k)) (elemAddr sp (4 * k + 4)) := by
  obtain ⟨t, hwrite, hframe, hbytes, hsame⟩ := hostWrites_word v hp hidle hk (Nat.mul_mod_right 4 k) hsp
  have haddr (i : Nat) : elemAddr sp i = spaceBase sp + i := by rw [elemAddr, hsize, Nat.one_mul]
  refine ⟨t, haddr (4 * k) ▸ hwrite, hframe, fun m hm => memReadByte_ok.mpr ?_, ?_⟩
  · rw [haddr, ← Nat.add_assoc]
    exact hbytes m hm
  · rw [haddr, haddr, ← Nat.add_assoc]
    exact hsame

/-- Settles O53: PIX and PAL are memories of words, IDX and BUF of bytes. -/
theorem hostWritesReachElements : Obligations.HostWritesReachElements := by
  intro s v k hp hidle
  refine ⟨fun hk => hostWrites_wordElem v hp hidle rfl ?_ nofun, fun hk => hostWrites_wordElem v hp hidle rfl ?_ nofun,
    fun hk => hostWrites_byteElems v hp hidle rfl hk nofun, fun hk => hostWrites_byteElems v hp hidle rfl hk nofun⟩
  · rw [spaceBytes]; omega
  · rw [spaceBytes]; omega

/-! ## Reads of an idle core -/

/-- The last answer is no part of what a read is answered with. -/
theorem hostRead_rdata (s : State) (addr d : Word) (size : AccessSize) :
    hostRead { s with rdata := d } addr size = hostRead s addr size := by
  have hreg (r : Reg) : regRead { s with rdata := d } r = regRead s r := by cases r <;> rfl
  simp only [hostRead, hreg]
  rfl

/-- The frame of a read of an idle core is the answer. -/
theorem hostRead_frame_of_idle {s t : State} {addr : Word} {size : AccessSize} (hidle : s.busy = false)
    (h : hostRead s addr size = .next t) : t = { s with rdata := t.rdata } := by
  cases hsup : supportedAccess addr size with
  | false => simp [hostRead, hsup] at h
  | true =>
    cases htarget : busTarget s.params addr.toNat with
    | unmapped | unassigned => simp [hostRead, hsup, htarget] at h
    | reg r =>
      cases (hostRead_reg_of_idle hsup htarget hidle).symm.trans h
      rfl
    | mem sp =>
      cases (hostRead_mem_of_idle hsup htarget hidle).symm.trans h
      rfl

/-- Settles O54: the state after the read is the state before with another answer, which the read does not look at. -/
theorem idleReadsRepeat : Obligations.IdleReadsRepeat := by
  intro s t a sz hidle h
  have hframe := hostRead_frame_of_idle hidle h
  refine ⟨hframe, ?_⟩
  calc hostRead t a sz = hostRead { s with rdata := t.rdata } a sz := congrArg (hostRead · a sz) hframe
    _ = hostRead s a sz := hostRead_rdata s a t.rdata sz
    _ = .next t := h

/-! ## Reset -/

/-- Settles O55: a reset step is `hardReset`, whose fields are those of the reset state but for the parameters and the
model's own. -/
theorem hardwareResetValues : Obligations.HardwareResetValues := by
  intro s rest hsched
  refine ⟨hardReset { s with schedule := rest }, step_access hsched, rfl, rfl, rfl, rfl, rfl, rfl, rfl, rfl, rfl, rfl,
    rfl, rfl, rfl, ?_, rfl, rfl, rfl, rfl, rfl, rfl, rfl, ?_, binAt_nil, memByte_nil, rfl, rfl, rfl⟩
  · show qcfgWord ⟨true, 0, 0⟩ = _
    decide
  · show frFlagsWord ⟨false, false, false, true, false, 0, 0⟩ = _
    decide

end Sys2Proof.Machine
end

section
/-! The stream's commands together: BS.WB one by one and BS.WBS at once (40_bytestream.md R181), the finished stream
(44_gif_mux.md R347), the checks and the blocks of G.FRM (R340, R345), and the signature and trailer of a stream (R353). -/

namespace Sys2Proof.Machine

/-! ## Appends by BS.WB -/

/-- BS.WB commands append their bytes one by one. -/
theorem execSeq_bsWb {s t : State} {bytes : List Byte} (hopen : s.gstate ≠ .final) (h : appendBytes s bytes = .ok t) :
    execSeq (bytes.map .bsWb) s = .next t := by
  induction bytes generalizing s with
  | nil =>
    cases h
    rfl
  | cons v vs ih =>
    simp only [appendBytes, bind_ok, streamAppend_ok] at h
    obtain ⟨_, ⟨hroom, rfl⟩, hrest⟩ := h
    rw [List.map_cons, execSeq, exec_bsWb_of_room v hopen hroom]
    exact ih hopen hrest

/-- Settles O19: both ways of appending are `appendBytes`, which leaves `pushBytes`. -/
theorem appendsSplitInvariantly : Obligations.AppendsSplitInvariantly := by
  intro s bytes hp hlen hbuf hopen hin hroom
  have happend := appendBytes_fits (vs := bytes) hp (hlen ▸ hroom)
  refine ⟨pushBytes s bytes, ?_, execSeq_bsWb hopen happend⟩
  obtain hzero | hpos := Nat.eq_zero_or_pos s.count.toNat
  · obtain rfl : bytes = [] := List.eq_nil_of_length_eq_zero (hlen.trans hzero)
    rw [pushBytes_nil]
    exact exec_bsWbs_of_count_zero hopen hzero
  · exact exec_bsWbs_of_room hp hlen hbuf hopen hpos hin hroom

/-! ## The finished stream -/

theorem gFrm_raises_state {s : State} (hfinal : s.gstate = .final) : Raises .gFrm s .state :=
  perform_raiseIf_of_bad (decide_eq_true hfinal)

/-- The palette of a histogram in order ends far below OUT. -/
theorem palette_below_out {s : State} (hhist : s.histOk) (ncol : Nat) :
    elemAddr .pal 0 + ((reducePalette s.params s.qcfg s.histFmt s.hist ncol).flatMap
      (fun c => wordBytes (packPixel c))).length ≤ outAddr 0 := by
  have hlen := (reducePalette_length_le s.params s.qcfg s.histFmt s.hist ncol).trans (hist_length_le hhist.1)
  rw [← List.flatMap_map, flatMap_wordBytes_length, List.length_map, outAddr_eq, elemAddr, spaceBase]
  omega

/-- In FINAL an effect of a command other than SRST leaves CURSOR, GSTATE and every byte of OUT (44_gif_mux.md R347). -/
theorem Effect.stream_of_final {i : Instr} {s t : State} (h : Effect i s t) (hinv : s.Inv) (hfinal : s.gstate = .final)
    (hi : i ≠ .srst) :
    t.gstate = .final ∧ t.cursor = s.cursor ∧ ∀ k, memByte t.mem (outAddr k) = memByte s.mem (outAddr k) := by
  obtain ⟨hp, -, -, -, hhist, -⟩ := hinv
  cases i with
  | nop =>
    obtain rfl : t = s := h
    exact ⟨hfinal, rfl, fun _ => rfl⟩
  | srst => exact absurd rfl hi
  | bsWb | bsWbs | bsRst | lEnc => exact absurd hfinal h.2
  | qClr =>
    obtain ⟨_, -, rfl⟩ := h
    exact ⟨hfinal, rfl, fun _ => rfl⟩
  | qAcc =>
    obtain ⟨-, rfl⟩ | ⟨pixels, -, -, rfl⟩ := h
    · exact ⟨hfinal, rfl, fun _ => rfl⟩
    · rw [foldl_countPixel_frame]
      exact ⟨hfinal, rfl, fun _ => rfl⟩
  | qRed n =>
    have hend := palette_below_out hhist n.toNat
    rw [h]
    refine ⟨hfinal, rfl, fun k => memByte_setBytes_outside (.inr (hend.trans ?_))⟩
    rw [outAddr_eq, outAddr_eq]
    omega
  | mMap =>
    obtain ⟨vs, rfl, hvs⟩ := h
    obtain ⟨-, -, hpix, -⟩ := hp
    refine ⟨hfinal, rfl, fun k => ?_⟩
    obtain rfl | hfit := hvs
    · rfl
    · refine memByte_setBytes_outside (.inr ?_)
      rw [elemAddr_idx, outAddr_eq]
      omega
  | gHdr =>
    obtain ⟨-, hunopened, -⟩ := h
    cases hfinal.symm.trans hunopened
  | gFrm => exact absurd hfinal h.1
  | gFin =>
    obtain ⟨hopen, -⟩ := h
    cases hfinal.symm.trans hopen

/-- Settles O44: each of the commands checks GSTATE, and of the others only Q.RED and M.MAP write memory, below OUT. -/
theorem finalStreamIsImmutable : Obligations.FinalStreamIsImmutable := by
  intro s hinv hfinal
  have hheader : s.gstate ≠ .header := by rw [hfinal]; exact nofun
  have hunopened : s.gstate ≠ .uninit := by rw [hfinal]; exact nofun
  refine ⟨fun b => perform_raiseIf_of_bad (decide_eq_true hfinal), perform_raiseIf_of_bad (decide_eq_true hfinal),
    perform_raiseIf_of_bad (decide_eq_true hfinal), fun d hd => lEnc_raises_state hd hfinal,
    gHdr_raises_state (.inr hunopened), gFrm_raises_state hfinal, gFin_raises_state hheader, fun i t h hi => ?_⟩
  obtain ⟨e, -, rfl⟩ | heffect := exec_cases h
  · refine ⟨hfinal, rfl, fun k hk => sameMemoryOutside_raiseError s _ e _ (.inl ?_)⟩
    rw [outAddr_eq, outAddr_eq]
    omega
  · obtain ⟨hgstate, hcursor, hmem⟩ := heffect.stream_of_final hinv hfinal hi
    exact ⟨hgstate, hcursor, fun k _ => hmem k⟩

/-! ## G.FRM -/

section GFrm
variable {s : State} (hopen : s.gstate ≠ .final)
include hopen

/-- Past the check of GSTATE, G.FRM checks the table in use, the frame's size and the range in IDX in R340's order. -/
theorem exec_gFrm_of_not_final :
    exec .gFrm s = perform 0x51 s (
      raiseIf ((!s.frFlags.hasPal && isFirstFrame s) ∨ frameTableLen s = 0) .noPalette <|
      raiseIf (maxPalette < frameTableLen s) .paletteSize <|
      raiseIf (s.frWidth.toNat = 0 ∨ s.frHeight.toNat = 0 ∨ s.count.toNat ≠ s.frWidth.toNat * s.frHeight.toNat) .length <|
      raiseIf (s.params.pixWords < s.src.toNat + s.count.toNat) .bounds <|
      (readIndices s (frameTableLen s) s.src.toNat s.count.toNat).bind fun indices =>
        writeFrame (frameTableLen s) indices s) :=
  congrArg (perform 0x51 s) (raiseIf_decide_of_neg hopen)

theorem gFrm_raises_noPalette (hnone : (!s.frFlags.hasPal && isFirstFrame s) ∨ frameTableLen s = 0) :
    Raises .gFrm s .noPalette :=
  (exec_gFrm_of_not_final hopen).trans (perform_raiseIf_of_bad (decide_eq_true hnone))

theorem gFrm_raises_paletteSize (hpal : s.frFlags.hasPal = true) (hbig : 256 < s.palLen.toNat) :
    Raises .gFrm s .paletteSize := by
  have hlen : frameTableLen s = s.palLen.toNat := if_pos hpal
  have htable : ¬ ((!s.frFlags.hasPal && isFirstFrame s) ∨ frameTableLen s = 0) := by
    rw [hpal, hlen]
    simp
    omega
  rw [Raises, exec_gFrm_of_not_final hopen, raiseIf_decide_of_neg htable]
  exact perform_raiseIf_of_bad (decide_eq_true (hlen ▸ hbig))

variable (htable : s.frFlags.hasPal = true ∨ isFirstFrame s = false) (hpos : 1 ≤ frameTableLen s)
  (hmax : frameTableLen s ≤ 256)
include htable hpos hmax

/-- With a table to refer to, G.FRM checks the frame's size and then the range in IDX. -/
theorem exec_gFrm_of_table :
    exec .gFrm s = perform 0x51 s (
      raiseIf (s.frWidth.toNat = 0 ∨ s.frHeight.toNat = 0 ∨ s.count.toNat ≠ s.frWidth.toNat * s.frHeight.toNat) .length <|
      raiseIf (s.params.pixWords < s.src.toNat + s.count.toNat) .bounds <|
      (readIndices s (frameTableLen s) s.src.toNat s.count.toNat).bind fun indices =>
        writeFrame (frameTableLen s) indices s) := by
  have hheld : ¬ ((!s.frFlags.hasPal && isFirstFrame s) ∨ frameTableLen s = 0) := by
    rcases htable with h | h <;> simp [h] <;> omega
  rw [exec_gFrm_of_not_final hopen, raiseIf_decide_of_neg hheld,
    raiseIf_decide_of_neg (show ¬ maxPalette < frameTableLen s from hmax.not_gt)]

theorem gFrm_raises_length
    (hsize : s.frWidth = 0 ∨ s.frHeight = 0 ∨ s.count.toNat ≠ s.frWidth.toNat * s.frHeight.toNat) :
    Raises .gFrm s .length := by
  rw [Raises, exec_gFrm_of_table hopen htable hpos hmax]
  exact perform_raiseIf_of_bad
    (decide_eq_true (hsize.imp (congrArg BitVec.toNat) (Or.imp_left (congrArg BitVec.toNat))))

variable (hwidth : s.frWidth ≠ 0) (hheight : s.frHeight ≠ 0)
  (hcount : s.count.toNat = s.frWidth.toNat * s.frHeight.toNat)
include hwidth hheight hcount

/-- With a frame size that COUNT agrees with, G.FRM checks the range in IDX and then reads and writes. -/
theorem exec_gFrm_of_size :
    exec .gFrm s = perform 0x51 s (
      raiseIf (s.params.pixWords < s.src.toNat + s.count.toNat) .bounds <|
      (readIndices s (frameTableLen s) s.src.toNat s.count.toNat).bind fun indices =>
        writeFrame (frameTableLen s) indices s) := by
  have hsize : ¬ (s.frWidth.toNat = 0 ∨ s.frHeight.toNat = 0 ∨ s.count.toNat ≠ s.frWidth.toNat * s.frHeight.toNat) := by
    rintro (h | h | h)
    · exact hwidth (BitVec.eq_of_toNat_eq h)
    · exact hheight (BitVec.eq_of_toNat_eq h)
    · exact h hcount
  rw [exec_gFrm_of_table hopen htable hpos hmax, raiseIf_decide_of_neg hsize]

theorem gFrm_raises_bounds (hout : s.params.pixWords < s.src.toNat + s.count.toNat) : Raises .gFrm s .bounds := by
  rw [Raises, exec_gFrm_of_size hopen htable hpos hmax hwidth hheight hcount]
  exact perform_raiseIf_of_bad (decide_eq_true hout)

variable (hin : s.src.toNat + s.count.toNat ≤ s.params.pixWords)
include hin

/-- Past its checks G.FRM reads the indices, each checked as it is read, and writes the frame. -/
theorem exec_gFrm_of_range :
    exec .gFrm s = perform 0x51 s (
      (readIndices s (frameTableLen s) s.src.toNat s.count.toNat).bind fun indices =>
        writeFrame (frameTableLen s) indices s) := by
  rw [exec_gFrm_of_size hopen htable hpos hmax hwidth hheight hcount, raiseIf_decide_of_neg hin.not_gt]

variable {indices : List Byte} (hlen : indices.length = s.count.toNat) (hidx : holdsBytes s .idx s.src.toNat indices)
include hlen hidx

theorem gFrm_raises_indexRange (hbad : ∃ v ∈ indices, frameTableLen s ≤ v.toNat) : Raises .gFrm s .indexRange := by
  rw [Raises, exec_gFrm_of_range hopen htable hpos hmax hwidth hheight hcount hin, readIndices_bad hlen hidx hbad]
  rfl

/-- With every index in its range, all that is left of G.FRM is the writing of the frame. -/
theorem exec_gFrm_of_indices (hall : ∀ v ∈ indices, v.toNat < frameTableLen s) :
    exec .gFrm s = perform 0x51 s (writeFrame (frameTableLen s) indices s) := by
  rw [exec_gFrm_of_range hopen htable hpos hmax hwidth hheight hcount hin, readIndices_ok.mpr ⟨hlen, hidx, hall⟩]
  rfl

end GFrm

/-- Settles O42: each error is the first check that finds something wrong. -/
theorem gFrmChecksInOrder : Obligations.GFrmChecksInOrder := by
  intro s
  refine ⟨gFrm_raises_state, fun hopen => ⟨fun hpal hzero => ?_, fun hno hnone => ?_, gFrm_raises_paletteSize hopen,
    fun htable hpos hmax => ⟨gFrm_raises_length hopen htable hpos hmax, gFrm_raises_bounds hopen htable hpos hmax⟩⟩⟩
  · have hlen : frameTableLen s = s.palLen.toNat := if_pos hpal
    exact gFrm_raises_noPalette hopen (.inr (by rw [hlen, hzero]; rfl))
  · have hlen : frameTableLen s = s.gpalLen.toNat := if_neg (by simp [hno])
    refine gFrm_raises_noPalette hopen (hnone.imp (fun hfirst => by simp [hno, hfirst]) fun hzero => ?_)
    rw [hlen, hzero]
    rfl

/-- The state with the frame's bytes appended, the global table's length recorded and the stream open, which G.FRM
completes in. -/
def frameWritten (s : State) (bytes : List Byte) : State :=
  { pushBytes s bytes with
    gpalLen := if isFirstFrame s then BitVec.ofNat 9 (frameTableLen s) else s.gpalLen
    gstate := .header }

/-- The length of a table in use fits GPAL_LEN. -/
theorem frameWritten_gpalLen {s : State} (bytes : List Byte) (hmax : frameTableLen s ≤ 256) :
    (frameWritten s bytes).gpalLen.toNat = if isFirstFrame s then frameTableLen s else s.gpalLen.toNat := by
  show (if isFirstFrame s then BitVec.ofNat 9 (frameTableLen s) else s.gpalLen).toNat = _
  split
  · rw [BitVec.toNat_ofNat, Nat.mod_eq_of_lt (by omega)]
  · rfl

theorem frameBytes_ne_nil (s : State) (lp : Nat) (pal : List Word) (indices : List Byte) :
    frameBytes s lp pal indices ≠ [] := by
  simp [frameBytes, gceBytes]

/-- Settles O43: the writing part of G.FRM is the append of the frame's bytes (`writeFrame_eq`), which fit or do not. -/
theorem gFrmWritesTheFrame : Obligations.GFrmWritesTheFrame := by
  intro s indices pal hp hopen htable hpos hmax hwidth hheight hcount hin hlen hidx hpal
  have hwrite := writeFrame_eq s indices pal hp htable hmax hpal
  have hexec := exec_gFrm_of_indices hopen htable hpos hmax hwidth hheight hcount hin hlen hidx
  refine ⟨gFrm_raises_indexRange hopen htable hpos hmax hwidth hheight hcount hin hlen hidx, fun hall hfull => ?_,
    fun hall hroom => ?_⟩
  · rw [Raises, hexec hall, hwrite, appendBytes_full hp (frameBytes_ne_nil _ _ _ _) hfull]
    rfl
  · refine ⟨frameWritten s (frameBytes s (frameTableLen s) pal indices), ?_, rfl, frameWritten_gpalLen _ hmax,
      cursor_add hp hroom, holdsBytes_pushBytes s _, sameMemoryOutside_pushBytes s _⟩
    rw [hexec hall, hwrite, appendBytes_fits hp hroom]
    rfl

/-! ## Signature and trailer -/

/-- Appends keep the signature at the stream's start. -/
theorem Appended.streamSigned {s t : State} (h : Appended s t) (hp : s.params.wf) (hs : streamSigned s) :
    streamSigned t := by
  obtain ⟨hlong, hbytes⟩ := hs
  obtain ⟨vs, rfl, rfl | hfit⟩ := h.bytes (outCap_lt hp)
  · rw [pushBytes_nil]
    exact ⟨hlong, hbytes⟩
  · have hcursor : (pushBytes s vs).cursor.toNat = s.cursor.toNat + vs.length := cursor_add hp hfit
    refine ⟨by omega, fun k hk => ?_⟩
    rw [memByte_pushBytes, outAddr_eq, outAddr_eq, if_neg (by omega)]
    exact outAddr_eq k ▸ hbytes k hk

/-- The signature appended to an empty stream signs it. -/
theorem streamSigned_pushBytes {s : State} (hcursor : s.cursor = 0) : streamSigned (pushBytes s signatureBytes) := by
  have hheld := holdsBytes_pushBytes s signatureBytes
  rw [hcursor] at hheld
  refine ⟨by simp [pushBytes, hcursor, signatureBytes], fun k hk => ?_⟩
  simpa [outAddr] using hheld k hk

/-- A block that is written under a condition. -/
theorem appended_ite {c : Prop} [Decidable c] {x : Except Stop State} {s t : State}
    (h : (if c then x else .ok s) = .ok t) (hx : x = .ok t → Appended s t) : Appended s t := by
  split at h
  · exact hx h
  · cases h
    exact .refl s

/-- The first block of an automatic-mode stream's first frame is the signature (44_gif_mux.md R345). -/
theorem writeFrame_signature {lp : Nat} {ix : List Byte} {s t : State} (hauto : s.modeAuto = true)
    (hunopened : s.gstate = .uninit) (h : writeFrame lp ix s = .ok t) :
    ∃ s1 u, appendBytes s signatureBytes = .ok s1 ∧ Appended s1 u ∧ t = { u with gpalLen := t.gpalLen, gstate := t.gstate } := by
  simp only [writeFrame, bind_ok] at h
  obtain ⟨s1, h1, s2, h2, s3, h3, s4, h4, s5, h5, s6, h6, h7⟩ := h
  have hsignature : appendBytes s signatureBytes = .ok s1 := by simpa [hauto, hunopened] using h1
  have hheader : Appended s1 s2 := appended_ite h2 appended_writeHeader
  have htable : Appended s4 s5 := appended_ite h5 appended_writeTableFrom
  refine ⟨s1, s6, hsignature, hheader.trans (.trans ⟨_, h3⟩ (.trans ⟨_, h4⟩ (htable.trans ⟨_, h6⟩))), ?_⟩
  cases h7
  rfl

/-- A G.FRM without an error has passed its checks and written the frame. -/
theorem gFrm_writeFrame {s t : State} (h : exec .gFrm s = .next t) (ht : t.err = .none) :
    ∃ ix, writeFrame (frameTableLen s) ix s = .ok t := by
  obtain hbody | ⟨e, he, rfl⟩ := perform_cases (by
    exact .raiseIf nofun fun _ => .raiseIf nofun fun _ => .raiseIf nofun fun _ => .raiseIf nofun fun _ =>
      .raiseIf nofun fun _ => .bind (namesErrors_readIndices _ _ _ _) fun _ => namesErrors_writeFrame _ _ _) h
  · simp only [raiseIf_ok, bind_ok] at hbody
    obtain ⟨-, -, -, -, -, ix, -, hwrite⟩ := hbody
    exact ⟨ix, hwrite⟩
  · exact absurd ht he

/-- Settles O45: the signature is the first append on an empty stream, later appends keep it, and the trailer is the
last. -/
theorem gifStartsSignedAndEndsWithTrailer : Obligations.GifStartsSignedAndEndsWithTrailer := by
  intro s t hp hs ht
  refine ⟨fun h hauto hunopened hcursor => ?_, fun h hsigned => ?_, fun h hsigned => ?_⟩
  · obtain ⟨ix, hwrite⟩ := gFrm_writeFrame h ht
    obtain ⟨s1, u, hsignature, hu, hframe⟩ := writeFrame_signature hauto hunopened hwrite
    have hparams : s1.params = s.params := by rw [Appended.frame ⟨_, hsignature⟩]
    have hsigned : streamSigned s1 := by
      rw [appendBytes_eq signatureBytes (outCap_lt hp)] at hsignature
      split at hsignature
      · cases hsignature
        exact streamSigned_pushBytes hcursor
      · cases hsignature
    rw [hframe]
    exact hu.streamSigned (hparams ▸ hp) hsigned
  · obtain ⟨e, he, rfl⟩ | ⟨-, -, u, hu, rfl⟩ := exec_cases h
    · exact absurd ht he
    · exact hu.streamSigned hp hsigned
  · obtain ⟨e, he, rfl⟩ | ⟨hopen, -⟩ := exec_cases h
    · exact absurd ht he
    · by_cases hroom : s.cursor.toNat < s.params.outCap
      · cases (exec_gFin_of_room hopen hroom).symm.trans h
        have hcursor : (s.cursor + 1).toNat = s.cursor.toNat + 1 := cursor_add (n := 1) hp hroom
        have happended : Appended s (pushByte s trailerByte) :=
          ⟨[trailerByte], appendBytes_fits (vs := [trailerByte]) hp hroom⟩
        refine ⟨happended.streamSigned hp hsigned, ?_⟩
        show memByte (pushByte s trailerByte).mem (outAddr ((s.cursor + 1).toNat - 1)) = _
        rw [hcursor, Nat.add_sub_cancel]
        exact memByte_setByte_self _ _ _
      · cases (gFin_raises_streamFull hopen (not_lt.mp hroom)).symm.trans h
        cases ht

end Sys2Proof.Machine
end

section
/-! Reads of elements without a value (20_memory.md R113; log 3). A read loop faults if one of its elements holds no value
and nothing stops it before; each command reaches its reads past its checks, and G.FRM its palette past the blocks before
the colour table, which fit. -/

namespace Sys2Proof.Machine

/-! ## The read loops -/

/-- The body ends with a fault at some element of `sp`. -/
def FaultsAt {α : Type} (sp : Space) (x : Except Stop α) : Prop := ∃ k, x = .error (.fault (.unwrittenElement sp k))

theorem FaultsAt.bind {α β : Type} {sp : Space} {x : Except Stop α} (h : FaultsAt sp x) (f : α → Except Stop β) :
    FaultsAt sp (x.bind f) := by
  obtain ⟨k, rfl⟩ := h
  exact ⟨k, rfl⟩

theorem FaultsAt.map {α β : Type} {sp : Space} {x : Except Stop α} (h : FaultsAt sp x) (f : α → β) :
    FaultsAt sp (x.map f) := by
  obtain ⟨k, rfl⟩ := h
  exact ⟨k, rfl⟩

/-- A command whose body faults faults. -/
theorem FaultsAt.perform {sp : Space} {x : Except Stop State} (h : FaultsAt sp x) (op : BitVec 8) (s : State) :
    ∃ k, perform op s x = .fault (.unwrittenElement sp k) := by
  obtain ⟨k, rfl⟩ := h
  exact ⟨k, rfl⟩

section Reads
variable {s : State} {sp : Space} {a n j : Nat}

theorem memReadByte_cases (s : State) (sp : Space) (a : Nat) :
    (∃ v, memReadByte s sp a = .ok v) ∨ FaultsAt sp (memReadByte s sp a) := by
  unfold memReadByte
  split
  · exact .inl ⟨_, rfl⟩
  · exact .inr ⟨_, rfl⟩

theorem memReadWord_cases (s : State) (sp : Space) (a : Nat) :
    (∃ w, memReadWord s sp a = .ok w) ∨ FaultsAt sp (memReadWord s sp a) := by
  unfold memReadWord
  split
  · exact .inl ⟨_, rfl⟩
  · exact .inr ⟨_, rfl⟩

theorem memReadByte_faults (h : memByte s.mem (elemAddr sp a) = none) : FaultsAt sp (memReadByte s sp a) := by
  refine (memReadByte_cases s sp a).resolve_left ?_
  rintro ⟨v, hv⟩
  cases h.symm.trans (memReadByte_ok.mp hv)

theorem memReadWord_faults (h : ∃ b < 4, memByte s.mem (elemAddr sp a + b) = none) :
    FaultsAt sp (memReadWord s sp a) := by
  obtain ⟨b, hb, hnone⟩ := h
  refine (memReadWord_cases s sp a).resolve_left ?_
  rintro ⟨w, hw⟩
  cases hnone.symm.trans (memReadWord_ok.mp hw b hb)

theorem readByteElems_faults (hj : j < n) (h : memByte s.mem (elemAddr sp (a + j)) = none) :
    FaultsAt sp (readByteElems s sp a n) := by
  induction n generalizing a j with
  | zero => omega
  | succ n ih =>
    obtain ⟨v, hv⟩ | hfault := memReadByte_cases s sp a
    · cases j with
      | zero => exact (memReadByte_faults h).bind _
      | succ j =>
        rw [readByteElems, hv]
        exact (ih (a := a + 1) (j := j) (by omega) (by rwa [Nat.add_right_comm])).map _
    · exact hfault.bind _

theorem readWordElems_faults (hj : j < n) (h : ∃ b < 4, memByte s.mem (elemAddr sp (a + j) + b) = none) :
    FaultsAt sp (readWordElems s sp a n) := by
  induction n generalizing a j with
  | zero => omega
  | succ n ih =>
    obtain ⟨w, hw⟩ | hfault := memReadWord_cases s sp a
    · cases j with
      | zero => exact (memReadWord_faults h).bind _
      | succ j =>
        rw [readWordElems, hw]
        exact (ih (a := a + 1) (j := j) (by omega) (by rwa [Nat.add_right_comm])).map _
    · exact hfault.bind _

/-- The index check lets the loop reach the element where the indices before it are in range. -/
theorem readIndices_faults {limit : Nat} (hj : j < n)
    (hbefore : ∀ i < j, ∀ v, memByte s.mem (elemAddr .idx (a + i)) = some v → v.toNat < limit)
    (h : memByte s.mem (elemAddr .idx (a + j)) = none) : FaultsAt .idx (readIndices s limit a n) := by
  induction n generalizing a j with
  | zero => omega
  | succ n ih =>
    obtain ⟨v, hv⟩ | hfault := memReadByte_cases s .idx a
    · cases j with
      | zero => exact (memReadByte_faults h).bind _
      | succ j =>
        have hlt : v.toNat < limit := hbefore 0 (by omega) v (memReadByte_ok.mp hv)
        rw [readIndices, hv, Except.bind, raiseIf_decide_of_neg hlt.not_ge]
        refine (ih (a := a + 1) (j := j) (by omega) (fun i hi w hw => ?_) (by rwa [Nat.add_right_comm])).map _
        exact hbefore (i + 1) (by omega) w (by rwa [Nat.add_right_comm] at hw)
    · exact hfault.bind _

end Reads

/-- A format code other than the reserved one is that of a format (42_quantizer.md R241). -/
theorem eq_formatCode {b : BitVec 2} (h : b ≠ 3) : ∃ f, b = formatCode f := by
  have hcodes : ∀ b : BitVec 2, b = 0 ∨ b = 1 ∨ b = 2 ∨ b = 3 := by decide
  obtain rfl | rfl | rfl | rfl := hcodes b
  · exact ⟨.rgb565, rfl⟩
  · exact ⟨.rgb444, rfl⟩
  · exact ⟨.rgba4444, rfl⟩
  · exact absurd rfl h

/-! ## The colour table -/

/-- The palette entry `j` of `s0` lacks a byte. -/
def EntryMissing (s0 : State) (j : Nat) : Prop := ∃ b < 4, memByte s0.mem (elemAddr .pal j + b) = none

/-- Appends to the stream leave the palette as it is. -/
theorem EntryMissing.appended {s t : State} {j : Nat} (h : EntryMissing s j) (hp : s.params.wf) (hj : j < 256)
    (ht : Appended s t) : EntryMissing t j := by
  obtain ⟨b, hb, hnone⟩ := h
  refine ⟨b, hb, (ht.below hp).2 _ ?_ ▸ hnone⟩
  rw [outAddr_eq, elemAddr, spaceBase, elemBytes]
  omega

/-- A colour table that fits is written up to a palette entry without a value, at which it faults. -/
theorem writeTableFrom_faults {l k i j : Nat} {s : State} (hp : s.params.wf) (hmissing : EntryMissing s j) (hij : i ≤ j)
    (hjk : j < i + k) (hjl : j < l) (hj : j < 256) (hroom : s.cursor.toNat + 3 * k ≤ s.params.outCap) :
    FaultsAt .pal (writeTableFrom l k i s) := by
  induction k generalizing i s with
  | zero => omega
  | succ k ih =>
    rw [writeTableFrom, tableEntry, if_pos (by omega)]
    obtain ⟨w, hw⟩ | hfault := memReadWord_cases s .pal i
    · by_cases heq : i = j
      · subst heq
        exact ((memReadWord_faults hmissing).map _).bind _
      · have happend : appendBytes s (rgbBytes w) = .ok (pushBytes s (rgbBytes w)) :=
          appendBytes_fits hp (by simp only [rgbBytes, List.length_cons, List.length_nil]; omega)
        have hcursor : (pushBytes s (rgbBytes w)).cursor.toNat = s.cursor.toNat + 3 := cursor_add (n := 3) hp (by omega)
        rw [hw, Except.map, Except.bind, happend]
        refine ih (s := pushBytes s (rgbBytes w)) hp (hmissing.appended hp hj ⟨_, happend⟩) (by omega) (by omega) ?_
        rw [hcursor]
        show s.cursor.toNat + 3 + 3 * k ≤ s.params.outCap
        omega
    · exact (hfault.map _).bind _

theorem writeColorTable_faults {l j : Nat} {s : State} (hp : s.params.wf) (hmissing : EntryMissing s j) (hjl : j < l)
    (hl : l ≤ 256) (hroom : s.cursor.toNat + 3 * 2 ^ ctSize l ≤ s.params.outCap) :
    FaultsAt .pal (writeColorTable l s) :=
  writeTableFrom_faults hp hmissing (Nat.zero_le j) (by have := le_pow_ctSize hl; omega) hjl (by omega) hroom

theorem flatMap_rgbBytes_length (pal : List Word) : (pal.flatMap rgbBytes).length = 3 * pal.length := by
  induction pal with
  | nil => rfl
  | cons w ws ih =>
    rw [List.flatMap_cons, List.length_append, ih, List.length_cons]
    simp only [rgbBytes, List.length_cons, List.length_nil]
    omega

theorem tableBytes_length {pal : List Word} (h : pal.length ≤ 2 ^ ctSize pal.length) :
    (tableBytes pal).length = 3 * 2 ^ ctSize pal.length := by
  rw [tableBytes, List.length_append, flatMap_rgbBytes_length, List.length_replicate]
  omega

/-! ## The palette of a frame -/

/-- Palette entry `j` lacks a byte, and `n` more bytes fit the stream. -/
structure EntryAhead (j n : Nat) (s : State) : Prop where
  wf : s.params.wf
  missing : EntryMissing s j
  room : s.cursor.toNat + n ≤ s.params.outCap

/-- A block that fits is written, and what comes after it is reached. -/
theorem EntryAhead.append {s : State} {j n : Nat} {vs : List Byte} {f : State → Except Stop State} (hj : j < 256)
    (h : EntryAhead j (vs.length + n) s) (hrest : ∀ t, EntryAhead j n t → FaultsAt .pal (f t)) :
    FaultsAt .pal ((appendBytes s vs).bind f) := by
  obtain ⟨hp, hmissing, hroom⟩ := h
  have happend : appendBytes s vs = .ok (pushBytes s vs) := appendBytes_fits hp (by omega)
  rw [happend]
  refine hrest _ ⟨hp, hmissing.appended hp hj ⟨vs, happend⟩, ?_⟩
  have hcursor : (pushBytes s vs).cursor.toNat = s.cursor.toNat + vs.length := cursor_add hp (by omega)
  rw [hcursor]
  show s.cursor.toNat + vs.length + n ≤ s.params.outCap
  omega

theorem EntryAhead.mono {s : State} {j m n : Nat} (h : EntryAhead j m s) (hmn : n ≤ m) : EntryAhead j n s :=
  ⟨h.wf, h.missing, by have := h.room; omega⟩

theorem EntryAhead.colorTable {s : State} {j l : Nat} (h : EntryAhead j (3 * 2 ^ ctSize l) s) (hjl : j < l)
    (hl : l ≤ 256) : FaultsAt .pal (writeColorTable l s) :=
  writeColorTable_faults h.wf h.missing hjl hl h.room

/-- A block written under a condition counts where it is written. -/
theorem EntryAhead.appendIf {s : State} {c : Prop} [Decidable c] {j n : Nat} {vs : List Byte}
    {f : State → Except Stop State} (hj : j < 256) (h : EntryAhead j ((if c then vs else []).length + n) s)
    (hrest : ∀ t, EntryAhead j n t → FaultsAt .pal (f t)) :
    FaultsAt .pal ((if c then appendBytes s vs else .ok s).bind f) := by
  by_cases hc : c
  · rw [if_pos hc] at h ⊢
    exact h.append hj hrest
  · rw [if_neg hc] at h ⊢
    exact hrest s (h.mono (Nat.le_add_left ..))

theorem EntryAhead.header {s : State} {j l : Nat} (hjl : j < l) (hl : l ≤ 256)
    (h : EntryAhead j (7 + 3 * 2 ^ ctSize l) s) : FaultsAt .pal (writeHeader l s) :=
  EntryAhead.append (vs := lsdBytes s.frWidth s.frHeight l) (by omega) h fun _ ht => (ht.colorTable hjl hl).bind _

section Frame
variable {s : State} {j l : Nat} {indices : List Byte} {pal : List Word}

/-- The bytes of a frame with a palette, up to the end of its table: a first frame's before the frame, another's in it. -/
theorem frameBytes_length_ge (hpal : s.frFlags.hasPal = true) :
    (if s.modeAuto ∧ s.gstate = .uninit then signatureBytes else []).length +
      ((if isFirstFrame s then 7 else 18) + (tableBytes pal).length) ≤ (frameBytes s l pal indices).length := by
  rw [frameBytes, hpal]
  cases isFirstFrame s <;> simp [lsdBytes, gceBytes, imageDescBytes, u16le] <;> omega

theorem writeFrame_faults (hp : s.params.wf)
    (hpal : s.frFlags.hasPal = true) (hlen : pal.length = s.palLen.toNat) (hl : s.palLen.toNat ≤ 256)
    (hj : j < s.palLen.toNat) (hmissing : EntryMissing s j)
    (hroom : s.cursor.toNat + (frameBytes s s.palLen.toNat pal indices).length ≤ s.params.outCap) :
    FaultsAt .pal (writeFrame s.palLen.toNat indices s) := by
  have htable : (tableBytes pal).length = 3 * 2 ^ ctSize s.palLen.toNat := by
    rw [tableBytes_length (hlen ▸ le_pow_ctSize hl), hlen]
  have hahead : EntryAhead j _ s := ⟨hp, hmissing, (Nat.add_le_add_left (frameBytes_length_ge hpal) _).trans hroom⟩
  rw [htable] at hahead
  have hsmall : j < 256 := by omega
  simp only [Bool.and_eq_true, decide_eq_true_eq, writeFrame]
  refine hahead.appendIf hsmall fun s1 h1 => ?_
  cases hfirst : isFirstFrame s with
  | true => 
    rw [hfirst] at h1
    exact (EntryAhead.header hj hl h1).bind _
  | false =>
    rw [hfirst] at h1
    rw [hpal]
    have h1 : EntryAhead j (8 + (10 + 3 * 2 ^ ctSize s.palLen.toNat)) s1 := h1.mono (Nat.add_assoc 8 10 _).ge
    refine EntryAhead.append (vs := gceBytes s.frFlags s.frDelay) hsmall h1 fun s3 h3 => ?_
    refine EntryAhead.append (vs := imageDescBytes s.frWidth s.frHeight _ _) hsmall h3 fun s4 h4 => ?_
    exact (h4.colorTable hj hl).bind _

end Frame

/-- Settles O13: past its checks each command reaches the element in its read loop, or G.FRM in the colour table. -/
theorem unwrittenReadFaults : Obligations.UnwrittenReadFaults := by
  intro s j
  refine ⟨fun hj hopen hin hroom hnone => ?_, fun d hj hd hopen hin hbefore hnone => ?_, fun hj hroom hin hnone => ?_,
    fun fmt hfmt hpal hmax hpos hsrc hdst => ?_, fun hp hopen htable hpos hmax hwidth hheight hcount hin =>
      ⟨fun hj hbefore hnone => ?_, fun indices pal hlen hidx hall hpal hplen hroom hj hnone => ?_⟩⟩
  · rw [exec_bsWbs_of_count_pos hopen (Nat.zero_lt_of_lt hj), raiseIf_decide_of_neg hin.not_gt,
      raiseIf_decide_of_neg hroom.not_gt]
    exact ((readByteElems_faults hj hnone).bind _).perform _ _
  · rw [exec_lEnc_of_range hd hopen (Nat.zero_lt_of_lt hj) hin]
    exact ((readIndices_faults hj hbefore hnone).bind _).perform _ _
  · rw [exec_qAcc_of_count_pos (Nat.zero_lt_of_lt hj), raiseIf_decide_of_neg hroom.not_gt,
      raiseIf_decide_of_neg hin.not_gt]
    exact ((readWordElems_faults hj hnone).bind _).perform _ _
  · obtain ⟨f, rfl⟩ := eq_formatCode hfmt
    have hexec := exec_mMap_of_count_pos f hpal hmax hpos
    rw [raiseIf_decide_of_neg hsrc.not_gt, raiseIf_decide_of_neg hdst.not_gt] at hexec
    rw [hexec]
    refine ⟨fun hj hnone => ((readWordElems_faults hj hnone).bind _).perform _ _, fun pixels hlen hpix hj hnone => ?_⟩
    rw [readWordElems_ok.mpr ⟨hlen, hpix⟩]
    exact ((readWordElems_faults hj (by rwa [Nat.zero_add])).bind _).perform _ _
  · rw [exec_gFrm_of_range hopen htable hpos hmax hwidth hheight hcount hin]
    exact ((readIndices_faults hj hbefore hnone).bind _).perform _ _
  · have hl : frameTableLen s = s.palLen.toNat := if_pos hpal
    rw [exec_gFrm_of_indices hopen htable hpos hmax hwidth hheight hcount hin hlen hidx hall, hl]
    rw [hl] at hmax hroom
    exact (writeFrame_faults hp hpal hplen hmax hj hnone hroom).perform _ _

end Sys2Proof.Machine
end

section
/-! The quantizer's accumulation in two parts (42_quantizer.md R243), what Q.RED writes (R250, R262), the de-duplication of
a palette (R262), Nearest and the cache of M.MAP (43_mapper.md R301, R302), and the sizes of colour tables (44_gif_mux.md
R333). -/

namespace Sys2Proof.Machine

/-! ## Q.ACC in two parts -/

/-- A Q.ACC of some pixels that ends without an error has found room, its range inside PIX, and its pixels held. -/
theorem accumulate_of_qAcc {s t : State} (hpos : 0 < s.count.toNat) (h : exec .qAcc s = .next t) (ht : t.err = .none) :
    s.histPixels.toNat + s.count.toNat ≤ 2 ^ 32 - 1 ∧ s.src.toNat + s.count.toNat ≤ s.params.pixWords ∧
      ∃ pixels, pixels.length = s.count.toNat ∧ holdsWords s .pix s.src.toNat pixels ∧ t = accumulate s pixels := by
  rw [exec_qAcc_of_count_pos hpos] at h
  obtain hbody | ⟨e, he, rfl⟩ := perform_cases (by
    exact .raiseIf nofun fun _ => .raiseIf nofun fun _ => .bind (namesErrors_readWordElems _ _ _ _) fun _ => .ok _) h
  · simp only [raiseIf_ok, bind_ok, decide_eq_false_iff_not, not_lt, readWordElems_ok] at hbody
    obtain ⟨hroom, hin, pixels, ⟨hlen, hpix⟩, hdone⟩ := hbody
    exact ⟨hroom, hin, pixels, hlen, hpix, (Except.ok.inj hdone).symm⟩
  · exact absurd ht he

/-- The state with other operands SRC and COUNT and another total HIST_PIXELS. -/
def reoperand (src count total : Word) (s : State) : State := { s with src := src, count := count, histPixels := total }

/-- Counting pixels neither reads nor writes the operands and HIST_PIXELS. -/
theorem foldl_countPixel_reoperand (ps : List Word) (src count total : Word) (s : State) :
    ps.foldl countPixel (reoperand src count total s) = reoperand src count total (ps.foldl countPixel s) := by
  induction ps generalizing s with
  | nil => rfl
  | cons p ps ih => exact ih (countPixel s p)

theorem accumulate_reoperand (src count total : Word) (s : State) (ps : List Word) :
    accumulate (reoperand src count total s) ps = reoperand src count (total + count) (ps.foldl countPixel s) := by
  rw [accumulate, foldl_countPixel_reoperand]
  rfl

/-- Accumulating `ps` and then `qs` is accumulating both, operands aside. -/
theorem accumulate_append (s : State) (ps qs : List Word) (m n src : Word) :
    accumulate { s with count := m + n } (ps ++ qs) =
      { accumulate { accumulate { s with count := m } ps with src := src, count := n } qs with
        src := s.src, count := m + n } := by
  have hfirst : accumulate { s with count := m } ps = reoperand s.src m (s.histPixels + m) (ps.foldl countPixel s) :=
    accumulate_reoperand s.src m s.histPixels s ps
  have hsecond : accumulate { accumulate { s with count := m } ps with src := src, count := n } qs =
      reoperand src n (s.histPixels + m + n) (qs.foldl countPixel (ps.foldl countPixel s)) := by
    rw [hfirst]
    exact accumulate_reoperand src n (s.histPixels + m) (ps.foldl countPixel s) qs
  have hboth : accumulate { s with count := m + n } (ps ++ qs) =
      reoperand s.src (m + n) (s.histPixels + (m + n)) (qs.foldl countPixel (ps.foldl countPixel s)) :=
    (accumulate_reoperand s.src (m + n) s.histPixels s (ps ++ qs)).trans (by rw [List.foldl_append])
  rw [hboth, hsecond, ← BitVec.add_assoc]
  rfl

theorem holdsWords_append {s : State} {sp : Space} {a : Nat} {ps qs : List Word} (hps : holdsWords s sp a ps)
    (hqs : holdsWords s sp (a + ps.length) qs) : holdsWords s sp a (ps ++ qs) := by
  intro j hj k hk
  rw [List.length_append] at hj
  obtain hfirst | hsecond := Nat.lt_or_ge j ps.length
  · rw [List.getElem?_append_left hfirst]
    exact hps j hfirst k hk
  · rw [List.getElem?_append_right hsecond, ← hqs (j - ps.length) (by omega) k hk]
    congr 3
    omega

/-- Settles O26: Q.ACC completes in `accumulate` of its pixels, which two parts give as well as one. -/
theorem qAccAccumulates : Obligations.QAccAccumulates := by
  intro s t u m n hm hn hmn hsrc hs h1 ht h2 hu
  obtain ⟨hroom1, -, ps, hplen, hps, rfl⟩ := accumulate_of_qAcc (s := { s with count := m }) hm h1 ht
  obtain ⟨hroom2, hin2, qs, hqlen, hqs, rfl⟩ := accumulate_of_qAcc (s := { accumulate { s with count := m } ps with
    src := s.src + m, count := n }) hn h2 hu
  replace hplen : ps.length = m.toNat := hplen
  replace hqlen : qs.length = n.toNat := hqlen
  have hframe := accumulate_frame { s with count := m } ps
  have hsum : (m + n).toNat = m.toNat + n.toNat := BitVec.toNat_add_of_lt hmn
  have hnext : (s.src + m).toNat = s.src.toNat + ps.length := by rw [BitVec.toNat_add_of_lt hsrc, hplen]
  have htotal : (s.histPixels + m).toNat = s.histPixels.toNat + m.toNat :=
    histPixels_add_count (s := { s with count := m }) hroom1
  replace hroom2 : (s.histPixels + m).toNat + n.toNat ≤ 2 ^ 32 - 1 := hroom2
  replace hin2 : (s.src + m).toNat + n.toNat ≤ s.params.pixWords := by rw [hframe] at hin2; exact hin2
  replace hqs : holdsWords s .pix (s.src + m).toNat qs := by rw [hframe] at hqs; exact hqs
  rw [← accumulate_append]
  refine exec_qAcc_of_pixels (s := { s with count := m + n }) (hsum ▸ by omega) ?_ ?_
    (holdsWords_append hps (hnext ▸ hqs)) ?_
  · show s.histPixels.toNat + (m + n).toNat ≤ _
    omega
  · rw [List.length_append, hplen, hqlen]
    exact hsum.symm
  · show s.src.toNat + (m + n).toNat ≤ s.params.pixWords
    omega

/-! ## Q.RED -/

theorem elemAddr_pal (a : Nat) : elemAddr .pal a = elemAddr .pal 0 + 4 * a := by
  simp only [elemAddr, elemBytes]
  omega

/-- The palette entries written stand packed from the first element of PAL on. -/
theorem holdsWords_writePalette (s : State) (pal : List Rgba) :
    holdsWords (writePalette s pal) .pal 0 (pal.map packPixel) := by
  intro j hj k hk
  rw [Nat.zero_add, elemAddr_pal, ← memByte_setWords s.mem hj hk, List.flatMap_map]
  rfl

theorem sameMemoryOutside_writePalette (s : State) (pal : List Rgba) :
    sameMemoryOutside s (writePalette s pal) (elemAddr .pal 0) (elemAddr .pal pal.length) := by
  intro b hb
  refine memByte_setBytes_outside ?_
  rwa [← List.flatMap_map, flatMap_wordBytes_length, List.length_map, ← elemAddr_pal]

section QRed
variable {n : BitVec 9} {s : State} (hlow : 1 ≤ n.toNat) (hhigh : n.toNat ≤ 256)
include hlow hhigh

theorem exec_qRed_of_ncol :
    exec (.qRed n) s = perform 0x32 s (raiseIf (s.histBins = 0) .emptyHist <|
      .ok (writePalette s (reducePalette s.params s.qcfg s.histFmt s.hist n.toNat))) :=
  congrArg (perform 0x32 s) (raiseIf_decide_of_neg (by omega))

theorem qRed_raises_emptyHist (hempty : s.histBins = 0) : Raises (.qRed n) s .emptyHist :=
  (exec_qRed_of_ncol hlow hhigh).trans (perform_raiseIf_of_bad (decide_eq_true hempty))

theorem exec_qRed_of_bins (hbins : s.histBins ≠ 0) :
    exec (.qRed n) s = .next (writePalette s (reducePalette s.params s.qcfg s.histFmt s.hist n.toNat)) := by
  rw [exec_qRed_of_ncol hlow hhigh, raiseIf_decide_of_neg hbins]
  rfl

end QRed

/-- Settles O27: past its two checks Q.RED is `writePalette` of the reduced palette. -/
theorem qRedWritesThePalette : Obligations.QRedWritesThePalette := by
  intro n s
  refine ⟨fun hbad => perform_raiseIf_of_bad (decide_eq_true (by omega)), qRed_raises_emptyHist,
    fun hlow hhigh hbins => ⟨_, exec_qRed_of_bins hlow hhigh hbins, rfl, ?_, ?_⟩⟩
  · exact holdsWords_writePalette s _
  · exact sameMemoryOutside_writePalette s _

/-! ## De-duplication -/

theorem mem_dedupFrom {seen l : List Rgba} {c : Rgba} : c ∈ dedupFrom seen l ↔ c ∈ l ∧ c ∉ seen := by
  induction l generalizing seen with
  | nil => simp [dedupFrom]
  | cons d ds ih =>
    rw [dedupFrom]
    split
    · next hseen =>
      have hne : c ∉ seen → c ≠ d := fun hc heq => hc (heq ▸ hseen)
      rw [ih, List.mem_cons]
      tauto
    · next hnew =>
      have hne : c = d → c ∉ seen := fun heq => heq ▸ hnew
      rw [List.mem_cons, ih, List.mem_cons, List.mem_cons]
      tauto

theorem nodup_dedupFrom (seen l : List Rgba) : (dedupFrom seen l).Nodup := by
  induction l generalizing seen with
  | nil => exact .nil
  | cons d ds ih =>
    rw [dedupFrom]
    split
    · exact ih seen
    · exact .cons (fun hmem => (mem_dedupFrom.mp hmem).2 List.mem_cons_self) (ih _)

theorem dedupFrom_sublist (seen l : List Rgba) : (dedupFrom seen l).Sublist l := by
  induction l generalizing seen with
  | nil => exact .slnil
  | cons d ds ih =>
    rw [dedupFrom]
    split
    · exact (ih seen).cons d
    · exact (ih _).cons_cons d

/-- A colour not seen before is kept, after what is kept of the colours before it. -/
theorem dedupFrom_append_new {seen l : List Rgba} {c : Rgba} (hseen : c ∉ seen) (hl : c ∉ l) :
    dedupFrom seen (l ++ [c]) = dedupFrom seen l ++ [c] := by
  induction l generalizing seen with
  | nil => simp [dedupFrom, hseen]
  | cons d ds ih =>
    obtain ⟨hne, hds⟩ := List.ne_and_not_mem_of_not_mem_cons hl
    rw [List.cons_append, dedupFrom, dedupFrom]
    split
    · exact ih hseen hds
    · rw [ih (List.not_mem_cons_of_ne_of_not_mem hne hseen) hds, List.cons_append]

/-- Settles O29: by induction on the list, the colours seen generalised. -/
theorem paletteHasNoDuplicates : Obligations.PaletteHasNoDuplicates := by
  refine fun l => ⟨nodup_dedupFrom [] l, fun c => by simp [mem_dedupFrom], dedupFrom_sublist [] l, fun j c hj hfirst => ?_⟩
  have hnew : c ∉ l.take j := by
    rw [List.mem_take_iff_getElem]
    rintro ⟨i, hi, heq⟩
    exact hfirst i (by omega) (heq ▸ List.getElem?_eq_getElem _)
  rw [List.take_add_one, hj]
  exact dedupFrom_append_new List.not_mem_nil hnew

/-! ## Nearest -/

theorem sqDiff_le (x y : BitVec 8) : sqDiff x y ≤ 255 * 255 := by
  rw [sqDiff, sq]
  exact Nat.mul_le_mul (by omega) (by omega)

theorem colorDist_le (alpha : Bool) (q c : Rgba) : colorDist alpha q c ≤ 4 * 255 * 255 := by
  have ha := sqDiff_le q.a c.a
  have hr := sqDiff_le q.r c.r
  have hg := sqDiff_le q.g c.g
  have hb := sqDiff_le q.b c.b
  rw [colorDist]
  split <;> omega

/-- The entry at `k` is at the least distance to `c`, and the last at that distance. -/
def LastOfLeast (alpha : Bool) (c : Rgba) (qs : List Rgba) (k : Nat) : Prop :=
  ∃ q, qs[k]? = some q ∧ ∀ (i : Nat) (e : Rgba), qs[i]? = some e →
    colorDist alpha q c ≤ colorDist alpha e c ∧ (colorDist alpha e c = colorDist alpha q c → i ≤ k)

section LastOfLeast
variable {alpha : Bool} {c q e : Rgba} {qs : List Rgba} {k : Nat}

theorem LastOfLeast.head (h : ∀ e ∈ qs, colorDist alpha q c < colorDist alpha e c) :
    LastOfLeast alpha c (q :: qs) 0 := by
  refine ⟨q, rfl, fun i d hd => ?_⟩
  cases i with
  | zero =>
    obtain rfl := Option.some.inj hd
    exact ⟨le_rfl, fun _ => le_rfl⟩
  | succ i =>
    have hfar := h d (List.mem_of_getElem? hd)
    exact ⟨hfar.le, fun heq => absurd heq hfar.ne'⟩

/-- An entry before the list that some entry of it is at least as near as leaves the last of the least where it is. -/
theorem LastOfLeast.cons (h : LastOfLeast alpha c qs k) (he : e ∈ qs) (hle : colorDist alpha e c ≤ colorDist alpha q c) :
    LastOfLeast alpha c (q :: qs) (k + 1) := by
  obtain ⟨p, hp, hleast⟩ := h
  refine ⟨p, hp, fun i d hd => ?_⟩
  cases i with
  | zero =>
    obtain rfl := Option.some.inj hd
    obtain ⟨j, hj⟩ := List.getElem?_of_mem he
    exact ⟨(hleast j e hj).1.trans hle, fun _ => Nat.zero_le _⟩
  | succ i =>
    obtain ⟨hdist, hlast⟩ := hleast i d hd
    exact ⟨hdist, fun heq => Nat.succ_le_succ (hlast heq)⟩

end LastOfLeast

/-- The loop of Nearest keeps its index where every entry ahead is farther than the best so far; otherwise it ends at the
last of the least of those ahead. -/
theorem nearestFrom_spec (alpha : Bool) (c : Rgba) (qs : List Rgba) (i best x : Nat) :
    (nearestFrom alpha c qs i best x = x ∧ ∀ e ∈ qs, best < colorDist alpha e c) ∨
    ∃ k, nearestFrom alpha c qs i best x = i + k ∧ LastOfLeast alpha c qs k ∧
      ∃ e ∈ qs, colorDist alpha e c ≤ best := by
  induction qs generalizing i best x with
  | nil => exact .inl ⟨rfl, nofun⟩
  | cons q qs ih =>
    rw [nearestFrom]
    split
    · next hle =>
      obtain ⟨heq, hfar⟩ | ⟨k, heq, hk, e, he, hebest⟩ := ih (i + 1) (colorDist alpha q c) i
      · exact .inr ⟨0, heq, .head hfar, q, List.mem_cons_self, hle⟩
      · exact .inr ⟨k + 1, by omega, hk.cons he hebest, q, List.mem_cons_self, hle⟩
    · next hlt =>
      obtain ⟨heq, hfar⟩ | ⟨k, heq, hk, e, he, hebest⟩ := ih (i + 1) best x
      · exact .inl ⟨heq, List.forall_mem_cons.mpr ⟨not_le.mp hlt, hfar⟩⟩
      · exact .inr ⟨k + 1, by omega, hk.cons he (by omega), e, List.mem_cons_of_mem q he, hebest⟩

/-- Settles O37: no distance exceeds the loop's initial best, so it ends at the last of the least entries. -/
theorem nearestIsTheLastOfTheLeast : Obligations.NearestIsTheLastOfTheLeast := by
  intro alpha pal c hne
  obtain ⟨-, hfar⟩ | ⟨k, heq, hk, -⟩ := nearestFrom_spec alpha c pal 0 (4 * 255 * 255 + 1) 0
  · obtain ⟨e, he⟩ := List.exists_mem_of_ne_nil pal hne
    have hdist := colorDist_le alpha e c
    have := hfar e he
    omega
  · have hnearest : nearest alpha pal c = k := heq.trans (Nat.zero_add k)
    rw [hnearest]
    exact hk

/-! ## The cache -/

/-- The index M.MAP writes for a colour: the cache's for its key, or else Nearest's for the first colour ahead with it. -/
theorem mapPixels_getElem? (f : Format) (pal : List Rgba) (cache : MapCache) {cs : List Rgba} {j : Nat} {c rep : Rgba}
    (hc : cs[j]? = some c)
    (hrep : lookupKey cache (colorKey f c) = none → cs.find? (fun e => colorKey f e = colorKey f c) = some rep) :
    (mapPixels f pal cache cs)[j]? =
      some ((lookupKey cache (colorKey f c)).getD (BitVec.ofNat 8 (nearest (hasAlpha f) pal rep))) := by
  induction cs generalizing cache j with
  | nil => cases hc
  | cons d ds ih =>
    rw [mapPixels]
    cases j with
    | zero =>
      obtain rfl := Option.some.inj hc
      split
      · next x hit => rw [hit]; rfl
      · next miss =>
        obtain rfl : d = rep := by simpa using hrep miss
        rw [miss]
        rfl
    | succ j =>
      have htail (hkey : colorKey f d ≠ colorKey f c) (hmiss : lookupKey cache (colorKey f c) = none) :
          ds.find? (fun e => colorKey f e = colorKey f c) = some rep := by
        simpa [List.find?_cons, hkey] using hrep hmiss
      split
      · next x hit =>
        refine ih cache hc fun hmiss => htail (fun hkey => ?_) hmiss
        cases (hkey ▸ hit).symm.trans hmiss
      · next miss =>
        by_cases hkey : colorKey f d = colorKey f c
        · obtain rfl : d = rep := by simpa [hkey] using hrep (hkey ▸ miss)
          have hit := lookupKey_cons (colorKey f d, BitVec.ofNat 8 (nearest (hasAlpha f) pal d)) cache (colorKey f c)
          rw [if_pos hkey.symm] at hit
          have hindex := ih _ hc fun hmiss => nomatch hit.symm.trans hmiss
          rw [hit] at hindex
          rw [← hkey, miss]
          exact hindex
        · have hpast := lookupKey_cons (colorKey f d, BitVec.ofNat 8 (nearest (hasAlpha f) pal d)) cache (colorKey f c)
          rw [if_neg (Ne.symm hkey)] at hpast
          rw [← hpast]
          exact ih _ hc fun hmiss => htail hkey (hpast.symm.trans hmiss)

/-- Settles O38: the cache is empty at first. -/
theorem cacheGivesTheRepresentativesIndex : Obligations.CacheGivesTheRepresentativesIndex :=
  fun f pal cs => ⟨mapPixels_length f pal [] cs, fun _ _ _ hc hrep => mapPixels_getElem? f pal [] hc fun _ => hrep⟩

/-! ## Colour tables -/

theorem le_pow_ceilLog2 (l : Nat) : l ≤ 2 ^ ceilLog2 l := by
  rw [ceilLog2]
  split
  · assumption
  · have := Nat.lt_log2_self (n := l - 1)
    omega

theorem ceilLog2_le {l k : Nat} (h : l ≤ 2 ^ k) : ceilLog2 l ≤ k := by
  rw [ceilLog2]
  split
  · exact Nat.zero_le k
  · next hl => exact (Nat.log2_lt (by omega)).mpr (by omega)

theorem le_two_pow_ctSize (l : Nat) : l ≤ 2 ^ ctSize l :=
  (le_pow_ceilLog2 l).trans (Nat.pow_le_pow_right (by decide) (le_max_left ..))

theorem ctSize_le_of_le_pow {l k : Nat} (hk : 1 ≤ k) (h : l ≤ 2 ^ k) : ctSize l ≤ k := max_le (ceilLog2_le h) hk

/-- The size field of the screen descriptor's packed byte is the byte's low three bits. -/
theorem sizeField_lsd : ∀ k < 8,
    ((BitVec.ofNat 8 (1 <<< 7 ||| 7 <<< 4 ||| 0 <<< 3 ||| k)).extractLsb' 0 3).toNat = k := by decide

/-- And so is that of the image descriptor's. -/
theorem sizeField_imageDesc : ∀ k < 8, ((BitVec.ofNat 8 (1 <<< 7 ||| k)).extractLsb' 0 3).toNat = k := by decide

/-- Settles O46: the exponent is the least by that of `Nat.log2`; for L up to 256 it is at most 8, so it fits its field. -/
theorem ctSizeIsTheSmallest : Obligations.CtSizeIsTheSmallest := by
  refine ⟨fun l _ => ⟨le_two_pow_ctSize l, le_max_right .., fun _ => ctSize_le_of_le_pow⟩,
    fun pal _ => tableBytes_length (le_two_pow_ctSize _), fun l w h _ hl => ?_⟩
  have hfield : ctSize l - 1 < 8 := by have := ctSize_le hl; omega
  exact ⟨sizeField_lsd _ hfield, congrArg some (sizeField_imageDesc _ hfield)⟩

end Sys2Proof.Machine
end

section
/-! The finite binary64 numbers as rationals: their comparisons (00_scope.md R12) and RoundClamp (42_quantizer.md R261). -/

namespace Sys2Proof.Machine

/-! ## The value of a finite number -/

/-- (-1)^neg · m · 2^e. -/
def finRat (neg : Bool) (m : Nat) (e : Int) : ℚ := signedInt neg m * (2 : ℚ) ^ e

theorem f64Rat_of_fin {x : F64} {neg : Bool} {m : Nat} {e : Int} (h : f64Val x = .fin neg m e) :
    f64Rat x = some (finRat neg m e) := by
  rw [f64Rat, h, finRat, signedInt]
  cases neg <;> simp

theorem f64Rat_eq_some_iff {x : F64} {v : ℚ} :
    f64Rat x = some v ↔ ∃ neg m e, f64Val x = .fin neg m e ∧ finRat neg m e = v := by
  constructor
  · intro h
    cases hx : f64Val x with
    | nan => simp [f64Rat, hx] at h
    | inf neg => simp [f64Rat, hx] at h
    | fin neg m e => exact ⟨neg, m, e, rfl, Option.some.inj ((f64Rat_of_fin hx).symm.trans h)⟩
  · rintro ⟨neg, m, e, hx, rfl⟩
    exact f64Rat_of_fin hx

/-- Aligning a significand to the smaller exponent keeps the value. -/
theorem alignLeft_mul (neg : Bool) (m : Nat) (e1 e2 : Int) :
    (alignLeft neg m e1 e2 : ℚ) * 2 ^ min e1 e2 = finRat neg m e1 := by
  have hshift : (2 : ℚ) ^ (e1 - min e1 e2).toNat * 2 ^ min e1 e2 = 2 ^ e1 := by
    rw [← zpow_natCast, ← zpow_add₀ two_ne_zero, Int.toNat_of_nonneg (by omega)]
    congr 1
    omega
  rw [alignLeft, finRat, signedInt, signedInt, Nat.shiftLeft_eq, ← hshift, ← mul_assoc]
  cases neg <;> simp

/-- Settles O35: both comparisons compare the significands aligned to one exponent. -/
theorem floatComparisonsAreExact : Obligations.FloatComparisonsAreExact := by
  intro a b p q hp hq
  obtain ⟨s1, m1, e1, ha, rfl⟩ := f64Rat_eq_some_iff.mp hp
  obtain ⟨s2, m2, e2, hb, rfl⟩ := f64Rat_eq_some_iff.mp hq
  have hpow : (0 : ℚ) < 2 ^ min e1 e2 := zpow_pos two_pos _
  rw [flt, fle, ha, hb, decide_eq_true_iff, decide_eq_true_iff, ← alignLeft_mul s1 m1 e1 e2,
    ← alignLeft_mul s2 m2 e2 e1, min_comm e2 e1, mul_lt_mul_iff_left₀ hpow, mul_le_mul_iff_left₀ hpow]
  exact ⟨Int.cast_lt.symm, Int.cast_le.symm⟩

/-! ## RoundClamp -/

/-- `halfUpNat` is the floor of the magnitude plus a half. -/
theorem floor_add_half (m : Nat) (e : Int) : ⌊finRat false m e + 1 / 2⌋ = (halfUpNat m e : ℤ) := by
  have hval : finRat false m e = (m : ℚ) * 2 ^ e := by simp [finRat, signedInt]
  rw [hval, halfUpNat]
  split
  · next he =>
    lift e to ℕ using he
    have hint : (m : ℚ) * 2 ^ (e : ℤ) = ((m * 2 ^ e : ℕ) : ℤ) := by push_cast [zpow_natCast]; rfl
    rw [hint, Int.floor_intCast_add, Int.toNat_natCast, Nat.shiftLeft_eq]
    norm_num
  · next he =>
    obtain ⟨k, rfl⟩ := Int.exists_eq_neg_ofNat (by omega : e ≤ 0)
    have hdiv : (m : ℚ) * 2 ^ (-(k : ℤ)) + 1 / 2 = ((2 * m + 2 ^ k : ℕ) : ℚ) / ((2 ^ (k + 1) : ℕ) : ℚ) := by
      rw [zpow_neg, zpow_natCast]
      push_cast
      field_simp
      ring
    rw [hdiv, neg_neg, Int.toNat_natCast, Rat.floor_natCast_div_natCast]
    rfl

theorem finRat_nonpos (m : Nat) (e : Int) : finRat true m e ≤ 0 := by
  have hpow : (0 : ℚ) < 2 ^ e := zpow_pos two_pos e
  rw [finRat, signedInt]
  exact mul_nonpos_of_nonpos_of_nonneg (by simp) hpow.le

/-- Settles O36: below zero the floor is at most 0; elsewhere it is `halfUpNat`. -/
theorem roundClampRoundsHalvesUp : Obligations.RoundClampRoundsHalvesUp := by
  intro x v hv
  obtain ⟨neg, m, e, hx, rfl⟩ := f64Rat_eq_some_iff.mp hv
  rw [roundClamp, hx]
  cases neg with
  | true =>
    have hfloor : ⌊finRat true m e + 1 / 2⌋ < 1 :=
      Int.floor_lt.mpr (by have := finRat_nonpos m e; push_cast; linarith)
    show ((0 : ℕ) : ℤ) = _
    omega
  | false =>
    rw [floor_add_half]
    show ((min 255 (halfUpNat m e) : ℕ) : ℤ) = _
    omega

end Sys2Proof.Machine
end

section
/-! The rounding of binary64 (00_scope.md R12). A magnitude is scaled by its last place to a real `t`; rounding picks the
integer nearest `t`, ties to even, and what it picks is nearer the exact value than any other finite number. A truncated
result with a sticky bit is rounded as the exact one is. -/

namespace Sys2Proof.Machine

/-! ## The integer nearest a real -/

/-- `n` is an integer nearest `t`, the even one where two are. -/
def NearestEven (t : ℝ) (n : ℕ) : Prop := |(n : ℝ) - t| ≤ 1 / 2 ∧ (|(n : ℝ) - t| = 1 / 2 → n % 2 = 0)

theorem nearestEven_natCast (n : ℕ) : NearestEven n n := by
  rw [NearestEven, sub_self, abs_zero]
  exact ⟨by norm_num, by norm_num⟩

/-- Another integer is farther, or as far with `n` even. -/
theorem NearestEven.lt_or_even {t : ℝ} {n : ℕ} (h : NearestEven t n) (k : ℤ) :
    |(n : ℝ) - t| < |(k : ℝ) - t| ∨ |(n : ℝ) - t| = |(k : ℝ) - t| ∧ (k = n ∨ n % 2 = 0) := by
  by_cases hk : k = n
  · exact .inr ⟨by rw [hk]; norm_cast, .inl hk⟩
  · have hgap : (1 : ℝ) ≤ |(k : ℝ) - n| := by exact_mod_cast Int.one_le_abs (sub_ne_zero.mpr hk)
    have htri : |(k : ℝ) - n| ≤ |(k : ℝ) - t| + |(n : ℝ) - t| := abs_sub_comm (n : ℝ) t ▸ abs_sub_le _ _ _
    obtain ⟨hle, heven⟩ := h
    obtain hlt | heq := hle.lt_or_eq
    · exact .inl (by linarith)
    · obtain hfar | hsame := (show |(n : ℝ) - t| ≤ |(k : ℝ) - t| by linarith).lt_or_eq
      · exact .inl hfar
      · exact .inr ⟨hsame, .inr (heven heq)⟩

/-! ## `roundShift` -/

/-- The rounded quotient is within half a divisor, and even at just half. -/
theorem roundShift_spec (m k : ℕ) :
    2 * |(roundShift m k * 2 ^ k : ℤ) - m| ≤ 2 ^ k ∧
      (2 * |(roundShift m k * 2 ^ k : ℤ) - m| = 2 ^ k → roundShift m k % 2 = 0) := by
  have hdiv : 2 ^ k * (m / 2 ^ k) + m % 2 ^ k = m := Nat.div_add_mod m (2 ^ k)
  have hlt : m % 2 ^ k < 2 ^ k := Nat.mod_lt _ (Nat.two_pow_pos k)
  have hcast : (2 : ℤ) ^ k = (2 ^ k : ℕ) := by push_cast; rfl
  rw [roundShift, Nat.shiftRight_eq_div_pow, hcast]
  generalize m / 2 ^ k = q at *
  generalize m % 2 ^ k = r at *
  generalize 2 ^ k = d at *
  have hdown : (q * d : ℤ) - m = -r := by rw [← hdiv]; push_cast; ring
  have hup : ((q + 1 : ℕ) * d : ℤ) - m = d - r := by rw [← hdiv]; push_cast; ring
  split
  · rw [hdown, abs_neg, Nat.abs_cast]
    omega
  · split
    · rw [hup, abs_of_nonneg (by omega)]
      omega
    · obtain hq | hq : q % 2 = 0 ∨ q % 2 = 1 := by omega
      · rw [hq, Nat.add_zero, hdown, abs_neg, Nat.abs_cast]
        omega
      · rw [hq, hup, abs_of_nonneg (by omega)]
        omega

/-- The integer `m` stands for the real `y`: it is `y`, or its last bit says that `y` is strictly between its neighbours. -/
def StandsFor (m : ℕ) (y : ℝ) : Prop := y = m ∨ (m % 2 = 1 ∧ 2 ^ 54 ≤ m) ∧ |y - m| < 1

/-- An odd number is not half a power of two from a multiple of that power. -/
theorem two_mul_abs_le_of_odd {n m k : ℕ} (hm : m % 2 = 1) (hk : 2 ≤ k) (h : 2 * |(n * 2 ^ k : ℤ) - m| ≤ 2 ^ k) :
    2 * |(n * 2 ^ k : ℤ) - m| + 2 ≤ 2 ^ k := by
  obtain ⟨j, rfl⟩ := Nat.exists_eq_add_of_le' hk
  rw [pow_add] at h ⊢
  generalize (2 : ℤ) ^ j = d at *
  have heven : ∃ x : ℤ, n * (d * 2 ^ 2) = 4 * x := ⟨n * d, by ring⟩
  obtain ⟨x, hx⟩ := heven
  rw [hx] at h ⊢
  obtain habs | habs := abs_choice (4 * x - (m : ℤ)) <;> omega

/-- Rounding what stands for `y` is rounding `y`. -/
theorem nearestEven_roundShift {m k : ℕ} {y : ℝ} (h : StandsFor m y) (hk : m % 2 = 1 → 2 ^ 54 ≤ m → 2 ≤ k) :
    NearestEven (y / 2 ^ k) (roundShift m k) := by
  have hpow : (0 : ℝ) < 2 ^ k := by positivity
  have hscale : |(roundShift m k : ℝ) - y / 2 ^ k| = |(roundShift m k : ℝ) * 2 ^ k - y| / 2 ^ k := by
    rw [← abs_of_pos hpow, ← abs_div, abs_of_pos hpow, sub_div, mul_div_cancel_right₀ _ hpow.ne']
  obtain ⟨hle, heven⟩ := roundShift_spec m k
  rw [NearestEven, hscale, div_le_div_iff₀ hpow two_pos, div_eq_div_iff hpow.ne' two_ne_zero]
  obtain rfl | ⟨⟨hodd, hbig⟩, hy⟩ := h
  · have hcast : ((|(roundShift m k * 2 ^ k : ℤ) - m| : ℤ) : ℝ) = |(roundShift m k : ℝ) * 2 ^ k - m| := by push_cast; rfl
    rw [← hcast]
    constructor
    · exact_mod_cast (by omega : |(roundShift m k * 2 ^ k : ℤ) - m| * 2 ≤ 1 * 2 ^ k)
    · intro h
      exact heven (by
        have : |(roundShift m k * 2 ^ k : ℤ) - m| * 2 = 1 * 2 ^ k := by exact_mod_cast h
        omega)
  · have hgap : ((2 * |(roundShift m k * 2 ^ k : ℤ) - m| + 2 : ℤ) : ℝ) ≤ ((2 ^ k : ℤ) : ℝ) :=
      Int.cast_le.mpr (two_mul_abs_le_of_odd hodd (hk hodd hbig) hle)
    push_cast at hgap
    have htri := abs_sub_le ((roundShift m k : ℝ) * 2 ^ k) m y
    rw [abs_sub_comm (m : ℝ) y] at htri
    exact ⟨by linarith, fun h => by linarith⟩

/-! ## The number with given bits -/

section Signed
variable {neg : Bool} {b : ℕ}

theorem toNat_f64Signed (hb : b < 2 ^ 63) : (f64Signed neg b).toNat = b + if neg then 2 ^ 63 else 0 := by
  rw [f64Signed, BitVec.toNat_ofNat]
  cases neg <;> simp <;> omega

theorem msb_f64Signed (hb : b < 2 ^ 63) : (f64Signed neg b).msb = neg := by
  rw [BitVec.msb_eq_decide, toNat_f64Signed hb]
  cases neg <;> simp
  omega

/-- The finite number with magnitude bits `b`. -/
theorem f64Val_f64Signed (hb : b < 2047 * 2 ^ 52) :
    f64Val (f64Signed neg b) =
      if b / 2 ^ 52 = 0 then .fin neg (b % 2 ^ 52) (-1074)
      else .fin neg (2 ^ 52 + b % 2 ^ 52) ((b / 2 ^ 52 : ℕ) - 1075) := by
  have hexp : ((f64Signed neg b).extractLsb' 52 11).toNat = b / 2 ^ 52 := by
    rw [BitVec.extractLsb'_toNat, Nat.shiftRight_eq_div_pow, toNat_f64Signed (by omega)]
    cases neg <;> simp <;> omega
  have hfrac : ((f64Signed neg b).extractLsb' 0 52).toNat = b % 2 ^ 52 := by
    rw [BitVec.extractLsb'_toNat, Nat.shiftRight_zero, toNat_f64Signed (by omega)]
    cases neg <;> simp
    omega
  rw [f64Val, hexp, hfrac, msb_f64Signed (by omega), if_neg (by omega)]

/-- The lowest bit is that of the magnitude. -/
theorem getLsbD_f64Signed : (f64Signed neg b).getLsbD 0 = decide (b % 2 = 1) := by
  rw [f64Signed, BitVec.getLsbD_ofNat]
  cases neg <;> simp [Nat.testBit_zero]
  omega

/-- A significand doubled is the next exponent. -/
theorem finRat_double (neg : Bool) (m : ℕ) (e : ℤ) : finRat neg m e = finRat neg (2 * m) (e - 1) := by
  rw [finRat, finRat, zpow_sub_one₀ two_ne_zero, signedInt, signedInt]
  cases neg <;> simp <;> ring

/-- An integer `n` of last places 2^q, with the exponent field counted from the least last place. -/
theorem f64Rat_f64Signed {q : ℤ} {n : ℕ} (hq : -1074 ≤ q) (hn : n ≤ 2 ^ 53) (hnormal : 2 ^ 52 ≤ n ∨ q = -1074)
    (hfin : (q + 1074).toNat * 2 ^ 52 + n < 2047 * 2 ^ 52) :
    f64Rat (f64Signed neg ((q + 1074).toNat * 2 ^ 52 + n)) = some (finRat neg n q) := by
  obtain ⟨j, rfl⟩ : ∃ j : ℕ, q = j - 1074 := ⟨(q + 1074).toNat, by omega⟩
  have hj : ((j : ℤ) - 1074 + 1074).toNat = j := by omega
  rw [hj] at hfin ⊢
  have hval := f64Val_f64Signed (neg := neg) hfin
  obtain hsmall | hmid | hcarry : n < 2 ^ 52 ∨ (2 ^ 52 ≤ n ∧ n < 2 ^ 53) ∨ n = 2 ^ 53 := by omega
  · obtain rfl : j = 0 := by omega
    rw [if_pos (by omega), show (0 * 2 ^ 52 + n) % 2 ^ 52 = n by omega] at hval
    exact f64Rat_of_fin hval
  · rw [if_neg (by omega), show (j * 2 ^ 52 + n) / 2 ^ 52 = j + 1 by omega,
      show 2 ^ 52 + (j * 2 ^ 52 + n) % 2 ^ 52 = n by omega] at hval
    rw [f64Rat_of_fin hval]
    congr 2
    omega
  · subst hcarry
    rw [if_neg (by omega), show (j * 2 ^ 52 + 2 ^ 53) / 2 ^ 52 = j + 2 by omega,
      show 2 ^ 52 + (j * 2 ^ 52 + 2 ^ 53) % 2 ^ 52 = 2 ^ 52 by omega] at hval
    rw [f64Rat_of_fin hval, finRat_double, show ((j + 2 : ℕ) : ℤ) - 1075 - 1 = j - 1074 by omega,
      show 2 * 2 ^ 52 = 2 ^ 53 by rfl]

end Signed

/-! ## Nearest among the finite numbers -/

/-- A finite number is an integer below 2^53 in magnitude times a power of two of at least the least last place. -/
theorem finite_bounds {x : F64} {neg : Bool} {m : ℕ} {e : ℤ} (h : f64Val x = .fin neg m e) : m < 2 ^ 53 ∧ -1074 ≤ e := by
  have hfrac : (x.extractLsb' 0 52).toNat < 2 ^ 52 := BitVec.isLt _
  rw [f64Val] at h
  split at h
  · split at h <;> cases h
  · split at h <;> cases h <;> omega

/-- `n` last places 2^q is nearer a magnitude `x` than an integer `z` of smaller places, where `x` has its leading bit at
or above place q + 52; and no farther than one of the same or greater places. -/
theorem nearest_scaled {x : ℝ} {q e : ℤ} {n : ℕ} {z : ℤ} (hn : NearestEven (x / 2 ^ q) n)
    (hlead : 2 ^ (q + 52) ≤ x ∨ q = -1074) (hz : |z| < 2 ^ 53) (he : -1074 ≤ e) :
    |(n : ℝ) * 2 ^ q - x| < |(z : ℝ) * 2 ^ e - x| ∨
      |(n : ℝ) * 2 ^ q - x| = |(z : ℝ) * 2 ^ e - x| ∧ ((z : ℝ) * 2 ^ e = n * 2 ^ q ∨ n % 2 = 0) := by
  have hpow : (0 : ℝ) < 2 ^ q := zpow_pos two_pos q
  have hscale (k : ℝ) : |k * 2 ^ q - x| = |k - x / 2 ^ q| * 2 ^ q := by
    rw [← abs_of_pos hpow, ← abs_mul, abs_of_pos hpow, sub_mul, div_mul_cancel₀ _ hpow.ne']
  obtain hge | hlt := le_or_gt q e
  · have hint : (z : ℝ) * 2 ^ e = ((z * 2 ^ (e - q).toNat : ℤ) : ℝ) * 2 ^ q := by
      push_cast
      rw [mul_assoc, ← zpow_natCast, ← zpow_add₀ two_ne_zero, Int.toNat_of_nonneg (by omega), sub_add_cancel]
    rw [hint, hscale, hscale, mul_lt_mul_iff_left₀ hpow, mul_left_inj' hpow.ne', mul_left_inj' hpow.ne']
    exact_mod_cast hn.lt_or_even _
  · have hlead : 2 ^ (q + 52) ≤ x := hlead.resolve_right (by omega)
    have hbelow : (z : ℝ) * 2 ^ e < 2 ^ (q + 52) := by
      have hz53 : (z : ℝ) < 2 ^ 53 := by exact_mod_cast (le_abs_self z).trans_lt hz
      have hstep : (2 : ℝ) ^ e ≤ 2 ^ (q - 1) := zpow_le_zpow_right₀ one_le_two (by omega)
      calc (z : ℝ) * 2 ^ e < 2 ^ 53 * 2 ^ e := mul_lt_mul_of_pos_right hz53 (zpow_pos two_pos e)
        _ ≤ 2 ^ 53 * 2 ^ (q - 1) := mul_le_mul_of_nonneg_left hstep (by positivity)
        _ = 2 ^ (q + 52) := by rw [← zpow_natCast, ← zpow_add₀ two_ne_zero]; congr 1; omega
    have hsame : (2 : ℝ) ^ (q + 52) = ((2 ^ 52 : ℤ) : ℝ) * 2 ^ q := by
      rw [zpow_add₀ two_ne_zero, mul_comm]
      norm_cast
    have hnear : |(n : ℝ) * 2 ^ q - x| ≤ |(2 : ℝ) ^ (q + 52) - x| := by
      rw [hsame, hscale, hscale]
      refine mul_le_mul_of_nonneg_right ?_ hpow.le
      exact (hn.lt_or_even _).elim le_of_lt fun h => h.1.le
    refine .inl (hnear.trans_lt ?_)
    rw [abs_sub_comm, abs_of_nonneg (by linarith), abs_sub_comm, abs_of_pos (by linarith)]
    linarith

/-! ## `roundF64` -/

/-- The number of last places that `roundF64` rounds m · 2^e to. -/
def places (m : ℕ) (e : ℤ) : ℕ :=
  if lastPlace m e ≤ e then m <<< (e - lastPlace m e).toNat else roundShift m (lastPlace m e - e).toNat

section Places
variable {m : ℕ} {e : ℤ} {y : ℝ}

theorem lastPlace_cases (m : ℕ) (e : ℤ) :
    lastPlace m e = Nat.log2 m + e - 52 ∧ -1074 ≤ lastPlace m e ∨ lastPlace m e = -1074 ∧ Nat.log2 m + e - 52 ≤ -1074 := by
  rw [lastPlace]
  omega

/-- What `m` stands for has the leading bit of `m`. -/
theorem StandsFor.log2_bounds (h : StandsFor m y) (hm : m ≠ 0) :
    (2 : ℝ) ^ Nat.log2 m ≤ y ∧ y < (2 : ℝ) ^ (Nat.log2 m + 1) := by
  have hle : 2 ^ Nat.log2 m ≤ m := Nat.log2_self_le hm
  have hlt : m < 2 ^ (Nat.log2 m + 1) := Nat.lt_log2_self
  obtain rfl | ⟨⟨hodd, hbig⟩, hy⟩ := h
  · exact ⟨by exact_mod_cast hle, by exact_mod_cast hlt⟩
  · have hpos : 1 ≤ Nat.log2 m := (Nat.le_log2 hm).mpr (by omega)
    have heven : 2 ^ Nat.log2 m % 2 = 0 := Nat.mod_eq_zero_of_dvd (dvd_pow_self 2 (by omega))
    have hle' : ((2 ^ Nat.log2 m + 1 : ℕ) : ℝ) ≤ m := Nat.cast_le.mpr (by omega)
    have hlt' : ((m + 1 : ℕ) : ℝ) ≤ ((2 ^ (Nat.log2 m + 1) : ℕ) : ℝ) := Nat.cast_le.mpr hlt
    push_cast at hle' hlt'
    obtain ⟨hlow, hhigh⟩ := abs_lt.mp hy
    exact ⟨by linarith, by linarith⟩

/-- The number of last places is the exact one rounded. -/
theorem nearestEven_places (h : StandsFor m y) (hm : m ≠ 0) : NearestEven (y * 2 ^ e / 2 ^ lastPlace m e) (places m e) := by
  have hwide : m % 2 = 1 → 2 ^ 54 ≤ m → e + 2 ≤ lastPlace m e := fun _ hbig => by
    have hlog : 54 ≤ Nat.log2 m := (Nat.le_log2 hm).mpr hbig
    rw [lastPlace]
    omega
  rw [places, mul_div_assoc, ← zpow_sub₀ two_ne_zero]
  split
  · next hle =>
    have hexact : y = m := h.resolve_right fun hsticky => absurd (hwide hsticky.1.1 hsticky.1.2) (by omega)
    have hint : y * 2 ^ (e - lastPlace m e) = (m <<< (e - lastPlace m e).toNat : ℕ) := by
      rw [hexact, Nat.shiftLeft_eq]
      push_cast
      rw [← zpow_natCast, Int.toNat_of_nonneg (by omega)]
    rw [hint]
    exact nearestEven_natCast _
  · next hgt =>
    have hshift : y * 2 ^ (e - lastPlace m e) = y / 2 ^ (lastPlace m e - e).toNat := by
      rw [div_eq_mul_inv, ← zpow_natCast, ← zpow_neg, Int.toNat_of_nonneg (by omega), neg_sub]
    rw [hshift]
    exact nearestEven_roundShift h fun hodd hbig => by have := hwide hodd hbig; omega

theorem leading_bit (h : StandsFor m y) (hm : m ≠ 0) :
    (2 : ℝ) ^ (lastPlace m e + 52) ≤ y * 2 ^ e ∨ lastPlace m e = -1074 := by
  obtain ⟨heq, -⟩ | ⟨heq, -⟩ := lastPlace_cases m e
  · have hpow : (2 : ℝ) ^ (lastPlace m e + 52) = 2 ^ Nat.log2 m * 2 ^ e := by
      rw [heq, ← zpow_natCast, ← zpow_add₀ two_ne_zero]
      congr 1
      omega
    rw [hpow]
    exact .inl (mul_le_mul_of_nonneg_right (h.log2_bounds hm).1 (zpow_pos two_pos e).le)
  · exact .inr heq

theorem scaled_lt (h : StandsFor m y) (hm : m ≠ 0) : y * 2 ^ e / 2 ^ lastPlace m e < 2 ^ 53 := by
  have hplace : Nat.log2 m + e - 52 ≤ lastPlace m e := le_max_left _ _
  have hpow : (0 : ℝ) < 2 ^ lastPlace m e := zpow_pos two_pos _
  rw [div_lt_iff₀ hpow]
  calc y * 2 ^ e < 2 ^ (Nat.log2 m + 1) * 2 ^ e :=
        mul_lt_mul_of_pos_right (h.log2_bounds hm).2 (zpow_pos two_pos e)
    _ = 2 ^ (Nat.log2 m + 1 + e) := by rw [← zpow_natCast, ← zpow_add₀ two_ne_zero]; norm_cast
    _ ≤ 2 ^ (53 + lastPlace m e) := zpow_le_zpow_right₀ one_le_two (by omega)
    _ = 2 ^ 53 * 2 ^ lastPlace m e := by rw [zpow_add₀ two_ne_zero]; norm_cast

theorem NearestEven.le_of_lt_add_half {t : ℝ} {n k : ℕ} (h : NearestEven t n) (hk : t < k + 1 / 2) : n ≤ k := by
  have := (abs_le.mp h.1).2
  have hlt : (n : ℝ) < k + 1 := by linarith
  exact Nat.lt_succ_iff.mp (by exact_mod_cast hlt)

theorem NearestEven.ge_of_sub_half_lt {t : ℝ} {n k : ℕ} (h : NearestEven t n) (hk : k - 1 / 2 < t) : k ≤ n := by
  have := (abs_le.mp h.1).1
  have hlt : (k : ℝ) < n + 1 := by linarith
  exact Nat.lt_succ_iff.mp (by exact_mod_cast hlt)

theorem places_le (h : StandsFor m y) (hm : m ≠ 0) : places m e ≤ 2 ^ 53 := by
  refine (nearestEven_places (e := e) h hm).le_of_lt_add_half ?_
  have := scaled_lt (e := e) h hm
  push_cast
  linarith

theorem le_places (h : StandsFor m y) (hm : m ≠ 0) : 2 ^ 52 ≤ places m e ∨ lastPlace m e = -1074 := by
  refine (leading_bit (e := e) h hm).imp_left fun hlead => (nearestEven_places h hm).ge_of_sub_half_lt ?_
  have hpow : (0 : ℝ) < 2 ^ lastPlace m e := zpow_pos two_pos _
  have hle : (2 : ℝ) ^ 52 ≤ y * 2 ^ e / 2 ^ lastPlace m e := by
    rw [le_div_iff₀ hpow]
    refine le_trans (le_of_eq ?_) hlead
    rw [zpow_add₀ two_ne_zero, mul_comm]
    norm_cast
  push_cast
  linarith

/-- The overflow bound is half a last place above the largest finite number. -/
theorem overflowBound_eq : ((overflowBound : ℚ) : ℝ) = (2 ^ 53 - 1 / 2) * 2 ^ (971 : ℤ) := by
  have hplace : (2 : ℝ) ^ (971 : ℤ) = 2 * 2 ^ 970 := (zpow_natCast 2 971).trans (pow_succ' 2 970)
  have htop : (2 : ℝ) ^ 1024 = 2 ^ 54 * 2 ^ 970 := pow_add 2 54 970
  rw [overflowBound, hplace]
  push_cast
  rw [htop]
  generalize (2 : ℝ) ^ 970 = half
  ring

/-- Below the overflow bound the rounded magnitude is finite. -/
theorem places_finite (h : StandsFor m y) (hm : m ≠ 0) (hbound : y * 2 ^ e < ((overflowBound : ℚ) : ℝ)) :
    (lastPlace m e + 1074).toNat * 2 ^ 52 + places m e < 2047 * 2 ^ 52 := by
  have hle := places_le (e := e) h hm
  obtain hsmall | heq | hbig : lastPlace m e ≤ 970 ∨ lastPlace m e = 971 ∨ 972 ≤ lastPlace m e := by omega
  · omega
  · have hlt : places m e ≤ 2 ^ 53 - 1 := by
      refine (nearestEven_places (e := e) h hm).le_of_lt_add_half ?_
      rw [heq, div_lt_iff₀ (zpow_pos two_pos _)]
      refine hbound.trans_le (le_of_eq ?_)
      rw [overflowBound_eq, Nat.cast_sub (by norm_num)]
      push_cast
      ring
    omega
  · exfalso
    have hlead := (leading_bit (e := e) h hm).resolve_right (by omega)
    have hpow : (2 : ℝ) ^ (1024 : ℤ) ≤ 2 ^ (lastPlace m e + 52) := zpow_le_zpow_right₀ one_le_two (by omega)
    have hlt : ((overflowBound : ℚ) : ℝ) < 2 ^ (1024 : ℤ) := by
      rw [overflowBound_eq, show (1024 : ℤ) = 53 + 971 by rfl, zpow_add₀ two_ne_zero]
      refine mul_lt_mul_of_pos_right ?_ (zpow_pos two_pos _)
      norm_num
    exact (hlt.trans_le (hpow.trans hlead)).not_gt hbound

end Places

theorem roundF64_eq {neg : Bool} {m : ℕ} {e : ℤ} (hm : m ≠ 0)
    (hfin : (lastPlace m e + 1074).toNat * 2 ^ 52 + places m e < 2047 * 2 ^ 52) :
    roundF64 neg m e = f64Signed neg ((lastPlace m e + 1074).toNat * 2 ^ 52 + places m e) := by
  rw [roundF64, if_neg hm]
  exact if_neg (by show ¬ 2047 * 2 ^ 52 ≤ (lastPlace m e + 1074).toNat * 2 ^ 52 + places m e; omega)

theorem cast_finRat (neg : Bool) (m : ℕ) (e : ℤ) : ((finRat neg m e : ℚ) : ℝ) = (signedInt neg m : ℝ) * 2 ^ e := by
  rw [finRat]
  push_cast
  rfl

theorem roundsTo_of_f64Rat {x : F64} {v : ℚ} (h : f64Rat x = some v) : RoundsTo v x := by
  refine ⟨v, h, fun y w _ => ?_⟩
  rw [sub_self, abs_zero]
  obtain heq | hne := eq_or_ne w v
  · exact .inr ⟨by rw [heq, sub_self, abs_zero], .inl heq⟩
  · exact .inl (abs_pos.mpr (sub_ne_zero.mpr (by exact_mod_cast hne)))

theorem f64Rat_f64Zero (neg : Bool) : f64Rat (f64Zero neg) = some 0 := by
  have hzero := f64Rat_f64Signed (neg := neg) (q := -1074) (n := 0) le_rfl (by norm_num) (.inr rfl) (by norm_num)
  rw [show finRat neg 0 (-1074) = 0 by cases neg <;> simp [finRat, signedInt]] at hzero
  exact hzero

/-- A number rounds to the number of the same sign whose magnitude is nearest, as no number of the other sign is nearer. -/
theorem roundsTo_of_nearest {x : ℝ} {q : ℤ} {n : ℕ} (neg : Bool) {y : F64} (hy : f64Rat y = some (finRat neg n q))
    (heven : n % 2 = 0 → y.getLsbD 0 = false) (hn : NearestEven (x / 2 ^ q) n) (hlead : 2 ^ (q + 52) ≤ x ∨ q = -1074) :
    RoundsTo (if neg then -x else x) y := by
  refine ⟨_, hy, fun z w hz => ?_⟩
  obtain ⟨s, m, e, hfin, rfl⟩ := f64Rat_eq_some_iff.mp hz
  obtain ⟨hm, he⟩ := finite_bounds hfin
  have habs : |signedInt s m| < 2 ^ 53 := by
    rw [signedInt]
    cases s <;> simp <;> omega
  cases neg with
  | false =>
    have hval : ((finRat false n q : ℚ) : ℝ) = n * 2 ^ q := by rw [cast_finRat]; rfl
    rw [if_neg Bool.false_ne_true, ← Rat.cast_inj (α := ℝ), hval, cast_finRat]
    exact (nearest_scaled hn hlead habs he).imp_right fun h => ⟨h.1, h.2.imp_right heven⟩
  | true =>
    have hval : ((finRat true n q : ℚ) : ℝ) = -(n * 2 ^ q) := by rw [cast_finRat, ← neg_mul]; simp [signedInt]
    have hnear := nearest_scaled (z := -signedInt s m) hn hlead (by rwa [abs_neg]) he
    rw [Int.cast_neg, neg_mul, neg_eq_iff_eq_neg, ← abs_neg (_ - x), ← abs_neg (_ - x), neg_sub', neg_sub', neg_neg] at hnear
    rw [if_pos rfl, ← Rat.cast_inj (α := ℝ), hval, cast_finRat]
    exact hnear.imp_right fun h => ⟨h.1, h.2.imp_right heven⟩

/-- `roundF64` of what stands for a magnitude is that magnitude, with the sign, correctly rounded. -/
theorem roundsTo_roundF64 {m : ℕ} {e : ℤ} {y : ℝ} (neg : Bool) (h : StandsFor m y)
    (hbound : y * 2 ^ e < ((overflowBound : ℚ) : ℝ)) :
    RoundsTo (if neg then -(y * 2 ^ e) else y * 2 ^ e) (roundF64 neg m e) := by
  by_cases hm : m = 0
  · subst hm
    obtain rfl : y = 0 := by simpa [StandsFor] using h
    have hzero := roundsTo_of_f64Rat (f64Rat_f64Zero neg)
    rw [roundF64, if_pos rfl]
    simpa using hzero
  · have hfin := places_finite h hm hbound
    have hplace : -1074 ≤ lastPlace m e := le_max_right _ _
    rw [roundF64_eq hm hfin]
    refine roundsTo_of_nearest neg (f64Rat_f64Signed hplace (places_le h hm) (le_places h hm) hfin) (fun heven => ?_)
      (nearestEven_places h hm) (leading_bit h hm)
    rw [getLsbD_f64Signed, decide_eq_false_iff_not]
    omega

end Sys2Proof.Machine
end

section
/-! The arithmetic of binary64 (00_scope.md R12): each primitive rounds the exact result once, or what stands for it. -/

namespace Sys2Proof.Machine

/-! ## Sums and products -/

theorem abs_cast_finRat (neg : Bool) (m : ℕ) (e : ℤ) : |((finRat neg m e : ℚ) : ℝ)| = m * 2 ^ e := by
  rw [cast_finRat, signedInt]
  cases neg
  · simp
  · simp [abs_mul]

theorem cast_finRat_eq_ite (neg : Bool) (m : ℕ) (e : ℤ) :
    ((finRat neg m e : ℚ) : ℝ) = if neg then -((m : ℝ) * 2 ^ e) else (m : ℝ) * 2 ^ e := by
  rw [cast_finRat, signedInt]
  cases neg <;> simp

/-- `roundF64` rounds the value of its significand and exponent. -/
theorem roundsTo_roundF64_finRat {neg : Bool} {m : ℕ} {e : ℤ} {v : ℚ} (hv : finRat neg m e = v)
    (hbound : |v| < overflowBound) : RoundsTo v (roundF64 neg m e) := by
  subst hv
  have hmag : (m : ℝ) * 2 ^ e < ((overflowBound : ℚ) : ℝ) := by
    rw [← abs_cast_finRat neg]
    exact_mod_cast hbound
  rw [cast_finRat_eq_ite]
  exact roundsTo_roundF64 neg (.inl rfl) hmag

theorem finRat_natAbs (z e : ℤ) : finRat (decide (z < 0)) z.natAbs e = z * 2 ^ e := by
  have hsign : signedInt (decide (z < 0)) z.natAbs = z := by
    rw [signedInt]
    split
    · next h => have := of_decide_eq_true h; omega
    · next h => have : ¬ z < 0 := fun hz => h (decide_eq_true hz); omega
  rw [finRat, hsign]

theorem finRat_mul (s1 s2 : Bool) (m1 m2 : ℕ) (e1 e2 : ℤ) :
    finRat (s1 != s2) (m1 * m2) (e1 + e2) = finRat s1 m1 e1 * finRat s2 m2 e2 := by
  rw [finRat, finRat, finRat, zpow_add₀ two_ne_zero, signedInt, signedInt, signedInt]
  cases s1 <;> cases s2 <;> simp <;> ring

/-- A truncated quotient with the sticky bit stands for twice the quotient. -/
theorem standsFor_div {n d : ℕ} (hd : d ≠ 0) (hbig : n % d ≠ 0 → 2 ^ 53 ≤ n / d) :
    StandsFor (withSticky (n / d) (n % d == 0)) (2 * (n / d : ℝ)) := by
  have hpos : (0 : ℝ) < d := by positivity
  have hdiv : (n : ℝ) = d * (n / d : ℕ) + (n % d : ℕ) := by exact_mod_cast (Nat.div_add_mod n d).symm
  have hquot : (n / d : ℝ) = (n / d : ℕ) + (n % d : ℕ) / d := by rw [hdiv]; field_simp
  by_cases hexact : n % d = 0
  · refine .inl ?_
    rw [hquot, hexact]
    simp [withSticky]
  · have hrest : ((n % d : ℕ) : ℝ) / d < 1 := (div_lt_one hpos).mpr (by exact_mod_cast Nat.mod_lt n (by omega))
    have hrem : 0 < ((n % d : ℕ) : ℝ) / d := div_pos (by exact_mod_cast Nat.pos_of_ne_zero hexact) hpos
    have hsticky : withSticky (n / d) (n % d == 0) = 2 * (n / d) + 1 := by simp [withSticky, hexact]
    rw [hsticky, hquot]
    refine .inr ⟨⟨by omega, by have := hbig hexact; omega⟩, abs_lt.mpr ⟨?_, ?_⟩⟩ <;> push_cast <;> linarith

section Operations
variable {a b : F64} {p q : ℚ} (hp : f64Rat a = some p) (hq : f64Rat b = some q)
include hp hq

theorem roundsTo_fadd (hbound : |p + q| < overflowBound) : RoundsTo ((p + q : ℚ) : ℝ) (fadd a b) := by
  obtain ⟨s1, m1, e1, ha, rfl⟩ := f64Rat_eq_some_iff.mp hp
  obtain ⟨s2, m2, e2, hb, rfl⟩ := f64Rat_eq_some_iff.mp hq
  have hsum : finRat s1 m1 e1 + finRat s2 m2 e2 =
      ((alignLeft s1 m1 e1 e2 + alignLeft s2 m2 e2 e1 : ℤ) : ℚ) * 2 ^ min e1 e2 := by
    rw [Int.cast_add, add_mul, alignLeft_mul, min_comm e1 e2, alignLeft_mul]
  rw [fadd, ha, hb]
  dsimp only
  split
  · next hzero =>
    rw [hsum, hzero, Int.cast_zero, zero_mul]
    exact roundsTo_of_f64Rat (f64Rat_f64Zero _)
  · exact roundsTo_roundF64_finRat ((finRat_natAbs _ _).trans hsum.symm) hbound

theorem roundsTo_fmul (hbound : |p * q| < overflowBound) : RoundsTo ((p * q : ℚ) : ℝ) (fmul a b) := by
  obtain ⟨s1, m1, e1, ha, rfl⟩ := f64Rat_eq_some_iff.mp hp
  obtain ⟨s2, m2, e2, hb, rfl⟩ := f64Rat_eq_some_iff.mp hq
  rw [fmul, ha, hb]
  exact roundsTo_roundF64_finRat (finRat_mul ..) hbound

theorem roundsTo_fdiv (hne : q ≠ 0) (hbound : |p / q| < overflowBound) : RoundsTo ((p / q : ℚ) : ℝ) (fdiv a b) := by
  obtain ⟨s1, m1, e1, ha, rfl⟩ := f64Rat_eq_some_iff.mp hp
  obtain ⟨s2, m2, e2, hb, rfl⟩ := f64Rat_eq_some_iff.mp hq
  have hm2 : m2 ≠ 0 := by
    rintro rfl
    exact hne (by simp [finRat, signedInt])
  rw [fdiv, ha, hb]
  dsimp only
  rw [if_neg hm2]
  have hlarge : (m1 <<< divShift) % m2 ≠ 0 → 2 ^ 53 ≤ m1 <<< divShift / m2 := fun hrem => by
    have hm1 : 1 ≤ m1 := Nat.one_le_iff_ne_zero.mpr fun hzero => hrem (by simp [hzero])
    have hdivisor : m2 < 2 ^ 53 := (finite_bounds hb).1
    rw [Nat.le_div_iff_mul_le (Nat.pos_of_ne_zero hm2), Nat.shiftLeft_eq, divShift]
    omega
  have hmag : (m1 : ℝ) * 2 ^ e1 / (m2 * 2 ^ e2) =
      2 * ((m1 <<< divShift : ℕ) / m2 : ℝ) * 2 ^ (e1 - e2 - divShift - 1) := by
    rw [Nat.shiftLeft_eq, zpow_sub₀ two_ne_zero, zpow_sub₀ two_ne_zero, zpow_sub₀ two_ne_zero, zpow_natCast]
    push_cast
    field_simp
  have hquot : ((finRat s1 m1 e1 / finRat s2 m2 e2 : ℚ) : ℝ) =
      if s1 != s2 then -((m1 : ℝ) * 2 ^ e1 / (m2 * 2 ^ e2)) else (m1 : ℝ) * 2 ^ e1 / (m2 * 2 ^ e2) := by
    rw [Rat.cast_div, cast_finRat_eq_ite, cast_finRat_eq_ite]
    cases s1 <;> cases s2 <;> simp [neg_div, div_neg]
  have hbelow : (m1 : ℝ) * 2 ^ e1 / (m2 * 2 ^ e2) < ((overflowBound : ℚ) : ℝ) := by
    rw [← abs_cast_finRat s1, ← abs_cast_finRat s2, ← abs_div]
    exact_mod_cast hbound
  rw [hquot, hmag]
  exact roundsTo_roundF64 (s1 != s2) (standsFor_div hm2 hlarge) (hmag ▸ hbelow)

end Operations

/-! ## Differences -/

theorem f64Val_fneg {b : F64} {s : Bool} {m : ℕ} {e : ℤ} (h : f64Val b = .fin s m e) : f64Val (fneg b) = .fin (!s) m e := by
  have hmsb : (fneg b).msb = !b.msb := by
    rw [fneg, BitVec.msb_xor, show BitVec.msb 0x8000000000000000#64 = true by decide, Bool.xor_true]
  have hexp : (fneg b).extractLsb' 52 11 = b.extractLsb' 52 11 := by
    rw [fneg, BitVec.extractLsb'_xor, show BitVec.extractLsb' 52 11 0x8000000000000000#64 = 0#11 by decide, BitVec.xor_zero]
  have hfrac : (fneg b).extractLsb' 0 52 = b.extractLsb' 0 52 := by
    rw [fneg, BitVec.extractLsb'_xor, show BitVec.extractLsb' 0 52 0x8000000000000000#64 = 0#52 by decide, BitVec.xor_zero]
  rw [f64Val] at h ⊢
  rw [hmsb, hexp, hfrac]
  split at h
  · split at h <;> cases h
  · next hexp =>
    rw [if_neg hexp]
    split at h <;> cases h
    · next hzero => rw [if_pos hzero]
    · next hnormal => rw [if_neg hnormal]

theorem f64Rat_fneg {b : F64} {q : ℚ} (h : f64Rat b = some q) : f64Rat (fneg b) = some (-q) := by
  obtain ⟨s, m, e, hb, rfl⟩ := f64Rat_eq_some_iff.mp h
  rw [f64Rat_of_fin (f64Val_fneg hb), finRat, finRat, signedInt, signedInt]
  cases s <;> simp

/-- Settles O33: sums and products are exact before their one rounding, a difference is a sum, and a truncated quotient
stands for the exact one. -/
theorem floatArithmeticRounds : Obligations.FloatArithmeticRounds := by
  intro a b p q hp hq
  refine ⟨roundsTo_fadd hp hq, fun hbound => ?_, roundsTo_fmul hp hq, roundsTo_fdiv hp hq⟩
  rw [sub_eq_add_neg] at hbound ⊢
  exact roundsTo_fadd hp (f64Rat_fneg hq) hbound

/-! ## Square roots -/

/-- The bits found so far and a range that holds the root give the root. -/
theorem isqrtBits_spec {n k r : ℕ} (hle : r * r ≤ n) (hlt : n < (r + 2 ^ k) * (r + 2 ^ k)) :
    isqrtBits n k r * isqrtBits n k r ≤ n ∧ n < (isqrtBits n k r + 1) * (isqrtBits n k r + 1) := by
  induction k generalizing r with
  | zero => exact ⟨hle, hlt⟩
  | succ k ih =>
    rw [isqrtBits]
    split
    · next hbit => exact ih hbit (by rwa [add_assoc, ← two_mul, ← pow_succ'])
    · next hbit => exact ih hle (not_le.mp hbit)

theorem isqrt_eq_sqrt {n : ℕ} (h : n < 2 ^ 192) : isqrt n = n.sqrt :=
  Nat.eq_sqrt.mpr (isqrtBits_spec (Nat.zero_le n) (by omega))

/-- A truncated root with the sticky bit stands for twice the root. -/
theorem standsFor_sqrt {n : ℕ} (hbig : 2 ^ 106 ≤ n) :
    StandsFor (withSticky n.sqrt (n.sqrt * n.sqrt == n)) (2 * Real.sqrt n) := by
  by_cases hexact : n.sqrt * n.sqrt = n
  · refine .inl ?_
    have hroot : Real.sqrt n = n.sqrt := by
      nth_rw 1 [← hexact]
      rw [Nat.cast_mul, Real.sqrt_mul_self (Nat.cast_nonneg _)]
    rw [hroot]
    simp [withSticky, hexact]
  · have hlow : (n.sqrt : ℝ) < Real.sqrt n := by
      refine Real.lt_sqrt_of_sq_lt ?_
      rw [sq]
      exact_mod_cast (Nat.sqrt_le n).lt_of_ne hexact
    have hhigh : Real.sqrt n < n.sqrt + 1 := by
      rw [Real.sqrt_lt' (by positivity), sq]
      exact_mod_cast Nat.lt_succ_sqrt n
    have hsticky : withSticky n.sqrt (n.sqrt * n.sqrt == n) = 2 * n.sqrt + 1 := by simp [withSticky, hexact]
    have hroot : 2 ^ 53 ≤ n.sqrt := Nat.le_sqrt.mpr (by omega)
    rw [hsticky]
    refine .inr ⟨⟨by omega, by omega⟩, abs_lt.mpr ⟨?_, ?_⟩⟩ <;> push_cast <;> linarith

theorem exponent_le {x : F64} {neg : Bool} {m : ℕ} {e : ℤ} (h : f64Val x = .fin neg m e) : e ≤ 971 := by
  have hexp : (x.extractLsb' 52 11).toNat < 2 ^ 11 := BitVec.isLt _
  rw [f64Val] at h
  split at h
  · split at h <;> cases h
  · split at h <;> cases h <;> omega

/-- The root of a finite number is far below the overflow bound. -/
theorem sqrt_lt_overflowBound {x : F64} {neg : Bool} {m : ℕ} {e : ℤ} (h : f64Val x = .fin neg m e) :
    Real.sqrt (m * 2 ^ e) < ((overflowBound : ℚ) : ℝ) := by
  have hm : (m : ℝ) < 2 ^ 53 := by exact_mod_cast (finite_bounds h).1
  have he : (2 : ℝ) ^ e ≤ 2 ^ (971 : ℤ) := zpow_le_zpow_right₀ one_le_two (exponent_le h)
  have hone : (1 : ℝ) ≤ 2 ^ (971 : ℤ) := one_le_zpow₀ one_le_two (by norm_num)
  rw [overflowBound_eq]
  generalize (2 : ℝ) ^ (971 : ℤ) = u at *
  rw [Real.sqrt_lt' (by linarith)]
  calc (m : ℝ) * 2 ^ e < 2 ^ 53 * 2 ^ e := mul_lt_mul_of_pos_right hm (zpow_pos two_pos e)
    _ ≤ 2 ^ 53 * u := mul_le_mul_of_nonneg_left he (by norm_num)
    _ ≤ (2 ^ 53 - 1 / 2) ^ 2 * u ^ 2 := by
      refine mul_le_mul (by norm_num) ?_ (by linarith) (by norm_num)
      rw [sq]
      exact le_mul_of_one_le_left (by linarith) hone
    _ = ((2 ^ 53 - 1 / 2) * u) ^ 2 := (mul_pow _ _ _).symm

theorem sqrt_scaled {n : ℕ} (j : ℤ) : Real.sqrt (n * 2 ^ (2 * j)) = 2 * Real.sqrt n * 2 ^ (j - 1) := by
  have hsq : (2 : ℝ) ^ (2 * j) = 2 ^ j * 2 ^ j := by rw [two_mul, zpow_add₀ two_ne_zero]
  rw [hsq, Real.sqrt_mul (Nat.cast_nonneg n), Real.sqrt_mul_self (zpow_pos two_pos j).le, zpow_sub_one₀ two_ne_zero]
  ring

theorem roundsTo_sqrt {x : F64} {neg : Bool} {m : ℕ} {e : ℤ} (hm : m ≠ 0) (h : f64Val x = .fin neg m e) :
    let n := m <<< (divShift + (e % 2).toNat)
    RoundsTo (Real.sqrt (m * 2 ^ e)) (roundF64 false (withSticky (isqrt n) (isqrt n * isqrt n == n))
      ((e - (divShift + (e % 2).toNat : ℕ)) / 2 - 1)) := by
  intro n
  have hbound := sqrt_lt_overflowBound h
  have hn : n = m * 2 ^ (divShift + (e % 2).toNat) := Nat.shiftLeft_eq ..
  obtain ⟨j, hj⟩ : ∃ j, e - (divShift + (e % 2).toNat : ℕ) = 2 * j :=
    ⟨(e - (divShift + (e % 2).toNat : ℕ)) / 2, by rw [divShift]; omega⟩
  have hroot : Real.sqrt (m * 2 ^ e) = 2 * Real.sqrt n * 2 ^ (j - 1) := by
    rw [← sqrt_scaled, hn, ← hj, zpow_sub₀ two_ne_zero, zpow_natCast]
    push_cast
    congr 1
    field_simp
  have hpow : 2 ^ (divShift + (e % 2).toNat) ≤ 2 ^ 121 := Nat.pow_le_pow_right two_pos (by rw [divShift]; omega)
  have hpow' : 2 ^ 106 ≤ 2 ^ (divShift + (e % 2).toNat) := Nat.pow_le_pow_right two_pos (by rw [divShift]; omega)
  have hlow : 2 ^ 106 ≤ n := hn ▸ hpow'.trans (Nat.le_mul_of_pos_left _ (Nat.pos_of_ne_zero hm))
  have hhigh : n < 2 ^ 192 := by
    have hprod := Nat.mul_lt_mul_of_lt_of_le (finite_bounds h).1 hpow (by norm_num)
    rw [hn]
    exact hprod.trans (by norm_num)
  rw [hroot] at hbound ⊢
  rw [isqrt_eq_sqrt hhigh, hj, Int.mul_ediv_cancel_left _ two_ne_zero]
  exact roundsTo_roundF64 false (standsFor_sqrt hlow) hbound

/-- Settles O34: the significand scaled by an even power of two has a root whose integer part has bits to spare. -/
theorem floatSqrtRounds : Obligations.FloatSqrtRounds := by
  intro a p hp hpos
  obtain ⟨s, m, e, ha, rfl⟩ := f64Rat_eq_some_iff.mp hp
  rw [fsqrt, ha]
  dsimp only
  split
  · next hzero =>
    subst hzero
    have hval : finRat s 0 e = 0 := by cases s <;> simp [finRat, signedInt]
    rw [hval] at hp ⊢
    rw [Rat.cast_zero, Real.sqrt_zero, ← Rat.cast_zero]
    exact roundsTo_of_f64Rat hp
  · next hm =>
    cases s with
    | true =>
      have hneg : finRat true m e < 0 := by
        have : (0 : ℚ) < m * 2 ^ e := mul_pos (by exact_mod_cast Nat.pos_of_ne_zero hm) (zpow_pos two_pos e)
        simpa [finRat, signedInt] using this
      exact absurd hpos hneg.not_ge
    | false =>
      rw [if_neg Bool.false_ne_true, cast_finRat_eq_ite, if_neg Bool.false_ne_true]
      exact roundsTo_sqrt hm ha

end Sys2Proof.Machine
end

section
/-! The merge heap (42_quantizer.md R256, R257). A sift moves a hole along a path: the heap with the new bin in the hole is
in order but around the hole, and stays a permutation of itself; where the sift stops, the bin fits the hole. -/

namespace Sys2Proof.Machine

/-! ## Costs -/

/-- The cost of a bin as a rational. -/
def cost (ar : Arena) (x : Nat) : ℚ := (f64Rat (arenaAt ar x).err).getD 0

section Costs
variable {ar : Arena} (h : CostsNumeric ar)
include h

theorem f64Rat_err (x : Nat) : f64Rat (arenaAt ar x).err = some (cost ar x) := by
  obtain ⟨v, hv⟩ := Option.isSome_iff_exists.mp (h x)
  rw [cost, hv]
  rfl

theorem fle_err_iff (x y : Nat) : fle (arenaAt ar x).err (arenaAt ar y).err = true ↔ cost ar x ≤ cost ar y :=
  (floatComparisonsAreExact _ _ _ _ (f64Rat_err h x) (f64Rat_err h y)).2

theorem flt_err_iff (x y : Nat) : flt (arenaAt ar x).err (arenaAt ar y).err = true ↔ cost ar x < cost ar y :=
  (floatComparisonsAreExact _ _ _ _ (f64Rat_err h x) (f64Rat_err h y)).1

/-- With numeric costs the heap order is that of the costs. -/
theorem heapOrdered_iff (hp : List Nat) :
    HeapOrdered ar hp ↔ ∀ c, 2 ≤ c → c ≤ hp.length → cost ar (heapAt hp (c / 2)) ≤ cost ar (heapAt hp c) :=
  forall_congr' fun _ => imp_congr_right fun _ => imp_congr_right fun _ => fle_err_iff h _ _

end Costs

/-! ## Positions of the heap -/

section Positions
variable {hp : List Nat} {l c x : Nat}

@[simp] theorem heapSet_length (hp : List Nat) (l x : Nat) : (heapSet hp l x).length = hp.length := List.length_set

theorem heapAt_eq_getElem (hl : 1 ≤ l) (hle : l ≤ hp.length) : heapAt hp l = hp[l - 1] :=
  List.getD_eq_getElem _ _ (by omega)

theorem heapAt_heapSet_self (hl : 1 ≤ l) (hle : l ≤ hp.length) : heapAt (heapSet hp l x) l = x := by
  rw [heapAt_eq_getElem hl (by rwa [heapSet_length])]
  exact List.getElem_set_self _

theorem heapAt_heapSet_ne (hl : 1 ≤ l) (hc : 1 ≤ c) (hne : c ≠ l) : heapAt (heapSet hp l x) c = heapAt hp c := by
  rw [heapAt, heapAt, heapSet, List.getD_eq_getElem?_getD, List.getD_eq_getElem?_getD, List.getElem?_set_ne (by omega)]

/-- Moving the entry at `c` into the hole at `l` moves the hole to `c`. -/
theorem heapSet_move_perm (hl : 1 ≤ l) (hle : l ≤ hp.length) (hc : 1 ≤ c) (hcle : c ≤ hp.length) (hne : c ≠ l) :
    (heapSet (heapSet hp l (heapAt hp c)) c x).Perm (heapSet hp l x) := by
  have hswap := List.set_set_perm (as := heapSet hp l x) (i := l - 1) (j := c - 1)
    (by rw [heapSet_length]; omega) (by rw [heapSet_length]; omega)
  rw [← heapAt_eq_getElem hl (by rwa [heapSet_length]), ← heapAt_eq_getElem hc (by rwa [heapSet_length]),
    heapAt_heapSet_self hl hle, heapAt_heapSet_ne hl hc hne] at hswap
  simpa only [heapSet, List.set_set] using hswap

end Positions

/-! ## HeapPush -/

/-- The heap with `x` in the hole at `l` is in order, but `x` may be below the hole's parent. -/
structure UpReady (ar : Arena) (x : Nat) (hp : List Nat) (l : Nat) : Prop where
  pos : 1 ≤ l
  le : l ≤ hp.length
  order : ∀ c, 2 ≤ c → c ≤ hp.length → c ≠ l → c / 2 ≠ l → cost ar (heapAt hp (c / 2)) ≤ cost ar (heapAt hp c)
  child : ∀ c, 2 ≤ c → c ≤ hp.length → c / 2 = l → cost ar x ≤ cost ar (heapAt hp c)
  across : 2 ≤ l → ∀ c, 2 ≤ c → c ≤ hp.length → c / 2 = l → cost ar (heapAt hp (l / 2)) ≤ cost ar (heapAt hp c)

section Up
variable {ar : Arena} {x : Nat} {hp : List Nat} {l : Nat} (h : UpReady ar x hp l)
include h

/-- Where the hole's parent costs no more than `x`, `x` fits the hole. -/
theorem UpReady.fits (hparent : 2 ≤ l → cost ar (heapAt hp (l / 2)) ≤ cost ar x) (c : Nat) (h2 : 2 ≤ c)
    (hc : c ≤ (heapSet hp l x).length) :
    cost ar (heapAt (heapSet hp l x) (c / 2)) ≤ cost ar (heapAt (heapSet hp l x) c) := by
  obtain ⟨hl, hle, horder, hchild, -⟩ := h
  rw [heapSet_length] at hc
  by_cases hcl : c = l
  · subst hcl
    rw [heapAt_heapSet_self hl hle, heapAt_heapSet_ne hl (by omega) (by omega)]
    exact hparent h2
  · rw [heapAt_heapSet_ne hl (by omega) hcl]
    by_cases hpl : c / 2 = l
    · rw [hpl, heapAt_heapSet_self hl hle]
      exact hchild c h2 hc hpl
    · rw [heapAt_heapSet_ne hl (by omega) hpl]
      exact horder c h2 hc hcl hpl

/-- Where it costs more, it moves down into the hole. -/
theorem UpReady.move (h2l : 2 ≤ l) (hlt : cost ar x < cost ar (heapAt hp (l / 2))) :
    UpReady ar x (heapSet hp l (heapAt hp (l / 2))) (l / 2) := by
  obtain ⟨hl, hle, horder, hchild, hacross⟩ := h
  have hself : heapAt (heapSet hp l (heapAt hp (l / 2))) l = heapAt hp (l / 2) := heapAt_heapSet_self hl hle
  have hother (c : Nat) (hc : 1 ≤ c) (hne : c ≠ l) : heapAt (heapSet hp l (heapAt hp (l / 2))) c = heapAt hp c :=
    heapAt_heapSet_ne hl hc hne
  have hbelow (c : Nat) (h2 : 2 ≤ c) (hc : c ≤ hp.length) (hpar : c / 2 = l / 2) :
      cost ar (heapAt hp (l / 2)) ≤ cost ar (heapAt (heapSet hp l (heapAt hp (l / 2))) c) := by
    by_cases hcl : c = l
    · rw [hcl, hself]
    · rw [hother c (by omega) hcl, ← hpar]
      exact horder c h2 hc hcl (by omega)
  constructor
  case pos => omega
  case le => rw [heapSet_length]; omega
  case order =>
    intro c h2 hc hcne hpne
    rw [heapSet_length] at hc
    rw [hother c (by omega) (by rintro rfl; exact hpne rfl)]
    by_cases hpl : c / 2 = l
    · rw [hpl, hself]
      exact hacross h2l c h2 hc hpl
    · rw [hother (c / 2) (by omega) hpl]
      exact horder c h2 hc (by rintro rfl; exact hpne rfl) hpl
  case child =>
    intro c h2 hc hpar
    rw [heapSet_length] at hc
    exact hlt.le.trans (hbelow c h2 hc hpar)
  case across =>
    intro h2p c h2 hc hpar
    rw [heapSet_length] at hc
    rw [hother (l / 2 / 2) (by omega) (by omega)]
    exact (horder (l / 2) h2p (by omega) (by omega) (by omega)).trans (hbelow c h2 hc hpar)

end Up

theorem siftUp_ordered {ar : Arena} (hnum : CostsNumeric ar) {x k : Nat} {hp : List Nat} {l : Nat}
    (h : UpReady ar x hp l) (hk : l ≤ k) : HeapOrdered ar (siftUp ar x k hp l) := by
  induction k generalizing hp l with
  | zero => have := h.pos; omega
  | succ k ih =>
    rw [siftUp, Nat.shiftRight_one]
    split
    · next hl =>
      dsimp only
      split
      · next hle => exact (heapOrdered_iff hnum _).mpr (h.fits fun _ => (fle_err_iff hnum _ _).mp hle)
      · next hgt => exact ih (h.move hl (not_le.mp (mt (fle_err_iff hnum _ _).mpr hgt))) (by omega)
    · next hl => exact (heapOrdered_iff hnum _).mpr (h.fits fun _ => by omega)

/-- Whatever the costs, the sift permutes the heap with `x` in the hole. -/
theorem siftUp_perm (ar : Arena) {x k : Nat} {hp : List Nat} {l : Nat} (hl : 1 ≤ l) (hle : l ≤ hp.length) :
    (siftUp ar x k hp l).Perm (heapSet hp l x) := by
  induction k generalizing hp l with
  | zero => exact .refl _
  | succ k ih =>
    rw [siftUp, Nat.shiftRight_one]
    split
    · next h2 =>
      dsimp only
      split
      · exact .refl _
      · have hsift := ih (hp := heapSet hp l (heapAt hp (l / 2))) (l := l / 2) (by omega) (by rw [heapSet_length]; omega)
        exact hsift.trans (heapSet_move_perm hl hle (by omega) (by omega) (by omega))
    · exact .refl _

theorem heapPush_perm (ar : Arena) (hp : List Nat) (x : Nat) : (heapPush ar hp x).Perm (x :: hp) := by
  have hend : heapSet (hp ++ [x]) (hp ++ [x]).length x = hp ++ [x] := by
    rw [heapSet, List.length_append]
    simp
  have hsift := siftUp_perm ar (x := x) (k := (hp ++ [x]).length) (hp := hp ++ [x]) (by simp) le_rfl
  exact (hend ▸ hsift).trans (List.perm_append_singleton x hp)

/-- A bin pushed at the end of a heap in order is in its hole there. -/
theorem upReady_push {ar : Arena} (hnum : CostsNumeric ar) {hp : List Nat} (x : Nat) (h : HeapOrdered ar hp) :
    UpReady ar x (hp ++ [x]) (hp ++ [x]).length := by
  have hat (c : Nat) (h1 : 1 ≤ c) (hc : c ≤ hp.length) : heapAt (hp ++ [x]) c = heapAt hp c := by
    rw [heapAt, heapAt, List.getD_append _ _ _ _ (by omega)]
  have hlen : (hp ++ [x]).length = hp.length + 1 := List.length_append
  constructor
  case pos => omega
  case le => exact le_rfl
  case order =>
    intro c h2 hc hne hpne
    rw [hat c (by omega) (by omega), hat (c / 2) (by omega) (by omega)]
    exact (heapOrdered_iff hnum hp).mp h c h2 (by omega)
  case child => intro c h2 hc hpar; omega
  case across => intro _ c h2 hc hpar; omega

/-- Settles O31: the push sifts the bin up from the end. -/
theorem heapPushKeepsOrder : Obligations.HeapPushKeepsOrder :=
  fun ar hp x hnum h => ⟨siftUp_ordered hnum (upReady_push hnum x h) le_rfl, heapPush_perm ar hp x⟩

/-! ## SiftDown -/

theorem lesserChild_child (ar : Arena) {hp : List Nat} {l : Nat} (h : 2 * l ≤ hp.length) :
    lesserChild ar hp l / 2 = l ∧ lesserChild ar hp l ≤ hp.length := by
  rw [lesserChild]
  split <;> omega

/-- The child compared with costs no more than any child. -/
theorem lesserChild_least {ar : Arena} (hnum : CostsNumeric ar) {hp : List Nat} {l c : Nat} (hc : c / 2 = l)
    (hle : c ≤ hp.length) : cost ar (heapAt hp (lesserChild ar hp l)) ≤ cost ar (heapAt hp c) := by
  have hchild : c = 2 * l ∨ c = 2 * l + 1 := by omega
  rw [lesserChild]
  split
  · next hright =>
    obtain ⟨-, hlt⟩ := hright
    rw [flt_err_iff hnum] at hlt
    obtain rfl | rfl := hchild
    · exact hlt.le
    · exact le_rfl
  · next hleft =>
    rw [flt_err_iff hnum] at hleft
    obtain rfl | rfl := hchild
    · exact le_rfl
    · exact not_lt.mp fun hlt => hleft ⟨by omega, hlt⟩

/-- The heap with `x` in the hole at `l` is in order, but `x` may be above the hole's children. -/
structure DownReady (ar : Arena) (x : Nat) (hp : List Nat) (l : Nat) : Prop where
  pos : 1 ≤ l
  le : l ≤ hp.length
  order : ∀ c, 2 ≤ c → c ≤ hp.length → c ≠ l → c / 2 ≠ l → cost ar (heapAt hp (c / 2)) ≤ cost ar (heapAt hp c)
  parent : 2 ≤ l → cost ar (heapAt hp (l / 2)) ≤ cost ar x
  across : 2 ≤ l → ∀ c, c ≤ hp.length → c / 2 = l → cost ar (heapAt hp (l / 2)) ≤ cost ar (heapAt hp c)

section Down
variable {ar : Arena} {x : Nat} {hp : List Nat} {l : Nat} (h : DownReady ar x hp l)
include h

/-- Where `x` costs no more than the hole's children, the hole is one that `x` fits as in `UpReady`. -/
theorem DownReady.upReady (hchild : ∀ c, c ≤ hp.length → c / 2 = l → cost ar x ≤ cost ar (heapAt hp c)) :
    UpReady ar x hp l :=
  ⟨h.pos, h.le, h.order, fun c _ => hchild c, fun h2 c _ => h.across h2 c⟩

/-- Where it costs more than the lesser child, that one moves up into the hole. -/
theorem DownReady.move {d : Nat} (hd : d / 2 = l) (hdle : d ≤ hp.length)
    (hleast : ∀ c, c / 2 = l → c ≤ hp.length → cost ar (heapAt hp d) ≤ cost ar (heapAt hp c))
    (hlt : cost ar (heapAt hp d) < cost ar x) : DownReady ar x (heapSet hp l (heapAt hp d)) d := by
  obtain ⟨hl, hle, horder, hparent, hacross⟩ := h
  have hself : heapAt (heapSet hp l (heapAt hp d)) l = heapAt hp d := heapAt_heapSet_self hl hle
  have hother (c : Nat) (hc : 1 ≤ c) (hne : c ≠ l) : heapAt (heapSet hp l (heapAt hp d)) c = heapAt hp c :=
    heapAt_heapSet_ne hl hc hne
  constructor
  case pos => omega
  case le => rwa [heapSet_length]
  case order =>
    intro c h2 hc hcne hpne
    rw [heapSet_length] at hc
    by_cases hcl : c = l
    · subst hcl
      rw [hself, hother (c / 2) (by omega) (by omega)]
      exact hacross h2 d hdle hd
    · rw [hother c (by omega) hcl]
      by_cases hpl : c / 2 = l
      · rw [hpl, hself]
        exact hleast c hpl hc
      · rw [hother (c / 2) (by omega) hpl]
        exact horder c h2 hc hcl hpl
  case parent =>
    intro _
    rw [hd, hself]
    exact hlt.le
  case across =>
    intro _ c hc hpar
    rw [heapSet_length] at hc
    rw [hd, hself, hother c (by omega) (by omega), ← hpar]
    exact horder c (by omega) hc (by omega) (by omega)

end Down

theorem siftDownFrom_ordered {ar : Arena} (hnum : CostsNumeric ar) {x k : Nat} {hp : List Nat} {l : Nat}
    (h : DownReady ar x hp l) (hk : hp.length + 1 ≤ l + k) : HeapOrdered ar (siftDownFrom ar x k hp l) := by
  induction k generalizing hp l with
  | zero => have := h.le; omega
  | succ k ih =>
    rw [siftDownFrom]
    split
    · next hchildren =>
      obtain ⟨hd, hdle⟩ := lesserChild_child ar hchildren
      dsimp only
      split
      · next hle =>
        have hchild (c : Nat) (hc : c ≤ hp.length) (hpar : c / 2 = l) : cost ar x ≤ cost ar (heapAt hp c) :=
          ((fle_err_iff hnum _ _).mp hle).trans (lesserChild_least hnum hpar hc)
        exact (heapOrdered_iff hnum _).mpr ((h.upReady hchild).fits h.parent)
      · next hgt =>
        have hlt := not_le.mp (mt (fle_err_iff hnum _ _).mpr hgt)
        have hpos := h.pos
        exact ih (h.move hd hdle (fun c => lesserChild_least hnum) hlt) (by rw [heapSet_length]; omega)
    · next hleaf =>
      have hchild (c : Nat) (hc : c ≤ hp.length) (hpar : c / 2 = l) : cost ar x ≤ cost ar (heapAt hp c) := by omega
      exact (heapOrdered_iff hnum _).mpr ((h.upReady hchild).fits h.parent)

/-- Whatever the costs, the sift permutes the heap with `x` in the hole. -/
theorem siftDownFrom_perm (ar : Arena) {x k : Nat} {hp : List Nat} {l : Nat} (hl : 1 ≤ l) (hle : l ≤ hp.length) :
    (siftDownFrom ar x k hp l).Perm (heapSet hp l x) := by
  induction k generalizing hp l with
  | zero => exact .refl _
  | succ k ih =>
    rw [siftDownFrom]
    split
    · next hchildren =>
      obtain ⟨hd, hdle⟩ := lesserChild_child ar hchildren
      dsimp only
      split
      · exact .refl _
      · have hsift := ih (hp := heapSet hp l (heapAt hp (lesserChild ar hp l))) (l := lesserChild ar hp l) (by omega)
          (by rwa [heapSet_length])
        exact hsift.trans (heapSet_move_perm hl hle (by omega) hdle (by omega))
    · exact .refl _

theorem siftDown_perm (ar : Arena) {hp : List Nat} (hne : hp ≠ []) (x : Nat) : (siftDown ar hp x).Perm (x :: hp.tail) := by
  have hsift := siftDownFrom_perm ar (x := x) (k := hp.length) le_rfl (List.length_pos_of_ne_nil hne)
  obtain ⟨y, ys, rfl⟩ := List.exists_cons_of_ne_nil hne
  exact hsift

/-- Settles O32: the sift begins with the hole at the root. -/
theorem siftDownRestoresOrder : Obligations.SiftDownRestoresOrder := by
  intro ar hp x hnum hne h
  have hready : DownReady ar x hp 1 :=
    { pos := le_rfl
      le := List.length_pos_of_ne_nil hne
      order := fun c h2 hc _ hpar => (fle_err_iff hnum _ _).mp (h c (by omega) hc)
      parent := fun h2 => absurd h2 (by decide)
      across := fun h2 => absurd h2 (by decide) }
  exact ⟨siftDownFrom_ordered hnum hready (Nat.add_comm hp.length 1).le, siftDown_perm ar hne x⟩

end Sys2Proof.Machine
end

section
/-! Bounds of rounded results (00_scope.md R12). Rounding is monotone, so between two binary64 numbers it stays between
them; and a normal result is within a last place of the exact one. With these the reduction's arithmetic is bounded. -/

namespace Sys2Proof.Machine

/-! ## Numbers that are binary64 numbers -/

/-- A rational that some finite binary64 number has as its value. -/
def Representable (w : ℚ) : Prop := ∃ y : F64, f64Rat y = some w

theorem Representable.neg {w : ℚ} : Representable w → Representable (-w) := fun ⟨_, h⟩ => ⟨_, f64Rat_fneg h⟩

/-- A normal significand at a place of a finite number. -/
theorem representable_scaled {n : ℕ} {q : ℤ} (hlow : 2 ^ 52 ≤ n) (hhigh : n < 2 ^ 53) (hq : -1074 ≤ q) (hq' : q ≤ 971) :
    Representable (n * 2 ^ q) := by
  have hrat := f64Rat_f64Signed (neg := false) hq hhigh.le (.inl hlow) (by omega)
  rw [show finRat false n q = n * 2 ^ q by simp [finRat, signedInt]] at hrat
  exact ⟨_, hrat⟩

theorem representable_two_pow {k : ℕ} (hk : k ≤ 1023) : Representable (2 ^ k) := by
  have hrep := representable_scaled (n := 2 ^ 52) (q := (k : ℤ) - 52) le_rfl (by norm_num) (by omega) (by omega)
  rw [zpow_sub₀ two_ne_zero, zpow_natCast] at hrep
  convert hrep using 1
  push_cast
  field_simp

theorem representable_zero : Representable 0 := ⟨_, f64Rat_f64Zero false⟩

/-- Integers below 2^53 are binary64 numbers. -/
theorem f64Rat_f64OfNat {n : ℕ} (h : n < 2 ^ 53) : f64Rat (f64OfNat n) = some (n : ℚ) := by
  obtain rfl | hn := eq_or_ne n 0
  · exact f64Rat_f64Zero false
  · have hlog : Nat.log2 n < 53 := (Nat.log2_lt hn).mpr h
    have hplace : lastPlace n 0 = Nat.log2 n - 52 := by rw [lastPlace]; omega
    have hexact : StandsFor n (n : ℝ) := .inl rfl
    have hle : places n 0 ≤ 2 ^ 53 := places_le hexact hn
    have hfin : (lastPlace n 0 + 1074).toNat * 2 ^ 52 + places n 0 < 2047 * 2 ^ 52 := by omega
    have hval : finRat false (places n 0) (lastPlace n 0) = n := by
      rw [places, if_pos (by omega), Nat.shiftLeft_eq, finRat, signedInt, if_neg Bool.false_ne_true, zero_sub]
      push_cast
      rw [mul_assoc, ← zpow_natCast, ← zpow_add₀ two_ne_zero, Int.toNat_of_nonneg (by omega), neg_add_cancel, zpow_zero,
        mul_one]
    rw [f64OfNat, roundF64_eq hn hfin, f64Rat_f64Signed (by omega) hle (le_places hexact hn) hfin, hval]

theorem representable_natCast {n : ℕ} (h : n < 2 ^ 53) : Representable n := ⟨_, f64Rat_f64OfNat h⟩

/-- A binary64 number is below the overflow bound. -/
theorem Representable.abs_lt {w : ℚ} (h : Representable w) : |w| < overflowBound := by
  obtain ⟨y, hy⟩ := h
  obtain ⟨s, m, e, hfin, rfl⟩ := f64Rat_eq_some_iff.mp hy
  have hm : ((m + 1 : ℕ) : ℝ) ≤ ((2 ^ 53 : ℕ) : ℝ) := Nat.cast_le.mpr (finite_bounds hfin).1
  push_cast at hm
  have he : (2 : ℝ) ^ e ≤ 2 ^ (971 : ℤ) := zpow_le_zpow_right₀ one_le_two (exponent_le hfin)
  have hpos : (0 : ℝ) < 2 ^ (971 : ℤ) := zpow_pos two_pos _
  have hbound : |((finRat s m e : ℚ) : ℝ)| < ((overflowBound : ℚ) : ℝ) := by
    rw [abs_cast_finRat, overflowBound_eq]
    calc (m : ℝ) * 2 ^ e ≤ m * 2 ^ (971 : ℤ) := mul_le_mul_of_nonneg_left he (Nat.cast_nonneg m)
      _ < (2 ^ 53 - 1 / 2) * 2 ^ (971 : ℤ) := mul_lt_mul_of_pos_right (by linarith) hpos
  exact_mod_cast hbound

/-! ## Rounding is monotone -/

/-- `x` is a finite number between `lo` and `hi`. -/
def Between (lo hi : ℚ) (x : F64) : Prop := ∃ v, f64Rat x = some v ∧ lo ≤ v ∧ v ≤ hi

theorem RoundsTo.nearest_le {q : ℝ} {x : F64} (h : RoundsTo q x) :
    ∃ v : ℚ, f64Rat x = some v ∧ ∀ w : ℚ, Representable w → |(v : ℝ) - q| ≤ |(w : ℝ) - q| := by
  obtain ⟨v, hv, hnear⟩ := h
  refine ⟨v, hv, fun w hw => ?_⟩
  obtain ⟨y, hy⟩ := hw
  exact (hnear y w hy).elim le_of_lt fun h => h.1.le

theorem RoundsTo.between {q : ℝ} {x : F64} (h : RoundsTo q x) {lo hi : ℚ} (hlo : Representable lo)
    (hhi : Representable hi) (hle : (lo : ℝ) ≤ q) (hge : q ≤ hi) : Between lo hi x := by
  obtain ⟨v, hv, hnear⟩ := h.nearest_le
  refine ⟨v, hv, ?_, ?_⟩
  · by_contra hlt
    have hlt' : (v : ℝ) < lo := by exact_mod_cast not_le.mp hlt
    have hfar := hnear lo hlo
    rw [abs_of_neg (by linarith), abs_of_nonpos (by linarith)] at hfar
    linarith
  · by_contra hlt
    have hlt' : (hi : ℝ) < v := by exact_mod_cast not_le.mp hlt
    have hfar := hnear hi hhi
    rw [abs_of_pos (by linarith), abs_of_nonneg (by linarith)] at hfar
    linarith

section Operations
variable {a b : F64} {p q lo hi : ℚ}

/-- Below the greater magnitude of two binary64 bounds nothing overflows. -/
theorem abs_lt_of_between {v : ℚ} (hlo : Representable lo) (hhi : Representable hi) (hle : lo ≤ v) (hge : v ≤ hi) :
    |v| < overflowBound :=
  (abs_le_max_abs_abs hle hge).trans_lt (max_lt hlo.abs_lt hhi.abs_lt)

variable (hp : f64Rat a = some p) (hq : f64Rat b = some q) (hlo : Representable lo) (hhi : Representable hi)
include hp hq hlo hhi

theorem between_fadd (hle : lo ≤ p + q) (hge : p + q ≤ hi) : Between lo hi (fadd a b) :=
  (roundsTo_fadd hp hq (abs_lt_of_between hlo hhi hle hge)).between hlo hhi (Rat.cast_le.mpr hle) (Rat.cast_le.mpr hge)

theorem between_fsub (hle : lo ≤ p - q) (hge : p - q ≤ hi) : Between lo hi (fsub a b) :=
  between_fadd hp (f64Rat_fneg hq) hlo hhi (sub_eq_add_neg p q ▸ hle) (sub_eq_add_neg p q ▸ hge)

theorem between_fmul (hle : lo ≤ p * q) (hge : p * q ≤ hi) : Between lo hi (fmul a b) :=
  (roundsTo_fmul hp hq (abs_lt_of_between hlo hhi hle hge)).between hlo hhi (Rat.cast_le.mpr hle) (Rat.cast_le.mpr hge)

theorem between_fdiv (hne : q ≠ 0) (hle : lo ≤ p / q) (hge : p / q ≤ hi) : Between lo hi (fdiv a b) :=
  (roundsTo_fdiv hp hq hne (abs_lt_of_between hlo hhi hle hge)).between hlo hhi (Rat.cast_le.mpr hle)
    (Rat.cast_le.mpr hge)

end Operations

/-! ## The relative error -/

/-- The greatest relative error of a normal result. -/
def ulp : ℚ := 1 / 2 ^ 52

/-- A result that is not subnormal is within a last place of the exact one. -/
theorem RoundsTo.relative {q : ℚ} {x : F64} (h : RoundsTo q x) (hlow : (2 : ℚ) ^ (-200 : ℤ) ≤ q)
    (hhigh : q ≤ (2 : ℚ) ^ (200 : ℤ)) :
    ∃ v, f64Rat x = some v ∧ |v - q| ≤ ulp * q := by
  have hq : 0 < q := (zpow_pos two_pos _).trans_le hlow
  obtain ⟨k, hk, hk'⟩ : ∃ k : ℤ, 2 ^ k ≤ q ∧ q < 2 ^ (k + 1) :=
    ⟨Int.log 2 q, by exact_mod_cast Int.zpow_log_le_self one_lt_two hq, by exact_mod_cast Int.lt_zpow_succ_log_self one_lt_two q⟩
  have hklow : -200 < k + 1 := (zpow_lt_zpow_iff_right₀ (one_lt_two (α := ℚ))).mp (hlow.trans_lt hk')
  have hkhigh : k ≤ 200 := (zpow_le_zpow_iff_right₀ (one_lt_two (α := ℚ))).mp (hk.trans hhigh)
  have hplace : (0 : ℚ) < 2 ^ (k - 52) := zpow_pos two_pos _
  have hlead : (2 : ℚ) ^ k = 2 ^ 52 * 2 ^ (k - 52) := by
    rw [← zpow_natCast, ← zpow_add₀ two_ne_zero]
    congr 1
    omega
  have hcarry : (2 : ℚ) ^ (k + 1) = 2 ^ 53 * 2 ^ (k - 52) := by
    rw [← zpow_natCast, ← zpow_add₀ two_ne_zero]
    congr 1
    omega
  obtain ⟨n, hn⟩ : ∃ n : ℕ, n = ⌊q / 2 ^ (k - 52)⌋₊ := ⟨_, rfl⟩
  have hnle : (n : ℚ) ≤ q / 2 ^ (k - 52) := hn ▸ Nat.floor_le (by positivity)
  have hnlt : q / 2 ^ (k - 52) < n + 1 := hn ▸ Nat.lt_floor_add_one _
  have hn52 : 2 ^ 52 ≤ n := by
    rw [hn]
    refine Nat.le_floor ?_
    rwa [Nat.cast_pow, Nat.cast_ofNat, le_div_iff₀ hplace, ← hlead]
  have hn53 : n < 2 ^ 53 := by
    rw [hn, Nat.floor_lt (by positivity)]
    rwa [Nat.cast_pow, Nat.cast_ofNat, div_lt_iff₀ hplace, ← hcarry]
  obtain ⟨v, hv, hnear⟩ := h.nearest_le
  refine ⟨v, hv, ?_⟩
  have herr : |v - q| ≤ |n * 2 ^ (k - 52) - q| := by
    have hclose := hnear _ (representable_scaled (q := k - 52) hn52 hn53 (by omega) (by omega))
    exact_mod_cast hclose
  rw [le_div_iff₀ hplace] at hnle
  rw [div_lt_iff₀ hplace] at hnlt
  rw [hlead] at hk
  rw [abs_sub_comm (_ * _), abs_of_nonneg (sub_nonneg.mpr hnle)] at herr
  rw [ulp]
  linarith

end Sys2Proof.Machine
end

section
/-! The arithmetic of the bins (42_quantizer.md R251, R252, R255, R260) is bounded: with counts between 1 and 2^32 and
channels that are not negative, a merge cost is far below SENTINEL, a merged count is at most the sum of the counts rounded
up, and a merge raises the bound of the channels by at most 1. -/

namespace Sys2Proof.Machine

/-! ## Numbers that are not negative -/

section Bounds
variable {x y : F64} {lo hi : ℚ} {a c k : ℕ}

theorem Between.mono (h : Between lo hi x) {lo' hi' : ℚ} (hlo : lo' ≤ lo) (hhi : hi ≤ hi') : Between lo' hi' x := by
  obtain ⟨v, hv, hle, hge⟩ := h
  exact ⟨v, hv, hlo.trans hle, hge.trans hhi⟩

theorem Between.fmul_pow (hx : Between 0 (2 ^ a) x) (hy : Between 0 (2 ^ c) y) (hk : a + c ≤ 1023) :
    Between 0 (2 ^ (a + c)) (fmul x y) := by
  obtain ⟨p, hp, hp0, hpa⟩ := hx
  obtain ⟨q, hq, hq0, hqc⟩ := hy
  refine between_fmul hp hq representable_zero (representable_two_pow hk) (mul_nonneg hp0 hq0) ?_
  rw [pow_add]
  exact mul_le_mul hpa hqc hq0 (by positivity)

theorem Between.fadd_pow (hx : Between 0 (2 ^ a) x) (hy : Between 0 (2 ^ a) y) (hk : a + 1 ≤ 1023) :
    Between 0 (2 ^ (a + 1)) (fadd x y) := by
  obtain ⟨p, hp, hp0, hpa⟩ := hx
  obtain ⟨q, hq, hq0, hqa⟩ := hy
  refine between_fadd hp hq representable_zero (representable_two_pow hk) (add_nonneg hp0 hq0) ?_
  rw [pow_succ]
  linarith

/-- The square of a difference of channels. -/
theorem Between.fsq_fsub (hx : Between 0 (2 ^ a) x) (hy : Between 0 (2 ^ a) y) (hk : a + a ≤ 1023) :
    Between 0 (2 ^ (a + a)) (fsq (fsub x y)) := by
  obtain ⟨p, hp, hp0, hpa⟩ := hx
  obtain ⟨q, hq, hq0, hqa⟩ := hy
  have hrep : Representable (2 ^ a) := representable_two_pow (by omega)
  obtain ⟨d, hd, hlow, hhigh⟩ := between_fsub hp hq hrep.neg hrep (by linarith) (by linarith)
  refine between_fmul hd hd representable_zero (representable_two_pow hk) (mul_self_nonneg d) ?_
  rw [pow_add, ← sq, ← sq]
  exact sq_le_sq' hlow hhigh

end Bounds

/-! ## Bins -/

/-- A bin's count is between 1 and 2^32 and its channels between 0 and `B`. -/
structure BinSound (B : ℚ) (x : ArenaBin) : Prop where
  n : Between 1 (2 ^ 32) x.n
  r : Between 0 B x.r
  g : Between 0 B x.g
  b : Between 0 B x.b
  a : Between 0 B x.a

theorem BinSound.mono {B B' : ℚ} {x : ArenaBin} (h : BinSound B x) (hB : B ≤ B') : BinSound B' x :=
  ⟨h.n, h.r.mono le_rfl hB, h.g.mono le_rfl hB, h.b.mono le_rfl hB, h.a.mono le_rfl hB⟩

section Pair
variable {B : ℚ} {x y : ArenaBin} (hx : BinSound B x) (hy : BinSound B y)
include hx hy

theorem between_sum_counts : Between 1 (2 ^ 33) (fadd x.n y.n) := by
  obtain ⟨p, hp, hp1, hp32⟩ := hx.n
  obtain ⟨q, hq, hq1, hq32⟩ := hy.n
  have hone : Representable 1 := pow_zero (2 : ℚ) ▸ representable_two_pow (Nat.zero_le _)
  exact between_fadd hp hq hone (representable_two_pow (by norm_num)) (by linarith) (by linarith)

theorem between_pairWeight : Between 0 (2 ^ 64) (pairWeight x.n y.n) := by
  have hprod := (hx.n.mono zero_le_one le_rfl).fmul_pow (hy.n.mono zero_le_one le_rfl) (by norm_num)
  obtain ⟨p, hp, hp0, hp64⟩ := hprod
  obtain ⟨q, hq, hq1, -⟩ := between_sum_counts hx hy
  have hq0 : 0 < q := by linarith
  exact between_fdiv hp hq representable_zero (representable_two_pow (by norm_num)) hq0.ne' (div_nonneg hp0 hq0.le)
    ((div_le_self hp0 hq1).trans hp64)

variable (hB : B ≤ 2 ^ 41)
include hB

/-- The term of a channel in a merge cost. -/
theorem between_costTerm {u v : F64} (hu : Between 0 B u) (hv : Between 0 B v) :
    Between 0 (2 ^ 146) (fmul (pairWeight x.n y.n) (fsq (fsub u v))) :=
  (between_pairWeight hx hy).fmul_pow ((hu.mono le_rfl hB).fsq_fsub (hv.mono le_rfl hB) (by norm_num)) (by norm_num)

theorem between_mergeCost (alpha : Bool) : Between 0 (2 ^ 150) (mergeCost alpha x y) := by
  have hzero : Between 0 (2 ^ 146) f64PosZero := ⟨0, f64Rat_f64Zero false, le_rfl, by positivity⟩
  have hstart : Between 0 (2 ^ 147)
      (if alpha then fadd f64PosZero (fmul (pairWeight x.n y.n) (fsq (fsub y.a x.a))) else f64PosZero) := by
    split
    · exact hzero.fadd_pow (between_costTerm hx hy hB hy.a hx.a) (by norm_num)
    · exact hzero.mono le_rfl (by norm_num)
  have hred := hstart.fadd_pow ((between_costTerm hx hy hB hy.r hx.r).mono le_rfl (by norm_num)) (by norm_num)
  have hgreen := hred.fadd_pow ((between_costTerm hx hy hB hy.g hx.g).mono le_rfl (by norm_num)) (by norm_num)
  exact hgreen.fadd_pow ((between_costTerm hx hy hB hy.b hx.b).mono le_rfl (by norm_num)) (by norm_num)

end Pair

/-! ## Merged bins -/

/-- The count rounded up. -/
def binCount (x : ArenaBin) : ℕ := ⌈(f64Rat x.n).getD 0⌉₊

/-- Rounding a number that is not above `Q` leaves it not above `Q` but for the relative error. -/
theorem RoundsTo.le_of_le {q Q : ℚ} {x : F64} (h : RoundsTo q x) (hq : 0 ≤ q) (hle : q ≤ Q) (hQ : 1 ≤ Q)
    (hQ' : Q ≤ (2 : ℚ) ^ (200 : ℤ)) : Between 0 ((1 + ulp) * Q) x := by
  obtain hnormal | htiny := le_or_gt ((2 : ℚ) ^ (-200 : ℤ)) q
  · obtain ⟨v, hv, herr⟩ := h.relative hnormal (hle.trans hQ')
    obtain ⟨hlow, hhigh⟩ := abs_le.mp herr
    have hsmall : ulp * q ≤ 1 * q := mul_le_mul_of_nonneg_right (by rw [ulp]; norm_num) hq
    have hscaled : (1 + ulp) * q ≤ (1 + ulp) * Q := mul_le_mul_of_nonneg_left hle (by rw [ulp]; norm_num)
    exact ⟨v, hv, by linarith, by linarith⟩
  · have hone : Representable 1 := pow_zero (2 : ℚ) ▸ representable_two_pow (Nat.zero_le _)
    have hq1 : q ≤ 1 := htiny.le.trans (zpow_le_one_of_nonpos₀ one_le_two (by norm_num))
    refine (h.between representable_zero hone (by exact_mod_cast hq) (by exact_mod_cast hq1)).mono le_rfl ?_
    calc (1 : ℚ) ≤ Q := hQ
      _ ≤ (1 + ulp) * Q := le_mul_of_one_le_left (by linarith) (by rw [ulp]; norm_num)

/-- A number that is not negative and at most 2^200 does not overflow. -/
theorem abs_lt_overflowBound {q : ℚ} (h0 : 0 ≤ q) (h : q ≤ (2 : ℚ) ^ (200 : ℤ)) : |q| < overflowBound :=
  abs_lt_of_between representable_zero (representable_two_pow (k := 200) (by norm_num)) h0 (by exact_mod_cast h)

section Relative
variable {x y : F64} {p q Q : ℚ} (hx : f64Rat x = some p) (hy : f64Rat y = some q) (hp : 0 ≤ p) (hq : 0 ≤ q)
  (hQ : 1 ≤ Q) (hQ' : Q ≤ (2 : ℚ) ^ (200 : ℤ))
include hx hy hp hq hQ hQ'

theorem fmul_le_of_le (h : p * q ≤ Q) : Between 0 ((1 + ulp) * Q) (fmul x y) :=
  (roundsTo_fmul hx hy (abs_lt_overflowBound (mul_nonneg hp hq) (h.trans hQ'))).le_of_le (mul_nonneg hp hq) h hQ hQ'

theorem fadd_le_of_le (h : p + q ≤ Q) : Between 0 ((1 + ulp) * Q) (fadd x y) :=
  (roundsTo_fadd hx hy (abs_lt_overflowBound (add_nonneg hp hq) (h.trans hQ'))).le_of_le (add_nonneg hp hq) h hQ hQ'

end Relative

theorem f64Rat_f64One : f64Rat f64One = some 1 := by
  have hval : f64Val f64One = .fin false (2 ^ 52) (-52) := by decide
  rw [f64Rat_of_fin hval, finRat]
  norm_num [signedInt]

section Merge
variable {B : ℚ} {x y : ArenaBin} (hx : BinSound B x) (hy : BinSound B y)
include hx hy

theorem binCount_absorb_le (alpha : Bool) (i : Nat) (hsum : binCount x + binCount y ≤ 2 ^ 32) :
    binCount (absorb alpha x y i) ≤ binCount x + binCount y := by
  obtain ⟨p, hp, hp1, -⟩ := hx.n
  obtain ⟨q, hq, hq1, -⟩ := hy.n
  have hceil : p + q ≤ ((binCount x + binCount y : ℕ) : ℚ) := by
    rw [binCount, binCount, hp, hq]
    push_cast
    exact add_le_add (Nat.le_ceil p) (Nat.le_ceil q)
  have hrep : Representable (binCount x + binCount y : ℕ) := representable_natCast (by omega)
  obtain ⟨v, hv, -, hle⟩ := between_fadd hp hq representable_zero hrep (by linarith) hceil
  show ⌈(f64Rat (fadd x.n y.n)).getD 0⌉₊ ≤ _
  rw [hv]
  exact Nat.ceil_le.mpr hle

omit hx hy in
/-- The errors of the operations of an average together. -/
theorem average_le {u d n s S : ℚ} (hu : u = 1 / 2 ^ 52) (hd : 0 ≤ d) (hdn : d * n ≤ 1 + u)
    (hs : s ≤ (1 + u) * ((1 + u) * S)) (hS : S - u * S ≤ n * B) (hB1 : 1 ≤ B) : d * s ≤ (1 + 5 * u) * B := by
  have hscaled : (1 - u) * (d * s) ≤ (1 + u) ^ 3 * B := by
    calc (1 - u) * (d * s) ≤ (1 - u) * (d * ((1 + u) * ((1 + u) * S))) := by
          refine mul_le_mul_of_nonneg_left (mul_le_mul_of_nonneg_left hs hd) ?_
          rw [hu]
          norm_num
      _ = (1 + u) ^ 2 * (d * (S - u * S)) := by ring
      _ ≤ (1 + u) ^ 2 * (d * (n * B)) := mul_le_mul_of_nonneg_left (mul_le_mul_of_nonneg_left hS hd) (sq_nonneg _)
      _ = (1 + u) ^ 2 * B * (d * n) := by ring
      _ ≤ (1 + u) ^ 2 * B * (1 + u) := mul_le_mul_of_nonneg_left hdn (by positivity)
      _ = (1 + u) ^ 3 * B := by ring
  rw [hu] at hscaled ⊢
  linarith

/-- An average of two channels is above their bound by at most 1. -/
theorem between_mergeAvg (hB1 : 1 ≤ B) (hB : B ≤ 2 ^ 41) {u v : F64} (hu : Between 0 B u) (hv : Between 0 B v) :
    Between 0 (B + 1) (mergeAvg (fdiv f64One (fadd x.n y.n)) x.n y.n u v) := by
  obtain ⟨p, hp, hp1, hp32⟩ := hx.n
  obtain ⟨q, hq, hq1, hq32⟩ := hy.n
  obtain ⟨ur, hur, hur0, hurB⟩ := hu
  obtain ⟨vr, hvr, hvr0, hvrB⟩ := hv
  have hp0 : 0 ≤ p := by linarith
  have hq0 : 0 ≤ q := by linarith
  have hpB : 1 ≤ p * B := one_le_mul_of_one_le_of_one_le hp1 hB1
  have hqB : 1 ≤ q * B := one_le_mul_of_one_le_of_one_le hq1 hB1
  have hpB' : p * B ≤ 2 ^ 73 := (mul_le_mul hp32 hB (by linarith) (by norm_num)).trans (by norm_num)
  have hqB' : q * B ≤ 2 ^ 73 := (mul_le_mul hq32 hB (by linarith) (by norm_num)).trans (by norm_num)
  have hulp : ulp = 1 / 2 ^ 52 := rfl
  obtain ⟨n, hn, hnerr⟩ := (roundsTo_fadd hp hq (abs_lt_overflowBound (by linarith) (by norm_num; linarith))).relative
    (by norm_num; linarith) (by norm_num; linarith)
  obtain ⟨a1, ha1, ha10, ha1le⟩ := fmul_le_of_le hp hur hp0 hur0 hpB (by norm_num; linarith)
    (mul_le_mul_of_nonneg_left hurB hp0)
  obtain ⟨a2, ha2, ha20, ha2le⟩ := fmul_le_of_le hq hvr hq0 hvr0 hqB (by norm_num; linarith)
    (mul_le_mul_of_nonneg_left hvrB hq0)
  have hS : 1 ≤ (p + q) * B := by linarith
  have hS' : (p + q) * B ≤ 2 ^ 74 := by linarith
  obtain ⟨s, hs, hs0, hsle⟩ := fadd_le_of_le (Q := (1 + ulp) * ((p + q) * B)) ha1 ha2 ha10 ha20
    (by rw [hulp]; linarith) (by rw [hulp]; norm_num; linarith) (by linarith)
  obtain ⟨hnlow, hnhigh⟩ := abs_le.mp hnerr
  have hn1 : 1 ≤ n := by rw [hulp] at hnlow; linarith
  have hn34 : n ≤ 2 ^ 34 := by rw [hulp] at hnhigh; linarith
  have hn0 : 0 < n := by linarith
  have hinv : (1 : ℚ) / n ≤ 1 := (div_le_one hn0).mpr hn1
  have hinv' : (1 : ℚ) / 2 ^ 34 ≤ 1 / n := one_div_le_one_div_of_le hn0 hn34
  obtain ⟨d, hd, hderr⟩ := (roundsTo_fdiv f64Rat_f64One hn hn0.ne'
    (abs_lt_overflowBound (by positivity) (hinv.trans (by norm_num)))).relative
    (le_trans (by norm_num) hinv') (hinv.trans (by norm_num))
  obtain ⟨hdlow, hdhigh⟩ := abs_le.mp hderr
  have hd0 : 0 ≤ d := by rw [hulp] at hdlow; linarith
  have hdn : d * n ≤ 1 + ulp := by
    have hscaled : d * n ≤ (1 / n + ulp * (1 / n)) * n := mul_le_mul_of_nonneg_right (by linarith) hn0.le
    rwa [add_mul, mul_assoc, one_div_mul_cancel hn0.ne', mul_one] at hscaled
  have hSn : (p + q) * B - ulp * ((p + q) * B) ≤ n * B := by
    have hscaled : (p + q - ulp * (p + q)) * B ≤ n * B := mul_le_mul_of_nonneg_right (by linarith) (by linarith)
    linarith
  have havg := average_le hulp hd0 hdn hsle hSn hB1
  refine (fmul_le_of_le hd hs hd0 hs0 (by rw [hulp]; linarith) (by rw [hulp]; norm_num; linarith) havg).mono le_rfl ?_
  rw [hulp]
  linarith

/-- The bin that absorbs another is sound, its channels' bound raised by 1. -/
theorem binSound_absorb (hB1 : 1 ≤ B) (hB : B ≤ 2 ^ 41) (alpha : Bool) (i : Nat)
    (hsum : binCount x + binCount y ≤ 2 ^ 32) : BinSound (B + 1) (absorb alpha x y i) where
  n := by
    obtain ⟨v, hv, hv1, -⟩ := between_sum_counts hx hy
    have hle := (binCount_absorb_le hx hy alpha i hsum).trans hsum
    have hceil : ⌈(f64Rat (fadd x.n y.n)).getD 0⌉₊ ≤ 2 ^ 32 := hle
    rw [hv] at hceil
    exact ⟨v, hv, hv1, by exact_mod_cast Nat.ceil_le.mp hceil⟩
  r := between_mergeAvg hx hy hB1 hB hx.r hy.r
  g := between_mergeAvg hx hy hB1 hB hx.g hy.g
  b := between_mergeAvg hx hy hB1 hB hx.b hy.b
  a := by
    rw [absorb]
    cases alpha with
    | true => exact between_mergeAvg hx hy hB1 hB hx.a hy.a
    | false => exact hx.a.mono le_rfl (by linarith)

end Merge

end Sys2Proof.Machine
end

section
/-! The inner loop of MergeLoop (42_quantizer.md R258, R259): each turn drops a deleted root or refreshes a stale one, and a
refreshed bin stays valid; so the entries of the heap that are not valid become fewer, and the loop ends at a valid top. -/

namespace Sys2Proof.Machine

/-! ## Reading an arena after a write -/

section Write
variable {ar : Arena} {x z : Nat} {b : ArenaBin}

theorem arenaAt_set_self (hx : x < ar.length) : arenaAt (ar.set x b) x = b := by
  rw [arenaAt, List.getD_eq_getElem _ _ (by rwa [List.length_set]), List.getElem_set_self]

theorem arenaAt_set_ne (hz : z ≠ x) : arenaAt (ar.set x b) z = arenaAt ar z := by
  rw [arenaAt, arenaAt, List.getD_eq_getElem?_getD, List.getD_eq_getElem?_getD, List.getElem?_set_ne hz.symm]

/-- The bin at `x` is not deleted. -/
abbrev Live (ar : Arena) (x : Nat) : Prop := (arenaAt ar x).deleted = false

/-- What is outside the arena reads as deleted. -/
theorem Live.lt_length (h : Live ar x) : x < ar.length := by
  by_contra hge
  rw [Live, arenaAt, List.getD_eq_default _ _ (not_lt.mp hge)] at h
  cases h

end Write

/-! ## Refreshed bins -/

/-- `ar'` is `ar` but for the costs, neighbours and times of its bins. -/
structure Reranked (ar ar' : Arena) : Prop where
  length : ar'.length = ar.length
  bin : ∀ x, arenaAt ar' x = { arenaAt ar x with
    err := (arenaAt ar' x).err, nn := (arenaAt ar' x).nn, tm := (arenaAt ar' x).tm }

section Reranked
variable {ar ar' : Arena} (h : Reranked ar ar') (x : Nat)
include h

theorem Reranked.deleted : (arenaAt ar' x).deleted = (arenaAt ar x).deleted := by rw [h.bin x]
theorem Reranked.mtm : (arenaAt ar' x).mtm = (arenaAt ar x).mtm := by rw [h.bin x]
theorem Reranked.fw : (arenaAt ar' x).fw = (arenaAt ar x).fw := by rw [h.bin x]
theorem Reranked.bk : (arenaAt ar' x).bk = (arenaAt ar x).bk := by rw [h.bin x]
theorem Reranked.n : (arenaAt ar' x).n = (arenaAt ar x).n := by rw [h.bin x]

theorem Reranked.live_iff : Live ar' x ↔ Live ar x := by rw [Live, Live, h.deleted x]

end Reranked

/-- The best cost and its bin that FindNN finds for `x`. -/
abbrev nearestBin (p : Params) (alpha : Bool) (ar : Arena) (x : Nat) : F64 × Nat :=
  searchNN p alpha ar (arenaAt ar x) ar.length (arenaAt ar x).fw sentinel 0

/-- The arena in which `x` has its neighbour found again, at merge count `i`. -/
def refresh (p : Params) (alpha : Bool) (ar : Arena) (i x : Nat) : Arena :=
  (findNN p alpha ar x).set x { arenaAt (findNN p alpha ar x) x with tm := i }

section Refresh
variable {p : Params} {alpha : Bool} {ar : Arena} {i x z : Nat}

theorem arenaAt_findNN_self (hx : x < ar.length) : arenaAt (findNN p alpha ar x) x =
    { arenaAt ar x with err := (nearestBin p alpha ar x).1, nn := (nearestBin p alpha ar x).2 } :=
  arenaAt_set_self hx

theorem arenaAt_findNN_ne (hz : z ≠ x) : arenaAt (findNN p alpha ar x) z = arenaAt ar z := arenaAt_set_ne hz

theorem arenaAt_refresh_self (hx : x < ar.length) : arenaAt (refresh p alpha ar i x) x =
    { arenaAt ar x with err := (nearestBin p alpha ar x).1, nn := (nearestBin p alpha ar x).2, tm := i } := by
  rw [refresh, arenaAt_set_self (by rwa [findNN_length]), arenaAt_findNN_self hx]

theorem arenaAt_refresh_ne (hz : z ≠ x) : arenaAt (refresh p alpha ar i x) z = arenaAt ar z := by
  rw [refresh, arenaAt_set_ne hz, arenaAt_findNN_ne hz]

theorem reranked_findNN (hx : x < ar.length) : Reranked ar (findNN p alpha ar x) where
  length := findNN_length ..
  bin z := by
    by_cases hz : z = x
    · subst hz
      rw [arenaAt_findNN_self hx]
    · rw [arenaAt_findNN_ne hz]

theorem reranked_refresh (hx : x < ar.length) : Reranked ar (refresh p alpha ar i x) where
  length := by rw [refresh, List.length_set, findNN_length]
  bin z := by
    by_cases hz : z = x
    · subst hz
      rw [arenaAt_refresh_self hx]
    · rw [arenaAt_refresh_ne hz]

end Refresh

/-! ## The heap without its root -/

/-- The heap of a turn that drops its root: the last entry takes its place. -/
def dropRoot (ar : Arena) (hp : List Nat) : List Nat :=
  siftDown ar (heapSet hp 1 (heapAt hp hp.length)).dropLast (heapAt hp hp.length)

theorem heapSet_root_dropLast {x : Nat} {ys : List Nat} (hys : ys ≠ []) :
    (heapSet (x :: ys) 1 (heapAt (x :: ys) (x :: ys).length)).dropLast = ys.getLast hys :: ys.dropLast ∧
      heapAt (x :: ys) (x :: ys).length = ys.getLast hys := by
  have hlast : heapAt (x :: ys) (x :: ys).length = ys.getLast hys := by
    rw [heapAt_eq_getElem (by simp) le_rfl, ← List.getLast_eq_getElem (List.cons_ne_nil x ys), List.getLast_cons hys]
  rw [hlast]
  exact ⟨List.dropLast_cons_of_ne_nil hys, rfl⟩

theorem dropRoot_perm (ar : Arena) {x : Nat} {ys : List Nat} (hys : ys ≠ []) : (dropRoot ar (x :: ys)).Perm ys := by
  obtain ⟨hset, hlast⟩ := heapSet_root_dropLast (x := x) hys
  rw [dropRoot, hset, hlast]
  refine (siftDown_perm ar (List.cons_ne_nil _ _) _).trans ?_
  have hend := (List.perm_append_singleton (ys.getLast hys) ys.dropLast).symm
  rwa [List.dropLast_append_getLast hys] at hend

/-! ## The turns -/

section Turns
variable {p : Params} {alpha : Bool} {i : Nat}

section Turn
variable {ar : Arena} {hp : List Nat} (k : Nat)

theorem popValid_of_valid (h : validTop ar (heapAt hp 1) = true) :
    popValid p alpha i (k + 1) ar hp = (ar, hp, heapAt hp 1) := if_pos h

theorem popValid_of_deleted (h : ¬ validTop ar (heapAt hp 1) = true)
    (hdeleted : (arenaAt ar (heapAt hp 1)).deleted = true) :
    popValid p alpha i (k + 1) ar hp = popValid p alpha i k ar (dropRoot ar hp) := (if_neg h).trans (if_pos hdeleted)

theorem popValid_of_stale (h : ¬ validTop ar (heapAt hp 1) = true) (hlive : Live ar (heapAt hp 1)) :
    popValid p alpha i (k + 1) ar hp =
      popValid p alpha i k (refresh p alpha ar i (heapAt hp 1))
        (siftDown (refresh p alpha ar i (heapAt hp 1)) hp (heapAt hp 1)) :=
  (if_neg h).trans (if_neg (by simpa using hlive))

end Turn

/-- What every turn keeps, the loop keeps. -/
theorem popValid_induction {P : Arena → List Nat → Prop}
    (hdrop : ∀ ar hp, P ar hp → (arenaAt ar (heapAt hp 1)).deleted = true → P ar (dropRoot ar hp))
    (hrefresh : ∀ ar hp, P ar hp → Live ar (heapAt hp 1) →
      P (refresh p alpha ar i (heapAt hp 1)) (siftDown (refresh p alpha ar i (heapAt hp 1)) hp (heapAt hp 1)))
    (k : Nat) {ar : Arena} {hp : List Nat} (h : P ar hp) :
    P (popValid p alpha i k ar hp).1 (popValid p alpha i k ar hp).2.1 := by
  induction k generalizing ar hp with
  | zero => exact h
  | succ k ih =>
    by_cases hvalid : validTop ar (heapAt hp 1) = true
    · rwa [popValid_of_valid k hvalid]
    · cases hroot : (arenaAt ar (heapAt hp 1)).deleted with
      | true =>
        rw [popValid_of_deleted k hvalid hroot]
        exact ih (hdrop ar hp h hroot)
      | false =>
        rw [popValid_of_stale k hvalid hroot]
        exact ih (hrefresh ar hp h hroot)

/-- The chain of a live bin's forward links is live, so the neighbour found is. -/
theorem searchNN_live {ar : Arena} (hlink : ∀ x, Live ar x → (arenaAt ar x).fw = 0 ∨ Live ar (arenaAt ar x).fw)
    (b : ArenaBin) (k : Nat) {j : Nat} (best : F64) {nn : Nat} (hj : j = 0 ∨ Live ar j) (hnn : Live ar nn) :
    Live ar (searchNN p alpha ar b k j best nn).2 := by
  induction k generalizing j best nn with
  | zero => exact hnn
  | succ k ih =>
    rw [searchNN]
    dsimp only
    split
    · exact hnn
    · next hne =>
      have hlive := hj.resolve_left hne
      split
      · exact ih _ (hlink j hlive) hnn
      · split
        · exact ih _ (hlink j hlive) hlive
        · exact ih _ (hlink j hlive) hnn

section Ready
variable {ar : Arena} {hp : List Nat} (h : MergeReady ar hp i)
include h

theorem MergeReady.ne_nil : hp ≠ [] := by
  obtain ⟨x, hx, -⟩ := h.heapLive
  exact List.ne_nil_of_mem hx

/-- A deleted root is not the only entry. -/
theorem MergeReady.exists_cons (hdeleted : (arenaAt ar (heapAt hp 1)).deleted = true) :
    ∃ x ys, hp = x :: ys ∧ ys ≠ [] ∧ (arenaAt ar x).deleted = true := by
  obtain ⟨x, ys, rfl⟩ := List.exists_cons_of_ne_nil h.ne_nil
  refine ⟨x, ys, rfl, fun hnil => ?_, hdeleted⟩
  obtain ⟨z, hz, hlive⟩ := h.heapLive
  subst hnil
  obtain rfl := List.mem_singleton.mp hz
  cases hlive.symm.trans hdeleted

theorem MergeReady.drop (hdeleted : (arenaAt ar (heapAt hp 1)).deleted = true) :
    MergeReady ar (dropRoot ar hp) i := by
  obtain ⟨x, ys, rfl, hys, hx⟩ := h.exists_cons hdeleted
  have hmem (z : Nat) : z ∈ dropRoot ar (x :: ys) ↔ z ∈ ys := (dropRoot_perm ar hys).mem_iff
  refine { h with
    heapIndex := fun z hz => h.heapIndex z (List.mem_cons_of_mem x ((hmem z).mp hz))
    heapLive := ?_ }
  obtain ⟨z, hz, hlive⟩ := h.heapLive
  refine ⟨z, (hmem z).mpr ((List.mem_cons.mp hz).resolve_left ?_), hlive⟩
  rintro rfl
  cases hlive.symm.trans hx

theorem MergeReady.reranked {ar' : Arena} (hr : Reranked ar ar') {hp' : List Nat} (hperm : hp'.Perm hp) :
    MergeReady ar' hp' i where
  heapIndex x hx := hr.length ▸ h.heapIndex x (hperm.mem_iff.mp hx)
  heapLive := by
    obtain ⟨x, hx, hlive⟩ := h.heapLive
    exact ⟨x, hperm.mem_iff.mpr hx, (hr.live_iff x).mpr hlive⟩
  headLive := (hr.live_iff 0).mpr h.headLive
  timeBound x hx := hr.mtm x ▸ h.timeBound x ((hr.live_iff x).mp hx)
  linkLive x hx := by
    rw [hr.fw]
    exact (h.linkLive x ((hr.live_iff x).mp hx)).imp_right (hr.live_iff _).mpr

theorem siftDown_root_perm (ar' : Arena) : (siftDown ar' hp (heapAt hp 1)).Perm hp := by
  have hsift := siftDown_perm ar' h.ne_nil (heapAt hp 1)
  obtain ⟨x, ys, rfl⟩ := List.exists_cons_of_ne_nil h.ne_nil
  exact hsift

theorem MergeReady.root_lt : heapAt hp 1 < ar.length := by
  obtain ⟨x, ys, rfl⟩ := List.exists_cons_of_ne_nil h.ne_nil
  exact h.heapIndex x List.mem_cons_self

theorem MergeReady.refreshed :
    MergeReady (refresh p alpha ar i (heapAt hp 1))
      (siftDown (refresh p alpha ar i (heapAt hp 1)) hp (heapAt hp 1)) i :=
  h.reranked (reranked_refresh h.root_lt) (siftDown_root_perm h _)

/-- A live bin is valid once refreshed. -/
theorem MergeReady.validTop_refresh {x : Nat} (hx : Live ar x) : validTop (refresh p alpha ar i x) x = true := by
  have hr : Reranked ar (refresh p alpha ar i x) := reranked_refresh hx.lt_length
  have hnn : Live ar (nearestBin p alpha ar x).2 := searchNN_live h.linkLive _ _ _ (h.linkLive x hx) h.headLive
  have hself := arenaAt_refresh_self (p := p) (alpha := alpha) (i := i) hx.lt_length
  have hbin : (arenaAt (refresh p alpha ar i x) x).nn = (nearestBin p alpha ar x).2 := by rw [hself]
  have htime : (arenaAt (refresh p alpha ar i x) x).tm = i := by rw [hself]
  rw [validTop]
  simp [hr.deleted, hr.mtm, hbin, htime, hx, hnn, h.timeBound]

end Ready

/-- The refresh of a bin leaves the others as valid as they were. -/
theorem validTop_refresh_ne {ar : Arena} {x z : Nat} (hx : x < ar.length) (hz : z ≠ x) :
    validTop (refresh p alpha ar i x) z = validTop ar z := by
  have hr : Reranked ar (refresh p alpha ar i x) := reranked_refresh hx
  rw [validTop, validTop]
  simp [hr.deleted, hr.mtm, arenaAt_refresh_ne hz]

/-- The entries of the heap that are not valid tops. -/
def stale (ar : Arena) (hp : List Nat) : Nat := hp.countP (fun x => !validTop ar x)

theorem stale_cons_of_stale {ar : Arena} {x : Nat} (ys : List Nat) (hx : ¬ validTop ar x = true) :
    stale ar (x :: ys) = stale ar ys + 1 :=
  List.countP_cons_of_pos (by simpa using hx)

section Stale
variable {ar : Arena} {hp : List Nat} (h : MergeReady ar hp i) (hstale : ¬ validTop ar (heapAt hp 1) = true)
include h hstale

theorem stale_dropRoot (hdeleted : (arenaAt ar (heapAt hp 1)).deleted = true) :
    stale ar (dropRoot ar hp) < stale ar hp := by
  obtain ⟨x, ys, rfl, hys, -⟩ := h.exists_cons hdeleted
  replace hstale : ¬ validTop ar x = true := hstale
  rw [stale_cons_of_stale ys hstale, stale, (dropRoot_perm ar hys).countP_eq]
  exact Nat.lt_succ_self _

theorem stale_refresh (hlive : Live ar (heapAt hp 1)) :
    stale (refresh p alpha ar i (heapAt hp 1)) (siftDown (refresh p alpha ar i (heapAt hp 1)) hp (heapAt hp 1)) <
      stale ar hp := by
  have hperm := siftDown_root_perm h (refresh p alpha ar i (heapAt hp 1))
  obtain ⟨x, ys, rfl⟩ := List.exists_cons_of_ne_nil h.ne_nil
  replace hstale : ¬ validTop ar x = true := hstale
  replace hlive : Live ar x := hlive
  have hvalid : validTop (refresh p alpha ar i x) x = true := h.validTop_refresh hlive
  rw [stale_cons_of_stale ys hstale, stale, hperm.countP_eq]
  refine Nat.lt_succ_of_le ?_
  show (x :: ys).countP (fun z => !validTop (refresh p alpha ar i x) z) ≤ ys.countP (fun z => !validTop ar z)
  rw [List.countP_cons_of_neg (by simpa using hvalid)]
  refine List.countP_mono_left fun z _ hz => ?_
  by_cases hzx : z = x
  · subst hzx
    exact absurd hvalid (by simpa using hz)
  · rwa [validTop_refresh_ne hlive.lt_length hzx] at hz

end Stale

/-- With a turn for each entry that is not valid, and one more, the loop ends at a valid top. -/
theorem popValid_valid (k : Nat) {ar : Arena} {hp : List Nat} (h : MergeReady ar hp i) (hk : stale ar hp < k) :
    validTop (popValid p alpha i k ar hp).1 (popValid p alpha i k ar hp).2.2 = true := by
  induction k generalizing ar hp with
  | zero => omega
  | succ k ih =>
    by_cases hvalid : validTop ar (heapAt hp 1) = true
    · rwa [popValid_of_valid k hvalid]
    · cases hroot : (arenaAt ar (heapAt hp 1)).deleted with
      | true =>
        have hfewer := stale_dropRoot h hvalid hroot
        rw [popValid_of_deleted k hvalid hroot]
        exact ih (h.drop hroot) (by omega)
      | false =>
        have hfewer := stale_refresh (p := p) (alpha := alpha) h hvalid hroot
        rw [popValid_of_stale k hvalid hroot]
        exact ih h.refreshed (by omega)

theorem MergeReady.popValid {ar : Arena} {hp : List Nat} (h : MergeReady ar hp i) (k : Nat) :
    MergeReady (popValid p alpha i k ar hp).1 (popValid p alpha i k ar hp).2.1 i :=
  popValid_induction (P := fun ar hp => MergeReady ar hp i) (fun _ _ h => h.drop) (fun _ _ h _ => h.refreshed) k h

theorem stale_le_length (ar : Arena) (hp : List Nat) : stale ar hp ≤ hp.length := List.countP_le_length

end Turns

end Sys2Proof.Machine
end

section
/-! The list of live bins (42_quantizer.md R253, R260). The forward link of a live bin is the next live bin, 0 at the end, and
the backward link the one before it. Removing a bin keeps that; a walk along the forward links meets no more bins than are
live. -/

namespace Sys2Proof.Machine

/-- The links of the live bins, which bin 0 is at the head of. -/
structure Linked (ar : Arena) : Prop where
  head : Live ar 0
  next : ∀ x, Live ar x → ((arenaAt ar x).fw = 0 ∧ ∀ z, Live ar z → z ≤ x) ∨
    (x < (arenaAt ar x).fw ∧ Live ar (arenaAt ar x).fw ∧ ∀ z, Live ar z → x < z → (arenaAt ar x).fw ≤ z)
  prev : ∀ x, Live ar x → x ≠ 0 →
    (arenaAt ar x).bk < x ∧ Live ar (arenaAt ar x).bk ∧ ∀ z, Live ar z → z < x → z ≤ (arenaAt ar x).bk

theorem Linked.congr {ar ar' : Arena} (h : Linked ar) (hdel : ∀ x, (arenaAt ar' x).deleted = (arenaAt ar x).deleted)
    (hfw : ∀ x, (arenaAt ar' x).fw = (arenaAt ar x).fw) (hbk : ∀ x, (arenaAt ar' x).bk = (arenaAt ar x).bk) :
    Linked ar' := by
  obtain ⟨hhead, hnext, hprev⟩ := h
  constructor <;> simpa only [Live, hdel, hfw, hbk]

theorem Linked.linkLive {ar : Arena} (h : Linked ar) (x : Nat) (hx : Live ar x) :
    (arenaAt ar x).fw = 0 ∨ Live ar (arenaAt ar x).fw :=
  (h.next x hx).imp And.left fun hright => hright.2.1

/-! ## Removing a bin -/

/-- What a read gives after a write. -/
theorem arenaAt_set (ar : Arena) (x z : Nat) (b : ArenaBin) :
    arenaAt (ar.set x b) z = if z = x ∧ x < ar.length then b else arenaAt ar z := by
  by_cases hz : z = x
  · subst hz
    by_cases hlt : z < ar.length
    · rw [if_pos ⟨rfl, hlt⟩, arenaAt_set_self hlt]
    · rw [if_neg fun hboth => hlt hboth.2, List.set_eq_of_length_le (not_lt.mp hlt)]
  · rw [if_neg fun hboth => hz hboth.1, arenaAt_set_ne hz]

section Unlink
variable {ar : Arena} {y : Nat} (h : Linked ar) (hy : Live ar y) (hy0 : y ≠ 0)
include h hy hy0

/-- The links of bin `y` name bins of the arena other than `y` and each other. -/
theorem Linked.links_of_ne_zero :
    (arenaAt ar y).bk < y ∧ (arenaAt ar y).bk < ar.length ∧
      ((arenaAt ar y).fw ≠ 0 → y < (arenaAt ar y).fw ∧ (arenaAt ar y).fw < ar.length) := by
  obtain ⟨hbk, hbklive, -⟩ := h.prev y hy hy0
  refine ⟨hbk, hbklive.lt_length, fun hfw => ?_⟩
  obtain ⟨hzero, -⟩ | ⟨hlt, hlive, -⟩ := h.next y hy
  · exact absurd hzero hfw
  · exact ⟨hlt, hlive.lt_length⟩

theorem arenaAt_unlinkBin_self : arenaAt (unlinkBin ar y) y = { arenaAt ar y with deleted := true } := by
  obtain ⟨hbk, hbklt, hfw⟩ := h.links_of_ne_zero hy hy0
  have hylt := hy.lt_length
  rw [unlinkBin]
  dsimp only
  split
  · next hne =>
    obtain ⟨hfwlt, -⟩ := hfw hne
    rw [arenaAt_set_self (by simpa using hylt), arenaAt_set_ne (by omega), arenaAt_set_ne (by omega)]
  · rw [arenaAt_set_self (by simpa using hylt), arenaAt_set_ne (by omega)]

/-- The bins before and after the removed one are linked to each other. -/
theorem arenaAt_unlinkBin_ne {z : Nat} (hz : z ≠ y) : arenaAt (unlinkBin ar y) z = { arenaAt ar z with
    fw := if z = (arenaAt ar y).bk then (arenaAt ar y).fw else (arenaAt ar z).fw
    bk := if (arenaAt ar y).fw ≠ 0 ∧ z = (arenaAt ar y).fw then (arenaAt ar y).bk else (arenaAt ar z).bk } := by
  obtain ⟨hbk, hbklt, hfw⟩ := h.links_of_ne_zero hy hy0
  rw [unlinkBin]
  dsimp only
  rw [arenaAt_set_ne hz]
  by_cases hne : (arenaAt ar y).fw = 0
  · rw [if_neg (not_not.mpr hne), arenaAt_set]
    by_cases hzbk : z = (arenaAt ar y).bk
    · simp [hzbk, hbklt, hne]
    · simp [hzbk, hne]
  · obtain ⟨hylt, hfwlt⟩ := hfw hne
    rw [if_pos hne, arenaAt_set, List.length_set, arenaAt_set, arenaAt_set]
    by_cases hzfw : z = (arenaAt ar y).fw
    · have hother : (arenaAt ar y).fw ≠ (arenaAt ar y).bk := by omega
      simp [hzfw, hfwlt, hne, hother]
    · by_cases hzbk : z = (arenaAt ar y).bk
      · have hother : (arenaAt ar y).bk ≠ (arenaAt ar y).fw := by omega
        simp [hzbk, hbklt, hother]
      · simp [hzfw, hzbk]

theorem live_unlinkBin_iff (z : Nat) : Live (unlinkBin ar y) z ↔ Live ar z ∧ z ≠ y := by
  by_cases hz : z = y
  · subst hz
    simp [Live, arenaAt_unlinkBin_self h hy hy0]
  · simp [Live, arenaAt_unlinkBin_ne h hy hy0 hz, hz]

/-- Removing a bin other than the head keeps the list. -/
theorem Linked.unlink : Linked (unlinkBin ar y) := by
  have hlive := live_unlinkBin_iff h hy hy0
  obtain ⟨hwy, hw, hwmax⟩ := h.prev y hy hy0
  constructor
  case head => exact (hlive 0).mpr ⟨h.head, hy0.symm⟩
  case next =>
    intro x hx
    obtain ⟨hx, hxy⟩ := (hlive x).mp hx
    rw [arenaAt_unlinkBin_ne h hy hy0 hxy]
    dsimp only
    simp only [hlive]
    by_cases hxw : x = (arenaAt ar y).bk
    · rw [if_pos hxw]
      obtain ⟨hzero, hlast⟩ | ⟨hlt, hfwlive, hleast⟩ := h.next y hy
      · refine .inl ⟨hzero, fun z hz => ?_⟩
        have := hwmax z hz.1 (lt_of_le_of_ne (hlast z hz.1) hz.2)
        omega
      · refine .inr ⟨by omega, ⟨hfwlive, by omega⟩, fun z hz hxz => hleast z hz.1 ?_⟩
        by_contra hzy
        have := hwmax z hz.1 (by omega)
        omega
    · rw [if_neg hxw]
      obtain ⟨hzero, hlast⟩ | ⟨hlt, hfwlive, hleast⟩ := h.next x hx
      · exact .inl ⟨hzero, fun z hz => hlast z hz.1⟩
      · refine .inr ⟨hlt, ⟨hfwlive, fun hfwy => ?_⟩, fun z hz => hleast z hz.1⟩
        have hxle := hwmax x hx (hfwy ▸ hlt)
        have := hleast _ hw (by omega)
        omega
  case prev =>
    intro x hx hx0
    obtain ⟨hx, hxy⟩ := (hlive x).mp hx
    rw [arenaAt_unlinkBin_ne h hy hy0 hxy]
    dsimp only
    simp only [hlive]
    obtain ⟨hxbk, hbklive, hmax⟩ := h.prev x hx hx0
    obtain ⟨hzero, hlast⟩ | ⟨hlt, hfwlive, hleast⟩ := h.next y hy
    · rw [if_neg fun hboth => hboth.1 hzero]
      have hxlt := lt_of_le_of_ne (hlast x hx) hxy
      exact ⟨hxbk, ⟨hbklive, by omega⟩, fun z hz => hmax z hz.1⟩
    · by_cases hxfw : x = (arenaAt ar y).fw
      · rw [if_pos ⟨by omega, hxfw⟩]
        refine ⟨by omega, ⟨hw, by omega⟩, fun z hz hzx => hwmax z hz.1 ?_⟩
        by_contra hzy
        have := hleast z hz.1 (by omega)
        omega
      · rw [if_neg fun hboth => hxfw hboth.2]
        refine ⟨hxbk, ⟨hbklive, fun hbky => ?_⟩, fun z hz => hmax z hz.1⟩
        have hfwle := hleast x hx (by omega)
        have := hmax _ hfwlive (by omega)
        omega

end Unlink

/-! ## The live bins -/

/-- The live bins' indices. -/
def liveSet (ar : Arena) : Finset Nat := (Finset.range ar.length).filter (Live ar)

theorem mem_liveSet {ar : Arena} {x : Nat} : x ∈ liveSet ar ↔ Live ar x := by
  rw [liveSet, Finset.mem_filter, Finset.mem_range]
  exact ⟨And.right, fun h => ⟨h.lt_length, h⟩⟩

/-- With two live bins there is one besides the head, so the head is not the last. -/
theorem Linked.fw_head_ne_zero {ar : Arena} (h : Linked ar) (hcard : 2 ≤ (liveSet ar).card) : (arenaAt ar 0).fw ≠ 0 := by
  obtain ⟨z, hz, hz0⟩ := Finset.exists_mem_ne hcard 0
  obtain ⟨-, hlast⟩ | ⟨hlt, -⟩ := h.next 0 h.head
  · exact absurd (Nat.le_zero.mp (hlast z (mem_liveSet.mp hz))) hz0
  · omega

/-- A walk from a live bin meets live bins only, each once. -/
theorem Linked.walkList_length_le {ar : Arena} (h : Linked ar) (k : Nat) {x : Nat} (hx : Live ar x) :
    (walkList ar k x).length ≤ ((liveSet ar).filter (x ≤ ·)).card := by
  induction k generalizing x with
  | zero => exact Nat.zero_le _
  | succ k ih =>
    have hmem : x ∈ (liveSet ar).filter (x ≤ ·) := Finset.mem_filter.mpr ⟨mem_liveSet.mpr hx, le_rfl⟩
    rw [walkList]
    split
    · exact Finset.card_pos.mpr ⟨x, hmem⟩
    · next hne =>
      obtain ⟨hzero, -⟩ | ⟨hlt, hlive, -⟩ := h.next x hx
      · exact absurd hzero hne
      · rw [List.length_cons]
        refine (Nat.succ_le_succ (ih hlive)).trans (Finset.card_lt_card ?_)
        refine Finset.ssubset_iff_of_subset (fun z hz => ?_) |>.mpr ⟨x, hmem, fun hx' => ?_⟩
        · obtain ⟨hz, hle⟩ := Finset.mem_filter.mp hz
          exact Finset.mem_filter.mpr ⟨hz, by omega⟩
        · have := (Finset.mem_filter.mp hx').2
          omega

end Sys2Proof.Machine
end

section
/-! The merge loop's invariant (42_quantizer.md R255 to R260). The live bins are linked and sound, every cost is a number, a
neighbour is 0 only where the cost is SENTINEL, and the head's cost is far below SENTINEL; so the valid top, which costs no
more than the head, has a neighbour after it. -/

namespace Sys2Proof.Machine

/-! ## SENTINEL -/

theorem f64Val_sentinel : f64Val sentinel = .fin false (2 ^ 52 + 0x249AD2594C37D) 280 := by decide

theorem f64Rat_sentinel : f64Rat sentinel = some (finRat false (2 ^ 52 + 0x249AD2594C37D) 280) :=
  f64Rat_of_fin f64Val_sentinel

theorem sentinel_gt : (2 : ℚ) ^ 150 < finRat false (2 ^ 52 + 0x249AD2594C37D) 280 := by
  have hval : finRat false (2 ^ 52 + 0x249AD2594C37D) 280 = 5147557589468029 * 2 ^ (280 : ℤ) := by
    rw [finRat]
    norm_num [signedInt]
  rw [hval, ← zpow_natCast]
  calc (2 : ℚ) ^ ((150 : ℕ) : ℤ) < 2 ^ (280 : ℤ) := zpow_lt_zpow_right₀ one_lt_two (by norm_num)
    _ ≤ 5147557589468029 * 2 ^ (280 : ℤ) := le_mul_of_one_le_left (zpow_pos two_pos _).le (by norm_num)

/-! ## Comparisons -/

section Compare
variable {a b : F64} {v w : ℚ} (ha : f64Rat a = some v) (hb : f64Rat b = some w)
include ha hb

theorem fle_iff : fle a b = true ↔ v ≤ w := (floatComparisonsAreExact _ _ _ _ ha hb).2

theorem flt_iff : flt a b = true ↔ v < w := (floatComparisonsAreExact _ _ _ _ ha hb).1

end Compare

/-! ## The neighbour search -/

section Search
variable {p : Params} {alpha : Bool} {ar : Arena} {B : ℚ} {x : Nat}

/-- What the search for `x` holds: its cost is a number, and its bin is after `x`, or 0 at the cost SENTINEL. -/
def Candidate (x : Nat) (best : F64 × Nat) : Prop :=
  (f64Rat best.1).isSome ∧ (best.2 = 0 ∧ best.1 = sentinel ∨ x < best.2)

theorem candidate_sentinel (x : Nat) : Candidate x (sentinel, 0) :=
  ⟨Option.isSome_iff_exists.mpr ⟨_, f64Rat_sentinel⟩, .inl ⟨rfl, rfl⟩⟩

variable (h : Linked ar) (hsound : ∀ z, Live ar z → BinSound B (arenaAt ar z)) (hB : B ≤ 2 ^ 41) (hx : Live ar x)
include h hsound hB hx

/-- The search ends with a candidate that costs no more than the one it starts with. -/
theorem searchNN_spec (k : Nat) {j : Nat} {best : F64} {nn : Nat} (hj : j = 0 ∨ Live ar j ∧ x < j)
    (hbest : Candidate x (best, nn)) :
    Candidate x (searchNN p alpha ar (arenaAt ar x) k j best nn) ∧
      fle (searchNN p alpha ar (arenaAt ar x) k j best nn).1 best = true := by
  obtain ⟨v, hv⟩ := Option.isSome_iff_exists.mp hbest.1
  induction k generalizing j best nn v with
  | zero => exact ⟨hbest, (fle_iff hv hv).mpr le_rfl⟩
  | succ k ih =>
    rw [searchNN]
    dsimp only
    split
    · exact ⟨hbest, (fle_iff hv hv).mpr le_rfl⟩
    · next hne =>
      obtain ⟨hlive, hlt⟩ := hj.resolve_left hne
      have hnext : (arenaAt ar j).fw = 0 ∨ Live ar (arenaAt ar j).fw ∧ x < (arenaAt ar j).fw :=
        (h.next j hlive).imp And.left fun hright => ⟨hright.2.1, hlt.trans hright.1⟩
      split
      · exact ih hnext hbest v hv
      · split
        · next hless =>
          obtain ⟨e, he, -, -⟩ := between_mergeCost (hsound x hx) (hsound j hlive) hB (alpha && p.nnUseAlpha)
          have hcheaper := (flt_iff he hv).mp hless
          have hcandidate : Candidate x (mergeCost (alpha && p.nnUseAlpha) (arenaAt ar x) (arenaAt ar j), j) :=
            ⟨Option.isSome_iff_exists.mpr ⟨e, he⟩, .inr hlt⟩
          obtain ⟨hfound, hle⟩ := ih hnext hcandidate e he
          refine ⟨hfound, ?_⟩
          obtain ⟨w, hw⟩ := Option.isSome_iff_exists.mp hfound.1
          exact (fle_iff hw hv).mpr (((fle_iff hw he).mp hle).trans hcheaper.le)
        · exact ih hnext hbest v hv

theorem nearestBin_candidate : Candidate x (nearestBin p alpha ar x) := by
  have hfw : (arenaAt ar x).fw = 0 ∨ Live ar (arenaAt ar x).fw ∧ x < (arenaAt ar x).fw :=
    (h.next x hx).imp And.left fun hright => ⟨hright.2.1, hright.1⟩
  exact (searchNN_spec h hsound hB hx _ hfw (candidate_sentinel x)).1

/-- A bin with a bin after it is not pruned away from it, and finds a cost far below SENTINEL. -/
theorem nearestBin_cheap (hfw : (arenaAt ar x).fw ≠ 0) :
    ∃ v, f64Rat (nearestBin p alpha ar x).1 = some v ∧ v ≤ 2 ^ 150 := by
  obtain ⟨hzero, -⟩ | ⟨hlt, hlive, -⟩ := h.next x hx
  · exact absurd hzero hfw
  · obtain ⟨k, hk⟩ := Nat.exists_eq_succ_of_ne_zero (Nat.ne_zero_of_lt hx.lt_length)
    obtain ⟨w, hw, -, hw64⟩ := between_pairWeight (hsound x hx) (hsound _ hlive)
    obtain ⟨e, he, -, he150⟩ := between_mergeCost (hsound x hx) (hsound _ hlive) hB (alpha && p.nnUseAlpha)
    have hunpruned : ¬ (p.nnWeightPrune && fle sentinel (pairWeight (arenaAt ar x).n (arenaAt ar (arenaAt ar x).fw).n)) := by
      have hfalse : ¬ fle sentinel (pairWeight (arenaAt ar x).n (arenaAt ar (arenaAt ar x).fw).n) = true := by
        rw [fle_iff f64Rat_sentinel hw, not_le]
        exact (hw64.trans (by norm_num)).trans_lt sentinel_gt
      simp [hfalse]
    have hcheaper := (flt_iff he f64Rat_sentinel).mpr (he150.trans_lt sentinel_gt)
    have hnext : (arenaAt ar (arenaAt ar x).fw).fw = 0 ∨
        Live ar (arenaAt ar (arenaAt ar x).fw).fw ∧ x < (arenaAt ar (arenaAt ar x).fw).fw :=
      (h.next _ hlive).imp And.left fun hright => ⟨hright.2.1, hlt.trans hright.1⟩
    have hcandidate : Candidate x
        (mergeCost (alpha && p.nnUseAlpha) (arenaAt ar x) (arenaAt ar (arenaAt ar x).fw), (arenaAt ar x).fw) :=
      ⟨Option.isSome_iff_exists.mpr ⟨e, he⟩, .inr hlt⟩
    obtain ⟨hfound, hle⟩ := searchNN_spec (p := p) (alpha := alpha) h hsound hB hx k hnext hcandidate
    obtain ⟨v, hv⟩ := Option.isSome_iff_exists.mp hfound.1
    rw [nearestBin, hk, searchNN, if_neg hfw]
    dsimp only
    rw [if_neg hunpruned, if_pos hcheaper]
    exact ⟨v, hv, ((fle_iff hv he).mp hle).trans he150⟩

end Search

/-! ## The arena -/

/-- What holds of the arena at merge count `i`, with `B` the bound of the channels. -/
structure Merging (B : ℚ) (ar : Arena) (i : Nat) : Prop where
  linked : Linked ar
  time : ∀ x, Live ar x → (arenaAt ar x).mtm ≤ i
  sound : ∀ x, Live ar x → BinSound B (arenaAt ar x)
  count : ∑ x ∈ liveSet ar, binCount (arenaAt ar x) ≤ 2 ^ 32
  numeric : CostsNumeric ar
  neighbour : ∀ x, Live ar x → Candidate x ((arenaAt ar x).err, (arenaAt ar x).nn)

/-- The head's cost is far below SENTINEL. -/
def HeadCheap (ar : Arena) : Prop := cost ar 0 ≤ 2 ^ 150

/-- `ar'` is `ar` with the neighbour of `x` found again. -/
structure Sought (p : Params) (alpha : Bool) (ar : Arena) (x : Nat) (ar' : Arena) : Prop where
  reranked : Reranked ar ar'
  err : (arenaAt ar' x).err = (nearestBin p alpha ar x).1
  nn : (arenaAt ar' x).nn = (nearestBin p alpha ar x).2
  other : ∀ z, z ≠ x → arenaAt ar' z = arenaAt ar z

section Sought
variable {p : Params} {alpha : Bool} {ar ar' : Arena} {B : ℚ} {i x : Nat}

theorem sought_findNN (hx : x < ar.length) : Sought p alpha ar x (findNN p alpha ar x) where
  reranked := reranked_findNN hx
  err := by rw [arenaAt_findNN_self hx]
  nn := by rw [arenaAt_findNN_self hx]
  other _ := arenaAt_findNN_ne

theorem sought_refresh (hx : x < ar.length) : Sought p alpha ar x (refresh p alpha ar i x) where
  reranked := reranked_refresh hx
  err := by rw [arenaAt_refresh_self hx]
  nn := by rw [arenaAt_refresh_self hx]
  other _ := arenaAt_refresh_ne

theorem Reranked.liveSet (h : Reranked ar ar') : liveSet ar' = liveSet ar := by
  ext x
  rw [mem_liveSet, mem_liveSet, h.live_iff]

theorem Reranked.binSound (h : Reranked ar ar') (z : Nat) :
    BinSound B (arenaAt ar' z) ↔ BinSound B (arenaAt ar z) := by
  rw [h.bin z]
  exact ⟨fun ⟨n, r, g, b, a⟩ => ⟨n, r, g, b, a⟩, fun ⟨n, r, g, b, a⟩ => ⟨n, r, g, b, a⟩⟩

theorem cost_eq_of_ne (h : Sought p alpha ar x ar') {z : Nat} (hz : z ≠ x) : cost ar' z = cost ar z := by
  rw [cost, cost, h.other z hz]

variable (h : Merging B ar i) (hs : Sought p alpha ar x ar') (hB : B ≤ 2 ^ 41) (hx : Live ar x)
include h hs hB hx

/-- A search keeps what holds of the arena. -/
theorem Merging.sought : Merging B ar' i := by
  have hr := hs.reranked
  have hfound := nearestBin_candidate (p := p) (alpha := alpha) h.linked h.sound hB hx
  constructor
  case linked => exact h.linked.congr hr.deleted hr.fw hr.bk
  case time => exact fun z hz => hr.mtm z ▸ h.time z ((hr.live_iff z).mp hz)
  case sound => exact fun z hz => (hr.binSound z).mpr (h.sound z ((hr.live_iff z).mp hz))
  case count =>
    simp only [hr.liveSet, binCount, hr.n]
    exact h.count
  case numeric =>
    intro z
    by_cases hz : z = x
    · subst hz
      rw [hs.err]
      exact hfound.1
    · rw [hs.other z hz]
      exact h.numeric z
  case neighbour =>
    intro z hz
    by_cases hzx : z = x
    · subst hzx
      rw [hs.err, hs.nn]
      exact hfound
    · rw [hs.other z hzx]
      exact h.neighbour z ((hr.live_iff z).mp hz)

theorem HeadCheap.sought (hcheap : x ≠ 0 → HeadCheap ar) (hcard : 2 ≤ (liveSet ar).card) : HeadCheap ar' := by
  by_cases hx0 : x = 0
  · subst hx0
    obtain ⟨v, hv, hle⟩ := nearestBin_cheap (p := p) (alpha := alpha) h.linked h.sound hB hx (h.linked.fw_head_ne_zero hcard)
    rw [HeadCheap, cost, hs.err, hv]
    exact hle
  · rw [HeadCheap, cost_eq_of_ne hs (Ne.symm hx0)]
    exact hcheap hx0

end Sought

/-! ## The heap -/

/-- What holds of the heap: it is in order and names every live bin once. -/
structure HeapOk (ar : Arena) (hp : List Nat) : Prop where
  nodup : hp.Nodup
  ordered : HeapOrdered ar hp
  index : ∀ x ∈ hp, x < ar.length
  live : ∀ x, Live ar x → x ∈ hp

/-- The entries between the root and the last stay where they are. -/
theorem heapAt_replace_root {x y : Nat} {ys : List Nat} {c : Nat} (h2 : 2 ≤ c) (hc : c ≤ ys.length) :
    heapAt (y :: ys.dropLast) c = heapAt (x :: ys) c := by
  obtain ⟨j, rfl⟩ := Nat.exists_eq_add_of_le' h2
  show ys.dropLast.getD j 0 = ys.getD j 0
  rw [List.getD_eq_getElem _ _ (by rw [List.length_dropLast]; omega), List.getD_eq_getElem _ _ (by omega),
    List.getElem_dropLast]

section HeapOk
variable {ar : Arena} {hp : List Nat} (h : HeapOk ar hp)
include h

/-- The root costs no more than any entry. -/
theorem HeapOk.root_le (hnum : CostsNumeric ar) {x : Nat} (hx : x ∈ hp) : cost ar (heapAt hp 1) ≤ cost ar x := by
  have hordered := (heapOrdered_iff hnum hp).mp h.ordered
  have hall (c : Nat) (hc : 1 ≤ c) (hle : c ≤ hp.length) : cost ar (heapAt hp 1) ≤ cost ar (heapAt hp c) := by
    induction c using Nat.strongRecOn with
    | ind c ih =>
      obtain rfl | h2 : c = 1 ∨ 2 ≤ c := by omega
      · exact le_rfl
      · exact (ih (c / 2) (by omega) (by omega) (by omega)).trans (hordered c h2 hle)
  obtain ⟨j, hj, rfl⟩ := List.getElem_of_mem hx
  have hat : heapAt hp (j + 1) = hp[j] := heapAt_eq_getElem (by omega) (by omega)
  exact hat ▸ hall (j + 1) (by omega) (by omega)

theorem HeapOk.root_ne {c : Nat} (h2 : 2 ≤ c) (hc : c ≤ hp.length) : heapAt hp c ≠ heapAt hp 1 := by
  rw [heapAt_eq_getElem (by omega) hc, heapAt_eq_getElem le_rfl (by omega)]
  intro heq
  have := (h.nodup.getElem_inj_iff).mp heq
  omega

/-- Without a deleted root the heap is as before. -/
theorem HeapOk.drop (hnum : CostsNumeric ar) (hlen : 2 ≤ hp.length) (hdeleted : (arenaAt ar (heapAt hp 1)).deleted = true) :
    HeapOk ar (dropRoot ar hp) := by
  obtain ⟨x, ys, rfl⟩ := List.exists_cons_of_length_pos (by omega : 0 < hp.length)
  replace hdeleted : (arenaAt ar x).deleted = true := hdeleted
  have hys : ys ≠ [] := List.ne_nil_of_length_pos (by rw [List.length_cons] at hlen; omega)
  have hperm := dropRoot_perm ar (x := x) hys
  obtain ⟨-, hnodup⟩ := List.nodup_cons.mp h.nodup
  constructor
  case nodup => exact hperm.nodup_iff.mpr hnodup
  case ordered =>
    obtain ⟨hset, hlast⟩ := heapSet_root_dropLast (x := x) hys
    rw [dropRoot, hset, hlast]
    refine (siftDownRestoresOrder ar _ _ hnum (List.cons_ne_nil _ _) fun c h4 hc => ?_).1
    rw [List.length_cons, List.length_dropLast] at hc
    rw [heapAt_replace_root (by omega) (by omega), heapAt_replace_root (by omega) (by omega)]
    exact h.ordered c (by omega) (by rw [List.length_cons]; omega)
  case index => exact fun z hz => h.index z (List.mem_cons_of_mem x (hperm.mem_iff.mp hz))
  case live =>
    intro z hz
    refine hperm.mem_iff.mpr ((List.mem_cons.mp (h.live z hz)).resolve_left ?_)
    rintro rfl
    cases hdeleted.symm.trans hz

/-- A search for the root and a sift from there restore the order. -/
theorem HeapOk.sought {p : Params} {alpha : Bool} {ar' : Arena} (hne : hp ≠ []) (hs : Sought p alpha ar (heapAt hp 1) ar')
    (hnum' : CostsNumeric ar') : HeapOk ar' (siftDown ar' hp (heapAt hp 1)) := by
  have hbelow : HeapOrderedBelow ar' hp := fun c h4 hc => by
    rw [hs.other _ (h.root_ne (by omega) hc), hs.other _ (h.root_ne (by omega) (by omega))]
    exact h.ordered c (by omega) hc
  obtain ⟨hordered, hsift⟩ := siftDownRestoresOrder ar' hp (heapAt hp 1) hnum' hne hbelow
  have hperm : (siftDown ar' hp (heapAt hp 1)).Perm hp := by
    obtain ⟨x, ys, rfl⟩ := List.exists_cons_of_ne_nil hne
    exact hsift
  exact
    { nodup := hperm.nodup_iff.mpr h.nodup
      ordered := hordered
      index := fun x hx => hs.reranked.length ▸ h.index x (hperm.mem_iff.mp hx)
      live := fun x hx => hperm.mem_iff.mpr (h.live x ((hs.reranked.live_iff x).mp hx)) }

end HeapOk

end Sys2Proof.Machine
end

section
/-! The merges of MergeLoop (42_quantizer.md R258, R260). A merge of a live bin with a later live one keeps what holds of the
arena and of the heap and leaves one live bin less; the inner loop keeps it too and finds such a pair while two bins live. -/

namespace Sys2Proof.Machine

/-! ## One merge -/

section Merge
variable {ar : Arena} {B : ℚ} {i x y : Nat} {alpha : Bool}

/-- The arena in which bin `x` has absorbed bin `y`, which is not removed yet. -/
def absorbed (alpha : Bool) (ar : Arena) (i x y : Nat) : Arena :=
  ar.set x (absorb alpha (arenaAt ar x) (arenaAt ar y) (i + 1))

theorem arenaAt_absorbed_ne {z : Nat} (hz : z ≠ x) : arenaAt (absorbed alpha ar i x y) z = arenaAt ar z := arenaAt_set_ne hz

theorem arenaAt_absorbed_self (hx : Live ar x) :
    arenaAt (absorbed alpha ar i x y) x = absorb alpha (arenaAt ar x) (arenaAt ar y) (i + 1) :=
  arenaAt_set_self hx.lt_length

theorem deleted_absorbed (hx : Live ar x) (z : Nat) :
    (arenaAt (absorbed alpha ar i x y) z).deleted = (arenaAt ar z).deleted := by
  by_cases hz : z = x
  · subst hz
    rw [arenaAt_absorbed_self hx]
    rfl
  · rw [arenaAt_absorbed_ne hz]

variable (h : Merging B ar i) (hx : Live ar x) (hy : Live ar y) (hxy : x < y)
include h hx

theorem linked_absorbed : Linked (absorbed alpha ar i x y) := by
  refine h.linked.congr (deleted_absorbed hx) (fun z => ?_) (fun z => ?_)
  all_goals
    by_cases hz : z = x
    · subst hz
      rw [arenaAt_absorbed_self hx]
      rfl
    · rw [arenaAt_absorbed_ne hz]

include hy hxy

theorem live_mergeBins_iff (z : Nat) : Live (mergeBins alpha ar i x y) z ↔ Live ar z ∧ z ≠ y := by
  have hy' : Live (absorbed alpha ar i x y) y := (deleted_absorbed hx y).trans hy
  rw [mergeBins, ← absorbed, live_unlinkBin_iff (linked_absorbed h hx) hy' (by omega), Live, Live, deleted_absorbed hx]

/-- A bin other than the removed one is, but for its links, as the absorption leaves it. -/
theorem arenaAt_mergeBins {z : Nat} (hz : z ≠ y) : ∃ fw bk, arenaAt (mergeBins alpha ar i x y) z =
    { (if z = x then absorb alpha (arenaAt ar x) (arenaAt ar y) (i + 1) else arenaAt ar z) with fw := fw, bk := bk } := by
  have hy' : Live (absorbed alpha ar i x y) y := (deleted_absorbed hx y).trans hy
  have hbin := arenaAt_unlinkBin_ne (linked_absorbed (alpha := alpha) h hx) hy' (by omega) hz
  have habsorbed : arenaAt (absorbed alpha ar i x y) z =
      if z = x then absorb alpha (arenaAt ar x) (arenaAt ar y) (i + 1) else arenaAt ar z := by
    split
    · next hzx => rw [hzx, arenaAt_absorbed_self hx]
    · next hzx => exact arenaAt_absorbed_ne hzx
  rw [habsorbed] at hbin
  exact ⟨_, _, hbin⟩

theorem arenaAt_mergeBins_removed : arenaAt (mergeBins alpha ar i x y) y = { arenaAt ar y with deleted := true } := by
  have hy' : Live (absorbed alpha ar i x y) y := (deleted_absorbed hx y).trans hy
  have hbin := arenaAt_unlinkBin_self (linked_absorbed (alpha := alpha) h hx) hy' (by omega)
  rw [arenaAt_absorbed_ne (show y ≠ x by omega)] at hbin
  exact hbin

theorem err_mergeBins (z : Nat) : (arenaAt (mergeBins alpha ar i x y) z).err = (arenaAt ar z).err := by
  by_cases hz : z = y
  · subst hz
    rw [arenaAt_mergeBins_removed h hx hy hxy]
  · obtain ⟨fw, bk, hbin⟩ := arenaAt_mergeBins (alpha := alpha) h hx hy hxy hz
    rw [hbin]
    split
    · next hzx => subst hzx; rfl
    · rfl

theorem liveSet_mergeBins : liveSet (mergeBins alpha ar i x y) = (liveSet ar).erase y := by
  ext z
  rw [mem_liveSet, live_mergeBins_iff h hx hy hxy, Finset.mem_erase, mem_liveSet, and_comm]

omit h in
/-- A sum over the live bins, the terms of `x` and `y` apart. -/
theorem sum_liveSet (f : Nat → ℕ) :
    f y + (f x + ∑ z ∈ ((liveSet ar).erase y).erase x, f z) = ∑ z ∈ liveSet ar, f z := by
  rw [Finset.add_sum_erase _ _ (Finset.mem_erase.mpr ⟨hxy.ne, mem_liveSet.mpr hx⟩),
    Finset.add_sum_erase _ _ (mem_liveSet.mpr hy)]

theorem binCount_pair_le : binCount (arenaAt ar x) + binCount (arenaAt ar y) ≤ 2 ^ 32 := by
  have hsum := sum_liveSet hx hy hxy fun z => binCount (arenaAt ar z)
  have := h.count
  omega

theorem count_mergeBins : ∑ z ∈ liveSet (mergeBins alpha ar i x y), binCount (arenaAt (mergeBins alpha ar i x y) z) ≤
    ∑ z ∈ liveSet ar, binCount (arenaAt ar z) := by
  have hmerged : binCount (arenaAt (mergeBins alpha ar i x y) x) ≤ binCount (arenaAt ar x) + binCount (arenaAt ar y) := by
    obtain ⟨fw, bk, hbin⟩ := arenaAt_mergeBins (alpha := alpha) h hx hy hxy hxy.ne
    rw [hbin, if_pos rfl]
    exact binCount_absorb_le (h.sound x hx) (h.sound y hy) alpha (i + 1) (binCount_pair_le h hx hy hxy)
  have hothers : ∑ z ∈ ((liveSet ar).erase y).erase x, binCount (arenaAt (mergeBins alpha ar i x y) z) =
      ∑ z ∈ ((liveSet ar).erase y).erase x, binCount (arenaAt ar z) := by
    refine Finset.sum_congr rfl fun z hz => ?_
    obtain ⟨hzx, hz⟩ := Finset.mem_erase.mp hz
    obtain ⟨fw, bk, hbin⟩ := arenaAt_mergeBins (alpha := alpha) h hx hy hxy (Finset.mem_erase.mp hz).1
    rw [hbin, if_neg hzx]
    rfl
  rw [liveSet_mergeBins h hx hy hxy, ← sum_liveSet hx hy hxy,
    ← Finset.add_sum_erase _ _ (Finset.mem_erase.mpr ⟨hxy.ne, mem_liveSet.mpr hx⟩), hothers]
  omega

/-- A merge of a live bin with a later one keeps what holds of the arena, the channels' bound raised by 1. -/
theorem Merging.merge (hB1 : 1 ≤ B) (hB : B ≤ 2 ^ 41) : Merging (B + 1) (mergeBins alpha ar i x y) (i + 1) := by
  have hy' : Live (absorbed alpha ar i x y) y := (deleted_absorbed hx y).trans hy
  have hlive := live_mergeBins_iff (alpha := alpha) h hx hy hxy
  constructor
  case linked => exact (linked_absorbed h hx).unlink hy' (by omega)
  case time =>
    intro z hz
    obtain ⟨hz, hzy⟩ := (hlive z).mp hz
    obtain ⟨fw, bk, hbin⟩ := arenaAt_mergeBins (alpha := alpha) h hx hy hxy hzy
    rw [hbin]
    split
    · exact le_rfl
    · exact (h.time z hz).trans (Nat.le_succ i)
  case sound =>
    intro z hz
    obtain ⟨hz, hzy⟩ := (hlive z).mp hz
    obtain ⟨fw, bk, hbin⟩ := arenaAt_mergeBins (alpha := alpha) h hx hy hxy hzy
    have hsound : BinSound (B + 1)
        (if z = x then absorb alpha (arenaAt ar x) (arenaAt ar y) (i + 1) else arenaAt ar z) := by
      split
      · exact binSound_absorb (h.sound x hx) (h.sound y hy) hB1 hB alpha _ (binCount_pair_le h hx hy hxy)
      · exact (h.sound z hz).mono (by linarith)
    rw [hbin]
    exact ⟨hsound.n, hsound.r, hsound.g, hsound.b, hsound.a⟩
  case count => exact (count_mergeBins h hx hy hxy).trans h.count
  case numeric => exact fun z => err_mergeBins (alpha := alpha) h hx hy hxy z ▸ h.numeric z
  case neighbour =>
    intro z hz
    obtain ⟨hz, hzy⟩ := (hlive z).mp hz
    obtain ⟨fw, bk, hbin⟩ := arenaAt_mergeBins (alpha := alpha) h hx hy hxy hzy
    have hnn : (arenaAt (mergeBins alpha ar i x y) z).nn = (arenaAt ar z).nn := by
      rw [hbin]
      split
      · next hzx => subst hzx; rfl
      · rfl
    rw [err_mergeBins h hx hy hxy, hnn]
    exact h.neighbour z hz

theorem HeapOk.merge {hp : List Nat} (hh : HeapOk ar hp) : HeapOk (mergeBins alpha ar i x y) hp where
  nodup := hh.nodup
  ordered c h2 hc := by
    rw [err_mergeBins h hx hy hxy, err_mergeBins h hx hy hxy]
    exact hh.ordered c h2 hc
  index z hz := mergeBins_length alpha ar i x y ▸ hh.index z hz
  live z hz := hh.live z ((live_mergeBins_iff h hx hy hxy z).mp hz).1

theorem HeadCheap.merge (hc : HeadCheap ar) : HeadCheap (mergeBins alpha ar i x y) := by
  rw [HeadCheap, cost, err_mergeBins h hx hy hxy]
  exact hc

end Merge

/-! ## The loop -/

/-- What holds before the merge at count `i`. -/
structure Reducing (B : ℚ) (ar : Arena) (hp : List Nat) (i : Nat) : Prop where
  arena : Merging B ar i
  heap : HeapOk ar hp
  cheap : HeadCheap ar

section Loop
variable {p : Params} {alpha : Bool} {B : ℚ} {ar : Arena} {hp : List Nat} {i : Nat}

theorem Reducing.mergeReady (h : Reducing B ar hp i) : MergeReady ar hp i where
  heapIndex := h.heap.index
  heapLive := ⟨0, h.heap.live 0 h.arena.linked.head, h.arena.linked.head⟩
  headLive := h.arena.linked.head
  timeBound := h.arena.time
  linkLive := h.arena.linked.linkLive

theorem Reducing.drop (h : Reducing B ar hp i) (hdeleted : (arenaAt ar (heapAt hp 1)).deleted = true) :
    Reducing B ar (dropRoot ar hp) i := by
  obtain ⟨x, ys, rfl, hys, -⟩ := h.mergeReady.exists_cons hdeleted
  have hlen : 2 ≤ (x :: ys).length := Nat.succ_le_succ (List.length_pos_of_ne_nil hys)
  exact { h with heap := h.heap.drop h.arena.numeric hlen hdeleted }

theorem Reducing.refreshed (h : Reducing B ar hp i) (hB : B ≤ 2 ^ 41) (hcard : 2 ≤ (liveSet ar).card)
    (hlive : Live ar (heapAt hp 1)) :
    Reducing B (refresh p alpha ar i (heapAt hp 1))
      (siftDown (refresh p alpha ar i (heapAt hp 1)) hp (heapAt hp 1)) i := by
  have hsought : Sought p alpha ar (heapAt hp 1) (refresh p alpha ar i (heapAt hp 1)) := sought_refresh hlive.lt_length
  have harena := h.arena.sought hsought hB hlive
  exact ⟨harena, h.heap.sought h.mergeReady.ne_nil hsought harena.numeric,
    HeadCheap.sought h.arena hsought hB hlive (fun _ => h.cheap) hcard⟩

/-- The inner loop keeps what holds, and the live bins. -/
theorem Reducing.popValid (h : Reducing B ar hp i) (hB : B ≤ 2 ^ 41) (hcard : 2 ≤ (liveSet ar).card) (k : Nat) :
    Reducing B (popValid p alpha i k ar hp).1 (popValid p alpha i k ar hp).2.1 i ∧
      liveSet (popValid p alpha i k ar hp).1 = liveSet ar := by
  refine popValid_induction (P := fun ar' hp' => Reducing B ar' hp' i ∧ liveSet ar' = liveSet ar) ?_ ?_ k ⟨h, rfl⟩
  · exact fun ar' hp' h' hdeleted => ⟨h'.1.drop hdeleted, h'.2⟩
  · exact fun ar' hp' h' hlive => ⟨h'.1.refreshed hB (h'.2 ▸ hcard) hlive,
      (reranked_refresh hlive.lt_length).liveSet.trans h'.2⟩

theorem popValid_top (k : Nat) : (popValid p alpha i k ar hp).2.2 = heapAt (popValid p alpha i k ar hp).2.1 1 := by
  induction k generalizing ar hp with
  | zero => rfl
  | succ k ih =>
    by_cases hvalid : validTop ar (heapAt hp 1) = true
    · rw [popValid_of_valid k hvalid]
    · cases hroot : (arenaAt ar (heapAt hp 1)).deleted with
      | true => rw [popValid_of_deleted k hvalid hroot, ih]
      | false => rw [popValid_of_stale k hvalid hroot, ih]

/-- A valid root is live, and so is its neighbour, which comes after it. -/
theorem Reducing.root_pair (h : Reducing B ar hp i) (hvalid : validTop ar (heapAt hp 1) = true) :
    Live ar (heapAt hp 1) ∧ Live ar (arenaAt ar (heapAt hp 1)).nn ∧ heapAt hp 1 < (arenaAt ar (heapAt hp 1)).nn := by
  rw [validTop] at hvalid
  simp only [Bool.and_eq_true, Bool.not_eq_true', decide_eq_true_eq] at hvalid
  obtain ⟨⟨⟨hlive, -⟩, hnn⟩, -⟩ := hvalid
  refine ⟨hlive, hnn, ?_⟩
  obtain ⟨-, herr⟩ | hlt := (h.arena.neighbour _ hlive).2
  · have hroot := h.heap.root_le h.arena.numeric (h.heap.live 0 h.arena.linked.head)
    have hcost : cost ar (heapAt hp 1) = finRat false (2 ^ 52 + 0x249AD2594C37D) 280 := by
      rw [cost, show (arenaAt ar (heapAt hp 1)).err = sentinel from herr, f64Rat_sentinel]
      rfl
    exact absurd (hroot.trans h.cheap) (not_le.mpr (hcost ▸ sentinel_gt))
  · exact hlt

/-- One turn of MergeLoop. -/
def mergeTurn (p : Params) (alpha : Bool) (i : Nat) (a : Arena × List Nat) : Arena × List Nat :=
  let t := popValid p alpha i (a.2.length + 1) a.1 a.2
  (mergeBins alpha t.1 i t.2.2 (arenaAt t.1 t.2.2).nn, t.2.1)

theorem mergeLoop_succ (k : Nat) (a : Arena × List Nat) :
    mergeLoop p alpha (k + 1) i a = mergeLoop p alpha k (i + 1) (mergeTurn p alpha i a) := rfl

theorem mergeTurn_eq (a : Arena × List Nat) {t : Arena × List Nat × Nat}
    (ht : popValid p alpha i (a.2.length + 1) a.1 a.2 = t) :
    mergeTurn p alpha i a = (mergeBins alpha t.1 i t.2.2 (arenaAt t.1 t.2.2).nn, t.2.1) := by
  rw [mergeTurn, ht]

theorem Reducing.turn {a : Arena × List Nat} (h : Reducing B a.1 a.2 i) (hB1 : 1 ≤ B) (hB : B ≤ 2 ^ 41)
    (hcard : 2 ≤ (liveSet a.1).card) :
    Reducing (B + 1) (mergeTurn p alpha i a).1 (mergeTurn p alpha i a).2 (i + 1) ∧
      (liveSet (mergeTurn p alpha i a).1).card + 1 = (liveSet a.1).card := by
  obtain ⟨hkept, hset⟩ := h.popValid (p := p) (alpha := alpha) hB hcard (a.2.length + 1)
  have hvalid := popValid_valid (p := p) (alpha := alpha) (a.2.length + 1) h.mergeReady
    (Nat.lt_succ_of_le (stale_le_length a.1 a.2))
  have htop := popValid_top (p := p) (alpha := alpha) (ar := a.1) (hp := a.2) (i := i) (a.2.length + 1)
  obtain ⟨t, ht⟩ : ∃ t, Sys2Proof.Machine.popValid p alpha i (a.2.length + 1) a.1 a.2 = t := ⟨_, rfl⟩
  rw [ht] at hkept hset hvalid htop
  rw [htop] at hvalid
  obtain ⟨hx, hy, hxy⟩ := hkept.root_pair hvalid
  rw [mergeTurn_eq a ht, htop]
  refine ⟨⟨hkept.arena.merge hx hy hxy hB1 hB, hkept.heap.merge hkept.arena hx hy hxy,
    hkept.cheap.merge hkept.arena hx hy hxy⟩, ?_⟩
  rw [liveSet_mergeBins hkept.arena hx hy hxy, Finset.card_erase_of_mem (mem_liveSet.mpr hy), hset]
  omega

/-- `k` turns of MergeLoop, which leave at least one live bin. -/
theorem Reducing.mergeLoop {B : ℕ} (k : Nat) {a : Arena × List Nat} (h : Reducing B a.1 a.2 i) (hB1 : 1 ≤ B)
    (hB : B + k ≤ 2 ^ 41) (hcard : k + 1 ≤ (liveSet a.1).card) :
    Reducing ((B + k : ℕ) : ℚ) (mergeLoop p alpha k i a).1 (mergeLoop p alpha k i a).2 (i + k) ∧
      (liveSet (mergeLoop p alpha k i a).1).card + k = (liveSet a.1).card := by
  induction k generalizing B i a with
  | zero => exact ⟨h, rfl⟩
  | succ k ih =>
    obtain ⟨hturn, hfewer⟩ := h.turn (p := p) (alpha := alpha) (by exact_mod_cast hB1)
      (by exact_mod_cast (show B ≤ 2 ^ 41 by omega)) (by omega)
    rw [← Nat.cast_add_one] at hturn
    obtain ⟨hdone, hcount⟩ := ih hturn (by omega) (by omega) (by omega)
    rw [mergeLoop_succ, show B + (k + 1) = B + 1 + k by omega, show i + (k + 1) = i + 1 + k by omega]
    exact ⟨hdone, by omega⟩

end Loop

end Sys2Proof.Machine
end

section
/-! The start of a reduction (42_quantizer.md R251 to R254): the compacted, damped and linked arena is what the merge loop
asks for, and BuildHeap keeps it so and puts every bin in the heap. -/

namespace Sys2Proof.Machine

/-! ## Compacted bins -/

/-- A record that no search and no merge has touched. -/
structure FreshBin (x : ArenaBin) : Prop where
  err : x.err = sentinel
  nn : x.nn = 0
  mtm : x.mtm = 0
  deleted : x.deleted = false

theorem freshBin_compactBin (alpha : Bool) (b : Bin) : FreshBin (compactBin alpha b) := ⟨rfl, rfl, rfl, rfl⟩

theorem f64Rat_cnt (b : Bin) : f64Rat (f64OfNat b.cnt.toNat) = some (b.cnt.toNat : ℚ) :=
  f64Rat_f64OfNat (b.cnt.isLt.trans (by norm_num))

theorem binCount_compactBin (alpha : Bool) (b : Bin) : binCount (compactBin alpha b) = b.cnt.toNat := by
  show ⌈(f64Rat (f64OfNat b.cnt.toNat)).getD 0⌉₊ = _
  rw [f64Rat_cnt]
  exact Nat.ceil_natCast _

section Compact
variable {b : Bin} (hcnt : b.cnt ≠ 0)
include hcnt

theorem cnt_pos : 1 ≤ b.cnt.toNat := Nat.one_le_iff_ne_zero.mpr fun hzero => hcnt (BitVec.eq_of_toNat_eq hzero)

/-- An average channel is at most the sum of its channels. -/
theorem between_average (v : BitVec 40) :
    Between 0 (2 ^ 40) (fmul (f64OfNat v.toNat) (fdiv f64One (f64OfNat b.cnt.toNat))) := by
  have hone : (1 : ℚ) ≤ b.cnt.toNat := by exact_mod_cast cnt_pos hcnt
  have hrecip : Between 0 (2 ^ 0) (fdiv f64One (f64OfNat b.cnt.toNat)) :=
    between_fdiv f64Rat_f64One (f64Rat_cnt b) representable_zero (representable_two_pow (by norm_num)) (by positivity)
      (by positivity) (by rw [pow_zero]; exact (div_le_one (by linarith)).mpr hone)
  have hsum : Between 0 (2 ^ 40) (f64OfNat v.toNat) :=
    ⟨v.toNat, f64Rat_f64OfNat (v.isLt.trans (by norm_num)), by positivity, by exact_mod_cast v.isLt.le⟩
  exact hsum.fmul_pow hrecip (by norm_num)

theorem binSound_compactBin (alpha : Bool) : BinSound (2 ^ 40) (compactBin alpha b) where
  n := ⟨_, f64Rat_cnt b, by exact_mod_cast cnt_pos hcnt, by exact_mod_cast b.cnt.isLt.le⟩
  r := between_average hcnt _
  g := between_average hcnt _
  b := between_average hcnt _
  a := by
    cases alpha with
    | true => exact between_average hcnt _
    | false => exact ⟨0, f64Rat_f64Zero false, le_rfl, by positivity⟩

end Compact

/-! ## Damped bins -/

/-- The root of a count is between 1 and the count. -/
theorem between_fsqrt {x : F64} {v : ℚ} (hx : f64Rat x = some v) (h1 : 1 ≤ v) : Between 1 v (fsqrt x) := by
  have hone : Representable 1 := pow_zero (2 : ℚ) ▸ representable_two_pow (Nat.zero_le _)
  have h1' : (1 : ℝ) ≤ v := by exact_mod_cast h1
  refine (floatSqrtRounds x v hx (by linarith)).between hone ⟨x, hx⟩ ?_ ?_
  · push_cast
    exact Real.one_le_sqrt.mpr h1'
  · exact Real.sqrt_le_iff.mpr ⟨by linarith, by nlinarith⟩

theorem binSound_fsqrt {B : ℚ} {x : ArenaBin} (h : BinSound B x) : BinSound B { x with n := fsqrt x.n } := by
  obtain ⟨v, hv, h1, h32⟩ := h.n
  exact { h with n := (between_fsqrt hv h1).mono le_rfl h32 }

theorem binCount_fsqrt_le {B : ℚ} {x : ArenaBin} (h : BinSound B x) :
    binCount { x with n := fsqrt x.n } ≤ binCount x := by
  obtain ⟨v, hv, h1, -⟩ := h.n
  obtain ⟨w, hw, -, hle⟩ := between_fsqrt hv h1
  rw [binCount, binCount, hv]
  dsimp only
  rw [hw]
  exact Nat.ceil_mono hle

/-! ## Links -/

/-- Link gives bin `j` the indices of the bins after and before it. -/
theorem getElem?_linkFrom (i j : Nat) (l : Arena) : (linkFrom i l)[j]? =
    l[j]?.map fun x => { x with fw := if j + 1 < l.length then i + j + 1 else 0, bk := i + j - 1 } := by
  induction l generalizing i j with
  | nil => rfl
  | cons x l ih =>
    cases l with
    | nil => cases j <;> simp [linkFrom]
    | cons y l =>
      cases j with
      | zero => simp [linkFrom]
      | succ j =>
        rw [linkFrom, List.getElem?_cons_succ, ih, List.getElem?_cons_succ]
        simp only [List.length_cons, Nat.succ_lt_succ_iff]
        rw [show i + 1 + j = i + (j + 1) by omega]

theorem sum_arenaAt (ar : Arena) (f : ArenaBin → ℕ) :
    ∑ x ∈ Finset.range ar.length, f (arenaAt ar x) = (ar.map f).sum := by
  induction ar with
  | nil => rfl
  | cons b ar ih =>
    rw [List.length_cons, Finset.sum_range_succ', List.map_cons, List.sum_cons, add_comm, ← ih]
    rfl

section Linked
variable {l : Arena} {x : Nat}

theorem arenaAt_linkFrom (hx : x < l.length) : arenaAt (linkFrom 0 l) x =
    { arenaAt l x with fw := if x + 1 < l.length then x + 1 else 0, bk := x - 1 } := by
  rw [arenaAt, arenaAt, List.getD_eq_getElem?_getD, List.getD_eq_getElem?_getD, getElem?_linkFrom,
    List.getElem?_eq_getElem hx]
  simp

theorem arenaAt_mem (hx : x < l.length) : arenaAt l x ∈ l := by
  rw [arenaAt, List.getD_eq_getElem _ _ hx]
  exact List.getElem_mem hx

theorem live_linkFrom_iff (hfresh : ∀ b ∈ l, FreshBin b) : Live (linkFrom 0 l) x ↔ x < l.length := by
  refine ⟨fun h => linkFrom_length 0 l ▸ h.lt_length, fun hx => ?_⟩
  rw [Live, arenaAt_linkFrom hx]
  exact (hfresh _ (arenaAt_mem hx)).deleted

theorem linked_linkFrom (hfresh : ∀ b ∈ l, FreshBin b) (hne : l ≠ []) : Linked (linkFrom 0 l) := by
  have hlive (z : Nat) := live_linkFrom_iff (x := z) hfresh
  constructor
  case head => exact (hlive 0).mpr (List.length_pos_of_ne_nil hne)
  case next =>
    intro x hx
    rw [arenaAt_linkFrom ((hlive x).mp hx)]
    simp only [hlive]
    split
    · exact .inr ⟨Nat.lt_succ_self x, by assumption, fun z _ hxz => hxz⟩
    · exact .inl ⟨rfl, fun z hz => by omega⟩
  case prev =>
    intro x hx hx0
    have hxlt := (hlive x).mp hx
    rw [arenaAt_linkFrom hxlt]
    simp only [hlive]
    exact ⟨by omega, by omega, fun z _ hzx => by omega⟩

/-- A linked list of fresh and sound bins, with the counts of a histogram, is what the merge loop asks for. -/
theorem merging_linkFrom {B : ℚ} (hfresh : ∀ b ∈ l, FreshBin b) (hne : l ≠ []) (hsound : ∀ b ∈ l, BinSound B b)
    (hcount : (l.map binCount).sum ≤ 2 ^ 32) : Merging B (linkFrom 0 l) 0 := by
  have hlive (z : Nat) := live_linkFrom_iff (x := z) hfresh
  constructor
  case linked => exact linked_linkFrom hfresh hne
  case time =>
    intro x hx
    rw [arenaAt_linkFrom ((hlive x).mp hx)]
    exact (hfresh _ (arenaAt_mem ((hlive x).mp hx))).mtm.le
  case sound =>
    intro x hx
    have hbin := hsound _ (arenaAt_mem ((hlive x).mp hx))
    rw [arenaAt_linkFrom ((hlive x).mp hx)]
    exact ⟨hbin.n, hbin.r, hbin.g, hbin.b, hbin.a⟩
  case count =>
    have hset : liveSet (linkFrom 0 l) = Finset.range l.length := by
      ext x
      rw [mem_liveSet, hlive, Finset.mem_range]
    rw [hset]
    refine le_trans (le_of_eq ?_) hcount
    rw [← sum_arenaAt]
    refine Finset.sum_congr rfl fun x hx => ?_
    rw [arenaAt_linkFrom (Finset.mem_range.mp hx)]
    rfl
  case numeric =>
    intro x
    by_cases hx : x < l.length
    · rw [arenaAt_linkFrom hx]
      show (f64Rat (arenaAt l x).err).isSome
      rw [(hfresh _ (arenaAt_mem hx)).err, f64Rat_sentinel]
      rfl
    · rw [arenaAt, List.getD_eq_default _ _ (by rw [linkFrom_length]; omega)]
      show (f64Rat sentinel).isSome
      rw [f64Rat_sentinel]
      rfl
  case neighbour =>
    intro x hx
    have hbin := hfresh _ (arenaAt_mem ((hlive x).mp hx))
    rw [arenaAt_linkFrom ((hlive x).mp hx)]
    dsimp only
    rw [hbin.err, hbin.nn]
    exact candidate_sentinel x

end Linked

/-! ## BuildHeap -/

section Build
variable {p : Params} {alpha : Bool} {B : ℚ}

/-- A search for a bin that is not in the heap keeps the heap's order. -/
theorem heapOrdered_of_sought {ar ar' : Arena} {x : Nat} {hp : List Nat} (hs : Sought p alpha ar x ar') (hx : x ∉ hp)
    (h : HeapOrdered ar hp) : HeapOrdered ar' hp := by
  have hne (c : Nat) (h1 : 1 ≤ c) (hc : c ≤ hp.length) : heapAt hp c ≠ x := by
    rintro rfl
    refine hx ?_
    rw [heapAt_eq_getElem h1 hc]
    exact List.getElem_mem _
  intro c h2 hc
  rw [hs.other _ (hne c (by omega) hc), hs.other _ (hne (c / 2) (by omega) (by omega))]
  exact h c h2 hc

/-- BuildHeap from bin `j` on, the bins before it in the heap. -/
theorem reducing_buildHeap (hB : B ≤ 2 ^ 41) (k : Nat) {j : Nat} {ar : Arena} {hp : List Nat} (h : Merging B ar 0)
    (hall : ∀ x < ar.length, Live ar x) (hjk : j + k = ar.length) (hcard : 2 ≤ (liveSet ar).card)
    (hperm : hp.Perm (List.range j)) (hordered : HeapOrdered ar hp) (hcheap : j ≠ 0 → HeadCheap ar) :
    Reducing B (buildHeap p alpha k j ar hp).1 (buildHeap p alpha k j ar hp).2 0 ∧
      liveSet (buildHeap p alpha k j ar hp).1 = liveSet ar := by
  induction k generalizing j ar hp with
  | zero =>
    have hj : j ≠ 0 := by have := h.linked.head.lt_length; omega
    refine ⟨⟨h, ⟨hperm.nodup_iff.mpr List.nodup_range, hordered, fun x hx => ?_, fun x hx => ?_⟩, hcheap hj⟩, rfl⟩
    · have hlt := List.mem_range.mp (hperm.mem_iff.mp hx)
      show x < ar.length
      omega
    · have hlt : x < ar.length := hx.lt_length
      exact hperm.mem_iff.mpr (List.mem_range.mpr (by omega))
  | succ k ih =>
    have hj : j < ar.length := by omega
    have hs : Sought p alpha ar j (findNN p alpha ar j) := sought_findNN hj
    have hr := hs.reranked
    have hfresh : j ∉ hp := fun hmem => by have := List.mem_range.mp (hperm.mem_iff.mp hmem); omega
    have harena := h.sought hs hB (hall j hj)
    obtain ⟨hpushed, hpush⟩ := heapPushKeepsOrder _ hp j harena.numeric (heapOrdered_of_sought hs hfresh hordered)
    have hrange : (heapPush (findNN p alpha ar j) hp j).Perm (List.range (j + 1)) := by
      rw [List.range_succ]
      exact hpush.trans ((hperm.cons j).trans (List.perm_append_singleton j _).symm)
    obtain ⟨hdone, hset⟩ := ih (j := j + 1) harena (fun x hx => (hr.live_iff x).mpr (hall x (hr.length ▸ hx)))
      (by rw [hr.length]; omega) (hr.liveSet ▸ hcard) hrange hpushed
      fun _ => HeadCheap.sought h hs hB (hall j hj) hcheap hcard
    exact ⟨hdone, hset.trans hr.liveSet⟩

end Build

/-! ## The start -/

theorem compactBins_eq {s : State} (h : s.histOk) :
    compactBins s.histFmt s.hist = s.hist.map fun c => compactBin (hasAlpha s.histFmt) c.2 := by
  obtain ⟨-, hbins, -, -⟩ := h
  rw [compactBins, List.filter_eq_self.mpr]
  intro c hc
  obtain ⟨hkey, hcnt, -⟩ := hbins c hc
  exact decide_eq_true ⟨hkey, hcnt⟩

section Start
variable {s : State} (h : s.histOk) (ncol : Nat)
include h

/-- Every damped bin comes from a bin of the histogram. -/
theorem mem_dampen {x : ArenaBin} (hx : x ∈ dampen s.params ncol (compactBins s.histFmt s.hist)) :
    FreshBin x ∧ BinSound (2 ^ 40) x := by
  obtain ⟨-, hbins, -, -⟩ := id h
  have hcompact : ∀ y ∈ compactBins s.histFmt s.hist, FreshBin y ∧ BinSound (2 ^ 40) y := by
    rw [compactBins_eq h]
    intro y hy
    obtain ⟨c, hc, rfl⟩ := List.mem_map.mp hy
    obtain ⟨-, hcnt, -⟩ := hbins c hc
    exact ⟨freshBin_compactBin _ _, binSound_compactBin hcnt _⟩
  rw [dampen] at hx
  split at hx
  · obtain ⟨y, hy, rfl⟩ := List.mem_map.mp hx
    obtain ⟨hfresh, hsound⟩ := hcompact y hy
    exact ⟨⟨hfresh.err, hfresh.nn, hfresh.mtm, hfresh.deleted⟩, binSound_fsqrt hsound⟩
  · exact hcompact x hx

theorem sum_dampen_le : ((dampen s.params ncol (compactBins s.histFmt s.hist)).map binCount).sum ≤ 2 ^ 32 := by
  obtain ⟨-, hbins, -, htotal⟩ := id h
  have hcompact : ((compactBins s.histFmt s.hist).map binCount).sum ≤ 2 ^ 32 := by
    have hsum : ((compactBins s.histFmt s.hist).map binCount).sum = pixelTotal s.hist := by
      rw [compactBins_eq h, List.map_map, pixelTotal]
      congr 1
      exact List.map_congr_left fun c _ => binCount_compactBin _ _
    rw [hsum, ← htotal]
    exact s.histPixels.isLt.le
  rw [dampen]
  split
  · refine le_trans ?_ hcompact
    rw [List.map_map]
    refine List.sum_le_sum fun x hx => ?_
    rw [compactBins_eq h] at hx
    obtain ⟨c, hc, rfl⟩ := List.mem_map.mp hx
    obtain ⟨-, hcnt, -⟩ := hbins c hc
    exact binCount_fsqrt_le (binSound_compactBin hcnt _)
  · exact hcompact

theorem dampen_compactBins_length : (dampen s.params ncol (compactBins s.histFmt s.hist)).length = s.hist.length := by
  rw [dampen_length, compactBins_eq h, List.length_map]

/-- With two bins or more, the merge loop begins as it asks, every bin live. -/
theorem reducing_mergeStart (hbins : 2 ≤ s.hist.length) :
    Reducing ((2 ^ 40 : ℕ) : ℚ) (mergeStart s.params s.histFmt s.hist ncol).1
        (mergeStart s.params s.histFmt s.hist ncol).2 0 ∧
      (liveSet (mergeStart s.params s.histFmt s.hist ncol).1).card = s.hist.length := by
  have hlen := dampen_compactBins_length h ncol
  have hfresh : ∀ b ∈ dampen s.params ncol (compactBins s.histFmt s.hist), FreshBin b :=
    fun b hb => (mem_dampen h ncol hb).1
  have hne : dampen s.params ncol (compactBins s.histFmt s.hist) ≠ [] := List.ne_nil_of_length_pos (by omega)
  have hmerging : Merging ((2 ^ 40 : ℕ) : ℚ) (linkFrom 0 (dampen s.params ncol (compactBins s.histFmt s.hist))) 0 :=
    merging_linkFrom hfresh hne (fun b hb => by exact_mod_cast (mem_dampen h ncol hb).2) (sum_dampen_le h ncol)
  have hset : (liveSet (linkFrom 0 (dampen s.params ncol (compactBins s.histFmt s.hist)))).card = s.hist.length := by
    have hrange : liveSet (linkFrom 0 (dampen s.params ncol (compactBins s.histFmt s.hist))) =
        Finset.range s.hist.length := by
      ext x
      rw [mem_liveSet, live_linkFrom_iff hfresh, hlen, Finset.mem_range]
    rw [hrange, Finset.card_range]
  obtain ⟨hdone, hkept⟩ := reducing_buildHeap (p := s.params) (alpha := hasAlpha s.histFmt) (by norm_num)
    (linkFrom 0 (dampen s.params ncol (compactBins s.histFmt s.hist))).length hmerging
    (fun x hx => (live_linkFrom_iff hfresh).mpr (by rwa [linkFrom_length] at hx)) (Nat.zero_add _) (by omega)
    (List.Perm.refl []) (fun c _ hc => by simp at hc; omega) fun hzero => absurd rfl hzero
  exact ⟨hdone, (congrArg Finset.card hkept).trans hset⟩

/-- `k` merges of a reduction of more than `k` bins. -/
theorem reducing_mergeLoop {k : Nat} (hk : k < s.hist.length) (hbins : 2 ≤ s.hist.length) :
    Reducing ((2 ^ 40 + k : ℕ) : ℚ)
        (mergeLoop s.params (hasAlpha s.histFmt) k 0 (mergeStart s.params s.histFmt s.hist ncol)).1
        (mergeLoop s.params (hasAlpha s.histFmt) k 0 (mergeStart s.params s.histFmt s.hist ncol)).2 k ∧
      (liveSet (mergeLoop s.params (hasAlpha s.histFmt) k 0 (mergeStart s.params s.histFmt s.hist ncol)).1).card + k =
        s.hist.length := by
  obtain ⟨hstart, hcard⟩ := reducing_mergeStart h ncol hbins
  have hsize := hist_length_le h.1
  have hdone := hstart.mergeLoop (p := s.params) (alpha := hasAlpha s.histFmt) k (by norm_num) (by omega) (by omega)
  rwa [Nat.zero_add, hcard] at hdone

end Start

/-- Settles O30: the inner loop by the entries that are not valid, and every merge by the merge loop's invariant. -/
theorem mergeLoopFindsAValidTop : Obligations.MergeLoopFindsAValidTop := by
  refine ⟨fun p alpha ar hp i h => ⟨popValid_valid _ h (Nat.lt_succ_of_le (stale_le_length ar hp)), h.popValid _⟩,
    fun s ncol k h hncol hk => ?_⟩
  exact (reducing_mergeLoop h ncol (by omega) (by omega)).1.mergeReady

end Sys2Proof.Machine
end

section
/-! The palette of a reduction (42_quantizer.md R261 to R263): not empty, of at most NCOL entries since the walk meets only
live bins, and with no more bins than NCOL the averages of all of them in order. -/

namespace Sys2Proof.Machine

/-! ## The walk of a linked list -/

section Walk
variable (q : QCfg) (alpha : Bool)

theorem Reranked.refl (ar : Arena) : Reranked ar ar := ⟨rfl, fun _ => rfl⟩

theorem Reranked.trans {ar ar' ar'' : Arena} (h : Reranked ar ar') (h' : Reranked ar' ar'') : Reranked ar ar'' where
  length := h'.length.trans h.length
  bin x := by
    have hbin := h'.bin x
    rw [h.bin x] at hbin
    exact hbin

theorem reranked_buildHeap {p : Params} (k : Nat) {j : Nat} {ar : Arena} (hp : List Nat) (hjk : j + k = ar.length) :
    Reranked ar (buildHeap p alpha k j ar hp).1 := by
  induction k generalizing j ar hp with
  | zero => exact .refl ar
  | succ k ih =>
    have hr : Reranked ar (findNN p alpha ar j) := reranked_findNN (by omega)
    exact hr.trans (ih _ (by rw [hr.length]; omega))

/-- The colours of a walk are read from fields that a search does not write. -/
theorem Reranked.walk_colors {ar ar' : Arena} (h : Reranked ar ar') (k x : Nat) :
    (walkList ar' k x).map (extractColor q alpha) = (walkList ar k x).map (extractColor q alpha) := by
  induction k generalizing x with
  | zero => rfl
  | succ k ih =>
    have hcolor : extractColor q alpha (arenaAt ar' x) = extractColor q alpha (arenaAt ar x) := by
      rw [h.bin x]
      rfl
    rw [walkList, walkList, List.map_cons, List.map_cons, hcolor, h.fw x]
    split
    · rfl
    · rw [ih]

/-- The walk of a list as linked meets every bin in order. -/
theorem walkList_linkFrom {l : Arena} (k : Nat) {x : Nat} (hx : x < l.length) (hk : l.length - x ≤ k) :
    (walkList (linkFrom 0 l) k x).map (extractColor q alpha) = (l.drop x).map (extractColor q alpha) := by
  induction k generalizing x with
  | zero => omega
  | succ k ih =>
    have hat : arenaAt l x = l[x] := List.getD_eq_getElem _ _ hx
    have hcolor : extractColor q alpha (arenaAt (linkFrom 0 l) x) = extractColor q alpha l[x] := by
      rw [arenaAt_linkFrom hx, hat]
      rfl
    have hfw : (arenaAt (linkFrom 0 l) x).fw = if x + 1 < l.length then x + 1 else 0 := by rw [arenaAt_linkFrom hx]
    rw [walkList, List.drop_eq_getElem_cons hx, List.map_cons, List.map_cons, hcolor, hfw]
    split
    · next hnext => rw [if_neg (by omega), ih hnext (by omega)]
    · next hlast => rw [if_pos rfl, List.drop_eq_nil_of_le (by omega)]

theorem map_extractColor_dampen (p : Params) (ncol : Nat) (ar : Arena) :
    (dampen p ncol ar).map (extractColor q alpha) = ar.map (extractColor q alpha) := by
  rw [dampen]
  split
  · rw [List.map_map]
    rfl
  · rfl

end Walk

/-! ## The palette -/

section Palette
variable {s : State} (h : s.histOk) {ncol : Nat}
include h

theorem mergeStart_length_eq (ncol : Nat) : (mergeStart s.params s.histFmt s.hist ncol).1.length = s.hist.length := by
  rw [mergeStart_length, compactBins_eq h, List.length_map]

theorem reducePalette_ne_nil (hne : s.hist ≠ []) (ncol : Nat) :
    reducePalette s.params s.qcfg s.histFmt s.hist ncol ≠ [] := by
  have hlen := mergeStart_length_eq h ncol
  obtain ⟨n, hn⟩ := Nat.exists_eq_succ_of_ne_zero (List.length_pos_of_ne_nil hne).ne'
  rw [reducePalette]
  rw [extractPalette, mergeLoop_length, hlen, hn]
  exact List.cons_ne_nil _ _

/-- Past its merges the walk meets at most NCOL bins. -/
theorem reducePalette_length_le_ncol (hncol : 1 ≤ ncol) :
    (reducePalette s.params s.qcfg s.histFmt s.hist ncol).length ≤ ncol := by
  obtain hfew | hmany := Nat.lt_or_ge ncol s.hist.length
  · obtain ⟨hdone, hcard⟩ := reducing_mergeLoop h ncol (k := s.hist.length - ncol) (by omega) (by omega)
    have hwalk := hdone.arena.linked.walkList_length_le s.hist.length hdone.arena.linked.head
    rw [reducePalette, mergeStart_length_eq h]
    rw [extractPalette, mergeLoop_length, mergeStart_length_eq h]
    refine (dedupFrom_length_le _ _).trans ?_
    rw [List.length_map]
    exact hwalk.trans ((Finset.card_filter_le _ _).trans (by omega))
  · exact (reducePalette_length_le _ _ _ _ _).trans hmany

/-- Without merges every bin is extracted in order. -/
theorem reducePalette_of_few (hne : s.hist ≠ []) (hfew : s.hist.length ≤ ncol) :
    reducePalette s.params s.qcfg s.histFmt s.hist ncol = dedupFrom [] (s.hist.map fun c =>
      extractColor s.qcfg (hasAlpha s.histFmt) (compactBin (hasAlpha s.histFmt) c.2)) := by
  have hlen := dampen_compactBins_length h ncol
  have hpos := List.length_pos_of_ne_nil hne
  have hr := reranked_buildHeap (p := s.params) (hasAlpha s.histFmt)
    (linkFrom 0 (dampen s.params ncol (compactBins s.histFmt s.hist))).length [] (Nat.zero_add _)
  rw [reducePalette, mergeStart_length_eq h, Nat.sub_eq_zero_of_le hfew]
  rw [extractPalette, mergeLoop, mergeStart_length_eq h, mergeStart, hr.walk_colors,
    walkList_linkFrom _ _ _ (by omega) (by omega), List.drop_zero, map_extractColor_dampen, compactBins_eq h,
    List.map_map]
  rfl

end Palette

/-- Settles O28: the merges leave NCOL live bins, and the walk meets no others. -/
theorem fewBinsNeedNoMerge : Obligations.FewBinsNeedNoMerge :=
  fun _ _ h hne hncol => ⟨List.length_pos_of_ne_nil (reducePalette_ne_nil h hne _), reducePalette_length_le_ncol h hncol,
    reducePalette_length_le _ _ _ _ _, reducePalette_of_few h hne⟩

end Sys2Proof.Machine
end
